-- ==== Sys2Proof/Word.lean ====
section
/-! DEFINITION. The words of the UF3420 (00_scope, Conventions): bytes, 16-bit fields, 32-bit counters, channel numbers, table numbers and pixels. -/

namespace Sys2Proof

/-- One byte; bit 0 is the least significant bit. -/
abbrev Byte := BitVec 8

/-- A 16-bit field: a frame number N, a line number, the extra field of a reply. -/
abbrev Half := BitVec 16

/-- A 32-bit field: the output frame counter F, a CRC-32. -/
abbrev Word := BitVec 32

/-- The number of a load channel, 0 to 3. -/
abbrev Channel := Fin 4

/-- The number of a table of the table bank, 0 to 7 (R27). -/
abbrev TableId := Fin 8

/-- One pixel: three channels of 8 bits. -/
structure Pixel where
  r : Byte
  g : Byte
  b : Byte
  deriving DecidableEq, Repr

/-- Black, the power-on colour of the line memory (R118). -/
def Pixel.black : Pixel := ⟨0, 0, 0⟩

/-- The four load channels in ascending order. -/
def allChannels : List Channel := [0, 1, 2, 3]

/-- The eight tables in ascending table id. -/
def allTables : List TableId := [0, 1, 2, 3, 4, 5, 6, 7]

end Sys2Proof
end

