-- ==== Sys2Proof/Machine/Bytes.lean ====
section
/-! DEFINITION. Byte order (00_scope: every multi-byte field is little-endian), pixels as bytes, and the two check codes CRC-16 (R184) and CRC-32 (R158). -/

namespace Sys2Proof

/-- The 16-bit field whose bytes are `lo` then `hi`. -/
def half (lo hi : Byte) : Half := hi ++ lo

/-- The two bytes of a 16-bit field, low byte first. -/
def halfBytes (h : Half) : List Byte := [h.extractLsb' 0 8, h.extractLsb' 8 8]

/-- The 32-bit field whose bytes are `b0` to `b3`, low byte first. -/
def word (b0 b1 b2 b3 : Byte) : Word := b3 ++ b2 ++ b1 ++ b0

/-- The four bytes of a 32-bit field, low byte first. -/
def wordBytes (w : Word) : List Byte :=
  [w.extractLsb' 0 8, w.extractLsb' 8 8, w.extractLsb' 16 8, w.extractLsb' 24 8]

/-- The bytes of a pixel, R then G then B (R158, R184). -/
def Pixel.bytes (p : Pixel) : List Byte := [p.r, p.g, p.b]

/-- The bytes of a run of pixels, in ascending column order (R184). -/
def pixelBytes (ps : List Pixel) : List Byte := ps.flatMap Pixel.bytes

/-- The pixels of a run of bytes, three bytes each; none when a pixel is cut. -/
def pixelsOf : List Byte → Option (List Pixel)
  | [] => some []
  | r :: g :: b :: rest => (pixelsOf rest).map (⟨r, g, b⟩ :: ·)
  | _ => none

/-- One bit of CRC-16: shift left, and XOR 1021h when the bit shifted out was 1 (R184). -/
def crc16Bit (reg : Half) : Half :=
  if reg.msb then (reg <<< 1) ^^^ 0x1021#16 else reg <<< 1

/-- One byte of CRC-16: XOR into the high eight bits, then eight bits (R184). -/
def crc16Byte (reg : Half) (b : Byte) : Half :=
  crc16Bit (crc16Bit (crc16Bit (crc16Bit (crc16Bit (crc16Bit (crc16Bit (crc16Bit (reg ^^^ (b ++ 0#8)))))))))

/-- CRC-16 of a run of bytes: initial value FFFFh, no final complement (R184). -/
def crc16 (bs : List Byte) : Half := bs.foldl crc16Byte 0xFFFF#16

/-- One bit of CRC-32: shift right, and XOR EDB88320h when the bit shifted out was 1 (R158). -/
def crc32Bit (reg : Word) : Word :=
  if reg.getLsbD 0 then (reg >>> 1) ^^^ 0xEDB88320#32 else reg >>> 1

/-- One byte of CRC-32: XOR into the low eight bits, then eight bits (R158). -/
def crc32Byte (reg : Word) (b : Byte) : Word :=
  crc32Bit (crc32Bit (crc32Bit (crc32Bit (crc32Bit (crc32Bit (crc32Bit (crc32Bit (reg ^^^ b.setWidth 32))))))))

/-- The initial value of the CRC-32 register (R158). -/
def crc32Init : Word := 0xFFFFFFFF#32

/-- The CRC-32 register after a further run of bytes. -/
def crc32Run (reg : Word) (bs : List Byte) : Word := bs.foldl crc32Byte reg

/-- The CRC-32 a register stands for: its complement (R158). -/
def crc32Final (reg : Word) : Word := ~~~reg

end Sys2Proof
end

