-- ==== Sys2Proof/Syntax.lean ====
section
/-! DEFINITION. The commands of the UF3420: one constructor for each row of spec/opcode_table.json. The operands are the model's choice, since the table gives none (assumption log 12). -/

namespace Sys2Proof

/-- A command: a packet taken on link-in, an event of the part's own (a timer, the framer, the transmitter, the
fill), or an event on the pin RESETN. Each is one whole and indivisible step (spec/95). In the CONTROL requests
`seq` is the sequence bit and `payload` the payload bytes as received (R184, R185). -/
inductive Instr where
  /-- IDLE (R117). -/
  | idle
  /-- PACKET_DISCARD (R116): a packet that fails the check, with its kind code as received. -/
  | packetDiscard (code : Byte)
  /-- FRAME_START (R123), with its frame number. -/
  | frameStart (n : Half)
  /-- LINE (R124), with its line number and pixels; the pixel count is their number. -/
  | line (number : Half) (pixels : List Pixel)
  /-- FRAME_END (R128), with its frame number, line count and flags byte. -/
  | frameEnd (n : Half) (count : Half) (flags : Byte)
  /-- LOSS_TIMER_EXPIRY (R122). -/
  | lossTimerExpiry
  /-- FALLBACK_TIMER_EXPIRY (R145). -/
  | fallbackTimerExpiry
  /-- OUTPUT_FRAME_START (R140). `first` and `mid` are the channels that take the start before the table bank, and
  between the table bank and the stream tracker (R190; assumption log 3). -/
  | outputFrameStart (first mid : List Channel)
  /-- CHANNEL_TIMEOUT (R96). -/
  | channelTimeout (ch : Channel)
  /-- EMIT_LINE (R139). -/
  | emitLine
  /-- OPEN (R86): every OPEN packet but those of `openFill`. -/
  | openReq (ch : Channel) (seq : Bool) (payload : List Byte)
  /-- OPEN_FILL (R64): an OPEN packet on the store in mode FILL. -/
  | openFill (ch : Channel) (seq : Bool) (payload : List Byte)
  /-- DATA (R88). -/
  | data (ch : Channel) (seq : Bool) (payload : List Byte)
  /-- CLOSE (R91). -/
  | close (ch : Channel) (seq : Bool) (payload : List Byte)
  /-- ABORT (R93). -/
  | abort (ch : Channel) (seq : Bool) (payload : List Byte)
  /-- COMMIT (R41). -/
  | commit (ch : Channel) (seq : Bool) (payload : List Byte)
  /-- CANCEL (R49). -/
  | cancel (ch : Channel) (seq : Bool) (payload : List Byte)
  /-- REVERT (R50). -/
  | revert (ch : Channel) (seq : Bool) (payload : List Byte)
  /-- READ (R102). -/
  | read (ch : Channel) (seq : Bool) (payload : List Byte)
  /-- STATUS (R105). -/
  | status (ch : Channel) (seq : Bool) (payload : List Byte)
  /-- SET_PARAM (R108). -/
  | setParam (ch : Channel) (seq : Bool) (payload : List Byte)
  /-- RESET_CHANNELS (R112): every RESET packet but those of `resetState`. -/
  | resetChannels (ch : Channel) (seq : Bool) (payload : List Byte)
  /-- RESET_STATE (R113): a RESET packet whose payload is the one byte of scope STATE. -/
  | resetState (ch : Channel) (seq : Bool) (payload : List Byte)
  /-- UNKNOWN_REQUEST (R98), with its request kind code as received. -/
  | unknownRequest (ch : Channel) (seq : Bool) (kind : Byte) (payload : List Byte)
  /-- FILL_STEP (R65). -/
  | fillStep
  /-- FILL_COMPLETION (R67). -/
  | fillCompletion
  /-- MESSAGE_COMPLETION (R177). -/
  | messageCompletion
  /-- POWER_ON_RESET (R189): a low pulse on RESETN, with its length in microseconds. -/
  | powerOnReset (pulse : Nat)
  /-- RESETN_RELEASE (R189). -/
  | resetnRelease
  /-- LEAVE_RESET (R152, R189). -/
  | leaveReset
  deriving DecidableEq, Repr

end Sys2Proof
end

