-- ==== Sys2Proof/WellFormed.lean ====
section
/-! DEFINITION. Which commands link-in and the part can produce: the limits of R184 on counts and lengths, the split of the OPEN and RESET packets over their two rows, and the operands of OUTPUT_FRAME_START. Every command has a meaning, well-formed or not; a packet received on link-in is always well-formed. -/

namespace Sys2Proof

/-- An OPEN parameter block naming the store (8) in mode FILL (2) (R85, R185). -/
def isFillBlock : List Byte → Bool
  | [target, _, _, _, _, mode, _, _, _, _] => target == 8 && mode == 2
  | _ => false

/-- A CONTROL payload holds at most 256 bytes (R116). -/
def payloadFits (payload : List Byte) : Bool := payload.length ≤ 256

/-- The request kind code is none of the eleven known ones (R98, R185). -/
def kindUnknown (kind : Byte) : Bool := kind == 0 || 0x0C ≤ kind

/-- The well-formed commands. -/
def Instr.wf : Instr → Bool
  | .idle => true
  | .packetDiscard _ => true
  | .frameStart _ => true
  | .line _ pixels => pixels.length < 65536
  | .frameEnd _ _ _ => true
  | .lossTimerExpiry => true
  | .fallbackTimerExpiry => true
  | .outputFrameStart first mid => (first ++ mid).Nodup
  | .channelTimeout _ => true
  | .emitLine => true
  | .openReq _ _ payload => payloadFits payload && !isFillBlock payload
  | .openFill _ _ payload => isFillBlock payload
  | .data _ _ payload => payloadFits payload
  | .close _ _ payload => payloadFits payload
  | .abort _ _ payload => payloadFits payload
  | .commit _ _ payload => payloadFits payload
  | .cancel _ _ payload => payloadFits payload
  | .revert _ _ payload => payloadFits payload
  | .read _ _ payload => payloadFits payload
  | .status _ _ payload => payloadFits payload
  | .setParam _ _ payload => payloadFits payload
  | .resetChannels _ _ payload => payloadFits payload && payload != [1]
  | .resetState _ _ payload => payload == [1]
  | .unknownRequest _ _ kind payload => kindUnknown kind && payloadFits payload
  | .fillStep => true
  | .fillCompletion => true
  | .messageCompletion => true
  | .powerOnReset _ => true
  | .resetnRelease => true
  | .leaveReset => true

end Sys2Proof
end

