-- ==== Sys2Proof/Decode.lean ====
section
/-! DEFINITION. decodeTableWord (no row of the table gives bits), and link-in in bytes: receive checks a delimited packet (R116) and turns it into the command it is (R184, R185); packetOf writes the packet of a command. -/

namespace Sys2Proof

/-- The command a word spells by the opcode table's bits: the table gives bits for no row. -/
def decodeTableWord (_nbits _w : Nat) : Option Instr := none

/-- The channel in bits 0 and 1 of the channel-and-sequence byte; bits 3 to 7 are not examined (R184). -/
def channelOf (b : Byte) : Channel := ⟨(b.extractLsb' 0 2).toNat, (b.extractLsb' 0 2).isLt⟩

/-- The sequence bit, bit 2 of the channel-and-sequence byte (R184). -/
def seqOf (b : Byte) : Bool := b.getLsbD 2

/-- The channel-and-sequence byte as the part sends it (R186), bits 3 to 7 zero. -/
def channelSeqByte (ch : Channel) (seq : Bool) : Byte :=
  BitVec.ofNat 8 (ch.val + if seq then 4 else 0)

/-- A good CONTROL packet's command, by its request kind (R185). An OPEN or RESET packet goes to the row it belongs
to. -/
def controlCommand (ch : Channel) (seq : Bool) (kind : Byte) (payload : List Byte) : Instr :=
  if kind = 0x01#8 then (if isFillBlock payload then .openFill ch seq payload else .openReq ch seq payload)
  else if kind = 0x02#8 then .data ch seq payload
  else if kind = 0x03#8 then .close ch seq payload
  else if kind = 0x04#8 then .abort ch seq payload
  else if kind = 0x05#8 then .commit ch seq payload
  else if kind = 0x06#8 then .cancel ch seq payload
  else if kind = 0x07#8 then .revert ch seq payload
  else if kind = 0x08#8 then .read ch seq payload
  else if kind = 0x09#8 then .status ch seq payload
  else if kind = 0x0A#8 then .setParam ch seq payload
  else if kind = 0x0B#8 then (if payload = [1] then .resetState ch seq payload else .resetChannels ch seq payload)
  else .unknownRequest ch seq kind payload

/-- The fields after the kind byte (R184): none when the length differs from the one the kind and fields give, when a
CONTROL payload length is above 256, or when the kind is none of the five. -/
def commandOfBody : List Byte → Option Instr
  | [] => none
  | code :: fields =>
    if code = 0x00#8 then (if fields = [] then some .idle else none)
    else if code = 0x01#8 then
      match fields with
      | [n0, n1] => some (.frameStart (half n0 n1))
      | _ => none
    else if code = 0x02#8 then
      match fields with
      | l0 :: l1 :: c0 :: c1 :: rest =>
        match pixelsOf rest with
        | some pixels => if pixels.length = (half c0 c1).toNat then some (.line (half l0 l1) pixels) else none
        | none => none
      | _ => none
    else if code = 0x03#8 then
      match fields with
      | [n0, n1, c0, c1, flags] => some (.frameEnd (half n0 n1) (half c0 c1) flags)
      | _ => none
    else if code = 0x04#8 then
      match fields with
      | cs :: kind :: p0 :: p1 :: payload =>
        if payload.length = (half p0 p1).toNat ∧ payload.length ≤ 256
        then some (controlCommand (channelOf cs) (seqOf cs) kind payload) else none
      | _ => none
    else none

/-- The command a delimited link-in packet is (R116): PACKET_DISCARD when its CRC-16 differs or its kind or length is
wrong. A packet with no kind byte is reported as UNKNOWN (assumption log 12). -/
def receive (packet : List Byte) : Instr :=
  let body := packet.take (packet.length - 2)
  let failed := Instr.packetDiscard (packet.headD 0xFF#8)
  if packet.drop (packet.length - 2) = halfBytes (crc16 body) then (commandOfBody body).getD failed else failed

/-- A packet's bytes: its body, then the CRC-16 of the body (R184). -/
def sealPacket (body : List Byte) : List Byte := body ++ halfBytes (crc16 body)

/-- The body of a CONTROL packet (R184). -/
def controlBody (ch : Channel) (seq : Bool) (kind : Byte) (payload : List Byte) : List Byte :=
  0x04#8 :: channelSeqByte ch seq :: kind :: halfBytes (BitVec.ofNat 16 payload.length) ++ payload

/-- The body of the packet that carries a command on link-in (R184, R185); none for the commands that are no packet,
or no good one. -/
def bodyOf : Instr → Option (List Byte)
  | .idle => some [0x00]
  | .frameStart n => some (0x01 :: halfBytes n)
  | .line number pixels =>
    some (0x02 :: halfBytes number ++ halfBytes (BitVec.ofNat 16 pixels.length) ++ pixelBytes pixels)
  | .frameEnd n count flags => some (0x03 :: halfBytes n ++ halfBytes count ++ [flags])
  | .openReq ch seq payload => some (controlBody ch seq 0x01 payload)
  | .openFill ch seq payload => some (controlBody ch seq 0x01 payload)
  | .data ch seq payload => some (controlBody ch seq 0x02 payload)
  | .close ch seq payload => some (controlBody ch seq 0x03 payload)
  | .abort ch seq payload => some (controlBody ch seq 0x04 payload)
  | .commit ch seq payload => some (controlBody ch seq 0x05 payload)
  | .cancel ch seq payload => some (controlBody ch seq 0x06 payload)
  | .revert ch seq payload => some (controlBody ch seq 0x07 payload)
  | .read ch seq payload => some (controlBody ch seq 0x08 payload)
  | .status ch seq payload => some (controlBody ch seq 0x09 payload)
  | .setParam ch seq payload => some (controlBody ch seq 0x0A payload)
  | .resetChannels ch seq payload => some (controlBody ch seq 0x0B payload)
  | .resetState ch seq payload => some (controlBody ch seq 0x0B payload)
  | .unknownRequest ch seq kind payload => some (controlBody ch seq kind payload)
  | .packetDiscard _ => none
  | .lossTimerExpiry => none
  | .fallbackTimerExpiry => none
  | .outputFrameStart _ _ => none
  | .channelTimeout _ => none
  | .emitLine => none
  | .fillStep => none
  | .fillCompletion => none
  | .messageCompletion => none
  | .powerOnReset _ => none
  | .resetnRelease => none
  | .leaveReset => none

/-- The bytes of the packet that carries a command on link-in. -/
def packetOf (c : Instr) : Option (List Byte) := (bodyOf c).map sealPacket

end Sys2Proof
end

