-- ==== Sys2Proof/Config.lean ====
section
/-! DEFINITION. What is fixed for the part, and the free values: constants with no body, for the values the spec leaves open. -/

namespace Sys2Proof.Config

/-- Free value (R10; assumption log 5): for the n-th line emitted with more than one possible store content, a layer
and a column, which of the store contents seen while the line was in hand the fetch finds. -/
opaque fetchMoment : Nat → Nat → Nat → Nat

/-- Free value (R10; assumption log 5): which of the store contents seen while a line was in hand is the last that a fetch
of the n-th line emitted can find. The lines after it are composed after it. -/
opaque lineComposed : Nat → Nat

/-- Free value (R189; assumption log 9): whether the n-th RESETN pulse shorter than 10 us applies power-on reset. -/
opaque shortPulseApplies : Nat → Bool

/-- Free value (R35, R50; assumption log 10): the extra field of the n-th reply whose extra the spec does not state. -/
opaque unstatedExtra : Nat → Half

/-- The model's unit of time is 0.2 us (assumption log 7): ticks in one microsecond. -/
def ticksPerMicrosecond : Nat := 5

/-- The byte time of the return lane, 0.8 us (R177), in ticks. -/
def ticksPerLaneByte : Nat := 4

/-- The shortest RESETN pulse that is sure to reset, in microseconds (R189). -/
def resetPulse : Nat := 10

/-- The part leaves reset no later than this after RESETN goes high, in microseconds (R189). -/
def leaveResetBound : Nat := 1000

end Sys2Proof.Config
end

