-- ==== Sys2Proof/Machine/State.lean ====
section
/-! DEFINITION. The state of the UF3420: one structure per block (00_scope, block overview), every field plain data, the power-on values, and the named updates. -/

namespace Sys2Proof.Machine

/-- Sparse bytes by address: addresses strictly rising, no entry equal to what an unlisted address reads as. -/
abbrev Memory := List Host.Cell

/-! ## Return queue and transmitter (chapter 9) -/

/-- The reply codes (R186). -/
inductive ReplyCode where
  | ok | busy | pending | range | invalid | state | overrun | underrun | incomplete | late | rejected | abandoned
  deriving DecidableEq, Repr

/-- A reply record (R75): the request kind is the kind code as received. -/
structure Reply where
  seq : Bool
  kind : Byte
  code : ReplyCode
  extra : Half
  data : List Byte
  deriving DecidableEq, Repr

/-- The eleven event kinds (R179). -/
inductive EventKind where
  | committed | commitMissed | streamLocked | streamLost | frameFault | packetIntegrity | channelTimeout
  | channelAbandoned | fillDone | checkFail | checkPass
  deriving DecidableEq, Repr

/-- An event entry (R169). -/
structure EventEntry where
  kind : EventKind
  arg : Byte
  count : Nat
  first : Half
  last : Half
  deriving DecidableEq, Repr

/-- A waiting entry of the return queue (R169). -/
inductive Entry where
  | reply (ch : Channel) (r : Reply)
  | event (e : EventEntry)
  deriving DecidableEq, Repr

/-- A message on the return lane (R176): a REPLY, or an EVENT with its lost value. -/
inductive Message where
  | reply (ch : Channel) (r : Reply)
  | event (e : EventEntry) (lost : Nat)
  deriving DecidableEq, Repr

/-- The return queue and transmitter (R169). The lane is BUSY exactly while a message is in flight. `laneTicks` is
the time the message has been on the lane (assumption log 7); `sent` the messages completed, oldest first (log 11). -/
structure Rtq where
  entries : List Entry
  inFlight : Option Message
  lost : Nat
  lostInFlight : Nat
  laneTicks : Nat
  sent : List Message
  deriving DecidableEq, Repr

/-! ## Load channels (chapter 4) -/

/-- The channel states (R73). -/
inductive ChannelState where
  | idle | opened | filling | abandoned
  deriving DecidableEq, Repr

/-- The merge ops (R59, R185). -/
inductive MergeOp where
  | and | or | xor
  deriving DecidableEq, Repr

/-- How a DATA byte meets its store byte: PLANAR replaces it, MERGE combines it under an op and a mask (R60, R62). -/
inductive StoreMode where
  | planar
  | merge (op : MergeOp) (mask : Byte)
  deriving DecidableEq, Repr

/-- The target of a load (R72). -/
inductive Target where
  | table (t : TableId) (offset : Nat)
  | store (planes : BitVec 4) (start : Nat) (mode : StoreMode)
  | fill
  deriving DecidableEq, Repr

/-- A channel context (R72). -/
structure ChannelContext where
  state : ChannelState
  expected : Bool
  target : Option Target
  declared : Nat
  remaining : Nat
  errors : Nat
  idleFrames : Nat
  last : Reply
  deriving DecidableEq, Repr

/-! ## Table bank (chapter 2) -/

/-- The shadow states (R29); LOADING keeps the holding channel. `partialLoad` is PARTIAL. -/
inductive ShadowState where
  | clean
  | loading (ch : Channel)
  | loaded
  | partialLoad
  | armed
  deriving DecidableEq, Repr

/-- When an armed commit applies (R34). -/
inductive Timing where
  | next
  | atFrame (target : Half)
  deriving DecidableEq, Repr

/-- An armed commit (R34). Bit i of the mask names table i. -/
structure Commit where
  mask : Byte
  timing : Timing
  tag : Byte
  deriving DecidableEq, Repr

/-- The table bank: the two copies of the eight tables, their shadow states and the commit record (R27 to R34). -/
structure Bank where
  shadow : Vector Memory 8
  active : Vector Memory 8
  states : Vector ShadowState 8
  record : Option Commit
  deriving DecidableEq, Repr

/-! ## Overlay store (chapter 3) -/

/-- The fill record (R64). `colour` gives the fill byte of each plane: FFh where its bit is set, else 00h. `ticks` is
the time since the fill started (R66; assumption log 7). -/
structure FillRecord where
  channel : Channel
  planes : BitVec 4
  start : Nat
  span : Nat
  colour : BitVec 4
  progress : Nat
  ticks : Nat
  deriving DecidableEq, Repr

/-- The overlay store: the four planes, byte (plane, address) at 65,536 x plane + address, and the fill record. The
write port is HELD, by the fill's channel, exactly while there is a fill record (R56, R64). -/
structure Store where
  cells : Memory
  fill : Option FillRecord
  deriving DecidableEq, Repr

/-! ## Stream tracker (chapter 6) -/

/-- The tracker states. -/
inductive TrackerState where
  | search | locking | locked
  deriving DecidableEq, Repr

/-- The frame phases (R118). -/
inductive FramePhase where
  | noFrame | receiving | complete
  deriving DecidableEq, Repr

/-- A frame packet of link-in (R117). -/
inductive FramePacket where
  | start (n : Half)
  | line (number : Half) (pixels : List Pixel)
  | ending (n : Half) (count : Half) (flags : Byte)
  deriving DecidableEq, Repr

/-- The stream tracker (R118). `lossTimer` is the elapsed time in ticks, or none while stopped; `expiryDue` holds while an
expiry is to be taken at once, the loss time having been lowered to the elapsed time or below (R122); `waiting` the frame
packets that wait for an output frame start (R123). -/
structure Tracker where
  state : TrackerState
  phase : FramePhase
  expected : Nat
  conforming : Nat
  faultyFrames : Nat
  frameFaulty : Bool
  lossTimer : Option Nat
  expiryDue : Bool
  upstreamN : Half
  lineMemory : List Pixel
  waiting : List FramePacket
  deriving DecidableEq, Repr

/-! ## Control decoder (chapter 5) -/

/-- The six operating parameters (R107). -/
structure Params where
  channelTimeout : Nat
  abandonLimit : Nat
  lossMultiple : Nat
  lockCount : Nat
  faultLimit : Nat
  eventMask : BitVec 11
  deriving DecidableEq, Repr

/-! ## Layer compositor and output framer (chapters 1 and 7) -/

/-- The two frame types, which are also the two output modes. -/
inductive FrameType where
  | pass | fallback
  deriving DecidableEq, Repr

/-- A rectangle clipped to a frame: columns `x0` to `x1` - 1 of lines `y0` to `y1` - 1. -/
structure Clip where
  x0 : Nat
  x1 : Nat
  y0 : Nat
  y1 : Nat
  deriving DecidableEq, Repr

/-- A layer that takes part in a frame, with its clipped rectangle (R3). -/
structure PlannedLayer where
  index : Nat
  clip : Clip
  deriving DecidableEq, Repr

/-- The frame plan (R3): the layers that take part, in ascending index. -/
structure FramePlan where
  type : FrameType
  f : Word
  width : Nat
  height : Nat
  background : Pixel
  layers : List PlannedLayer
  deriving DecidableEq, Repr

/-- The kind of a line the tracker hands over (R1). -/
inductive LineKind where
  | forwarded | substitute
  deriving DecidableEq, Repr

/-- A line handed over by the tracker and not yet emitted. `moments` are the store contents since the handover, oldest
first, but for those that lie before the composition of the line before it: each fetch for the line finds one of them
(R10; assumption log 5). -/
structure HandedLine where
  number : Nat
  kind : LineKind
  pixels : List Pixel
  moments : List Memory
  deriving DecidableEq, Repr

/-- The output frame in progress (R138). -/
structure OutputFrame where
  type : FrameType
  n : Half
  f : Word
  height : Nat
  lines : Nat
  deriving DecidableEq, Repr

/-- The running fallback frame timer (R145): elapsed ticks, and the T in microseconds taken at the start it times. -/
structure FallbackTimer where
  ticks : Nat
  period : Nat
  deriving DecidableEq, Repr

/-- The case that brings an output frame start (R140, R142). -/
inductive StartCause where
  /-- The part leaves reset (R152). -/
  | leaveReset
  /-- The tracker opened an upstream frame under lock (R143, R149). -/
  | upstream
  /-- The fallback frame timer expired (R145). -/
  | timer
  /-- The framer enters FALLBACK mode (R147). -/
  | entry
  /-- The framer enters FALLBACK mode (R147), and behind that start waits the start of an upstream frame opened under a new
  lock (R123, R149; assumption log 14). -/
  | entryThenUpstream
  deriving DecidableEq, Repr

/-- A packet on link-out (R139). -/
inductive LinkPacket where
  | idle
  | frameStart (n : Half)
  | line (number : Nat) (pixels : List Pixel)
  | frameEnd (n : Half) (count : Nat) (truncated : Bool)
  deriving DecidableEq, Repr

/-- The output framer (R138), with the lines in hand. `due` is an output frame start that has been brought about and
not yet taken; `building` the store contents the next background line may be fetched from (assumption log 5);
`linkOut` the packets emitted, oldest first (log 11). -/
structure Framer where
  mode : FrameType
  firstFrame : Bool
  f : Word
  n : Half
  frame : Option OutputFrame
  timer : Option FallbackTimer
  switchBack : Bool
  due : Option StartCause
  handed : List HandedLine
  building : List Memory
  linkOut : List LinkPacket
  deriving DecidableEq, Repr

/-! ## Region checker (chapter 8) -/

/-- The check statuses (R155). -/
inductive CheckStatus where
  | off | learning | passing | failing
  deriving DecidableEq, Repr

/-- A check's runtime record (R155). -/
structure CheckRecord where
  status : CheckStatus
  mismatches : Nat
  learnedAFlag : Bool
  learnedBFlag : Bool
  observed : Word
  learnedA : Word
  learnedB : Word
  deriving DecidableEq, Repr

/-- The expected value a frame is compared with (R157). -/
inductive Selection where
  | a | b
  deriving DecidableEq, Repr

/-- A planned check of a frame (R156): clipped rectangle, selection, CRC register. -/
structure CheckPlan where
  clip : Clip
  selection : Selection
  crc : Word
  deriving DecidableEq, Repr

/-- The region checker (R155, R156, R164). `pin` is FAULT, true while asserted; `pinLog` the levels it has taken on,
oldest first (assumption log 11). -/
structure Checker where
  records : Vector CheckRecord 8
  plans : Vector (Option CheckPlan) 8
  pin : Bool
  pinLog : List Bool
  deriving DecidableEq, Repr

/-! ## The part -/

/-- The phases of power-on reset (R189): RESETN low; RESETN released and the part not yet out of reset, with the ticks
since the release; running. -/
inductive Power where
  | held
  | clearing (ticks : Nat)
  | running
  deriving DecidableEq, Repr

/-- The state of the part. `pending` is the queue of commands, first in first out; `timeoutsDue` the channels whose
CHANNEL_TIMEOUT is still to come at the output frame start just taken (R96; assumption log 2); `free` the counter the
free values are taken with (log 20). -/
structure State where
  pending : List Instr
  power : Power
  tracker : Tracker
  params : Params
  channels : Vector ChannelContext 4
  timeoutsDue : List Channel
  bank : Bank
  store : Store
  framer : Framer
  plan : Option FramePlan
  checker : Checker
  rtq : Rtq
  free : Nat
  deriving DecidableEq, Repr

/-- The reasons a step can stop with a fault: none. Every condition the part can meet has a reply, an event, a discard
or no effect (R24, R53, R98). -/
inductive Fault where
  deriving DecidableEq, Repr

/-- The reasons the model can refuse a command. -/
inductive Refusal where
  /-- Raised by `exec` alone, for a command with no meaning yet; safe. No arm raises it. -/
  | notModelled (mnemonic : String)
  deriving DecidableEq, Repr

/-! ## Power-on values -/

/-- The power-on last reply of a channel (R72): bit 1, kind NONE, code STATE. -/
def Reply.powerOn : Reply := ⟨true, 0, .state, 0, []⟩

/-- The power-on channel context (R72). -/
def ChannelContext.powerOn : ChannelContext := ⟨.idle, false, none, 0, 0, 0, 0, .powerOn⟩

/-- The default operating parameters (R107). -/
def Params.default : Params := ⟨16, 4, 3, 2, 3, 0x7FF⟩

/-- The power-on table bank (R28): both copies at the power-on contents, which is what unlisted bytes read as. -/
def Bank.powerOn : Bank :=
  ⟨#v[[], [], [], [], [], [], [], []], #v[[], [], [], [], [], [], [], []],
   #v[.clean, .clean, .clean, .clean, .clean, .clean, .clean, .clean], none⟩

/-- The power-on overlay store (R54, R71). -/
def Store.powerOn : Store := ⟨[], none⟩

/-- The positions of the line memory (R118). -/
def lineMemorySize : Nat := 2048

/-- The power-on stream tracker (R118). -/
def Tracker.powerOn : Tracker :=
  ⟨.search, .noFrame, 0, 0, 0, false, none, false, 0, List.replicate lineMemorySize .black, []⟩

/-- The power-on output framer (R138). -/
def Framer.powerOn : Framer := ⟨.fallback, true, 0, 0, none, none, false, none, [], [], []⟩

/-- The power-on runtime record of a check (R155). -/
def CheckRecord.powerOn : CheckRecord := ⟨.off, 0, false, false, 0, 0, 0⟩

/-- The power-on region checker (R155, R166). -/
def Checker.powerOn : Checker :=
  ⟨#v[.powerOn, .powerOn, .powerOn, .powerOn, .powerOn, .powerOn, .powerOn, .powerOn],
   #v[none, none, none, none, none, none, none, none], false, []⟩

/-- The power-on return queue (R169). -/
def Rtq.powerOn : Rtq := ⟨[], none, 0, 0, 0, []⟩

/-- Every block at its power-on values, with nothing due and the reset phase as given. -/
def State.powerOn (power : Power) : State :=
  { pending := [], power := power, tracker := .powerOn, params := .default,
    channels := #v[.powerOn, .powerOn, .powerOn, .powerOn], timeoutsDue := [], bank := .powerOn,
    store := .powerOn, framer := .powerOn, plan := none, checker := .powerOn, rtq := .powerOn, free := 0 }

/-- The machine right after reset (R152; assumption log 8): every block at its power-on values, the part leaving
reset, its first output frame start due. -/
def State.reset : State :=
  { State.powerOn .running with framer := { Framer.powerOn with due := some .leaveReset } }

/-! ## Named updates -/

/-- Replace the field `pending`. -/
def State.setPending (s : State) (v : List Instr) : State := { s with pending := v }

/-- Replace the field `power`. -/
def State.setPower (s : State) (v : Power) : State := { s with power := v }

/-- Replace the field `tracker`. -/
def State.setTracker (s : State) (v : Tracker) : State := { s with tracker := v }

/-- Replace the field `params`. -/
def State.setParams (s : State) (v : Params) : State := { s with params := v }

/-- Replace the field `channels`. -/
def State.setChannels (s : State) (v : Vector ChannelContext 4) : State := { s with channels := v }

/-- Replace the field `timeoutsDue`. -/
def State.setTimeoutsDue (s : State) (v : List Channel) : State := { s with timeoutsDue := v }

/-- Replace the field `bank`. -/
def State.setBank (s : State) (v : Bank) : State := { s with bank := v }

/-- Replace the field `store`. -/
def State.setStore (s : State) (v : Store) : State := { s with store := v }

/-- Replace the field `framer`. -/
def State.setFramer (s : State) (v : Framer) : State := { s with framer := v }

/-- Replace the field `plan`. -/
def State.setPlan (s : State) (v : Option FramePlan) : State := { s with plan := v }

/-- Replace the field `checker`. -/
def State.setChecker (s : State) (v : Checker) : State := { s with checker := v }

/-- Replace the field `rtq`. -/
def State.setRtq (s : State) (v : Rtq) : State := { s with rtq := v }

/-- Replace the field `free`. -/
def State.setFree (s : State) (v : Nat) : State := { s with free := v }

end Sys2Proof.Machine
end

