-- ==== Sys2Proof/Machine/Memory.lean ====
section
/-! DEFINITION. Memory: sparse bytes in one canonical form over a default (the reset contents), with the one read and the one write, and the addresses of the overlay store and of the tables over it. -/

namespace Sys2Proof.Machine

/-- The byte at address `a`: the listed one, or what an unlisted address reads as. -/
def Memory.read (dflt : Nat → Byte) : Memory → Nat → Byte
  | [], a => dflt a
  | (k, v) :: rest, a => if k = a then v else Memory.read dflt rest a

/-- Write one byte, keeping the addresses rising and no entry equal to its default. -/
def Memory.write (dflt : Nat → Byte) : Memory → Nat → Byte → Memory
  | [], a, v => if v = dflt a then [] else [(a, v)]
  | (k, w) :: rest, a, v =>
    if a < k then (if v = dflt a then (k, w) :: rest else (a, v) :: (k, w) :: rest)
    else if a = k then (if v = dflt a then rest else (a, v) :: rest)
    else (k, w) :: Memory.write dflt rest a v

/-- The addresses are strictly rising. -/
def Memory.sorted : Memory → Bool
  | [] => true
  | (k, _) :: rest => rest.all (fun c => k < c.1) && Memory.sorted rest

/-- The canonical form: addresses strictly rising, and no entry equal to what an unlisted address reads as. -/
def Memory.wf (dflt : Nat → Byte) (m : Memory) : Bool :=
  m.sorted && m.all (fun c => c.2 != dflt c.1)

/-! ## The overlay store -/

/-- The power-on contents of the store: every byte 0 (R54). -/
def storeDefault (_ : Nat) : Byte := 0

/-- Where byte `address` of plane `plane` stands (R54). -/
def storeKey (plane : Fin 4) (address : Half) : Nat := 65536 * plane.val + address.toNat

/-- The store byte at an address of a plane. -/
def storeRead (cells : Memory) (plane : Fin 4) (address : Half) : Byte :=
  cells.read storeDefault (storeKey plane address)

/-- Write one store byte. -/
def storeWrite (cells : Memory) (plane : Fin 4) (address : Half) (v : Byte) : Memory :=
  cells.write storeDefault (storeKey plane address) v

/-! ## The tables (R27, R28) -/

/-- The size of a table in bytes (R27). -/
def tableSize (t : TableId) : Nat :=
  match t with
  | 0 => 320
  | 1 => 1024
  | 2 => 1024
  | 3 => 1024
  | 4 => 1024
  | 5 => 56
  | 6 => 144
  | 7 => 12

/-- The power-on palette: entry e holds R = G = B = e and A = 255 (R28). -/
def paletteDefault (offset : Nat) : Byte :=
  if offset % 4 = 3 then 255 else BitVec.ofNat 8 (offset / 4)

/-- The power-on format record: W 800, H 480, T 16,667, black, BACKGROUND (R28, R187). -/
def formatDefault (offset : Nat) : Byte :=
  match offset with
  | 0 => 0x20
  | 1 => 0x03
  | 2 => 0xE0
  | 3 => 0x01
  | 4 => 0x1B
  | 5 => 0x41
  | _ => 0

/-- The power-on contents of a table (R28), which is what its unlisted bytes read as. -/
def tableDefault (t : TableId) (offset : Nat) : Byte :=
  match t with
  | 0 => 0
  | 1 => paletteDefault offset
  | 2 => paletteDefault offset
  | 3 => paletteDefault offset
  | 4 => paletteDefault offset
  | 5 => 0
  | 6 => 0
  | 7 => formatDefault offset

/-- The byte of a table copy at an offset. -/
def tableRead (copy : Vector Memory 8) (t : TableId) (offset : Nat) : Byte :=
  copy[t].read (tableDefault t) offset

/-- Write one byte of a table copy. A table has no byte past its size; no load reaches there (R85). -/
def tableWrite (copy : Vector Memory 8) (t : TableId) (offset : Nat) (v : Byte) : Vector Memory 8 :=
  if offset < tableSize t then copy.set t (copy[t].write (tableDefault t) offset v) else copy

/-- The copy's bytes from `offset` on, as they stand. -/
def tableBytes (copy : Vector Memory 8) (t : TableId) (offset length : Nat) : List Byte :=
  (List.range length).map (fun i => tableRead copy t (offset + i))

/-- Write a run of bytes into a table copy, in order (R31). -/
def tableWriteRun (copy : Vector Memory 8) (t : TableId) (offset : Nat) : List Byte → Vector Memory 8
  | [] => copy
  | b :: rest => tableWriteRun (tableWrite copy t offset b) t (offset + 1) rest

end Sys2Proof.Machine
end

