-- ==== Sys2Proof/Machine/Operands.lean ====
section
/-! DEFINITION. Operands: the parameter blocks of the requests (R185) and the records of the tables (R187), with the validation of records by a COMMIT (R38 to R40). -/

namespace Sys2Proof.Machine

/-! ## Parameter blocks (R185) -/

/-- The OPEN parameter block. -/
structure OpenBlock where
  target : Byte
  offset : Half
  length : Half
  mode : Byte
  planes : Byte
  mergeOp : Byte
  mask : Byte
  colour : Byte
  deriving DecidableEq, Repr

/-- The OPEN parameter block of a payload; none unless it has its 10 bytes. -/
def openBlock : List Byte → Option OpenBlock
  | [t, o0, o1, l0, l1, mode, planes, op, mask, colour] =>
    some ⟨t, half o0 o1, half l0 l1, mode, planes, op, mask, colour⟩
  | _ => none

/-- The COMMIT parameter block: table mask, timing, target N, tag. -/
structure CommitBlock where
  mask : Byte
  timing : Byte
  target : Half
  tag : Byte
  deriving DecidableEq, Repr

/-- The COMMIT parameter block of a payload of 5 bytes. -/
def commitBlock : List Byte → Option CommitBlock
  | [mask, timing, n0, n1, tag] => some ⟨mask, timing, half n0 n1, tag⟩
  | _ => none

/-- The READ parameter block. -/
structure ReadBlock where
  target : Byte
  selector : Byte
  plane : Byte
  offset : Half
  length : Byte
  deriving DecidableEq, Repr

/-- The READ parameter block of a payload of 6 bytes. -/
def readBlock : List Byte → Option ReadBlock
  | [target, selector, plane, o0, o1, length] => some ⟨target, selector, plane, half o0 o1, length⟩
  | _ => none

/-- The SET_PARAM parameter block of a payload of 3 bytes: parameter id and value. -/
def paramBlock : List Byte → Option (Byte × Half)
  | [id, v0, v1] => some (id, half v0 v1)
  | _ => none

/-- The one-byte parameter block of REVERT (table mask) and RESET (scope). -/
def byteBlock : List Byte → Option Byte
  | [b] => some b
  | _ => none

/-- The merge op of a code (R185). -/
def mergeOpOf (code : Byte) : Option MergeOp :=
  if code = 0 then some .and else if code = 1 then some .or else if code = 2 then some .xor else none

/-- The planes a mask selects, in ascending plane number (R59, R60). -/
def selectedPlanes (mask : BitVec 4) : List (Fin 4) :=
  ([0, 1, 2, 3] : List (Fin 4)).filter (fun k => mask.getLsbD k.val)

/-- The tables a mask names, in ascending table id (R27: bit i names table i). -/
def maskTables (mask : Byte) : List TableId := allTables.filter (fun t => mask.getLsbD t.val)

/-! ## Reading records -/

/-- The 16-bit field at `offset` of a table copy. -/
def tableHalf (copy : Vector Memory 8) (t : TableId) (offset : Nat) : Nat :=
  (half (tableRead copy t offset) (tableRead copy t (offset + 1))).toNat

/-- The 32-bit field at `offset` of a table copy. -/
def tableWord (copy : Vector Memory 8) (t : TableId) (offset : Nat) : Word :=
  word (tableRead copy t offset) (tableRead copy t (offset + 1)) (tableRead copy t (offset + 2))
    (tableRead copy t (offset + 3))

/-- The layer record (R187). -/
structure Layer where
  enable : Bool
  persistent : Bool
  transparent : Option Nat
  key : Option Nat
  op : Nat
  depth : Nat
  palette : Nat
  paletteOffset : Nat
  period : Byte
  blinkOffset : Byte
  alpha : Nat
  x : Nat
  y : Nat
  width : Nat
  height : Nat
  base : Nat
  stride : Nat
  deriving DecidableEq, Repr

/-- Layer record k of a LAYERS copy (R187). -/
def layerRecord (copy : Vector Memory 8) (k : Nat) : Layer :=
  let o := 20 * k
  let b0 := tableRead copy 0 o
  let b1 := tableRead copy 0 (o + 1)
  { enable := b0.getLsbD 0
    persistent := b0.getLsbD 1
    transparent := if b0.getLsbD 2 then some (tableRead copy 0 (o + 2)).toNat else none
    key := if b0.getLsbD 3 then some (tableRead copy 0 (o + 3)).toNat else none
    op := (b0.extractLsb' 4 4).toNat
    depth := (b1.extractLsb' 0 4).toNat
    palette := (b1.extractLsb' 4 2).toNat
    paletteOffset := (tableRead copy 0 (o + 4)).toNat
    period := tableRead copy 0 (o + 5)
    blinkOffset := tableRead copy 0 (o + 6)
    alpha := (tableRead copy 0 (o + 7)).toNat
    x := tableHalf copy 0 (o + 8)
    y := tableHalf copy 0 (o + 10)
    width := tableHalf copy 0 (o + 12)
    height := tableHalf copy 0 (o + 14)
    base := tableHalf copy 0 (o + 16)
    stride := tableHalf copy 0 (o + 18) }

/-- A palette entry: source colour and palette alpha (R16). -/
structure PaletteEntry where
  colour : Pixel
  alpha : Nat
  deriving DecidableEq, Repr

/-- The table of palette select p: PAL0 to PAL3 (R16). -/
def paletteTable (p : Nat) : TableId :=
  match p with
  | 0 => 1
  | 1 => 2
  | 2 => 3
  | _ => 4

/-- Entry e of palette p (R16, R187). -/
def paletteEntry (copy : Vector Memory 8) (p e : Nat) : PaletteEntry :=
  let rd := tableRead copy (paletteTable p)
  ⟨⟨rd (4 * e), rd (4 * e + 1), rd (4 * e + 2)⟩, (rd (4 * e + 3)).toNat⟩

/-- A key rule (R187): reference and care masks as pixels. -/
structure KeyRule where
  reference : Pixel
  care : Pixel
  showOnMismatch : Bool
  composed : Bool
  deriving DecidableEq, Repr

/-- Key rule k of a KEYS copy. -/
def keyRule (copy : Vector Memory 8) (k : Nat) : KeyRule :=
  let rd := fun i => tableRead copy 5 (7 * k + i)
  ⟨⟨rd 0, rd 1, rd 2⟩, ⟨rd 3, rd 4, rd 5⟩, (rd 6).getLsbD 0, (rd 6).getLsbD 1⟩

/-- The check record (R187). -/
structure CheckConfig where
  enable : Bool
  expectedA : Option Word
  expectedB : Option Word
  phaseLink : Option Nat
  threshold : Nat
  x : Nat
  y : Nat
  width : Nat
  height : Nat
  deriving DecidableEq, Repr

/-- Check record k of a CHECKS copy (R187). -/
def checkConfig (copy : Vector Memory 8) (k : Nat) : CheckConfig :=
  let o := 18 * k
  let flags : Half := half (tableRead copy 6 o) (tableRead copy 6 (o + 1))
  { enable := flags.getLsbD 0
    expectedA := if flags.getLsbD 1 then some (tableWord copy 6 (o + 10)) else none
    expectedB := if flags.getLsbD 2 then some (tableWord copy 6 (o + 14)) else none
    phaseLink := if flags.getLsbD 3 then some (flags.extractLsb' 9 5).toNat else none
    threshold := (flags.extractLsb' 4 5).toNat
    x := tableHalf copy 6 (o + 2)
    y := tableHalf copy 6 (o + 4)
    width := tableHalf copy 6 (o + 6)
    height := tableHalf copy 6 (o + 8) }

/-- The format record (R187). `policy` is the 2-bit substitute policy code. -/
structure Format where
  width : Nat
  height : Nat
  period : Nat
  background : Pixel
  policy : Nat
  deriving DecidableEq, Repr

/-- The format record of a FORMAT copy (R187). -/
def formatRecord (copy : Vector Memory 8) : Format :=
  { width := tableHalf copy 7 0
    height := tableHalf copy 7 2
    period := (tableWord copy 7 4).toNat
    background := ⟨tableRead copy 7 8, tableRead copy 7 9, tableRead copy 7 10⟩
    policy := ((tableRead copy 7 11).extractLsb' 0 2).toNat }

/-! ## Validation at COMMIT -/

/-- An enabled layer record passes R39; a disabled one is not validated. -/
def layerValid (l : Layer) : Bool :=
  !l.enable ||
    (l.op ≤ 4 && (1 ≤ l.depth && l.depth ≤ 4) && (l.x ≤ 2047 && l.y ≤ 1535) &&
      (l.width ≤ 2048 && l.height ≤ 1536) && (1 ≤ l.stride && l.stride ≤ 8192) &&
      l.transparent.all (· ≤ 15) && l.key.all (· ≤ 7))

/-- An enabled check record passes R40; a disabled one is not validated. -/
def checkValid (c : CheckConfig) : Bool :=
  !c.enable || ((1 ≤ c.threshold && c.threshold ≤ 15) && c.phaseLink.all (· ≤ 15))

/-- A format record passes R40. -/
def formatValid (f : Format) : Bool :=
  (64 ≤ f.width && f.width ≤ 2048) && (32 ≤ f.height && f.height ≤ 1536) &&
    (4000 ≤ f.period && f.period ≤ 100000) && f.policy ≤ 1

/-- The index of the first record of a table that breaks validation (R38). PAL0 to PAL3 and KEYS are not examined. -/
def firstInvalid (copy : Vector Memory 8) (t : TableId) : Option Nat :=
  match t with
  | 0 => (List.range 16).find? (fun k => !layerValid (layerRecord copy k))
  | 1 => none
  | 2 => none
  | 3 => none
  | 4 => none
  | 5 => none
  | 6 => (List.range 8).find? (fun k => !checkValid (checkConfig copy k))
  | 7 => if formatValid (formatRecord copy) then none else some 0

/-- The first table of a list, with its first record, that breaks validation (R38). -/
def firstRejected (copy : Vector Memory 8) : List TableId → Option (TableId × Nat)
  | [] => none
  | t :: rest =>
    match firstInvalid copy t with
    | some k => some (t, k)
    | none => firstRejected copy rest

/-! ## Rectangles -/

/-- A rectangle intersected with a frame of `w` by `h` (R7, R156), computed without wrap. -/
def clipTo (x y width height w h : Nat) : Clip :=
  ⟨min x w, min (x + width) w, min y h, min (y + height) h⟩

/-- A clipped rectangle that covers no pixel. -/
def Clip.empty (c : Clip) : Bool := c.x1 ≤ c.x0 || c.y1 ≤ c.y0

/-- A pixel lies in a clipped rectangle (R6, R7). -/
def Clip.covers (c : Clip) (sx sy : Nat) : Bool :=
  c.x0 ≤ sx && sx < c.x1 && c.y0 ≤ sy && sy < c.y1

end Sys2Proof.Machine
end

