-- ==== Sys2Proof/Machine/Flags.lean ====
section
/-! DEFINITION. Codes and summaries: the code values of replies, events and states (R186, R188), counted errors (R80), the failing-checks mask (R105), the STATUS summary and the check runtime area (R188), and the bytes of messages and link-out packets (R184, R186). -/

namespace Sys2Proof.Machine

/-- The reply codes (R186). -/
def ReplyCode.byte : ReplyCode → Byte
  | .ok => 0
  | .busy => 1
  | .pending => 2
  | .range => 3
  | .invalid => 4
  | .state => 5
  | .overrun => 6
  | .underrun => 7
  | .incomplete => 8
  | .late => 9
  | .rejected => 10
  | .abandoned => 11

/-- The counted errors (R80). -/
def ReplyCode.counted : ReplyCode → Bool
  | .invalid | .range | .state | .overrun | .underrun => true
  | .ok | .busy | .pending | .incomplete | .late | .rejected | .abandoned => false

/-- The consecutive error count after a reply to a taken packet (R80). -/
def errorsAfter (code : ReplyCode) (errors : Nat) : Nat :=
  if code = .ok then 0 else if code.counted then errors + 1 else errors

/-- The bit of an event kind in the event enable mask, which is also its code (R110, R186). -/
def EventKind.bit : EventKind → Nat
  | .committed => 0
  | .commitMissed => 1
  | .streamLocked => 2
  | .streamLost => 3
  | .frameFault => 4
  | .packetIntegrity => 5
  | .channelTimeout => 6
  | .channelAbandoned => 7
  | .fillDone => 8
  | .checkFail => 9
  | .checkPass => 10

/-- The causes of STREAM_LOST (R136). -/
inductive LostCause where
  | timeout | faults | format | reset
  deriving DecidableEq, Repr

/-- The argument codes of STREAM_LOST (R186). -/
def LostCause.byte : LostCause → Byte
  | .timeout => 0
  | .faults => 1
  | .format => 2
  | .reset => 3

/-- The kinds of FRAME_FAULT (R136). -/
inductive FaultKind where
  | gap | order | excess | width | earlyEnd | restart | stray
  deriving DecidableEq, Repr

/-- The argument codes of FRAME_FAULT (R186). -/
def FaultKind.byte : FaultKind → Byte
  | .gap => 0
  | .order => 1
  | .excess => 2
  | .width => 3
  | .earlyEnd => 4
  | .restart => 5
  | .stray => 6

/-- The argument of PACKET_INTEGRITY: the kind code when it is one of the five kinds, FFh (UNKNOWN) otherwise (R116,
R186). -/
def integrityArg (code : Byte) : Byte := if code ≤ 4 then code else 0xFF

/-- A channel number as an event argument or extra field. -/
def channelByte (ch : Channel) : Byte := BitVec.ofNat 8 ch.val

/-- The channel state codes (R186). -/
def ChannelState.code : ChannelState → Nat
  | .idle => 0
  | .opened => 1
  | .filling => 2
  | .abandoned => 3

/-- The shadow state codes (R188). -/
def ShadowState.code : ShadowState → Nat
  | .clean => 0
  | .loading _ => 1
  | .loaded => 2
  | .partialLoad => 3
  | .armed => 4

/-- The tracker state codes (R188). -/
def TrackerState.code : TrackerState → Nat
  | .search => 0
  | .locking => 1
  | .locked => 2

/-- The output mode codes (R188). -/
def FrameType.code : FrameType → Nat
  | .pass => 0
  | .fallback => 1

/-- The check status codes (R188). -/
def CheckStatus.code : CheckStatus → Nat
  | .off => 0
  | .learning => 1
  | .passing => 2
  | .failing => 3

/-- A check is FAILING. -/
def CheckRecord.failing (r : CheckRecord) : Bool := r.status == .failing

/-- Some check is FAILING (R164). -/
def anyFailing (records : Vector CheckRecord 8) : Bool := records.toList.any CheckRecord.failing

/-- The failing-checks mask: bit i set while check i is FAILING (R105). -/
def failingMask (records : Vector CheckRecord 8) : Byte :=
  BitVec.ofNat 8 ((List.finRange 8).foldl (fun m i => if records[i].failing then m + 2 ^ i.val else m) 0)

/-- Byte 16 to byte 19 of the summary: the commit record (R188). -/
def recordSummary : Option Commit → List Byte
  | none => [0, 0, 0, 0]
  | some ⟨_, .next, tag⟩ => [1, 0, 0, tag]
  | some ⟨_, .atFrame target, tag⟩ => 3 :: halfBytes target ++ [tag]

/-- Byte 27 of the summary: fill in progress in bit 0, the holding channel in bits 1 and 2 (R188). -/
def fillSummary : Option FillRecord → Byte
  | none => 0
  | some f => BitVec.ofNat 8 (1 + 2 * f.channel.val)

/-- The 28-byte status summary (R105, R188). -/
def statusSummary (s : State) : List Byte :=
  [BitVec.ofNat 8 s.tracker.state.code, BitVec.ofNat 8 s.framer.mode.code]
    ++ halfBytes s.framer.n
    ++ wordBytes s.framer.f
    ++ s.bank.states.toList.map (fun t => BitVec.ofNat 8 t.code)
    ++ recordSummary s.bank.record
    ++ s.channels.toList.map (fun c => BitVec.ofNat 8 c.state.code)
    ++ [BitVec.ofNat 8 s.rtq.lost, BitVec.ofNat 8 s.tracker.faultyFrames, failingMask s.checker.records,
        fillSummary s.store.fill]

/-- The 15 bytes of a runtime record (R188). -/
def CheckRecord.bytes (r : CheckRecord) : List Byte :=
  [BitVec.ofNat 8 r.status.code, BitVec.ofNat 8 r.mismatches,
   BitVec.ofNat 8 ((if r.learnedAFlag then 1 else 0) + (if r.learnedBFlag then 2 else 0))]
    ++ wordBytes r.observed ++ wordBytes r.learnedA ++ wordBytes r.learnedB

/-- The check runtime area: the eight runtime records in check order, 120 bytes (R104, R168). -/
def runtimeArea (records : Vector CheckRecord 8) : List Byte := records.toList.flatMap CheckRecord.bytes

/-- The body of a return lane message, up to its CRC-16 (R186). -/
def Message.body : Message → List Byte
  | .reply ch r =>
    [0x01, BitVec.ofNat 8 (ch.val + if r.seq then 4 else 0), r.kind, r.code.byte] ++ halfBytes r.extra
      ++ [BitVec.ofNat 8 r.data.length] ++ r.data
  | .event e lost =>
    [0x02, BitVec.ofNat 8 e.kind.bit, e.arg, BitVec.ofNat 8 e.count] ++ halfBytes e.first ++ halfBytes e.last
      ++ [BitVec.ofNat 8 lost]

/-- The bytes of a return lane message (R186). -/
def Message.bytes (m : Message) : List Byte := m.body ++ halfBytes (crc16 m.body)

/-- The body of a link-out packet, up to its CRC-16 (R184). -/
def LinkPacket.body : LinkPacket → List Byte
  | .idle => [0x00]
  | .frameStart n => 0x01 :: halfBytes n
  | .line number pixels =>
    0x02 :: halfBytes (BitVec.ofNat 16 number) ++ halfBytes (BitVec.ofNat 16 pixels.length) ++ pixelBytes pixels
  | .frameEnd n count truncated =>
    0x03 :: halfBytes n ++ halfBytes (BitVec.ofNat 16 count) ++ [if truncated then 1 else 0]

/-- The bytes of a link-out packet (R139, R184). -/
def LinkPacket.bytes (p : LinkPacket) : List Byte := p.body ++ halfBytes (crc16 p.body)

end Sys2Proof.Machine
end

