-- ==== Sys2Proof/Machine/Queue.lean ====
section
/-! DEFINITION. The return queue and transmitter (chapter 9): replies joining, events raised, merged or dropped, the arbiter, the completion of a message, and what a management RESET removes. -/

namespace Sys2Proof.Machine

/-- The entry is a reply. -/
def Entry.isReply : Entry → Bool
  | .reply _ _ => true
  | .event _ => false

/-- The entry is a reply of channel `ch`. -/
def Entry.isReplyOf (ch : Channel) : Entry → Bool
  | .reply c _ => c == ch
  | .event _ => false

/-- The entry is an event of this kind and argument. -/
def Entry.isEventOf (kind : EventKind) (arg : Byte) : Entry → Bool
  | .reply _ _ => false
  | .event e => e.kind == kind && e.arg == arg

/-- The entry is an event. -/
def Entry.isEvent (e : Entry) : Bool := !e.isReply

/-- The places of the list that belong to events (R170). -/
def eventPlaces : Nat := 12

/-- A count of the queue: it rises by 1 and stays at 255 (R174, R175). -/
def bump (n : Nat) : Nat := if n < 255 then n + 1 else n

/-! ## Replies (R171) -/

/-- A reply joins the list as its newest entry, or replaces the channel's waiting reply in its place (R77, R171). -/
def Rtq.handOver (q : Rtq) (ch : Channel) (r : Reply) : Rtq :=
  if q.entries.any (Entry.isReplyOf ch)
  then { q with entries := q.entries.map (fun e => if e.isReplyOf ch then .reply ch r else e) }
  else { q with entries := q.entries ++ [.reply ch r] }

/-! ## Events (R173 to R175) -/

/-- A new event merged into a waiting entry (R174). For CHECK_FAIL both N fields take the new halves. -/
def EventEntry.merge (e : EventEntry) (first last : Half) : EventEntry :=
  { e with
    count := bump e.count
    first := if e.kind = .checkFail then first else e.first
    last := last }

/-- Merge an event into the entry of its kind and argument (R174). -/
def mergeEvent (kind : EventKind) (arg : Byte) (first last : Half) (e : Entry) : Entry :=
  match e with
  | .reply ch r => .reply ch r
  | .event ev => if ev.kind = kind ∧ ev.arg = arg then .event (ev.merge first last) else .event ev

/-- An EVENT message is in flight. -/
def Rtq.eventInFlight (q : Rtq) : Bool :=
  match q.inFlight with
  | some (.event _ _) => true
  | some (.reply _ _) => false
  | none => false

/-- An event dropped: the lost-event counter rises, and the lost-in-flight count while an EVENT is in flight (R175). -/
def Rtq.drop (q : Rtq) : Rtq :=
  { q with
    lost := bump q.lost
    lostInFlight := if q.eventInFlight then bump q.lostInFlight else q.lostInFlight }

/-- Raise an event whose kind is enabled: merged, queued or dropped (R174, R175). -/
def Rtq.raise (q : Rtq) (kind : EventKind) (arg : Byte) (first last : Half) : Rtq :=
  if q.entries.any (Entry.isEventOf kind arg)
  then { q with entries := q.entries.map (mergeEvent kind arg first last) }
  else if q.entries.countP Entry.isEvent < eventPlaces
  then { q with entries := q.entries ++ [.event ⟨kind, arg, 1, first, last⟩] }
  else q.drop

/-! ## The arbiter and the lane (R176 to R178) -/

/-- The entry the arbiter chooses, and the list without it: the oldest reply, otherwise the oldest event (R176). -/
def chooseEntry (entries : List Entry) : Option (Entry × List Entry) :=
  match entries.find? Entry.isReply with
  | some e => some (e, entries.eraseP Entry.isReply)
  | none =>
    match entries with
    | [] => none
    | e :: rest => some (e, rest)

/-- The message an entry becomes; an EVENT carries the lost-event counter (R176, R178). -/
def Entry.message (lost : Nat) : Entry → Message
  | .reply ch r => .reply ch r
  | .event e => .event e lost

/-- Whenever the lane is FREE and an entry waits, the arbiter starts a transmission (R176). The start of an EVENT sets
the lost-in-flight count to 0 (R178). -/
def Rtq.arbitrate (q : Rtq) : Rtq :=
  match q.inFlight with
  | some _ => q
  | none =>
    match chooseEntry q.entries with
    | none => q
    | some (e, rest) =>
      { q with
        entries := rest
        inFlight := some (e.message q.lost)
        lostInFlight := if e.isEvent then 0 else q.lostInFlight
        laneTicks := 0 }

/-- The completion of the message in flight (R177); after an EVENT the lost-event counter takes the lost-in-flight
count (R178). With no message in flight there is none to complete. -/
def Rtq.complete (q : Rtq) : Rtq :=
  match q.inFlight with
  | none => q
  | some m =>
    { q with
      inFlight := none
      laneTicks := 0
      sent := q.sent ++ [m]
      lost := if q.eventInFlight then q.lostInFlight else q.lost }

/-- Every waiting reply is removed (R180). -/
def Rtq.removeReplies (q : Rtq) : Rtq := { q with entries := q.entries.filter Entry.isEvent }

/-- Every waiting event is removed and both counts become 0 (R181). -/
def Rtq.removeEvents (q : Rtq) : Rtq :=
  { q with entries := q.entries.filter Entry.isReply, lost := 0, lostInFlight := 0 }

/-! ## At the part -/

/-- The event enable mask lets this kind through (R110). -/
def State.enabled (s : State) (kind : EventKind) : Bool := s.params.eventMask.getLsbD kind.bit

/-- Raise an event with the two N fields given; an event whose kind is disabled is discarded (R110, R173). -/
def State.raiseWith (s : State) (kind : EventKind) (arg : Byte) (first last : Half) : State :=
  if s.enabled kind then s.setRtq (s.rtq.raise kind arg first last) else s

/-- Raise an event with the current N in both fields (R173). -/
def State.raise (s : State) (kind : EventKind) (arg : Byte) : State :=
  s.raiseWith kind arg s.framer.n s.framer.n

/-- A channel hands a reply to the queue (R171). -/
def State.handOver (s : State) (ch : Channel) (r : Reply) : State := s.setRtq (s.rtq.handOver ch r)

/-- The arbiter at the end of a step (R176; assumption log 6). -/
def State.arbitrate (s : State) : State := s.setRtq s.rtq.arbitrate

end Sys2Proof.Machine
end

