-- ==== Sys2Proof/Machine/Ops.lean ====
section
/-! DEFINITION. Shared operations over channels, table bank and overlay store: ending a load, stopping a fill, writing the store, and the write of a PLANAR or MERGE segment. -/

namespace Sys2Proof.Machine

/-! ## Channels and tables -/

/-- Change one channel context. -/
def State.updateChannel (s : State) (ch : Channel) (f : ChannelContext → ChannelContext) : State :=
  s.setChannels (s.channels.set ch (f s.channels[ch]))

/-- Set the shadow state of one table. -/
def Bank.setState (b : Bank) (t : TableId) (st : ShadowState) : Bank := { b with states := b.states.set t st }

/-- Set the shadow state of every table of a list. -/
def Bank.setStates (b : Bank) (ts : List TableId) (st : ShadowState) : Bank :=
  ts.foldl (fun b t => b.setState t st) b

/-- Copy the shadow of every table of a list into its active copy (R44). -/
def Bank.activate (b : Bank) (ts : List TableId) : Bank :=
  { b with active := ts.foldl (fun (a : Vector Memory 8) (t : TableId) => a.set t b.shadow[t]) b.active }

/-- Copy the active copy of every table of a list into its shadow (R50, R52). -/
def Bank.restore (b : Bank) (ts : List TableId) : Bank :=
  { b with shadow := ts.foldl (fun (a : Vector Memory 8) (t : TableId) => a.set t b.active[t]) b.shadow }

/-- The table a target names, if it names one. -/
def Target.tableOf : Option Target → Option TableId
  | some (.table t _) => some t
  | some (.store _ _ _) => none
  | some .fill => none
  | none => none

/-- The table bank learns the end of the load a target names (R32, R33); a store target concerns no table (R55). -/
def Bank.loadEnded (b : Bank) (target : Option Target) (st : ShadowState) : Bank :=
  match Target.tableOf target with
  | some t => b.setState t st
  | none => b

/-- A load ends on a channel (R94): the table it held takes the shadow state `st`, the target becomes absent, the idle
frames 0, and the channel goes to `next`. -/
def State.endLoad (s : State) (ch : Channel) (st : ShadowState) (next : ChannelState) : State :=
  (s.setBank (s.bank.loadEnded s.channels[ch].target st)).updateChannel ch
    (fun c => { c with target := none, idleFrames := 0, state := next })

/-! ## The overlay store -/

/-- The write port is HELD (R56). -/
def Store.held (st : Store) : Bool := st.fill.isSome

/-- The store takes a write: every line in hand may be fetched from the store before it or after it (R10; assumption
log 5). -/
def State.writeStore (s : State) (cells : Memory) : State :=
  (s.setStore { s.store with cells := cells }).setFramer
    { s.framer with
      handed := s.framer.handed.map (fun l => { l with moments := l.moments ++ [cells] })
      building :=
        match s.framer.frame with
        | some f => if f.type = .fallback then s.framer.building ++ [cells] else s.framer.building
        | none => s.framer.building }

/-- A fill in flight is stopped where it stands: the port goes FREE and the record is discarded (R68). -/
def State.stopFill (s : State) : State := s.setStore { s.store with fill := none }

/-- The merge op on a byte (R62). -/
def MergeOp.apply (op : MergeOp) (old data : Byte) : Byte :=
  match op with
  | .and => old &&& data
  | .or => old ||| data
  | .xor => old ^^^ data

/-- What a payload byte makes of its store byte: PLANAR replaces it (R61), MERGE gives
(old AND NOT M) OR (op(old, data) AND M) (R62). -/
def StoreMode.apply (mode : StoreMode) (old data : Byte) : Byte :=
  match mode with
  | .planar => data
  | .merge op mask => (old &&& ~~~mask) ||| (op.apply old data &&& mask)

/-- The plane and address of stream position q of a load from address `start` on the selected planes (R60). -/
def streamPlace (planes : List (Fin 4)) (start q : Nat) : Fin 4 × Half :=
  (planes.getD (q % planes.length) 0, BitVec.ofNat 16 (start + q / planes.length))

/-- Write one byte of a store load at stream position q (R60 to R62). -/
def storeByte (planes : List (Fin 4)) (start : Nat) (mode : StoreMode) (q : Nat) (cells : Memory) (data : Byte) :
    Memory :=
  let place := streamPlace planes start q
  storeWrite cells place.1 place.2 (mode.apply (storeRead cells place.1 place.2) data)

/-- Write a segment of a store load from stream position q on, in payload order, as one write (R56, R60). -/
def storeSegment (planes : List (Fin 4)) (start : Nat) (mode : StoreMode) : Nat → Memory → List Byte → Memory
  | _, cells, [] => cells
  | q, cells, b :: rest =>
    storeSegment planes start mode (q + 1) (storeByte planes start mode q cells b) rest

/-- The fill byte of a plane: FFh when its bit of the fill colour is 1, else 00h (R64). -/
def FillRecord.byteOf (f : FillRecord) (plane : Fin 4) : Byte := if f.colour.getLsbD plane.val then 0xFF else 0x00

/-- One step of a fill on the store: the fill byte into every selected plane at A + P (R65). -/
def FillRecord.write (f : FillRecord) (cells : Memory) : Memory :=
  (selectedPlanes f.planes).foldl
    (fun m k => storeWrite m k (BitVec.ofNat 16 (f.start + f.progress)) (f.byteOf k)) cells

/-- The fill takes one step (R65): one write of all selected planes, then P rises by 1. -/
def State.fillOnce (s : State) (f : FillRecord) : State :=
  let s := s.writeStore (f.write s.store.cells)
  s.setStore { s.store with fill := some { f with progress := f.progress + 1 } }

/-- The completion of a fill (R67): port FREE, channel IDLE with its target absent, FILL_DONE raised. -/
def State.completeFill (s : State) (f : FillRecord) : State :=
  ((s.stopFill).updateChannel f.channel (fun c => { c with state := .idle, target := none })).raise .fillDone
    (channelByte f.channel)

end Sys2Proof.Machine
end

