-- ==== Sys2Proof/Machine/Checks.lean ====
section
/-! DEFINITION. The region checker (chapter 8): blink visibility (R5), the check plan, the accumulation of emitted pixels, the evaluation at the output frame end, the runtime reset and the FAULT pin. -/

namespace Sys2Proof.Machine

/-- Blink visibility of a blink period and offset at F (R5). -/
def blinkVisible (period offset : Byte) (f : Word) : Bool :=
  period = 0 || ((f + offset.setWidth 32).toNat / period.toNat) % 2 = 0

/-- The FAULT pin follows the statuses: asserted while some check is FAILING (R164). -/
def Checker.followPin (c : Checker) : Checker :=
  let level := anyFailing c.records
  if level = c.pin then c else { c with pin := level, pinLog := c.pinLog ++ [level] }

/-- Write one runtime record; the pin follows at that moment (R164). -/
def Checker.setRecord (c : Checker) (k : Fin 8) (r : CheckRecord) : Checker :=
  Checker.followPin { c with records := c.records.set k r }

/-- The runtime record after a runtime reset (R165). -/
def resetRecord (enable : Bool) : CheckRecord :=
  { CheckRecord.powerOn with status := if enable then .learning else .off }

/-- A runtime reset of every check from the active CHECKS (R165). -/
def Checker.runtimeReset (c : Checker) (active : Vector Memory 8) : Checker :=
  let r := fun k => resetRecord (checkConfig active k).enable
  Checker.followPin { c with records := #v[r 0, r 1, r 2, r 3, r 4, r 5, r 6, r 7] }

/-- The selection of a check for a frame (R157). -/
def checkSelection (active : Vector Memory 8) (cfg : CheckConfig) (f : Word) : Selection :=
  match cfg.phaseLink with
  | none => .a
  | some j =>
    let l := layerRecord active j
    if blinkVisible l.period l.blinkOffset f then .a else .b

/-- The plan of one check for the frame that starts (R156). -/
def planCheck (active : Vector Memory 8) (status : CheckStatus) (k : Nat) (f : Word) (w h : Nat) : Option CheckPlan :=
  let cfg := checkConfig active k
  let clip := clipTo cfg.x cfg.y cfg.width cfg.height w h
  if status = .off ∨ clip.empty then none else some ⟨clip, checkSelection active cfg f, crc32Init⟩

/-- The check plan of the frame that starts (R156). -/
def Checker.formPlan (c : Checker) (active : Vector Memory 8) (f : Word) (w h : Nat) : Checker :=
  let p := fun k : Fin 8 => planCheck active c.records[k].status k f w h
  { c with plans := #v[p 0, p 1, p 2, p 3, p 4, p 5, p 6, p 7] }

/-- The plan and its accumulators are discarded (R159). -/
def Checker.discardPlan (c : Checker) : Checker :=
  { c with plans := #v[none, none, none, none, none, none, none, none] }

/-- A planned check takes the pixels of its clipped columns from an emitted line (R159). -/
def CheckPlan.take (p : CheckPlan) (number : Nat) (pixels : List Pixel) : CheckPlan :=
  if p.clip.y0 ≤ number ∧ number < p.clip.y1 then
    { p with crc := crc32Run p.crc (pixelBytes ((pixels.drop p.clip.x0).take (p.clip.x1 - p.clip.x0))) }
  else p

/-- Every planned check takes an emitted line (R159). -/
def Checker.takeLine (c : Checker) (number : Nat) (pixels : List Pixel) : Checker :=
  let p := fun k : Fin 8 => c.plans[k].map (fun p => p.take number pixels)
  { c with plans := #v[p 0, p 1, p 2, p 3, p 4, p 5, p 6, p 7] }

/-- The value a selection is compared with: the one in the check record, otherwise the learned one, otherwise none
(R160). -/
def expectedValue (cfg : CheckConfig) (r : CheckRecord) (sel : Selection) : Option Word :=
  match sel with
  | .a =>
    match cfg.expectedA with
    | some v => some v
    | none => if r.learnedAFlag then some r.learnedA else none
  | .b =>
    match cfg.expectedB with
    | some v => some v
    | none => if r.learnedBFlag then some r.learnedB else none

/-- What an evaluation comes to. -/
inductive CheckOutcome where
  | learned | matched | mismatched
  deriving DecidableEq, Repr

/-- The outcome of comparing an observed value (R160). -/
def checkOutcome (cfg : CheckConfig) (r : CheckRecord) (sel : Selection) (observed : Word) : CheckOutcome :=
  match expectedValue cfg r sel with
  | none => .learned
  | some v => if observed = v then .matched else .mismatched

/-- A learning frame (R160): the observed value is learned; a FAILING check stays FAILING, any other is LEARNING. -/
def CheckRecord.learn (r : CheckRecord) (sel : Selection) (observed : Word) : CheckRecord :=
  let status : CheckStatus := if r.status = .failing then .failing else .learning
  match sel with
  | .a => { r with status := status, learnedAFlag := true, learnedA := observed }
  | .b => { r with status := status, learnedBFlag := true, learnedB := observed }

/-- A match (R161). -/
def CheckRecord.matches (r : CheckRecord) : CheckRecord := { r with mismatches := 0, status := .passing }

/-- A mismatch (R162): the count rises while below the threshold, and at the threshold the check is FAILING. -/
def CheckRecord.mismatch (r : CheckRecord) (threshold : Nat) : CheckRecord :=
  let count := if r.mismatches < threshold then r.mismatches + 1 else r.mismatches
  { r with mismatches := count, status := if count = threshold then .failing else r.status }

/-- The runtime record after the evaluation of a planned check (R160 to R162). -/
def CheckRecord.evaluate (r : CheckRecord) (cfg : CheckConfig) (sel : Selection) (observed : Word) : CheckRecord :=
  let r1 := { r with observed := observed }
  match checkOutcome cfg r sel observed with
  | .learned => r1.learn sel observed
  | .matched => r1.matches
  | .mismatched => r1.mismatch cfg.threshold

/-- Evaluate one check at the output frame end (R160 to R163): its record and the pin, then CHECK_PASS when it leaves
FAILING or CHECK_FAIL, with the observed value in the frame fields, when it enters it. -/
def State.evaluateCheck (s : State) (k : Fin 8) : State :=
  match s.checker.plans[k] with
  | none => s
  | some p =>
    let observed := crc32Final p.crc
    let old := s.checker.records[k]
    let new := old.evaluate (checkConfig s.bank.active k) p.selection observed
    let s := s.setChecker (s.checker.setRecord k new)
    if old.failing && !new.failing then s.raise .checkPass (BitVec.ofNat 8 k.val)
    else if !old.failing && new.failing then
      s.raiseWith .checkFail (BitVec.ofNat 8 k.val) (observed.extractLsb' 0 16) (observed.extractLsb' 16 16)
    else s

/-- The evaluation at an output frame end, in ascending check index (R160). -/
def State.evaluateChecks (s : State) : State :=
  ([0, 1, 2, 3, 4, 5, 6, 7] : List (Fin 8)).foldl State.evaluateCheck s

end Sys2Proof.Machine
end

