-- ==== Sys2Proof/Machine/Compose.lean ====
section
/-! DEFINITION. The layer compositor (chapter 1): the frame plan, the fetch of a stored index, the gates, palette and combine, and the composition of a line. -/

namespace Sys2Proof.Machine

/-- A layer takes part in a frame (R4). -/
def layerTakesPart (l : Layer) (type : FrameType) (f : Word) : Bool :=
  l.enable && (type == .pass || l.persistent) && blinkVisible l.period l.blinkOffset f

/-- The plan of one layer (R3, R4, R7). -/
def planLayer (active : Vector Memory 8) (type : FrameType) (f : Word) (w h k : Nat) : Option PlannedLayer :=
  let l := layerRecord active k
  if layerTakesPart l type f then some ⟨k, clipTo l.x l.y l.width l.height w h⟩ else none

/-- The frame plan (R3), from the active tables. -/
def formPlan (active : Vector Memory 8) (type : FrameType) (f : Word) : FramePlan :=
  let fmt := formatRecord active
  { type := type, f := f, width := fmt.width, height := fmt.height, background := fmt.background,
    layers := (List.range 16).filterMap (planLayer active type f fmt.width fmt.height) }

/-- The bit of plane `plane` at layer column c and row r (R8). -/
def storedBit (cells : Memory) (l : Layer) (plane : Fin 4) (c r : Nat) : Bool :=
  (storeRead cells plane (BitVec.ofNat 16 (l.base + r * l.stride + c / 8))).getLsbD (7 - c % 8)

/-- The stored index: plane k supplies bit k, for k below the depth (R9). -/
def storedIndex (cells : Memory) (l : Layer) (c r : Nat) : Nat :=
  (([0, 1, 2, 3] : List (Fin 4)).filter (fun k => k.val < l.depth)).foldl
    (fun i k => if storedBit cells l k c r then i + 2 ^ k.val else i) 0

/-- A key rule matches a colour (R13). -/
def KeyRule.matches (k : KeyRule) (t : Pixel) : Bool :=
  (t.r ^^^ k.reference.r) &&& k.care.r = 0 && (t.g ^^^ k.reference.g) &&& k.care.g = 0 &&
    (t.b ^^^ k.reference.b) &&& k.care.b = 0

/-- The key gate lets the layer touch the pixel (R14, R15). -/
def KeyRule.passes (k : KeyRule) (under composed : Pixel) : Bool :=
  k.matches (if k.composed then composed else under) != k.showOnMismatch

/-- A layer pixel with stored index i passes the transparent index and the key gate (R11, R12). -/
def gatePasses (active : Vector Memory 8) (l : Layer) (i : Nat) (under composed : Pixel) : Bool :=
  l.transparent != some i &&
    match l.key with
    | none => true
    | some k => (keyRule active k).passes under composed

/-- The effective alpha (R18). -/
def effectiveAlpha (alpha globalAlpha : Nat) : Nat := (alpha * globalAlpha + 127) / 255

/-- One channel of a BLEND (R18). -/
def blendChannel (a : Nat) (src dst : Byte) : Byte :=
  BitVec.ofNat 8 ((src.toNat * a + dst.toNat * (255 - a) + 127) / 255)

/-- Apply an operation to the three channels of two pixels. -/
def Pixel.zipWith (f : Byte → Byte → Byte) (src dst : Pixel) : Pixel :=
  ⟨f src.r dst.r, f src.g dst.g, f src.b dst.b⟩

/-- The combine op on a palette entry and the pixel beneath (R17 to R19). No validated record holds a code above 4
(R39); such a code leaves the pixel as it is (assumption log 15). -/
def combine (op globalAlpha : Nat) (e : PaletteEntry) (dst : Pixel) : Pixel :=
  match op with
  | 0 => e.colour
  | 1 => Pixel.zipWith (blendChannel (effectiveAlpha e.alpha globalAlpha)) e.colour dst
  | 2 => Pixel.zipWith (fun src dst => dst &&& src) e.colour dst
  | 3 => Pixel.zipWith (fun src dst => dst ||| src) e.colour dst
  | 4 => Pixel.zipWith (fun src dst => dst ^^^ src) e.colour dst
  | _ => dst

/-- One planned layer at one pixel (R11 to R20): coverage, stored index, gates, palette, combine. -/
def applyLayer (active : Vector Memory 8) (cells : Memory) (p : PlannedLayer) (sx sy : Nat) (under composed : Pixel) :
    Pixel :=
  if p.clip.covers sx sy then
    let l := layerRecord active p.index
    let i := storedIndex cells l (sx - l.x) (sy - l.y)
    if gatePasses active l i under composed then
      combine l.op l.alpha (paletteEntry active l.palette ((i + l.paletteOffset) % 256)) composed
    else composed
  else composed

/-- The store contents a fetch finds: the only ones seen while the line was in hand, or, when writes were taken
meanwhile, those a free value picks (R10; assumption log 5). -/
def fetchedStore (moments : List Memory) (line layer column : Nat) : Memory :=
  match moments with
  | [] => []
  | [m] => m
  | m :: rest => (m :: rest).getD (Config.fetchMoment line layer column % (rest.length + 1)) m

/-- The place of the last store contents that a fetch for the line can find, when it is the n-th line emitted: a free value
(R10; assumption log 5). -/
def HandedLine.lastMoment (l : HandedLine) (line : Nat) : Nat := Config.lineComposed line % l.moments.length

/-- A line still in hand, once the line before it is composed (R10): lines are composed one by one in ascending order (R1), so
its fetches find one of the newest `newest` store contents. -/
def HandedLine.composedFrom (l : HandedLine) (newest : Nat) : HandedLine :=
  { l with moments := l.moments.drop (l.moments.length - newest) }

/-- The output pixel of a column: the planned layers in ascending index over the underlying pixel (R20). -/
def composePixel (active : Vector Memory 8) (plan : FramePlan) (moments : List Memory) (line sx sy : Nat)
    (under : Pixel) : Pixel :=
  plan.layers.foldl
    (fun px p => applyLayer active (fetchedStore moments line p.index sx) p sx sy under px) under

/-- The composed line: W pixels in ascending column order (R1, R24). -/
def composeLine (active : Vector Memory 8) (plan : FramePlan) (moments : List Memory) (line sy : Nat)
    (pixels : List Pixel) : List Pixel :=
  (List.range plan.width).map
    (fun sx => composePixel active plan moments line sx sy (pixels.getD sx plan.background))

end Sys2Proof.Machine
end

