-- ==== Sys2Proof/Machine/Tracking.lean ====
section
/-! DEFINITION. The stream tracker (chapter 6) and what it asks of the framer: truncation (R148), leaving LOCKED (R119, R147), substitutes, verdicts and the handling of each frame packet by tracker state and phase. -/

namespace Sys2Proof.Machine

/-- The active format record. -/
def State.format (s : State) : Format := formatRecord s.bank.active

/-! ## The framer's side -/

/-- Put a packet on link-out (R139). -/
def Framer.emit (o : Framer) (p : LinkPacket) : Framer := { o with linkOut := o.linkOut ++ [p] }

/-- The frame in progress is truncated (R148): FRAME_END with the lines already emitted and TRUNCATED set; the lines in
hand are discarded. With no frame in progress there is none to truncate. -/
def Framer.truncate (o : Framer) : Framer :=
  match o.frame with
  | none => o
  | some f => { o.emit (.frameEnd f.n f.lines true) with frame := none, handed := [] }

/-- Truncate the frame in progress; its check plan is discarded with the accumulators (R148, R159). -/
def State.truncate (s : State) : State :=
  match s.framer.frame with
  | none => s
  | some _ => (s.setFramer s.framer.truncate).setChecker s.checker.discardPlan

/-- Line H - 1 of the frame in progress has been handed over (R147). -/
def Framer.allHanded (o : Framer) (f : OutputFrame) : Bool := f.height ≤ f.lines + o.handed.length

/-- The framer enters FALLBACK mode with the first fallback frame due (R147). -/
def Framer.enterFallback (o : Framer) : Framer := { o with mode := .fallback, switchBack := false, due := some .entry }

/-- The framer's response to the tracker leaving LOCKED (R147). A PASS frame with every line handed over is finished
whole first: its mode and the first fallback frame follow its FRAME_END. An upstream start still due is superseded
(assumption log 13). In FALLBACK mode the switch back is forgotten, a start that waits to bring it included. -/
def State.framerLosesLock (s : State) : State :=
  match s.framer.mode with
  | .fallback =>
    s.setFramer
      { s.framer with
        switchBack := false, due := if s.framer.due = some .upstream then none else s.framer.due }
  | .pass =>
    match s.framer.frame with
    | none => s.setFramer s.framer.enterFallback
    | some f =>
      if s.framer.allHanded f then s.setFramer { s.framer with due := some .entry }
      else
        let s := s.truncate
        s.setFramer s.framer.enterFallback

/-! ## Tracker state -/

/-- Every entry into SEARCH (R119). -/
def Tracker.enterSearch (t : Tracker) : Tracker :=
  { t with
    state := .search, phase := .noFrame, expected := 0, conforming := 0, faultyFrames := 0, frameFaulty := false
    lossTimer := none, expiryDue := false }

/-- The tracker goes to SEARCH (R119); from LOCKED it raises STREAM_LOST with the cause (R136) and the framer follows
(R147). -/
def State.loseStream (s : State) (cause : LostCause) : State :=
  match s.tracker.state with
  | .locked =>
    ((s.setTracker s.tracker.enterSearch).raise .streamLost cause.byte).framerLosesLock
  | .locking => s.setTracker s.tracker.enterSearch
  | .search => s.setTracker s.tracker.enterSearch

/-- The loss time in ticks: loss multiple times the T of the active FORMAT (R122). -/
def State.lossTicks (s : State) : Nat :=
  Config.ticksPerMicrosecond * (s.params.lossMultiple * s.format.period)

/-- The loss timer has reached the loss time (R122). -/
def State.lossTimeUp (s : State) : Bool :=
  match s.tracker.lossTimer with
  | some t => s.lossTicks ≤ t
  | none => false

/-- The loss time has changed: at or below the elapsed time, the expiry is due at once (R122). -/
def State.checkLoss (s : State) : State :=
  if s.lossTimeUp then s.setTracker { s.tracker with expiryDue := true } else s

/-- The loss timer expires (R122): SEARCH, from LOCKED with STREAM_LOST(TIMEOUT). A stopped timer does not expire. -/
def State.loseByTimeout (s : State) : State :=
  match s.tracker.lossTimer with
  | some _ => s.loseStream .timeout
  | none => s

/-- Raise FRAME_FAULT with its kind (R136). -/
def State.frameFault (s : State) (kind : FaultKind) : State := s.raise .frameFault kind.byte

/-- A fault found while RECEIVING: FRAME_FAULT, and the frame is faulty (R134). -/
def State.faultInFrame (s : State) (kind : FaultKind) : State :=
  let s := s.frameFault kind
  s.setTracker { s.tracker with frameFaulty := true }

/-- The fault limit test after a rise of the consecutive faulty-frame count (R135). -/
def State.testFaultLimit (s : State) : State :=
  if s.params.faultLimit ≤ s.tracker.faultyFrames then s.loseStream .faults else s

/-- The verdict on a frame whose last line has been handed over (R134, R135). -/
def State.verdict (s : State) : State :=
  if s.tracker.frameFaulty then
    (s.setTracker { s.tracker with faultyFrames := s.tracker.faultyFrames + 1 }).testFaultLimit
  else s.setTracker { s.tracker with faultyFrames := 0 }

/-- A late fault, found in phase COMPLETE (R130): a frame judged good becomes faulty and the count rises. -/
def State.lateFault (s : State) (kind : FaultKind) : State :=
  let s := s.frameFault kind
  if s.tracker.frameFaulty then s
  else
    (s.setTracker { s.tracker with frameFaulty := true, faultyFrames := s.tracker.faultyFrames + 1 }).testFaultLimit

/-! ## Lines -/

/-- A substitute pixel for a column (R133): the background under policy BACKGROUND, the line memory's pixel under
REPEAT_LAST_LINE. -/
def substitutePixel (fmt : Format) (memory : List Pixel) (column : Nat) : Pixel :=
  if fmt.policy = 1 then memory.getD column .black else fmt.background

/-- The substitute pixels of columns `from` to W - 1 (R127, R133). -/
def substitutePixels (fmt : Format) (memory : List Pixel) (start : Nat) : List Pixel :=
  (List.range (fmt.width - start)).map (fun i => substitutePixel fmt memory (start + i))

/-- Hand a line to the compositor (R1): it is in hand, fetched from the store from now on (R10). -/
def State.handLine (s : State) (number : Nat) (kind : LineKind) (pixels : List Pixel) : State :=
  s.setFramer
    { s.framer with handed := s.framer.handed ++ [⟨number, kind, pixels, [s.store.cells]⟩] }

/-- Hand a substitute line for line `number` (R133). -/
def State.handSubstitute (s : State) (number : Nat) : State :=
  s.handLine number .substitute (substitutePixels s.format s.tracker.lineMemory 0)

/-- Hand substitute lines for `count` line numbers from `start` on, in ascending order (R125, R128, R129). -/
def State.handSubstitutes (s : State) (start count : Nat) : State :=
  (List.range count).foldl (fun s i => s.handSubstitute (start + i)) s

/-- Write the pixels taken from a forwarded line into the line memory, at positions 0 onward (R124, R132). -/
def writeLineMemory (memory : List Pixel) (taken : List Pixel) : List Pixel :=
  let kept := taken.take lineMemorySize
  kept ++ memory.drop kept.length

/-- The last line of the frame has been handed over: phase COMPLETE, and the verdict (R124, R134). -/
def State.lastLineHanded (s : State) : State :=
  (s.setTracker { s.tracker with phase := .complete }).verdict

/-- Forward line n (R124, R127): WIDTH when its pixel count is not W, short lines filled with substitute pixels, long
ones cut, the pixels taken written into the line memory, and the verdict with the last line. -/
def State.forwardLine (s : State) (n : Nat) (pixels : List Pixel) : State :=
  let fmt := s.format
  let s := if pixels.length = fmt.width then s else s.faultInFrame .width
  let taken := pixels.take fmt.width
  let s := s.handLine n .forwarded (taken ++ substitutePixels fmt s.tracker.lineMemory taken.length)
  let s := s.setTracker
    { s.tracker with lineMemory := writeLineMemory s.tracker.lineMemory taken, expected := n + 1 }
  if n + 1 = fmt.height then s.lastLineHanded else s

/-- Lines e to H - 1 are substituted and the frame's last line has been handed over (R128, R129): the phase becomes
`phase`, then the verdict. -/
def State.substituteRest (s : State) (phase : FramePhase) : State :=
  let h := s.format.height
  let s := s.handSubstitutes s.tracker.expected (h - s.tracker.expected)
  (s.setTracker { s.tracker with expected := h, phase := phase }).verdict

/-! ## Frame packets in SEARCH and LOCKING -/

/-- A FRAME_START begins a lock attempt (R120). -/
def Tracker.beginAttempt (t : Tracker) (n : Half) : Tracker :=
  { t with
    state := .locking, phase := .receiving, expected := 0, conforming := 0, upstreamN := n
    lossTimer := some 0, expiryDue := false }

/-- A FRAME_START opens a further frame of a lock attempt (R121). -/
def Tracker.nextLockingFrame (t : Tracker) (n : Half) : Tracker :=
  { t with phase := .receiving, expected := 0, upstreamN := n, lossTimer := some 0, expiryDue := false }

/-- A non-conformity in LOCKING (R121): SEARCH, without an event. -/
def State.breakLock (s : State) : State := s.setTracker s.tracker.enterSearch

/-- The tracker locks (R121): STREAM_LOCKED(0), and in FALLBACK mode the switch back is pending (R149). -/
def State.lock (s : State) : State :=
  let s := s.setTracker { s.tracker with state := .locked, faultyFrames := 0 }
  let s := s.raise .streamLocked 0
  s.setFramer { s.framer with switchBack := s.framer.switchBack || s.framer.mode == .fallback }

/-- A conforming frame completes in LOCKING: k rises, then the lock test (R121). -/
def State.conformingFrame (s : State) : State :=
  let s := s.setTracker { s.tracker with conforming := s.tracker.conforming + 1, phase := .noFrame }
  if s.params.lockCount ≤ s.tracker.conforming then s.lock else s

/-- A LINE in LOCKING (R121). -/
def State.lineInLocking (s : State) (n : Nat) (pixels : List Pixel) : State :=
  let fmt := s.format
  if s.tracker.phase = .receiving ∧ n = s.tracker.expected ∧ pixels.length = fmt.width then
    s.setTracker
      { s.tracker with
        expected := n + 1
        phase := if n + 1 = fmt.height then .complete else .receiving }
  else s.breakLock

/-! ## Frame packets in LOCKED -/

/-- The switch back to PASS (R149): a fallback frame in progress is truncated, the timer stops, and the start of the
upstream frame is due. -/
def State.switchToPass (s : State) : State :=
  let s := s.truncate
  s.setFramer { s.framer with mode := .pass, timer := none, switchBack := false, due := some .upstream }

/-- The start due once an upstream frame is opened under lock in PASS mode (R143). Where the first fallback frame is still
due, after the PASS frame being finished (R147), the upstream frame's start waits behind it (assumption log 14). -/
def startBehind (due : Option StartCause) : StartCause :=
  match due with
  | some .entry => .entryThenUpstream
  | some .entryThenUpstream => .entryThenUpstream
  | some .upstream => .upstream
  | some .timer => .upstream
  | some .leaveReset => .upstream
  | none => .upstream

/-- The framer is told of an upstream frame opened under lock (R123, R143, R149). -/
def State.askStart (s : State) : State :=
  match s.framer.mode with
  | .pass => s.setFramer { s.framer with due := some (startBehind s.framer.due) }
  | .fallback => if s.framer.switchBack then s.switchToPass else s

/-- A FRAME_START opens an upstream frame in LOCKED (R123). -/
def State.openUpstream (s : State) (n : Half) : State :=
  (s.setTracker
    { s.tracker with
      upstreamN := n, lossTimer := some 0, expiryDue := false, phase := .receiving, expected := 0
      frameFaulty := false }).askStart

/-- A LINE in LOCKED while RECEIVING (R124 to R127). -/
def State.lineReceiving (s : State) (n : Nat) (pixels : List Pixel) : State :=
  if s.format.height ≤ n then s.faultInFrame .excess
  else if n < s.tracker.expected then s.faultInFrame .order
  else if n = s.tracker.expected then s.forwardLine n pixels
  else
    let e := s.tracker.expected
    ((s.faultInFrame .gap).handSubstitutes e (n - e)).forwardLine n pixels

/-- A LINE in LOCKED (R124, R130, R131). -/
def State.lineInLocked (s : State) (n : Nat) (pixels : List Pixel) : State :=
  match s.tracker.phase with
  | .noFrame => s.frameFault .stray
  | .receiving => s.lineReceiving n pixels
  | .complete => if s.format.height ≤ n then s.lateFault .excess else s.lateFault .order

/-- A FRAME_END in LOCKED (R128, R130, R131). -/
def State.endInLocked (s : State) (count : Nat) : State :=
  match s.tracker.phase with
  | .noFrame => s.frameFault .stray
  | .receiving => (s.faultInFrame .earlyEnd).substituteRest .noFrame
  | .complete =>
    let s := s.setTracker { s.tracker with phase := .noFrame }
    if count = s.format.height then s else s.lateFault .earlyEnd

/-- A FRAME_START in the state it is taken in, no frame of a lock being RECEIVING (R120, R121, R123). -/
def State.takeStartPacket (s : State) (n : Half) : State :=
  match s.tracker.state with
  | .search => s.setTracker (s.tracker.beginAttempt n)
  | .locking =>
    match s.tracker.phase with
    | .noFrame => s.setTracker (s.tracker.nextLockingFrame n)
    | .receiving => s.breakLock
    | .complete => s.breakLock
  | .locked => s.openUpstream n

/-- A good FRAME_START (R120, R121, R123). In LOCKED while RECEIVING it ends the open frame by RESTART first (R129). -/
def State.dealStart (s : State) (n : Half) : State :=
  if s.tracker.state = .locked ∧ s.tracker.phase = .receiving then
    ((s.faultInFrame .restart).substituteRest .complete).takeStartPacket n
  else s.takeStartPacket n

/-- A good LINE (R120, R121, R124). -/
def State.dealLine (s : State) (number : Half) (pixels : List Pixel) : State :=
  match s.tracker.state with
  | .search => s
  | .locking => s.lineInLocking number.toNat pixels
  | .locked => s.lineInLocked number.toNat pixels

/-- A good FRAME_END (R120, R121, R128). Its frame number and flags are not examined. -/
def State.dealEnd (s : State) (count : Half) : State :=
  match s.tracker.state with
  | .search => s
  | .locking =>
    if s.tracker.phase = .complete ∧ count.toNat = s.format.height then s.conformingFrame else s.breakLock
  | .locked => s.endInLocked count.toNat

/-- A frame packet is dealt with (R117). -/
def State.dealFrame (s : State) (p : FramePacket) : State :=
  match p with
  | .start n => s.dealStart n
  | .line number pixels => s.dealLine number pixels
  | .ending _ count _ => s.dealEnd count

/-! ## Waiting frame packets (R123; assumption log 4) -/

/-- The start of an upstream frame is due: the frame packets that follow its FRAME_START wait for it (R123). -/
def Framer.upstreamDue (o : Framer) : Bool :=
  match o.due with
  | some .upstream => true
  | some .entryThenUpstream => true
  | some .entry => false
  | some .timer => false
  | some .leaveReset => false
  | none => false

/-- The output frame start that can be taken now: one that is due with no frame in progress (R140, R145, R147), or that of
an upstream frame whose switch back truncates the fallback frame in progress (R149). -/
def State.startNow (s : State) : Option StartCause :=
  match s.framer.frame with
  | none => s.framer.due
  | some _ => if s.framer.due = some .upstream ∧ s.framer.mode = .fallback then some .upstream else none

/-- Frame packets wait: for the output frame start of an upstream frame (R123), and for everything the part takes at once
(R96, R122, R140). A FORMAT commit's loss timer expiry and the channel timeouts of a start thus come before the frame
packets that waited for that start (assumption log 2, 4). -/
def State.framesWait (s : State) : Bool :=
  s.framer.upstreamDue || s.tracker.expiryDue || !s.timeoutsDue.isEmpty || s.startNow.isSome

/-- Deal with waiting frame packets in order of arrival, each as a step of its own, until they must wait again. -/
def dealWaiting : List FramePacket → State → State
  | [], s => s
  | p :: rest, s =>
    if s.framesWait then s.setTracker { s.tracker with waiting := p :: rest }
    else dealWaiting rest (s.dealFrame p).arbitrate

/-- A frame packet arrives (R117, R123): it waits behind others, or when frame packets must wait. -/
def State.arrive (s : State) (p : FramePacket) : State :=
  if s.framesWait || !s.tracker.waiting.isEmpty then
    s.setTracker { s.tracker with waiting := s.tracker.waiting ++ [p] }
  else s.dealFrame p

end Sys2Proof.Machine
end

