-- ==== Sys2Proof/Machine/Framing.lean ====
section
/-! DEFINITION. The output framer (chapter 7) with the table bank's resolution (R42 to R48) and the channels' idle frames (R95, R96): the output frame start, the emission of a line, the output frame end, and what the part takes at once before the next command. -/

namespace Sys2Proof.Machine

/-! ## Channel timeouts (R95, R96) -/

/-- A channel times out (R96): its load ends incomplete, it goes to IDLE, CHANNEL_TIMEOUT is raised. -/
def State.timeOut (s : State) (ch : Channel) : State :=
  (s.endLoad ch .partialLoad .idle).raise .channelTimeout (channelByte ch)

/-- A channel's idle frames rise at an output frame start, in state OPEN alone (R95). -/
def State.raiseIdle (s : State) (ch : Channel) : State :=
  s.updateChannel ch (fun c => if c.state = .opened then { c with idleFrames := c.idleFrames + 1 } else c)

/-- The channel's idle frames have reached the channel timeout (R96). -/
def State.timeoutReached (s : State) (ch : Channel) : Bool :=
  s.channels[ch].state == .opened && s.params.channelTimeout ≤ s.channels[ch].idleFrames

/-- A channel takes the start, its timeout included. -/
def State.channelTakesStart (s : State) (ch : Channel) : State :=
  let s := s.raiseIdle ch
  if s.timeoutReached ch then s.timeOut ch else s

/-- A channel takes the start; its timeout is due, as the step CHANNEL_TIMEOUT. -/
def State.channelCountsStart (s : State) (ch : Channel) : State :=
  let s := s.raiseIdle ch
  if s.timeoutReached ch then s.setTimeoutsDue (s.timeoutsDue ++ [ch]) else s

/-- Waiting frame packets are dealt with once they need wait no longer (R123): after the start they waited for, its channel
timeouts and the loss timer expiry it may bring (assumption log 2, 4). -/
def State.drain (s : State) : State :=
  if s.tracker.waiting.isEmpty || s.framesWait then s
  else dealWaiting s.tracker.waiting (s.setTracker { s.tracker with waiting := [] })

/-- Every channel whose timeout is still due times out, oldest first, each as a step of its own (assumption log 2). -/
def State.timeOutDue (s : State) : State :=
  s.timeoutsDue.foldl (fun s ch => (s.timeOut ch).arbitrate) (s.setTimeoutsDue [])

/-- Every timeout still due is taken, then the frame packets that waited for it. -/
def State.takeTimeouts (s : State) : State := s.timeOutDue.drain

/-- The end of a step: the arbiter, then the waiting frame packets. -/
def State.conclude (s : State) : State := s.arbitrate.drain

/-! ## Resolution of the commit record (R42 to R48) -/

/-- What the new N does to an armed commit (R42). -/
inductive Resolution where
  | applied | missed | kept
  deriving DecidableEq, Repr

/-- The resolution of a timing at the start of the frame numbered n (R42). -/
def resolution (timing : Timing) (n : Half) : Resolution :=
  match timing with
  | .next => .applied
  | .atFrame target =>
    if target - n = 0 then .applied else if 32768 ≤ (target - n).toNat then .missed else .kept

/-- The commit is applied (R44): shadows into active copies, tables CLEAN, record empty, COMMITTED; with FORMAT named, the
loss time may have changed (R122); with CHECKS named, a runtime reset (R48). -/
def State.applyCommit (s : State) (c : Commit) : State :=
  let ts := maskTables c.mask
  let s := s.setBank { (s.bank.activate ts).setStates ts .clean with record := none }
  let s := s.raise .committed c.tag
  let s := if c.mask.getLsbD 7 then s.checkLoss else s
  if c.mask.getLsbD 6 then s.setChecker (s.checker.runtimeReset s.bank.active) else s

/-- The commit is missed (R45): tables LOADED, record empty, COMMIT_MISSED. -/
def State.missCommit (s : State) (c : Commit) : State :=
  (s.setBank { s.bank.setStates (maskTables c.mask) .loaded with record := none }).raise .commitMissed c.tag

/-- The table bank takes the start (R42). -/
def State.resolveCommit (s : State) : State :=
  match s.bank.record with
  | none => s
  | some c =>
    match resolution c.timing s.framer.n with
    | .applied => s.applyCommit c
    | .missed => s.missCommit c
    | .kept => s

/-- The active width or height differs between two states (R46). -/
def geometryChanged (before after : State) : Bool :=
  before.format.width != after.format.width || before.format.height != after.format.height

/-- The stream tracker is told of a change of geometry (R46): from LOCKED to SEARCH with STREAM_LOST(FORMAT), from
LOCKING to SEARCH without an event. The framer's response is that of R150. -/
def State.signalGeometry (s : State) : State :=
  match s.tracker.state with
  | .locked => (s.setTracker s.tracker.enterSearch).raise .streamLost LostCause.format.byte
  | .locking => s.setTracker s.tracker.enterSearch
  | .search => s

/-! ## The output frame start (R140) -/

/-- What is still due behind a start: the switch back to an upstream frame that is open already (R149). -/
def dueBehind (cause : StartCause) : Option StartCause :=
  match cause with
  | .entryThenUpstream => some .upstream
  | .upstream => none
  | .leaveReset => none
  | .timer => none
  | .entry => none

/-- F and N of the frame that starts (R141, R142). -/
def State.setNumbers (s : State) (cause : StartCause) : State :=
  let o := s.framer
  let n : Half :=
    if o.firstFrame then 0
    else match cause with
      | .upstream => s.tracker.upstreamN
      | .leaveReset => o.n + 1
      | .timer => o.n + 1
      | .entry => o.n + 1
      | .entryThenUpstream => o.n + 1
  s.setFramer
    { o with f := if o.firstFrame then o.f else o.f + 1, n := n, firstFrame := false, due := dueBehind cause }

/-- The type of the case that brings a start; a change of geometry makes it FALLBACK (R140, R150). -/
def startType (cause : StartCause) (geometry : Bool) : FrameType :=
  match cause with
  | .upstream => if geometry then .fallback else .pass
  | .leaveReset => .fallback
  | .timer => .fallback
  | .entry => .fallback
  | .entryThenUpstream => .fallback

/-- Steps 3 to 6 of R140: the frame in progress, FRAME_START on link-out, the plans of compositor and checker, and in
FALLBACK the timer from this start (R145, R150). A change of geometry has abandoned the upstream frame (R46), and with it a
switch back still due. -/
def State.beginFrame (s : State) (type : FrameType) (geometry : Bool) : State :=
  let fmt := s.format
  let o := s.framer
  let o : Framer :=
    { o with
      mode := type
      timer := if type = .fallback then some ⟨0, fmt.period⟩ else none
      switchBack := o.switchBack && !geometry
      due := if geometry then none else o.due
      frame := some ⟨type, o.n, o.f, fmt.height, 0⟩
      handed := []
      building := [s.store.cells] }
  let s := s.setFramer (o.emit (.frameStart o.n))
  let s := s.setPlan (some (formPlan s.bank.active type o.f))
  s.setChecker (s.checker.formPlan s.bank.active o.f fmt.width fmt.height)

/-- The switch back that the start of an upstream frame brings in FALLBACK mode (R149). -/
def State.switchBefore (s : State) (cause : StartCause) : State :=
  match cause, s.framer.mode with
  | .upstream, .fallback => s.switchToPass
  | .upstream, .pass => s
  | .leaveReset, _ => s
  | .timer, _ => s
  | .entry, _ => s
  | .entryThenUpstream, _ => s

/-- The output frame start (R140). `first` are the channels that take the announcement before the table bank, `mid`
those between the table bank and the tracker; the others take it after them (R190; assumption log 3). -/
def State.takeStart (s : State) (cause : StartCause) (first mid : List Channel) : State :=
  let first := first.eraseDups
  let mid := (mid.filter (fun c => !first.contains c)).eraseDups
  let rest := allChannels.filter (fun c => !first.contains c && !mid.contains c)
  let s := (s.switchBefore cause).setNumbers cause
  let s := first.foldl State.channelTakesStart s
  let resolved := s.resolveCommit
  let geometry := geometryChanged s resolved
  let s := mid.foldl State.channelTakesStart resolved
  let s := if geometry then s.signalGeometry else s
  let s := rest.foldl State.channelCountsStart s
  s.beginFrame (startType cause geometry) geometry

/-- A loss timer expiry that is due at once is taken (R122). -/
def State.takeExpiry (s : State) : State :=
  if s.tracker.expiryDue then (s.loseStream .timeout).conclude else s

/-- Take what is due at once: a loss timer expiry, then an output frame start, with the timeouts it brings; as often as
there is one. -/
def takeUrgent : Nat → State → State
  | 0, s => s
  | k + 1, s =>
    if s.tracker.expiryDue then takeUrgent k s.takeExpiry
    else
      match s.startNow with
      | none => s
      | some cause => takeUrgent k (s.takeStart cause [] []).conclude.takeTimeouts

/-- What the part takes at once, before the next command (assumption log 2): timeouts due, a loss timer expiry due, and
the output frame starts that can be taken, with the frame packets they let go. -/
def State.settle (s : State) : State :=
  takeUrgent (3 * s.tracker.waiting.length + 8) s.takeTimeouts

/-- A step of the part out of reset: what is due at once, the effect, and the end of the step. In reset nothing is
received and nothing happens (R189). -/
def State.operate (s : State) (effect : State → State) : State :=
  match s.power with
  | .running => (effect s.settle).conclude
  | .held => s
  | .clearing _ => s

/-! ## Emission (R139, R144, R159) -/

/-- The output frame end (R144): FRAME_END with TRUNCATED no, and the evaluation of the checks (R160). A run of fallback
frames that waited for this end begins now (R147; assumption log 14). -/
def State.endFrame (s : State) (f : OutputFrame) : State :=
  let s := s.setFramer { s.framer.emit (.frameEnd f.n f.height false) with frame := none }
  let s := s.evaluateChecks
  if (s.framer.due = some .entry ∨ s.framer.due = some .entryThenUpstream) ∧ s.framer.mode = .pass then
    s.setFramer { s.framer with mode := .fallback, switchBack := s.tracker.state == .locked }
  else s

/-- A composed line of the frame in progress leaves on link-out, the checks take it, and after line H - 1 the frame
ends (R139, R144, R159). -/
def State.emitComposed (s : State) (f : OutputFrame) (number : Nat) (pixels : List Pixel) : State :=
  let f' : OutputFrame := { f with lines := f.lines + 1 }
  let s := s.setFramer
    { s.framer.emit (.line number pixels) with frame := some f', building := [s.store.cells] }
  let s := s.setChecker (s.checker.takeLine number pixels)
  if f.height ≤ f'.lines then s.endFrame f' else s

/-- Link-out carries an IDLE packet: the framer has no frame packet to emit (R139). -/
def State.emitIdle (s : State) : State := s.setFramer (s.framer.emit .idle)

/-- The next line of the frame in progress (R139): in a PASS frame the oldest line in hand, if there is one; in a
FALLBACK frame the next background line (R23, R145). The lines still in hand are composed after it (R10). Without a line to
emit, link-out carries IDLE. -/
def State.emitNext (s : State) : State :=
  match s.framer.frame, s.plan with
  | some f, some plan =>
    let s1 := s.setFree (s.free + 1)
    match f.type with
    | .fallback =>
      s1.emitComposed f f.lines
        (composeLine s.bank.active plan s.framer.building s.free f.lines
          (List.replicate plan.width plan.background))
    | .pass =>
      match s.framer.handed with
      | [] => s.emitIdle
      | l :: rest =>
        let last := l.lastMoment s.free
        (s1.setFramer { s1.framer with handed := rest.map (·.composedFrom (l.moments.length - last)) }).emitComposed f
          l.number (composeLine s.bank.active plan (l.moments.take (last + 1)) s.free l.number l.pixels)
  | some _, none => s.emitIdle
  | none, _ => s.emitIdle

end Sys2Proof.Machine
end

