-- ==== Sys2Proof/Machine/LinkIn.lean ====
section
/-! DEFINITION. The packets of link-in but CONTROL (R116, R117): IDLE, the discard of a damaged packet, and the frame packets. -/

namespace Sys2Proof.Machine

/-- IDLE (R117): it does nothing but pass the moment. -/
def execIdle (s : State) : Host.Outcome State Fault Refusal := .next (s.operate id)

/-- A lock attempt has a frame open: phase RECEIVING or COMPLETE in LOCKING (R116). -/
def Tracker.attemptOpen (t : Tracker) : Bool := t.state == .locking && t.phase != .noFrame

/-- A damaged packet is discarded whole (R116): PACKET_INTEGRITY, and an open lock attempt is broken. -/
def State.discardPacket (s : State) (code : Byte) : State :=
  let s := s.raise .packetIntegrity (integrityArg code)
  if s.tracker.attemptOpen then s.breakLock else s

/-- PACKET_DISCARD (R116). -/
def execPacketDiscard (code : Byte) (s : State) : Host.Outcome State Fault Refusal :=
  .next (s.operate (·.discardPacket code))

/-- FRAME_START (R120, R121, R123). -/
def execFrameStart (n : Half) (s : State) : Host.Outcome State Fault Refusal :=
  .next (s.operate (·.arrive (.start n)))

/-- LINE (R120, R121, R124 to R127). -/
def execLine (number : Half) (pixels : List Pixel) (s : State) : Host.Outcome State Fault Refusal :=
  .next (s.operate (·.arrive (.line number pixels)))

/-- FRAME_END (R120, R121, R128). -/
def execFrameEnd (n count : Half) (flags : Byte) (s : State) : Host.Outcome State Fault Refusal :=
  .next (s.operate (·.arrive (.ending n count flags)))

end Sys2Proof.Machine
end

