-- ==== Sys2Proof/Machine/Envelope.lean ====
section
/-! DEFINITION. The envelope every CONTROL packet meets at its channel (R74 to R83): classification, the reply record, error counting and abandonment, the replay of a duplicate, and the length check of R98. -/

namespace Sys2Proof.Machine

/-- What the owner of a request decides: reply code, extra field and data (R97). -/
structure Answer where
  code : ReplyCode
  extra : Half
  data : List Byte
  deriving DecidableEq, Repr

/-- An answer without data. -/
def Answer.plain (code : ReplyCode) (extra : Half) : Answer := ⟨code, extra, []⟩

/-- The refusal of a payload whose length is not that of the parameter block, and of an unknown kind (R98). -/
def Answer.malformed : Answer := .plain .invalid 0

/-- The reply record of a taken packet (R75). -/
def Answer.reply (a : Answer) (seq : Bool) (kind : Byte) : Reply := ⟨seq, kind, a.code, a.extra, a.data⟩

/-- A fill in flight on the channel is stopped (R68); a channel in another state has none. -/
def State.stopFillOf (s : State) (ch : Channel) : State :=
  if s.channels[ch].state = .filling then s.stopFill else s

/-- The channel is abandoned (R81, steps 2 to 5): its load ends incomplete or its fill is stopped, it goes to ABANDONED
and CHANNEL_ABANDONED is raised. -/
def State.abandon (s : State) (ch : Channel) : State :=
  ((s.stopFillOf ch).endLoad ch .partialLoad .abandoned).raise .channelAbandoned (channelByte ch)

/-- The abandon test after a reply to a taken packet (R81). -/
def State.abandonTest (s : State) (ch : Channel) (code : ReplyCode) : State :=
  if code.counted = true ∧ s.params.abandonLimit ≤ s.channels[ch].errors then s.abandon ch else s

/-- The channel context after a taken packet: last reply, expected bit toggled, error count (R75, R80). -/
def ChannelContext.answered (c : ChannelContext) (r : Reply) : ChannelContext :=
  { c with last := r, expected := !c.expected, errors := errorsAfter r.code c.errors }

/-- The reply to a taken packet is built, counted and handed to the queue, then the abandon test (R75, R80, R81). -/
def State.finishTaken (s : State) (ch : Channel) (seq : Bool) (kind : Byte) (a : Answer) : State :=
  let r := a.reply seq kind
  (((s.updateChannel ch (·.answered r)).handOver ch r).abandonTest ch a.code)

/-- A duplicate is answered from the last reply, unless that reply itself is waiting (R76). -/
def State.replay (s : State) (ch : Channel) : State :=
  if s.rtq.entries.contains (.reply ch s.channels[ch].last) then s else s.handOver ch s.channels[ch].last

/-- The refusal of a packet on an ABANDONED channel (R82): it does not become the last reply. -/
def State.refuseAbandoned (s : State) (ch : Channel) (seq : Bool) (kind : Byte) : State :=
  s.handOver ch ((Answer.plain .abandoned 0).reply seq kind)

/-- Every delivery sets the channel's idle frames to 0 (R74). -/
def State.touch (s : State) (ch : Channel) : State := s.updateChannel ch (fun c => { c with idleFrames := 0 })

/-- A CONTROL packet other than ABORT is delivered to its channel (R74): refused when ABANDONED (R82), taken and acted on
when its bit is the expected one (R75), otherwise a duplicate (R76). -/
def State.deliver (s : State) (ch : Channel) (seq : Bool) (kind : Byte) (act : State → Answer × State) : State :=
  let s := s.touch ch
  if s.channels[ch].state = .abandoned then s.refuseAbandoned ch seq kind
  else if seq = s.channels[ch].expected then
    let done := act s
    done.2.finishTaken ch seq kind done.1
  else s.replay ch

/-- A request with a parameter block: INVALID, extra 0, when the payload is not one (R98), otherwise the owner acts on
the block. -/
def withBlock {α : Type} (block : Option α) (s : State) (act : α → Answer × State) : Answer × State :=
  match block with
  | none => (.malformed, s)
  | some b => act b

end Sys2Proof.Machine
end

