-- ==== Sys2Proof/Machine/Loads.lean ====
section
/-! DEFINITION. The load requests (chapter 4, sections 4.4 to 4.7): OPEN, OPEN_FILL, DATA, CLOSE and ABORT. -/

namespace Sys2Proof.Machine

/-! ## OPEN -/

/-- The table of a target id 0 to 7. -/
def tableTarget (target : Byte) : Option TableId :=
  if h : target.toNat < 8 then some ⟨target.toNat, h⟩ else none

/-- The four plane bits of a plane mask. -/
def planeBits (mask : Byte) : BitVec 4 := mask.extractLsb' 0 4

/-- The number p of selected planes (R59). -/
def planeCount (mask : Byte) : Nat := (selectedPlanes (planeBits mask)).length

/-- Write mode, plane mask, merge op, fill colour and length pass step 1 of R59. -/
def storeParamsValid (b : OpenBlock) : Bool :=
  b.mode ≤ 2 && b.planes != 0 && b.planes ≤ 15 &&
    (b.mode != 1 || (mergeOpOf b.mergeOp).isSome) &&
    (if b.mode = 2 then b.colour ≤ 15 else b.length.toNat % planeCount b.planes == 0)

/-- The addresses pass step 2 of R59. -/
def storeAddressesValid (b : OpenBlock) : Bool :=
  if b.mode = 2 then
    (if b.length = 0 then b.offset == 0 else b.offset.toNat + b.length.toNat ≤ 65536)
  else b.length != 0 && b.offset.toNat + b.length.toNat / planeCount b.planes ≤ 65536

/-- Offset and length lie inside a table (R85, step 4). -/
def tableRangeValid (t : TableId) (offset length : Nat) : Bool :=
  1 ≤ length && offset < tableSize t && offset + length ≤ tableSize t

/-- The tag of the armed commit; without one there is no tag. -/
def Bank.tag (b : Bank) : Byte :=
  match b.record with
  | some c => c.tag
  | none => 0

/-- The table bank's decision on an OPEN of a table (R30). -/
def Bank.openRefusal (b : Bank) (t : TableId) : Option Answer :=
  match b.states[t] with
  | .clean => none
  | .loaded => none
  | .partialLoad => none
  | .loading holder => some (.plain .busy (BitVec.ofNat 16 holder.val))
  | .armed => some (.plain .pending (b.tag.setWidth 16))

/-- The refusal of an OPEN of table t, by the first check that fails (R85, steps 4 and 5). -/
def tableOpenRefusal (s : State) (t : TableId) (b : OpenBlock) : Option Answer :=
  if !tableRangeValid t b.offset.toNat b.length.toNat then some (.plain .range 0) else s.bank.openRefusal t

/-- The refusal of an OPEN of the store, by the first check that fails (R59; R85, steps 3, 4 and 6). -/
def storeOpenRefusal (s : State) (b : OpenBlock) : Option Answer :=
  if !storeParamsValid b then some (.plain .invalid 0)
  else if !storeAddressesValid b then some (.plain .range 0)
  else if b.mode = 2 then s.store.fill.map (fun f => .plain .busy (BitVec.ofNat 16 f.channel.val))
  else none

/-- A channel takes up a load (R86): state, target, declared length and remaining count. -/
def State.startLoad (s : State) (ch : Channel) (state : ChannelState) (target : Target) (length : Nat) : State :=
  s.updateChannel ch
    (fun c => { c with state := state, target := some target, declared := length, remaining := length })

/-- The store mode of a PLANAR or MERGE block (R59). -/
def storeModeOf (b : OpenBlock) : StoreMode :=
  match mergeOpOf b.mergeOp with
  | some op => if b.mode = 1 then .merge op b.mask else .planar
  | none => .planar

/-- The fill record of an accepted OPEN in mode FILL (R64). -/
def fillOf (ch : Channel) (b : OpenBlock) : FillRecord :=
  { channel := ch, planes := planeBits b.planes, start := b.offset.toNat
    span := if b.length = 0 then 65536 else b.length.toNat
    colour := b.colour.extractLsb' 0 4, progress := 0, ticks := 0 }

/-- The OK answer of an accepted OPEN: extra carries the declared length (R86). -/
def openAccepted (b : OpenBlock) : Answer := .plain .ok b.length

/-- An OPEN of a table, range and bank permitting (R30, R85, R86). -/
def openTable (s : State) (ch : Channel) (t : TableId) (b : OpenBlock) : Answer × State :=
  match tableOpenRefusal s t b with
  | some a => (a, s)
  | none =>
    (openAccepted b,
      (s.startLoad ch .opened (.table t b.offset.toNat) b.length.toNat).setBank
        (s.bank.setState t (.loading ch)))

/-- An OPEN of the store (R59, R64, R86). -/
def openStore (s : State) (ch : Channel) (b : OpenBlock) : Answer × State :=
  match storeOpenRefusal s b with
  | some a => (a, s)
  | none =>
    (openAccepted b,
      if b.mode = 2 then
        (s.startLoad ch .filling .fill b.length.toNat).setStore { s.store with fill := some (fillOf ch b) }
      else
        s.startLoad ch .opened (.store (planeBits b.planes) b.offset.toNat (storeModeOf b)) b.length.toNat)

/-- An OPEN whose block is well formed, taken in IDLE (R85). -/
def openBlockInIdle (s : State) (ch : Channel) (b : OpenBlock) : Answer × State :=
  match tableTarget b.target with
  | some t => openTable s ch t b
  | none => if b.target = 8 then openStore s ch b else (.plain .invalid 0, s)

/-- An OPEN is taken (R84): the state's refusal, or in IDLE the checks of R85. No packet is taken in ABANDONED (R82). -/
def actOpen (ch : Channel) (payload : List Byte) (s : State) : Answer × State :=
  match s.channels[ch].state with
  | .idle => withBlock (openBlock payload) s (openBlockInIdle s ch)
  | .opened => (.plain .state 1, s)
  | .filling => (.plain .busy (BitVec.ofNat 16 ch.val), s)
  | .abandoned => (.plain .abandoned 0, s)

/-- OPEN (R84 to R86). -/
def execOpenReq (ch : Channel) (seq : Bool) (payload : List Byte) (s : State) : Host.Outcome State Fault Refusal :=
  .next (s.operate (·.deliver ch seq 0x01 (actOpen ch payload)))

/-- OPEN_FILL (R64, R84 to R86): an OPEN packet, dealt with as every OPEN packet is. -/
def execOpenFill (ch : Channel) (seq : Bool) (payload : List Byte) (s : State) : Host.Outcome State Fault Refusal :=
  .next (s.operate (·.deliver ch seq 0x01 (actOpen ch payload)))

/-! ## DATA -/

/-- The remaining count as an extra field. -/
def ChannelContext.remainingExtra (c : ChannelContext) : Half := BitVec.ofNat 16 c.remaining

/-- The segment goes to the store in mode PLANAR or MERGE. -/
def Target.isStoreLoad : Option Target → Bool
  | some (.store _ _ _) => true
  | some (.table _ _) => false
  | some .fill => false
  | none => false

/-- The refusal of a segment taken in OPEN, by the first check that fails (R88). -/
def dataRefusal (s : State) (c : ChannelContext) (length : Nat) : Option ReplyCode :=
  if length = 0 then some .invalid
  else if c.remaining < length then some .overrun
  else if Target.isStoreLoad c.target = true ∧ s.store.held = true then some .busy
  else none

/-- Write an accepted segment where the load stands (R89, R90). -/
def State.writeSegment (s : State) (c : ChannelContext) (payload : List Byte) : State :=
  match c.target with
  | some (.table t offset) =>
    s.setBank
      { s.bank with shadow := tableWriteRun s.bank.shadow t (offset + (c.declared - c.remaining)) payload }
  | some (.store planes start mode) =>
    s.writeStore
      (storeSegment (selectedPlanes planes) start mode (c.declared - c.remaining) s.store.cells payload)
  | some .fill => s
  | none => s

/-- An accepted segment: written, the remaining count lowered by its length, OK with the new count (R89, R90). -/
def acceptSegment (s : State) (ch : Channel) (c : ChannelContext) (payload : List Byte) : Answer × State :=
  let left := c.remaining - payload.length
  (.plain .ok (BitVec.ofNat 16 left),
    (s.writeSegment c payload).updateChannel ch (fun c => { c with remaining := left }))

/-- A segment taken in OPEN (R88). -/
def dataInOpen (s : State) (ch : Channel) (payload : List Byte) : Answer × State :=
  let c := s.channels[ch]
  match dataRefusal s c payload.length with
  | some code => (.plain code c.remainingExtra, s)
  | none => acceptSegment s ch c payload

/-- A DATA packet is taken (R87). -/
def actData (ch : Channel) (payload : List Byte) (s : State) : Answer × State :=
  match s.channels[ch].state with
  | .idle => (.plain .state 0, s)
  | .opened => dataInOpen s ch payload
  | .filling => (.plain .busy s.channels[ch].remainingExtra, s)
  | .abandoned => (.plain .abandoned 0, s)

/-- DATA (R87 to R90). -/
def execData (ch : Channel) (seq : Bool) (payload : List Byte) (s : State) : Host.Outcome State Fault Refusal :=
  .next (s.operate (·.deliver ch seq 0x02 (actData ch payload)))

/-! ## CLOSE -/

/-- A CLOSE taken in OPEN ends the load, by the remaining count (R91); a payload is refused and the load stays open
(R98). -/
def closeInOpen (s : State) (ch : Channel) (payload : List Byte) : Answer × State :=
  if payload ≠ [] then (.malformed, s)
  else if s.channels[ch].remaining = 0 then (.plain .ok 0, s.endLoad ch .loaded .idle)
  else (.plain .underrun s.channels[ch].remainingExtra, s.endLoad ch .partialLoad .idle)

/-- A CLOSE is taken (R91, R92). -/
def actClose (ch : Channel) (payload : List Byte) (s : State) : Answer × State :=
  match s.channels[ch].state with
  | .idle => (.plain .state 0, s)
  | .opened => closeInOpen s ch payload
  | .filling => (.plain .busy (BitVec.ofNat 16 ch.val), s)
  | .abandoned => (.plain .abandoned 0, s)

/-- CLOSE (R91, R92). -/
def execClose (ch : Channel) (seq : Bool) (payload : List Byte) (s : State) : Host.Outcome State Fault Refusal :=
  .next (s.operate (·.deliver ch seq 0x03 (actClose ch payload)))

/-! ## ABORT -/

/-- The reply to an ABORT: OK, extra carrying the state found (R93). -/
def abortReply (seq : Bool) (found : ChannelState) : Reply := ⟨seq, 0x04, .ok, BitVec.ofNat 16 found.code, []⟩

/-- An ABORT is taken (R93): load ended or fill stopped, channel IDLE, error count 0, expected bit the complement of the
packet's, reply the last reply and handed to the queue. -/
def State.takeAbort (s : State) (ch : Channel) (seq : Bool) : State :=
  let r := abortReply seq s.channels[ch].state
  let s := (s.stopFillOf ch).endLoad ch .partialLoad .idle
  (s.updateChannel ch (fun c => { c with expected := !seq, errors := 0, last := r })).handOver ch r

/-- ABORT (R93). Its payload is not examined. -/
def execAbort (ch : Channel) (seq : Bool) (_payload : List Byte) (s : State) : Host.Outcome State Fault Refusal :=
  .next (s.operate (·.takeAbort ch seq))

end Sys2Proof.Machine
end

