-- ==== Sys2Proof/Machine/Requests.lean ====
section
/-! DEFINITION. The single-packet requests but RESET: COMMIT, CANCEL and REVERT (chapter 2), READ, STATUS and SET_PARAM (chapter 5), and the packets of unknown kind (R98). -/

namespace Sys2Proof.Machine

/-- An answer whose extra field the spec does not state: a free value (R35, R50; assumption log 10). -/
def unstatedAnswer (code : ReplyCode) (s : State) : Answer × State :=
  (.plain code (Config.unstatedExtra s.free), s.setFree (s.free + 1))

/-- A table id as an extra field. -/
def tableExtra (t : TableId) : Half := BitVec.ofNat 16 t.val

/-- The table is LOADING. -/
def ShadowState.isLoading : ShadowState → Bool
  | .loading _ => true
  | .clean => false
  | .loaded => false
  | .partialLoad => false
  | .armed => false

/-! ## COMMIT -/

/-- The timing of a COMMIT block: NEXT or AT_FRAME (R35, R185). -/
def CommitBlock.timingOf (b : CommitBlock) : Option Timing :=
  if b.timing = 0 then some .next else if b.timing = 1 then some (.atFrame b.target) else none

/-- The refusal by the state of the bank and of the named tables, by the first test that fails (R36). -/
def Bank.commitRefusal (bank : Bank) (named : List TableId) : Option Answer :=
  match bank.record with
  | some c => some (.plain .pending (c.tag.setWidth 16))
  | none =>
    match named.find? (fun t => bank.states[t].isLoading) with
    | some t => some (.plain .busy (tableExtra t))
    | none => (named.find? (fun t => bank.states[t] == .partialLoad)).map (fun t => .plain .incomplete (tableExtra t))

/-- A target N is LATE against the current N (R37). -/
def targetLate (timing : Timing) (n : Half) : Bool :=
  match timing with
  | .next => false
  | .atFrame target => target - n = 0 || 32768 ≤ (target - n).toNat

/-- Table id and record index as an extra field: low byte the record index, high byte the table id (R186). -/
def recordExtra (t : TableId) (index : Nat) : Half := BitVec.ofNat 16 (256 * t.val + index)

/-- The refusal of a COMMIT with a known timing and a mask other than 0, by the first test that fails (R36 to R38). -/
def commitRefusal (s : State) (b : CommitBlock) (timing : Timing) : Option Answer :=
  match s.bank.commitRefusal (maskTables b.mask) with
  | some a => some a
  | none =>
    if targetLate timing s.framer.n = true then some (.plain .late s.framer.n)
    else (firstRejected s.bank.shadow (maskTables b.mask)).map (fun r => .plain .rejected (recordExtra r.1 r.2))

/-- The commit is armed (R41): every named table ARMED, the record filled. -/
def Bank.arm (bank : Bank) (mask : Byte) (timing : Timing) (tag : Byte) : Bank :=
  { bank.setStates (maskTables mask) .armed with record := some ⟨mask, timing, tag⟩ }

/-- The table bank on a COMMIT (R35 to R41). -/
def commitOf (s : State) (b : CommitBlock) : Answer × State :=
  match b.timingOf with
  | none => unstatedAnswer .invalid s
  | some timing =>
    if b.mask = 0 then unstatedAnswer .invalid s
    else
      match commitRefusal s b timing with
      | some a => (a, s)
      | none => (.plain .ok s.framer.n, s.setBank (s.bank.arm b.mask timing b.tag))

/-- A COMMIT is taken. -/
def actCommit (payload : List Byte) (s : State) : Answer × State :=
  withBlock (commitBlock payload) s (commitOf s)

/-- COMMIT (R35 to R41). -/
def execCommit (ch : Channel) (seq : Bool) (payload : List Byte) (s : State) : Host.Outcome State Fault Refusal :=
  .next (s.operate (·.deliver ch seq 0x05 (actCommit payload)))

/-! ## CANCEL -/

/-- The armed commit is withdrawn (R49): its tables LOADED, the record empty. -/
def Bank.cancel (bank : Bank) : Bank :=
  match bank.record with
  | some c => { bank.setStates (maskTables c.mask) .loaded with record := none }
  | none => bank

/-- A CANCEL is taken (R49): extra says whether a commit was armed. -/
def actCancel (payload : List Byte) (s : State) : Answer × State :=
  if payload ≠ [] then (.malformed, s)
  else (.plain .ok (if s.bank.record.isSome then 1 else 0), s.setBank s.bank.cancel)

/-- CANCEL (R49). -/
def execCancel (ch : Channel) (seq : Bool) (payload : List Byte) (s : State) : Host.Outcome State Fault Refusal :=
  .next (s.operate (·.deliver ch seq 0x06 (actCancel payload)))

/-! ## REVERT -/

/-- The refusal by the states of the named tables, by the first test that fails (R50). -/
def Bank.revertRefusal (bank : Bank) (named : List TableId) : Option Answer :=
  match named.find? (fun t => bank.states[t].isLoading) with
  | some t => some (.plain .busy (tableExtra t))
  | none => (named.find? (fun t => bank.states[t] == .armed)).map (fun t => .plain .pending (tableExtra t))

/-- The named shadows are discarded (R50): active copied into shadow, every named table CLEAN. -/
def Bank.revert (bank : Bank) (named : List TableId) : Bank := (bank.restore named).setStates named .clean

/-- The table bank on a REVERT (R50). -/
def revertOf (s : State) (mask : Byte) : Answer × State :=
  if mask = 0 then unstatedAnswer .invalid s
  else
    match s.bank.revertRefusal (maskTables mask) with
    | some a => (a, s)
    | none => (.plain .ok (mask.setWidth 16), s.setBank (s.bank.revert (maskTables mask)))

/-- A REVERT is taken. -/
def actRevert (payload : List Byte) (s : State) : Answer × State :=
  withBlock (byteBlock payload) s (revertOf s)

/-- REVERT (R50). -/
def execRevert (ch : Channel) (seq : Bool) (payload : List Byte) (s : State) : Host.Outcome State Fault Refusal :=
  .next (s.operate (·.deliver ch seq 0x07 (actRevert payload)))

/-! ## READ -/

/-- The bytes of one plane of the store from an address on (R70). -/
def storeBytes (cells : Memory) (plane : Fin 4) (start length : Nat) : List Byte :=
  (List.range length).map (fun i => storeRead cells plane (BitVec.ofNat 16 (start + i)))

/-- The plane of a plane field 0 to 3. -/
def planeOf (plane : Byte) : Option (Fin 4) := if h : plane.toNat < 4 then some ⟨plane.toNat, h⟩ else none

/-- Steps 1 and 2 of R102: target id, and for a table the copy selector. -/
def readTargetValid (b : ReadBlock) : Bool :=
  b.target ≤ 9 && (8 ≤ b.target || b.selector ≤ 1)

/-- The bytes a READ names, when its range lies inside the target (R102 step 4, R103, R104, R70). -/
def readBytes (s : State) (b : ReadBlock) : Option (List Byte) :=
  match tableTarget b.target with
  | some t =>
    if b.offset.toNat + b.length.toNat ≤ tableSize t then
      some (tableBytes (if b.selector = 0 then s.bank.shadow else s.bank.active) t b.offset.toNat b.length.toNat)
    else none
  | none =>
    if b.target = 8 then
      match planeOf b.plane with
      | some plane =>
        if b.offset.toNat + b.length.toNat ≤ 65536 then
          some (storeBytes s.store.cells plane b.offset.toNat b.length.toNat)
        else none
      | none => none
    else if b.offset.toNat + b.length.toNat ≤ 120 then
      some (((runtimeArea s.checker.records).drop b.offset.toNat).take b.length.toNat)
    else none

/-- The answer to a READ (R102): the first check that fails, otherwise OK with the bytes, extra the length. -/
def readAnswer (s : State) (b : ReadBlock) : Answer :=
  if !readTargetValid b then .plain .invalid 0
  else if b.length = 0 ∨ 64 < b.length then .plain .range 0
  else
    match readBytes s b with
    | some bytes => ⟨.ok, b.length.setWidth 16, bytes⟩
    | none => .plain .range 0

/-- A READ is taken; it changes nothing it reads (R102). -/
def actRead (payload : List Byte) (s : State) : Answer × State :=
  withBlock (readBlock payload) s (fun b => (readAnswer s b, s))

/-- READ (R70, R102 to R104). -/
def execRead (ch : Channel) (seq : Bool) (payload : List Byte) (s : State) : Host.Outcome State Fault Refusal :=
  .next (s.operate (·.deliver ch seq 0x08 (actRead payload)))

/-! ## STATUS -/

/-- A STATUS is taken (R105): OK, extra 0, the status summary. -/
def actStatus (payload : List Byte) (s : State) : Answer × State :=
  if payload ≠ [] then (.malformed, s) else (⟨.ok, 0, statusSummary s⟩, s)

/-- STATUS (R105, R106). -/
def execStatus (ch : Channel) (seq : Bool) (payload : List Byte) (s : State) : Host.Outcome State Fault Refusal :=
  .next (s.operate (·.deliver ch seq 0x09 (actStatus payload)))

/-! ## SET_PARAM -/

/-- An operating parameter (R107). -/
inductive ParamId where
  | channelTimeout | abandonLimit | lossMultiple | lockCount | faultLimit | eventMask
  deriving DecidableEq, Repr

/-- The parameter of an id 0 to 5 (R107). -/
def paramOf (id : Byte) : Option ParamId :=
  match id.toNat with
  | 0 => some .channelTimeout
  | 1 => some .abandonLimit
  | 2 => some .lossMultiple
  | 3 => some .lockCount
  | 4 => some .faultLimit
  | 5 => some .eventMask
  | _ => none

/-- The least value of a parameter (R107). -/
def ParamId.least : ParamId → Nat
  | .channelTimeout => 1
  | .abandonLimit => 1
  | .lossMultiple => 2
  | .lockCount => 1
  | .faultLimit => 1
  | .eventMask => 0

/-- The greatest value of a parameter (R107). -/
def ParamId.greatest : ParamId → Nat
  | .channelTimeout => 255
  | .abandonLimit => 7
  | .lossMultiple => 15
  | .lockCount => 7
  | .faultLimit => 15
  | .eventMask => 2047

/-- The value a parameter holds. -/
def Params.get (p : Params) : ParamId → Nat
  | .channelTimeout => p.channelTimeout
  | .abandonLimit => p.abandonLimit
  | .lossMultiple => p.lossMultiple
  | .lockCount => p.lockCount
  | .faultLimit => p.faultLimit
  | .eventMask => p.eventMask.toNat

/-- Set a parameter. -/
def Params.set (p : Params) (id : ParamId) (v : Nat) : Params :=
  match id with
  | .channelTimeout => { p with channelTimeout := v }
  | .abandonLimit => { p with abandonLimit := v }
  | .lossMultiple => { p with lossMultiple := v }
  | .lockCount => { p with lockCount := v }
  | .faultLimit => { p with faultLimit := v }
  | .eventMask => { p with eventMask := BitVec.ofNat 11 v }

/-- A parameter takes a value (R108); a new loss multiple is measured against the time already elapsed (R122). -/
def State.setParam (s : State) (id : ParamId) (v : Nat) : State :=
  let s := s.setParams (s.params.set id v)
  if id = .lossMultiple then s.checkLoss else s

/-- The control decoder on a SET_PARAM (R108): extra carries the value held before, or the one kept. -/
def setParamOf (s : State) (b : Byte × Half) : Answer × State :=
  match paramOf b.1 with
  | none => (.plain .range 0, s)
  | some id =>
    let held := BitVec.ofNat 16 (s.params.get id)
    if id.least ≤ b.2.toNat ∧ b.2.toNat ≤ id.greatest then
      (.plain .ok held, s.setParam id b.2.toNat)
    else (.plain .range held, s)

/-- A SET_PARAM is taken. -/
def actSetParam (payload : List Byte) (s : State) : Answer × State :=
  withBlock (paramBlock payload) s (setParamOf s)

/-- SET_PARAM (R108). -/
def execSetParam (ch : Channel) (seq : Bool) (payload : List Byte) (s : State) : Host.Outcome State Fault Refusal :=
  .next (s.operate (·.deliver ch seq 0x0A (actSetParam payload)))

/-! ## Unknown kinds -/

/-- UNKNOWN_REQUEST (R98): INVALID, extra 0, with the kind code as received. -/
def execUnknownRequest (ch : Channel) (seq : Bool) (kind : Byte) (_payload : List Byte) (s : State) :
    Host.Outcome State Fault Refusal :=
  .next (s.operate (·.deliver ch seq kind (fun s => (.malformed, s))))

end Sys2Proof.Machine
end

