-- ==== Sys2Proof/Machine/Resets.lean ====
section
/-! DEFINITION. The resets: the management RESET in its two scopes (R99, R111 to R114), power-on reset, the release of RESETN and leaving reset (R152, R189). -/

namespace Sys2Proof.Machine

/-! ## Management RESET -/

/-- One channel under a management RESET (R99): IDLE from any state, its load ended incomplete, error count 0. -/
def State.resetChannel (s : State) (ch : Channel) : State :=
  (s.endLoad ch .partialLoad .idle).updateChannel ch (fun c => { c with errors := 0 })

/-- Scope CHANNELS (R112): every channel reset, the fill stopped, every waiting reply removed. -/
def State.resetAllChannels (s : State) : State :=
  let s := allChannels.foldl State.resetChannel s.stopFill
  s.setRtq s.rtq.removeReplies

/-- Step 1 of scope STATE (R52, R113): the record empty, every shadow equal to its active copy, every table CLEAN. -/
def Bank.resetState (b : Bank) : Bank := { (b.restore allTables).setStates allTables .clean with record := none }

/-- Scope STATE (R113): scope CHANNELS, then bank, checker, queue, parameters and tracker, in this order. -/
def State.resetManagement (s : State) : State :=
  let s := s.resetAllChannels
  let s := s.setBank s.bank.resetState
  let s := s.setChecker (s.checker.runtimeReset s.bank.active)
  let s := s.setRtq s.rtq.removeEvents
  let s := s.setParams .default
  s.loseStream .reset

/-- A RESET by its scope (R111): extra carries the scope; any other scope is refused and resets nothing. -/
def resetOf (s : State) (scope : Byte) : Answer × State :=
  if scope = 0 then (.plain .ok 0, s.resetAllChannels)
  else if scope = 1 then (.plain .ok 1, s.resetManagement)
  else (.plain .invalid 0, s)

/-- A RESET is taken. -/
def actReset (payload : List Byte) (s : State) : Answer × State :=
  withBlock (byteBlock payload) s (resetOf s)

/-- RESET_CHANNELS (R111, R112), with the RESET packets of any scope but STATE. -/
def execResetChannels (ch : Channel) (seq : Bool) (payload : List Byte) (s : State) :
    Host.Outcome State Fault Refusal :=
  .next (s.operate (·.deliver ch seq 0x0B (actReset payload)))

/-- RESET_STATE (R111, R113, R114). -/
def execResetState (ch : Channel) (seq : Bool) (payload : List Byte) (s : State) :
    Host.Outcome State Fault Refusal :=
  .next (s.operate (·.deliver ch seq 0x0B (actReset payload)))

/-! ## Power-on reset -/

/-- RESETN goes low for power-on reset (R189): every block at its power-on values, whatever was in progress cut short.
The queue of commands, the free-value counter and what has been observed on link-out, the return lane and FAULT are the
model's own and stay (assumption log 17). -/
def State.holdReset (s : State) : State :=
  { State.powerOn .held with
    pending := s.pending
    free := s.free
    framer := { Framer.powerOn with linkOut := s.framer.linkOut }
    rtq := { Rtq.powerOn with sent := s.rtq.sent }
    checker := { Checker.powerOn with pinLog := s.checker.pinLog ++ if s.checker.pin then [false] else [] } }

/-- A pulse shorter than 10 us resets or is ignored (R189): a free value decides (assumption log 9). -/
def State.shortPulse (s : State) : State :=
  let after := s.setFree (s.free + 1)
  if Config.shortPulseApplies s.free then after.holdReset else after

/-- POWER_ON_RESET (R189). -/
def execPowerOnReset (pulse : Nat) (s : State) : Host.Outcome State Fault Refusal :=
  .next (if Config.resetPulse ≤ pulse then s.holdReset else s.shortPulse)

/-- RESETN goes high (R189): the store is cleared and the tables set to their defaults. -/
def State.releaseReset (s : State) : State :=
  match s.power with
  | .held => ((s.setStore .powerOn).setBank .powerOn).setPower (.clearing 0)
  | .clearing _ => s
  | .running => s

/-- RESETN_RELEASE (R189). -/
def execResetnRelease (s : State) : Host.Outcome State Fault Refusal := .next s.releaseReset

/-- The part leaves reset and takes the first output frame start at once (R152, R189). -/
def State.leaveReset (s : State) : State :=
  match s.power with
  | .held => s
  | .clearing _ => ((s.setPower .running).takeStart .leaveReset [] []).conclude
  | .running => s

/-- LEAVE_RESET (R152, R189). -/
def execLeaveReset (s : State) : Host.Outcome State Fault Refusal := .next s.leaveReset

end Sys2Proof.Machine
end

