-- ==== Sys2Proof/Machine/Timing.lean ====
section
/-! DEFINITION. The part's own events: the loss and fallback timers (R122, R145), the output frame start (R140), the channel timeout (R96), the emission of a line (R139), the fill (R65, R67) and the completion of a message (R177). An event whose condition is not met has no effect (assumption log 1). -/

namespace Sys2Proof.Machine

/-- The loss timer expires (R122): an expiry that is due at once is taken before whatever else is due (assumption log 2);
otherwise the running timer expires. -/
def State.expireLoss (s : State) : State :=
  if s.tracker.expiryDue then s.takeExpiry else s.operate State.loseByTimeout

/-- LOSS_TIMER_EXPIRY (R122). -/
def execLossTimerExpiry (s : State) : Host.Outcome State Fault Refusal :=
  match s.power with
  | .running => .next s.expireLoss
  | .held => .next s
  | .clearing _ => .next s

/-- The fallback frame timer expires (R145): the next fallback frame is due. -/
def State.expireFallback (s : State) : State :=
  if s.framer.mode = .fallback ∧ s.framer.timer.isSome = true ∧ s.framer.due = none then
    s.setFramer { s.framer with due := some .timer }
  else s

/-- FALLBACK_TIMER_EXPIRY (R145). -/
def execFallbackTimerExpiry (s : State) : Host.Outcome State Fault Refusal := .next (s.operate State.expireFallback)

/-- The output frame start that is due is taken, the blocks in the order given (R140, R190). -/
def State.takeDueStart (s : State) (first mid : List Channel) : State :=
  match s.startNow with
  | some cause => (s.takeStart cause first mid).conclude
  | none => s

/-- OUTPUT_FRAME_START (R140). -/
def execOutputFrameStart (first mid : List Channel) (s : State) : Host.Outcome State Fault Refusal :=
  match s.power with
  | .running => .next (s.takeTimeouts.takeExpiry.takeDueStart first mid)
  | .held => .next s
  | .clearing _ => .next s

/-- A channel timeout that is due is taken (R96). -/
def State.takeTimeout (s : State) (ch : Channel) : State :=
  if s.timeoutsDue.contains ch then
    ((s.setTimeoutsDue (s.timeoutsDue.erase ch)).timeOut ch).conclude
  else s

/-- CHANNEL_TIMEOUT (R96). -/
def execChannelTimeout (ch : Channel) (s : State) : Host.Outcome State Fault Refusal :=
  match s.power with
  | .running => .next (s.takeTimeout ch)
  | .held => .next s
  | .clearing _ => .next s

/-- EMIT_LINE (R139). -/
def execEmitLine (s : State) : Host.Outcome State Fault Refusal := .next (s.operate State.emitNext)

/-- A fill in flight with its span not yet written takes a step (R65). -/
def State.stepFill (s : State) : State :=
  match s.store.fill with
  | some f => if f.progress < f.span then s.fillOnce f else s
  | none => s

/-- FILL_STEP (R65). -/
def execFillStep (s : State) : Host.Outcome State Fault Refusal := .next (s.operate State.stepFill)

/-- A fill that has written its span completes (R67). -/
def State.endFill (s : State) : State :=
  match s.store.fill with
  | some f => if f.progress = f.span then s.completeFill f else s
  | none => s

/-- FILL_COMPLETION (R67). -/
def execFillCompletion (s : State) : Host.Outcome State Fault Refusal := .next (s.operate State.endFill)

/-- The message in flight completes (R177, R178). -/
def State.completeMessage (s : State) : State := s.setRtq s.rtq.complete

/-- MESSAGE_COMPLETION (R177). -/
def execMessageCompletion (s : State) : Host.Outcome State Fault Refusal := .next (s.operate State.completeMessage)

end Sys2Proof.Machine
end

