-- ==== Sys2Proof/Machine/Dispatch.lean ====
section
/-! DEFINITION. The effect of a command: one arm per constructor. -/

namespace Sys2Proof.Machine

/-- The command's effect on everything but the queue. -/
def exec (i : Instr) (s : State) : Host.Outcome State Fault Refusal :=
  match i with
  | .idle => Sys2Proof.Machine.execIdle s
  | .packetDiscard code => Sys2Proof.Machine.execPacketDiscard code s
  | .frameStart n => Sys2Proof.Machine.execFrameStart n s
  | .line number pixels => Sys2Proof.Machine.execLine number pixels s
  | .frameEnd n count flags => Sys2Proof.Machine.execFrameEnd n count flags s
  | .lossTimerExpiry => Sys2Proof.Machine.execLossTimerExpiry s
  | .fallbackTimerExpiry => Sys2Proof.Machine.execFallbackTimerExpiry s
  | .outputFrameStart first mid => Sys2Proof.Machine.execOutputFrameStart first mid s
  | .channelTimeout ch => Sys2Proof.Machine.execChannelTimeout ch s
  | .emitLine => Sys2Proof.Machine.execEmitLine s
  | .openReq ch seq payload => Sys2Proof.Machine.execOpenReq ch seq payload s
  | .openFill ch seq payload => Sys2Proof.Machine.execOpenFill ch seq payload s
  | .data ch seq payload => Sys2Proof.Machine.execData ch seq payload s
  | .close ch seq payload => Sys2Proof.Machine.execClose ch seq payload s
  | .abort ch seq payload => Sys2Proof.Machine.execAbort ch seq payload s
  | .commit ch seq payload => Sys2Proof.Machine.execCommit ch seq payload s
  | .cancel ch seq payload => Sys2Proof.Machine.execCancel ch seq payload s
  | .revert ch seq payload => Sys2Proof.Machine.execRevert ch seq payload s
  | .read ch seq payload => Sys2Proof.Machine.execRead ch seq payload s
  | .status ch seq payload => Sys2Proof.Machine.execStatus ch seq payload s
  | .setParam ch seq payload => Sys2Proof.Machine.execSetParam ch seq payload s
  | .resetChannels ch seq payload => Sys2Proof.Machine.execResetChannels ch seq payload s
  | .resetState ch seq payload => Sys2Proof.Machine.execResetState ch seq payload s
  | .unknownRequest ch seq kind payload => Sys2Proof.Machine.execUnknownRequest ch seq kind payload s
  | .fillStep => Sys2Proof.Machine.execFillStep s
  | .fillCompletion => Sys2Proof.Machine.execFillCompletion s
  | .messageCompletion => Sys2Proof.Machine.execMessageCompletion s
  | .powerOnReset pulse => Sys2Proof.Machine.execPowerOnReset pulse s
  | .resetnRelease => Sys2Proof.Machine.execResetnRelease s
  | .leaveReset => Sys2Proof.Machine.execLeaveReset s

end Sys2Proof.Machine
end

