-- ==== Sys2Proof/Machine/Clock.lean ====
section
/-! DEFINITION. Time (assumption log 7): what an idle moment of the part does. Either an event whose time has come is taken, or one tick of 0.2 us passes. -/

namespace Sys2Proof.Machine

/-- The message in flight has been on the lane for its length (R177). -/
def State.messageTimeUp (s : State) : Bool :=
  match s.rtq.inFlight with
  | some m => Config.ticksPerLaneByte * m.bytes.length ≤ s.rtq.laneTicks
  | none => false

/-- The fallback frame timer has reached its T, and no start is due (R145). -/
def State.fallbackTimeUp (s : State) : Bool :=
  match s.framer.timer with
  | some t =>
    s.framer.mode == .fallback && s.framer.due == none && Config.ticksPerMicrosecond * t.period ≤ t.ticks
  | none => false

/-- One more tick would bring the fill past its bound of (span / 256) x 2 us (R66). -/
def State.fillTimeUp (s : State) : Bool :=
  match s.store.fill with
  | some f => 2 * Config.ticksPerMicrosecond * f.span < 256 * (f.ticks + 1)
  | none => false

/-- A number of fill steps. -/
def fillSteps : Nat → State → State
  | 0, s => s
  | k + 1, s => fillSteps k s.stepFill

/-- The fill takes the steps it has left and completes (R66, R67). -/
def State.finishFill (s : State) : State :=
  match s.store.fill with
  | some f => (fillSteps (f.span - f.progress) s).endFill
  | none => s

/-- One tick passes on every running clock. -/
def State.tick (s : State) : State :=
  let s := s.setTracker { s.tracker with lossTimer := s.tracker.lossTimer.map (· + 1) }
  let s := s.setFramer { s.framer with timer := s.framer.timer.map (fun t => { t with ticks := t.ticks + 1 }) }
  let s := s.setStore { s.store with fill := s.store.fill.map (fun f => { f with ticks := f.ticks + 1 }) }
  s.setRtq { s.rtq with laneTicks := if s.rtq.inFlight.isSome then s.rtq.laneTicks + 1 else s.rtq.laneTicks }

/-- Nothing is left that the part takes at once. -/
def State.settled (s : State) : Bool := s.timeoutsDue.isEmpty && !s.tracker.expiryDue && s.startNow.isNone

/-- An idle moment of the running part: what is due at once, otherwise the first event whose time has come, otherwise a
tick. -/
def State.idleRunning (s : State) : State :=
  if !s.settled then s.settle
  else if s.messageTimeUp then s.operate State.completeMessage
  else if s.lossTimeUp then s.operate State.loseByTimeout
  else if s.fallbackTimeUp then s.operate State.expireFallback
  else if s.fillTimeUp then s.operate State.finishFill
  else s.tick

/-- An idle moment. The part leaves reset 1,000 us after RESETN goes high at the latest (R189). -/
def State.idle (s : State) : State :=
  match s.power with
  | .running => s.idleRunning
  | .held => s
  | .clearing t =>
    if Config.ticksPerMicrosecond * Config.leaveResetBound ≤ t then s.leaveReset else s.setPower (.clearing (t + 1))

end Sys2Proof.Machine
end

