-- ==== Sys2Proof/Safety.lean ====
section
/-! DEFINITION. Safety: the states between commands, the invariants of the blocks, and the shape of the state an answered packet leaves. -/

namespace Sys2Proof.Machine

/-! ## Between commands -/

/-- Running, with nothing left that the part takes at once (assumption log 2, 4): no channel timeout and no loss timer expiry
due, no output frame start that could be taken, and no frame packet waiting that need not wait. -/
def State.steady (s : State) : Prop :=
  s.power = .running ∧ s.settled = true ∧ (s.tracker.waiting.isEmpty || s.framesWait) = true

/-- The event kinds, arguments and counts aside, the queue keeps its bounds (R170). -/
def Rtq.bounded (q : Rtq) : Prop :=
  q.entries.length ≤ 16 ∧ q.entries.countP Entry.isEvent ≤ 12 ∧
    ∀ ch : Channel, q.entries.countP (Entry.isReplyOf ch) ≤ 1

/-- While the lane is FREE no entry waits: the arbiter would have started it (R176). -/
def Rtq.laneKept (q : Rtq) : Prop := q.inFlight = none → q.entries = []

/-- An event entry's count is 1 to 255 (R169). -/
def Entry.countFits : Entry → Prop
  | .reply _ _ => True
  | .event e => 1 ≤ e.count ∧ e.count ≤ 255

/-- The counts of the queue stay in their ranges (R169, R174, R175). -/
def Rtq.countsFit (q : Rtq) : Prop :=
  q.lost ≤ 255 ∧ q.lostInFlight ≤ 255 ∧ ∀ e ∈ q.entries, e.countFits

/-! ## Memories -/

/-- Every table of a copy is in canonical form. -/
def copyWf (copy : Vector Memory 8) : Prop := ∀ t : TableId, (copy[t].wf (tableDefault t)) = true

/-- The store and both copies of every table are in canonical form. -/
def State.memoriesCanonical (s : State) : Prop :=
  s.store.cells.wf storeDefault = true ∧ copyWf s.bank.shadow ∧ copyWf s.bank.active

/-! ## Channels, tables and the fill -/

/-- A channel's target agrees with its state (R73), and the remaining count is at most the declared length (R89), which
is a 16-bit field (R84). -/
def ChannelContext.fits (c : ChannelContext) : Prop :=
  c.remaining ≤ c.declared ∧ c.declared ≤ 65535 ∧
    match c.state with
    | .idle => c.target = none
    | .opened => c.target.isSome ∧ c.target ≠ some .fill
    | .filling => c.target = some .fill
    | .abandoned => c.target = none

/-- Every channel context fits. -/
def channelsFit (cs : Vector ChannelContext 4) : Prop := ∀ ch : Channel, cs[ch].fits

/-- A table is LOADING under a channel exactly while that channel's load names it (R29, R30, R94). -/
def tablesHeld (states : Vector ShadowState 8) (cs : Vector ChannelContext 4) : Prop :=
  ∀ (t : TableId) (ch : Channel), states[t] = .loading ch ↔ Target.tableOf cs[ch].target = some t

/-- A table is ARMED exactly while the commit record names it (R29, R34). -/
def recordArmed (b : Bank) : Prop :=
  ∀ t : TableId, b.states[t] = .armed ↔ ∃ c, b.record = some c ∧ c.mask.getLsbD t.val = true

/-- A channel is FILLING exactly while the fill record is its own (R56, R64, R67, R68). -/
def fillHeld (fill : Option FillRecord) (cs : Vector ChannelContext 4) : Prop :=
  ∀ ch : Channel, cs[ch].state = .filling ↔ fill.map FillRecord.channel = some ch

/-- Who holds what: channels, tables, commit record and write port agree. -/
def State.ownership (s : State) : Prop :=
  channelsFit s.channels ∧ tablesHeld s.bank.states s.channels ∧ recordArmed s.bank ∧
    fillHeld s.store.fill s.channels

/-! ## Checker, tracker and parameters -/

/-- The FAULT pin is asserted exactly while some check is FAILING (R164). -/
def Checker.pinFollows (c : Checker) : Prop := c.pin = anyFailing c.records

/-- The line memory keeps its 2,048 positions (R118). -/
def Tracker.memoryWhole (t : Tracker) : Prop := t.lineMemory.length = lineMemorySize

/-- Every operating parameter is in its range (R107). -/
def Params.inRange (p : Params) : Prop :=
  ∀ id : ParamId, id.least ≤ p.get id ∧ p.get id ≤ id.greatest

/-! ## Tracker and framer -/

/-- The tracker after an entry into SEARCH (R119): frame number, line memory and waiting packets kept. -/
def Tracker.cleared (t : Tracker) : Tracker :=
  { t with
    state := .search, phase := .noFrame, expected := 0, conforming := 0, faultyFrames := 0, frameFaulty := false
    lossTimer := none, expiryDue := false }

/-- The substitute line of line `number` as handed over now (R133): W substitute pixels, fetched from the store from now
on. -/
def State.substituteLine (s : State) (number : Nat) : HandedLine :=
  ⟨number, .substitute,
    (List.range s.format.width).map (fun c =>
      if s.format.policy = 1 then s.tracker.lineMemory.getD c ⟨0, 0, 0⟩ else s.format.background),
    [s.store.cells]⟩

/-- The substitute lines of `count` line numbers from `start` on, in ascending order. -/
def State.substituteLines (s : State) (start count : Nat) : List HandedLine :=
  (List.range count).map (fun i => s.substituteLine (start + i))

/-- Line n as forwarded now (R124, R127): its first W pixels, a short line filled with substitute pixels. -/
def State.forwardedLine (s : State) (n : Nat) (pixels : List Pixel) : HandedLine :=
  ⟨n, .forwarded,
    (List.range s.format.width).map (fun c =>
      pixels.getD c (if s.format.policy = 1 then s.tracker.lineMemory.getD c ⟨0, 0, 0⟩ else s.format.background)),
    [s.store.cells]⟩

/-- Every line of the frame in progress has been handed over (R147). -/
def State.frameHanded (s : State) (f : OutputFrame) : Prop := f.height ≤ f.lines + s.framer.handed.length

/-- The tracker's counts are in their ranges (R118). -/
def Tracker.countsFit (t : Tracker) : Prop :=
  t.faultyFrames ≤ 15 ∧ t.conforming ≤ 7 ∧ (t.state = .locking → t.conforming ≤ 6)

/-- Channel timeouts are due only on OPEN channels, each once (R96); outside running, none is due and every channel is
IDLE with no target (R189). -/
def State.timeoutsHeld (s : State) : Prop :=
  s.timeoutsDue.Nodup ∧ (∀ ch ∈ s.timeoutsDue, s.channels[ch].state = .opened) ∧
    (s.power ≠ .running → s.timeoutsDue = [] ∧
      ∀ ch : Channel, s.channels[ch].state = .idle ∧ s.channels[ch].target = none)

/-! ## CONTROL packets -/

/-- The channel, sequence bit and request kind of a CONTROL packet other than ABORT (R74, R185). -/
def controlOf : Instr → Option (Channel × Bool × Byte)
  | .openReq ch seq _ => some (ch, seq, 0x01)
  | .openFill ch seq _ => some (ch, seq, 0x01)
  | .data ch seq _ => some (ch, seq, 0x02)
  | .close ch seq _ => some (ch, seq, 0x03)
  | .commit ch seq _ => some (ch, seq, 0x05)
  | .cancel ch seq _ => some (ch, seq, 0x06)
  | .revert ch seq _ => some (ch, seq, 0x07)
  | .read ch seq _ => some (ch, seq, 0x08)
  | .status ch seq _ => some (ch, seq, 0x09)
  | .setParam ch seq _ => some (ch, seq, 0x0A)
  | .resetChannels ch seq _ => some (ch, seq, 0x0B)
  | .resetState ch seq _ => some (ch, seq, 0x0B)
  | .unknownRequest ch seq kind _ => some (ch, seq, kind)
  | .abort _ _ _ => none
  | .idle => none
  | .packetDiscard _ => none
  | .frameStart _ => none
  | .line _ _ => none
  | .frameEnd _ _ _ => none
  | .lossTimerExpiry => none
  | .fallbackTimerExpiry => none
  | .outputFrameStart _ _ => none
  | .channelTimeout _ => none
  | .emitLine => none
  | .fillStep => none
  | .fillCompletion => none
  | .messageCompletion => none
  | .powerOnReset _ => none
  | .resetnRelease => none
  | .leaveReset => none

/-- The channel takes the packet (R74, item 3): not ABANDONED, and the bit is the expected one. -/
def State.takes (s : State) (ch : Channel) (seq : Bool) : Prop :=
  s.channels[ch].state ≠ .abandoned ∧ seq = s.channels[ch].expected

/-- The state with a channel context and a reply handed over by that channel, the arbiter run: every other field is as
it was. -/
def State.answered (s : State) (ch : Channel) (c : ChannelContext) (r : Reply) : State :=
  (s.setChannels (s.channels.set ch c)).setRtq (s.rtq.handOver ch r).arbitrate

/-- The context of a channel whose taken packet got this reply, no load beginning or ending: the bit toggled, the error
count updated, idle frames 0, the reply the last reply (R74, R75, R80). -/
def ChannelContext.replied (c : ChannelContext) (r : Reply) : ChannelContext :=
  { c with idleFrames := 0, last := r, expected := !c.expected, errors := errorsAfter r.code c.errors }

/-- The request kinds with a payload of another length than their parameter block, and the unknown kinds (R98). An OPEN
comes to this check in IDLE alone, a CLOSE in OPEN alone (R84, R92); DATA has no parameter block. -/
def State.malformed (s : State) : Instr → Bool
  | .openReq ch _ payload => s.channels[ch].state == .idle && payload.length != 10
  | .openFill ch _ payload => s.channels[ch].state == .idle && payload.length != 10
  | .close ch _ payload => s.channels[ch].state == .opened && payload.length != 0
  | .commit _ _ payload => payload.length != 5
  | .cancel _ _ payload => payload.length != 0
  | .revert _ _ payload => payload.length != 1
  | .read _ _ payload => payload.length != 6
  | .status _ _ payload => payload.length != 0
  | .setParam _ _ payload => payload.length != 3
  | .resetChannels _ _ payload => payload.length != 1
  | .resetState _ _ payload => payload.length != 1
  | .unknownRequest _ _ _ _ => true
  | .data _ _ _ => false
  | .abort _ _ _ => false
  | .idle => false
  | .packetDiscard _ => false
  | .frameStart _ => false
  | .line _ _ => false
  | .frameEnd _ _ _ => false
  | .lossTimerExpiry => false
  | .fallbackTimerExpiry => false
  | .outputFrameStart _ _ => false
  | .channelTimeout _ => false
  | .emitLine => false
  | .fillStep => false
  | .fillCompletion => false
  | .messageCompletion => false
  | .powerOnReset _ => false
  | .resetnRelease => false
  | .leaveReset => false

/-! ## Counted refusals (R80)

The tests of R59, R84, R85, R87, R88, R91, R92, R102 and R108 whose failure is a counted error, with the reply's code and
extra field. -/

/-- An OPEN taken in OPEN (R84), or in IDLE with a block that fails a check of R85 or R59. -/
def State.openError (s : State) (ch : Channel) (payload : List Byte) (code : ReplyCode) (extra : Half) : Prop :=
  (s.channels[ch].state = .opened ∧ code = .state ∧ extra = 1) ∨
  ∃ b : OpenBlock, s.channels[ch].state = .idle ∧ openBlock payload = some b ∧ extra = 0 ∧
    ((9 ≤ b.target.toNat ∧ code = .invalid) ∨
     (∃ t : TableId, b.target.toNat = t.val ∧ code = .range ∧
        (b.length = 0 ∨ tableSize t < b.offset.toNat + b.length.toNat)) ∨
     (b.target = 8 ∧ code = .invalid ∧
        (3 ≤ b.mode.toNat ∨ b.planes = 0 ∨ 16 ≤ b.planes.toNat ∨ (b.mode = 1 ∧ 3 ≤ b.mergeOp.toNat) ∨
         (b.mode = 2 ∧ 16 ≤ b.colour.toNat) ∨
         (b.mode ≠ 2 ∧ b.length.toNat % planeCount b.planes ≠ 0))) ∨
     (b.target = 8 ∧ code = .range ∧ storeParamsValid b = true ∧
        ((b.mode ≠ 2 ∧ (b.length = 0 ∨ 65536 < b.offset.toNat + b.length.toNat / planeCount b.planes)) ∨
         (b.mode = 2 ∧ b.length = 0 ∧ b.offset ≠ 0) ∨
         (b.mode = 2 ∧ b.length ≠ 0 ∧ 65536 < b.offset.toNat + b.length.toNat))))

/-- A DATA packet taken in IDLE (R87), or in OPEN with no byte or more bytes than remain (R88). -/
def State.dataError (s : State) (ch : Channel) (payload : List Byte) (code : ReplyCode) (extra : Half) : Prop :=
  (s.channels[ch].state = .idle ∧ code = .state ∧ extra = 0) ∨
  (s.channels[ch].state = .opened ∧ extra = BitVec.ofNat 16 s.channels[ch].remaining ∧
    ((payload.length = 0 ∧ code = .invalid) ∨
     (1 ≤ payload.length ∧ s.channels[ch].remaining < payload.length ∧ code = .overrun)))

/-- A CLOSE taken in IDLE (R92), or in OPEN with bytes still to come (R91). -/
def State.closeError (s : State) (ch : Channel) (payload : List Byte) (code : ReplyCode) (extra : Half) : Prop :=
  (s.channels[ch].state = .idle ∧ code = .state ∧ extra = 0) ∨
  (s.channels[ch].state = .opened ∧ payload = [] ∧ s.channels[ch].remaining ≠ 0 ∧ code = .underrun ∧
    extra = BitVec.ofNat 16 s.channels[ch].remaining)

/-- A READ whose block fails a check of R102. -/
def readError (b : ReadBlock) (code : ReplyCode) : Prop :=
  ((10 ≤ b.target.toNat ∨ (b.target.toNat ≤ 7 ∧ 2 ≤ b.selector.toNat)) ∧ code = .invalid) ∨
  (b.target.toNat ≤ 9 ∧ (b.target.toNat ≤ 7 → b.selector.toNat ≤ 1) ∧ code = .range ∧
    (b.length = 0 ∨ 65 ≤ b.length.toNat ∨
     (∃ t : TableId, b.target.toNat = t.val ∧ tableSize t < b.offset.toNat + b.length.toNat) ∨
     (b.target = 8 ∧ (4 ≤ b.plane.toNat ∨ 65536 < b.offset.toNat + b.length.toNat)) ∨
     (b.target = 9 ∧ 120 < b.offset.toNat + b.length.toNat)))

/-- A SET_PARAM of an unknown id or a value out of range (R108), the extra field carrying the value held. -/
def State.paramError (s : State) (id : Byte) (v extra : Half) : Prop :=
  (6 ≤ id.toNat ∧ extra = 0) ∨
  (id = 0 ∧ (v = 0 ∨ 256 ≤ v.toNat) ∧ extra = BitVec.ofNat 16 s.params.channelTimeout) ∨
  (id = 1 ∧ (v = 0 ∨ 8 ≤ v.toNat) ∧ extra = BitVec.ofNat 16 s.params.abandonLimit) ∨
  (id = 2 ∧ (v.toNat ≤ 1 ∨ 16 ≤ v.toNat) ∧ extra = BitVec.ofNat 16 s.params.lossMultiple) ∨
  (id = 3 ∧ (v = 0 ∨ 8 ≤ v.toNat) ∧ extra = BitVec.ofNat 16 s.params.lockCount) ∨
  (id = 4 ∧ (v = 0 ∨ 16 ≤ v.toNat) ∧ extra = BitVec.ofNat 16 s.params.faultLimit) ∨
  (id = 5 ∧ 2048 ≤ v.toNat ∧ extra = s.params.eventMask.setWidth 16)

/-! ## Loads that end, and events -/

/-- A channel would time out at an output frame start taken now (R95, R96). -/
def State.timesOut (s : State) (ch : Channel) : Bool :=
  s.channels[ch].state == .opened && decide (s.params.channelTimeout ≤ s.channels[ch].idleFrames + 1)

/-- A load or fill of the channel has ended incomplete, seen from table bank and store: a table it held is PARTIAL (R33), a
fill of its own is stopped with the bytes it wrote kept (R68). -/
def State.loadDropped (s : State) (ch : Channel) : State :=
  (s.setBank
    (match s.channels[ch].target with
     | some (.table t _) => { s.bank with states := s.bank.states.set t .partialLoad }
     | some (.store _ _ _) => s.bank
     | some .fill => s.bank
     | none => s.bank)).setStore
    (if s.channels[ch].state = .filling then { s.store with fill := none } else s.store)

/-- The queue after an event is raised with the current N in both fields: discarded when its kind is disabled (R110,
R173). -/
def State.reported (s : State) (q : Rtq) (kind : EventKind) (arg : Byte) : Rtq :=
  if s.params.eventMask.getLsbD kind.bit then q.raise kind arg s.framer.n s.framer.n else q

end Sys2Proof.Machine
end

