-- ==== Sys2Proof/Certificates/Slice0/Obligations.lean ====
section
/-! DEFINITION. The statements for the provers. -/

open Sys2Proof Sys2Proof.Machine

/-! ## Steps and the queue of commands -/

/-- A step runs the command at the front of the queue on the state with the queue's rest. -/
def Obligations.StepRunsFrontCommand : Prop :=
  ∀ (s : State) (c : Instr) (rest : List Instr), s.pending = c :: rest → step s = exec c (s.setPending rest)

/-- On an empty queue an idle moment passes (DESIGN CHOICE, assumption log 7): what is due at once is taken, otherwise the first
event whose time has come, otherwise every running clock advances by one tick and nothing else changes. An event so taken is
what its command is: a message complete after its length in bytes times 0.8 us (R177), the loss timer at the loss multiple
times T (R122), the fallback frame timer at its T with no start due (R145), a fill that one more tick would bring past its
bound of (span / 256) x 2 us (R66). Such a fill takes the steps it has left and completes. The tick of 0.2 us and the order of
events whose times come together are the model's. With RESETN low no time passes; the part leaves reset by itself 1,000 us
after RESETN goes high (R189). -/
def Obligations.EmptyQueueIdles : Prop :=
  (∀ s : State, s.pending = [] → step s = .next s.idle) ∧
  (∀ s : State, s.power = .running → s.settled = false → s.idle = s.settle) ∧
  (∀ s : State, s.power = .running → s.settled = true →
    (s.messageTimeUp = true → exec .messageCompletion s = .next s.idle) ∧
    (s.messageTimeUp = false → s.lossTimeUp = true → exec .lossTimerExpiry s = .next s.idle) ∧
    (s.messageTimeUp = false → s.lossTimeUp = false → s.fallbackTimeUp = true →
      exec .fallbackTimerExpiry s = .next s.idle) ∧
    (s.messageTimeUp = false → s.lossTimeUp = false → s.fallbackTimeUp = false → s.fillTimeUp = true →
      ∀ f : FillRecord, s.steady → s.store.fill = some f →
        (f.progress < f.span → s.rtq.laneKept → ∃ u, exec .fillStep s = .next u ∧ u.idle = s.idle) ∧
        (f.progress = f.span → exec .fillCompletion s = .next s.idle)) ∧
    (s.messageTimeUp = false → s.lossTimeUp = false → s.fallbackTimeUp = false → s.fillTimeUp = false →
      s.idle =
        (((s.setTracker { s.tracker with lossTimer := s.tracker.lossTimer.map (· + 1) }).setFramer
          { s.framer with timer := s.framer.timer.map (fun t => { t with ticks := t.ticks + 1 }) }).setStore
          { s.store with fill := s.store.fill.map (fun f => { f with ticks := f.ticks + 1 }) }).setRtq
          { s.rtq with laneTicks := if s.rtq.inFlight.isSome then s.rtq.laneTicks + 1 else s.rtq.laneTicks })) ∧
  (∀ s : State,
    (s.messageTimeUp = true ↔ ∃ m, s.rtq.inFlight = some m ∧ 4 * m.bytes.length ≤ s.rtq.laneTicks) ∧
    (s.lossTimeUp = true ↔
      ∃ k, s.tracker.lossTimer = some k ∧ 5 * (s.params.lossMultiple * s.format.period) ≤ k) ∧
    (s.fallbackTimeUp = true ↔
      s.framer.mode = .fallback ∧ s.framer.due = none ∧ ∃ t, s.framer.timer = some t ∧ 5 * t.period ≤ t.ticks) ∧
    (s.fillTimeUp = true ↔ ∃ f, s.store.fill = some f ∧ 10 * f.span < 256 * (f.ticks + 1))) ∧
  (∀ s : State, s.power = .held → s.idle = s) ∧
  ∀ (s : State) (k : Nat), s.power = .clearing k →
    (k < 5 * 1000 → s.idle = s.setPower (.clearing (k + 1))) ∧ (5 * 1000 ≤ k → exec .leaveReset s = .next s.idle)

/-- Every command answers a next state, with the queue of commands as it was. That an event command whose condition is not
met answers one too, and that POWER_ON_RESET keeps the queue, is the model's choice (assumption log 1, 17). -/
def Obligations.EveryCommandAnswersNext : Prop :=
  ∀ (c : Instr) (s : State), ∃ t, exec c s = .next t ∧ t.pending = s.pending

/-- What is due at once is taken before a command: settling leaves nothing due and no frame packet waiting that need not
wait, and every command but those that are such an event themselves, and those of the reset pin, runs as on the settled
state (assumption log 2). -/
def Obligations.CommandsSettleFirst : Prop :=
  (∀ s : State, s.settle.settled = true ∧ (s.settle.tracker.waiting.isEmpty || s.settle.framesWait) = true) ∧
  ∀ (c : Instr) (s : State), s.power = .running → (∀ first mid, c ≠ .outputFrameStart first mid) →
    (∀ ch, c ≠ .channelTimeout ch) → (c = .lossTimerExpiry → s.tracker.expiryDue = false) →
    (∀ pulse, c ≠ .powerOnReset pulse) → c ≠ .resetnRelease → c ≠ .leaveReset → exec c s = exec c s.settle

/-- Frame packets wait only while they must: for the output frame start of an upstream frame (R123), or for what the part
takes at once before them (assumption log 2, 4, 14). An invariant of every step. -/
def Obligations.FramePacketsWaitOnlyForStarts : Prop :=
  ∀ s t : State, (s.tracker.waiting.isEmpty || s.framesWait) = true → step s = .next t →
    (t.tracker.waiting.isEmpty || t.framesWait) = true

/-! ## The envelope of a CONTROL packet -/

/-- A duplicate is not acted on and is answered from the last reply (R76). An ABANDONED channel refuses every packet
but ABORT (R82). Nothing but the idle frames and the return queue changes. The arbiter runs at the end of the step
(the model's reading, log 6). -/
def Obligations.UntakenPacketsAnswered : Prop :=
  (∀ (s : State) (i : Instr) (ch : Channel) (seq : Bool) (kind : Byte), s.steady →
    controlOf i = some (ch, seq, kind) → s.channels[ch].state ≠ .abandoned → seq ≠ s.channels[ch].expected →
    exec i s = .next
      ((s.setChannels (s.channels.set ch { s.channels[ch] with idleFrames := 0 })).setRtq
        (if s.rtq.entries.contains (.reply ch s.channels[ch].last) then s.rtq
         else s.rtq.handOver ch s.channels[ch].last).arbitrate)) ∧
  (∀ (s : State) (i : Instr) (ch : Channel) (seq : Bool) (kind : Byte), s.steady →
    controlOf i = some (ch, seq, kind) → s.channels[ch].state = .abandoned →
    exec i s = .next
      (s.answered ch { s.channels[ch] with idleFrames := 0 } ⟨seq, kind, .abandoned, 0, []⟩))

/-- An ABORT is taken in every channel state and whatever its bit: its load or fill is dropped, the channel is IDLE.
The arbiter runs at the end of the step (log 6). -/
def Obligations.AbortFreesChannel : Prop :=
  ∀ (s : State) (ch : Channel) (seq : Bool) (payload : List Byte), s.steady →
    let r : Reply := ⟨seq, 0x04, .ok,
      match s.channels[ch].state with
      | .idle => 0
      | .opened => 1
      | .filling => 2
      | .abandoned => 3, []⟩
    exec (.abort ch seq payload) s = .next
      ((s.loadDropped ch).answered ch
        { s.channels[ch] with
          state := .idle, expected := !seq, target := none, errors := 0, idleFrames := 0, last := r } r)

/-- A packet of unknown kind, or with a payload of another length than its parameter block, is refused with INVALID,
extra 0, and changes nothing else while the error count stays below the abandon limit. This is the effect of
UNKNOWN_REQUEST, and of an OPEN in IDLE, a CLOSE in OPEN, and a COMMIT, CANCEL, REVERT, READ, STATUS, SET_PARAM or
RESET with a payload of the wrong length. The arbiter runs at the end of the step (log 6). -/
def Obligations.MalformedRequestRefused : Prop :=
  ∀ (s : State) (i : Instr) (ch : Channel) (seq : Bool) (kind : Byte), s.steady →
    controlOf i = some (ch, seq, kind) → s.takes ch seq → s.malformed i = true →
    s.channels[ch].errors + 1 < s.params.abandonLimit →
    let r : Reply := ⟨seq, kind, .invalid, 0, []⟩
    exec i s = .next
      (s.answered ch
        { s.channels[ch] with
          expected := !s.channels[ch].expected, errors := s.channels[ch].errors + 1, idleFrames := 0, last := r } r)

/-- A counted error that brings the error count to the abandon limit abandons the channel (R81), whatever request it
answers: the reply is the error's own, then CHANNEL_ABANDONED; its load or fill is dropped. The counted refusals are those of
R98, R84, R85 and R59 (OPEN), R87 and R88 (DATA), R91 and R92 (CLOSE), R102 (READ), R108 (SET_PARAM), R111 (RESET), and
R35 and R50 (COMMIT, REVERT), whose extra field is a free value (log 10). The arbiter runs at the end of the step (log 6). -/
def Obligations.CountedErrorAbandons : Prop :=
  ∀ (s : State) (i : Instr) (ch : Channel) (seq : Bool) (kind : Byte), s.steady →
    controlOf i = some (ch, seq, kind) → s.takes ch seq → s.params.abandonLimit ≤ s.channels[ch].errors + 1 →
    let abandoned : State → ReplyCode → Half → State := fun u code extra =>
      let r : Reply := ⟨seq, kind, code, extra, []⟩
      ((u.loadDropped ch).setChannels (s.channels.set ch
        { s.channels[ch] with
          state := .abandoned, expected := !s.channels[ch].expected, target := none
          errors := s.channels[ch].errors + 1, idleFrames := 0, last := r })).setRtq
        (s.reported (s.rtq.handOver ch r) .channelAbandoned (BitVec.ofNat 8 ch.val)).arbitrate
    (∀ (code : ReplyCode) (extra : Half),
      (s.malformed i = true ∧ code = .invalid ∧ extra = 0) ∨
      (∃ payload, (i = .openReq ch seq payload ∨ i = .openFill ch seq payload) ∧ s.openError ch payload code extra) ∨
      (∃ payload, i = .data ch seq payload ∧ s.dataError ch payload code extra) ∨
      (∃ payload, i = .close ch seq payload ∧ s.closeError ch payload code extra) ∨
      (∃ payload b, i = .read ch seq payload ∧ readBlock payload = some b ∧ readError b code ∧ extra = 0) ∨
      (∃ payload id v, i = .setParam ch seq payload ∧ paramBlock payload = some (id, v) ∧
        s.paramError id v extra ∧ code = .range) ∨
      (∃ scope : Byte, (i = .resetChannels ch seq [scope] ∨ i = .resetState ch seq [scope]) ∧ 2 ≤ scope.toNat ∧
        code = .invalid ∧ extra = 0) →
      exec i s = .next (abandoned s code extra)) ∧
    ((∃ payload b, i = .commit ch seq payload ∧ commitBlock payload = some b ∧ (b.mask = 0 ∨ 2 ≤ b.timing.toNat)) ∨
        i = .revert ch seq [0] →
      ∃ extra : Half, exec i s = .next (abandoned (s.setFree (s.free + 1)) .invalid extra))

/-! ## Loads -/

/-- An OPEN of a table that passes every check is accepted (R85, R86, R30): the channel is OPEN on the table, and the
table LOADING under it. -/
def Obligations.OpenTableAccepted : Prop :=
  ∀ (s : State) (ch : Channel) (seq : Bool) (payload : List Byte) (b : OpenBlock) (t : TableId), s.steady →
    s.takes ch seq → s.channels[ch].state = .idle → openBlock payload = some b → b.target.toNat = t.val →
    1 ≤ b.length.toNat → b.offset.toNat + b.length.toNat ≤ tableSize t →
    (s.bank.states[t] = .clean ∨ s.bank.states[t] = .loaded ∨ s.bank.states[t] = .partialLoad) →
    let r : Reply := ⟨seq, 0x01, .ok, b.length, []⟩
    exec (.openReq ch seq payload) s = .next
      ((s.setBank { s.bank with states := s.bank.states.set t (.loading ch) }).answered ch
        { state := .opened, expected := !s.channels[ch].expected, target := some (.table t b.offset.toNat)
          declared := b.length.toNat, remaining := b.length.toNat, errors := 0, idleFrames := 0, last := r } r)

/-- An OPEN of the store in mode PLANAR or MERGE that passes every check is accepted, whatever the write port (R57, R59,
R86). -/
def Obligations.OpenStoreAccepted : Prop :=
  ∀ (s : State) (ch : Channel) (seq : Bool) (payload : List Byte) (b : OpenBlock) (mode : StoreMode), s.steady →
    s.takes ch seq → s.channels[ch].state = .idle → openBlock payload = some b → b.target = 8 →
    ((b.mode = 0 ∧ mode = .planar) ∨ (b.mode = 1 ∧ b.mergeOp = 0 ∧ mode = .merge .and b.mask) ∨
      (b.mode = 1 ∧ b.mergeOp = 1 ∧ mode = .merge .or b.mask) ∨
      (b.mode = 1 ∧ b.mergeOp = 2 ∧ mode = .merge .xor b.mask)) →
    1 ≤ b.planes.toNat → b.planes.toNat ≤ 15 → 1 ≤ b.length.toNat →
    b.length.toNat % planeCount b.planes = 0 →
    b.offset.toNat + b.length.toNat / planeCount b.planes ≤ 65536 →
    let r : Reply := ⟨seq, 0x01, .ok, b.length, []⟩
    exec (.openReq ch seq payload) s = .next
      (s.answered ch
        { state := .opened, expected := !s.channels[ch].expected
          target := some (.store (b.planes.extractLsb' 0 4) b.offset.toNat mode)
          declared := b.length.toNat, remaining := b.length.toNat, errors := 0, idleFrames := 0, last := r } r)

/-- An OPEN in mode FILL that passes every check starts the fill (R59, R64): the port is HELD, the channel FILLING. -/
def Obligations.OpenFillStarts : Prop :=
  ∀ (s : State) (ch : Channel) (seq : Bool) (payload : List Byte) (b : OpenBlock), s.steady →
    s.takes ch seq → s.channels[ch].state = .idle → openBlock payload = some b → b.target = 8 → b.mode = 2 →
    1 ≤ b.planes.toNat → b.planes.toNat ≤ 15 → b.colour.toNat ≤ 15 →
    (b.length = 0 ∧ b.offset = 0 ∨ b.length ≠ 0 ∧ b.offset.toNat + b.length.toNat ≤ 65536) → s.store.fill = none →
    let r : Reply := ⟨seq, 0x01, .ok, b.length, []⟩
    exec (.openFill ch seq payload) s = .next
      ((s.setStore
        { s.store with
          fill := some
            { channel := ch, planes := b.planes.extractLsb' 0 4, start := b.offset.toNat
              span := if b.length = 0 then 65536 else b.length.toNat
              colour := b.colour.extractLsb' 0 4, progress := 0, ticks := 0 } }).answered ch
        { state := .filling, expected := !s.channels[ch].expected, target := some .fill
          declared := b.length.toNat, remaining := b.length.toNat, errors := 0, idleFrames := 0, last := r } r)

/-- An OPEN is refused by the channel state (R84), the table's state (R30) or the write port (R57), or by its parameters
(R85, R59): INVALID or RANGE, extra 0, counted; in both rows of OPEN. -/
def Obligations.OpenRefused : Prop :=
  (∀ (s : State) (i : Instr) (ch : Channel) (seq : Bool) (payload : List Byte) (code : ReplyCode) (extra : Half),
    s.steady → (i = .openReq ch seq payload ∨ i = .openFill ch seq payload) → s.takes ch seq →
    ((s.channels[ch].state = .filling ∧ code = .busy ∧ extra = BitVec.ofNat 16 ch.val) ∨
     (∃ (b : OpenBlock) (t : TableId), s.channels[ch].state = .idle ∧ openBlock payload = some b ∧
        b.target.toNat = t.val ∧ 1 ≤ b.length.toNat ∧ b.offset.toNat + b.length.toNat ≤ tableSize t ∧
        ((∃ h : Channel, s.bank.states[t] = .loading h ∧ code = .busy ∧ extra = BitVec.ofNat 16 h.val) ∨
         (∃ c : Commit, s.bank.states[t] = .armed ∧ s.bank.record = some c ∧ code = .pending ∧
            extra = c.tag.setWidth 16))) ∨
     (∃ (b : OpenBlock) (f : FillRecord), s.channels[ch].state = .idle ∧ openBlock payload = some b ∧
        b.target = 8 ∧ b.mode = 2 ∧ storeParamsValid b = true ∧ storeAddressesValid b = true ∧
        s.store.fill = some f ∧ code = .busy ∧ extra = BitVec.ofNat 16 f.channel.val)) →
    exec i s = .next
      (s.answered ch (s.channels[ch].replied ⟨seq, 0x01, code, extra, []⟩) ⟨seq, 0x01, code, extra, []⟩)) ∧
  (∀ (s : State) (i : Instr) (ch : Channel) (seq : Bool) (payload : List Byte) (code : ReplyCode) (extra : Half),
    s.steady → (i = .openReq ch seq payload ∨ i = .openFill ch seq payload) → s.takes ch seq →
    s.channels[ch].errors + 1 < s.params.abandonLimit → s.openError ch payload code extra →
    exec i s = .next
      (s.answered ch (s.channels[ch].replied ⟨seq, 0x01, code, extra, []⟩) ⟨seq, 0x01, code, extra, []⟩))

/-- A DATA segment of a table load is written into the shadow where the load stands, one of a store load as one write from
stream position declared less remaining on, while the port is FREE; the remaining count falls by its length (R31, R60,
R88 to R90). -/
def Obligations.DataAccepted : Prop :=
  (∀ (s : State) (ch : Channel) (seq : Bool) (payload : List Byte) (t : TableId) (offset : Nat), s.steady →
    s.takes ch seq → s.channels[ch].state = .opened → s.channels[ch].target = some (.table t offset) →
    1 ≤ payload.length → payload.length ≤ s.channels[ch].remaining →
    let r : Reply := ⟨seq, 0x02, .ok, BitVec.ofNat 16 (s.channels[ch].remaining - payload.length), []⟩
    exec (.data ch seq payload) s = .next
      ((s.setBank
        { s.bank with
          shadow := tableWriteRun s.bank.shadow t
            (offset + (s.channels[ch].declared - s.channels[ch].remaining)) payload }).answered ch
        { s.channels[ch] with
          expected := !s.channels[ch].expected, remaining := s.channels[ch].remaining - payload.length
          errors := 0, idleFrames := 0, last := r } r)) ∧
  (∀ (s : State) (ch : Channel) (seq : Bool) (payload : List Byte) (planes : BitVec 4) (start : Nat)
    (mode : StoreMode), s.steady → s.takes ch seq → s.channels[ch].state = .opened →
    s.channels[ch].target = some (.store planes start mode) → s.store.fill = none →
    1 ≤ payload.length → payload.length ≤ s.channels[ch].remaining →
    let r : Reply := ⟨seq, 0x02, .ok, BitVec.ofNat 16 (s.channels[ch].remaining - payload.length), []⟩
    exec (.data ch seq payload) s = .next
      ((s.writeStore
        (storeSegment (selectedPlanes planes) start mode (s.channels[ch].declared - s.channels[ch].remaining)
          s.store.cells payload)).answered ch
        { s.channels[ch] with
          expected := !s.channels[ch].expected, remaining := s.channels[ch].remaining - payload.length
          errors := 0, idleFrames := 0, last := r } r))

/-- A DATA packet is refused by the channel state (R87) or by its length or the write port (R88): nothing is written. -/
def Obligations.DataRefused : Prop :=
  ∀ (s : State) (ch : Channel) (seq : Bool) (payload : List Byte) (code : ReplyCode) (extra : Half), s.steady →
    s.takes ch seq → (code.counted = true → s.channels[ch].errors + 1 < s.params.abandonLimit) →
    (s.dataError ch payload code extra ∨
     (s.channels[ch].state = .filling ∧ code = .busy ∧ extra = BitVec.ofNat 16 s.channels[ch].remaining) ∨
     (∃ planes start mode, s.channels[ch].state = .opened ∧ 1 ≤ payload.length ∧
        payload.length ≤ s.channels[ch].remaining ∧ s.channels[ch].target = some (.store planes start mode) ∧
        s.store.fill ≠ none ∧ code = .busy ∧ extra = BitVec.ofNat 16 s.channels[ch].remaining)) →
    exec (.data ch seq payload) s = .next
      (s.answered ch (s.channels[ch].replied ⟨seq, 0x02, code, extra, []⟩) ⟨seq, 0x02, code, extra, []⟩)

/-- A CLOSE ends the open load (R91): complete with remaining count 0, its table LOADED; otherwise UNDERRUN with the
remaining count, its table PARTIAL; an UNDERRUN that reaches the abandon limit abandons the channel (R81). On an IDLE
channel it gets STATE, on a FILLING channel BUSY (R92). -/
def Obligations.CloseTaken : Prop :=
  (∀ (s : State) (ch : Channel) (seq : Bool) (code : ReplyCode) (st : ShadowState), s.steady →
    s.takes ch seq → s.channels[ch].state = .opened →
    ((s.channels[ch].remaining = 0 ∧ code = .ok ∧ st = .loaded) ∨
     (s.channels[ch].remaining ≠ 0 ∧ code = .underrun ∧ st = .partialLoad ∧
        s.channels[ch].errors + 1 < s.params.abandonLimit)) →
    let r : Reply := ⟨seq, 0x03, code, BitVec.ofNat 16 s.channels[ch].remaining, []⟩
    exec (.close ch seq []) s = .next
      ((s.setBank
        (match s.channels[ch].target with
         | some (.table t _) => { s.bank with states := s.bank.states.set t st }
         | some (.store _ _ _) => s.bank
         | some .fill => s.bank
         | none => s.bank)).answered ch
        { s.channels[ch].replied r with state := .idle, target := none } r)) ∧
  (∀ (s : State) (ch : Channel) (seq : Bool), s.steady → s.takes ch seq → s.channels[ch].state = .opened →
    s.channels[ch].remaining ≠ 0 → s.params.abandonLimit ≤ s.channels[ch].errors + 1 →
    let r : Reply := ⟨seq, 0x03, .underrun, BitVec.ofNat 16 s.channels[ch].remaining, []⟩
    exec (.close ch seq []) s = .next
      (((s.loadDropped ch).setChannels (s.channels.set ch
        { s.channels[ch].replied r with state := .abandoned, target := none })).setRtq
        (s.reported (s.rtq.handOver ch r) .channelAbandoned (BitVec.ofNat 8 ch.val)).arbitrate)) ∧
  (∀ (s : State) (ch : Channel) (seq : Bool) (payload : List Byte) (code : ReplyCode) (extra : Half), s.steady →
    s.takes ch seq →
    ((s.channels[ch].state = .idle ∧ s.channels[ch].errors + 1 < s.params.abandonLimit ∧ code = .state ∧ extra = 0) ∨
     (s.channels[ch].state = .filling ∧ code = .busy ∧ extra = BitVec.ofNat 16 ch.val)) →
    exec (.close ch seq payload) s = .next
      (s.answered ch (s.channels[ch].replied ⟨seq, 0x03, code, extra, []⟩) ⟨seq, 0x03, code, extra, []⟩))

/-- Every byte of a table copy after a run is written inside a table: the run's bytes in order, every other byte of every
table as before. Every byte of the store after a segment inside its load's span: the byte of stream position q + k
becomes what the mode makes of it and payload byte k (R60 to R62), every other byte of every plane is as before. -/
def Obligations.LoadedBytes : Prop :=
  (∀ (copy : Vector Memory 8) (t u : TableId) (offset p : Nat) (bytes : List Byte), copyWf copy →
    offset + bytes.length ≤ tableSize t →
    tableRead (tableWriteRun copy t offset bytes) u p =
      if u = t ∧ offset ≤ p ∧ p < offset + bytes.length then bytes.getD (p - offset) 0 else tableRead copy u p) ∧
  (∀ (cells : Memory) (mask : BitVec 4) (start q : Nat) (mode : StoreMode) (payload : List Byte),
    cells.wf storeDefault = true → mask ≠ 0 → 1 ≤ payload.length →
    start + (q + payload.length - 1) / (selectedPlanes mask).length < 65536 →
    (∀ k, k < payload.length →
      let place := streamPlace (selectedPlanes mask) start (q + k)
      storeRead (storeSegment (selectedPlanes mask) start mode q cells payload) place.1 place.2 =
        mode.apply (storeRead cells place.1 place.2) (payload.getD k 0)) ∧
    ∀ (plane : Fin 4) (address : Half),
      (∀ k, k < payload.length → streamPlace (selectedPlanes mask) start (q + k) ≠ (plane, address)) →
      storeRead (storeSegment (selectedPlanes mask) start mode q cells payload) plane address =
        storeRead cells plane address)

/-- The byte at stream position q of a store load stands at address A + floor(q / p), in the selected plane of rank
q mod p; with plane mask 0101b the stream runs plane 0 of A, plane 2 of A, plane 0 of A + 1 and so on (R60). A MERGE
byte becomes (old AND NOT M) OR (op(old, data) AND M), a PLANAR byte replaces the old one (R61, R62). -/
def Obligations.StreamOrderAndMerge : Prop :=
  (∀ (mask : BitVec 4) (start q : Nat), mask ≠ 0 → start + q / (selectedPlanes mask).length < 65536 →
    (streamPlace (selectedPlanes mask) start q).2.toNat = start + q / (selectedPlanes mask).length ∧
    mask.getLsbD (streamPlace (selectedPlanes mask) start q).1.val = true ∧
    ((selectedPlanes mask).filter (· < (streamPlace (selectedPlanes mask) start q).1)).length =
      q % (selectedPlanes mask).length) ∧
  (∀ start q : Nat, (streamPlace (selectedPlanes 0b0101#4) start (2 * q)).1 = 0 ∧
    (streamPlace (selectedPlanes 0b0101#4) start (2 * q + 1)).1 = 2) ∧
  (∀ old data : Byte, StoreMode.planar.apply old data = data) ∧
  ∀ (op : MergeOp) (m old data : Byte),
    (StoreMode.merge op m).apply old data =
      (old &&& ~~~m) |||
        ((match op with
          | .and => old &&& data
          | .or => old ||| data
          | .xor => old ^^^ data) &&& m)

/-! ## Commits -/

/-- A COMMIT that passes every test is accepted (R41): every named table ARMED, the record filled, extra the current N; no
copy of any table changes. -/
def Obligations.CommitArmsTables : Prop :=
  ∀ (s : State) (ch : Channel) (seq : Bool) (payload : List Byte) (b : CommitBlock) (timing : Timing), s.steady →
    s.takes ch seq → commitBlock payload = some b → b.mask ≠ 0 →
    ((b.timing = 0 ∧ timing = .next) ∨
     (b.timing = 1 ∧ timing = .atFrame b.target ∧ 1 ≤ (b.target - s.framer.n).toNat ∧
        (b.target - s.framer.n).toNat ≤ 32767)) →
    s.bank.record = none →
    (∀ t : TableId, b.mask.getLsbD t.val = true → s.bank.states[t] = .clean ∨ s.bank.states[t] = .loaded) →
    firstRejected s.bank.shadow (maskTables b.mask) = none →
    let r : Reply := ⟨seq, 0x05, .ok, s.framer.n, []⟩
    ∃ bank' : Bank,
      exec (.commit ch seq payload) s = .next ((s.setBank bank').answered ch (s.channels[ch].replied r) r) ∧
      bank'.shadow = s.bank.shadow ∧ bank'.active = s.bank.active ∧
      bank'.record = some ⟨b.mask, timing, b.tag⟩ ∧
      ∀ t : TableId, bank'.states[t] = if b.mask.getLsbD t.val then .armed else s.bank.states[t]

/-- A COMMIT with a known timing and a mask other than 0 is refused by the first test that fails (R36 to R38): PENDING
with the armed tag, BUSY or INCOMPLETE with the lowest such table, LATE with the current N, REJECTED with table and
record; uncounted, and nothing changes but the channel and the return queue. -/
def Obligations.CommitRefused : Prop :=
  ∀ (s : State) (ch : Channel) (seq : Bool) (payload : List Byte) (b : CommitBlock) (code : ReplyCode)
    (extra : Half), s.steady → s.takes ch seq → commitBlock payload = some b → b.mask ≠ 0 → b.timing.toNat ≤ 1 →
    ((∃ c : Commit, s.bank.record = some c ∧ code = .pending ∧ extra = c.tag.setWidth 16) ∨
     (∃ t : TableId, s.bank.record = none ∧ b.mask.getLsbD t.val = true ∧ (∃ h, s.bank.states[t] = .loading h) ∧
        (∀ u : TableId, u < t → b.mask.getLsbD u.val = true → ∀ h, s.bank.states[u] ≠ .loading h) ∧
        code = .busy ∧ extra = BitVec.ofNat 16 t.val) ∨
     (∃ t : TableId, s.bank.record = none ∧
        (∀ u : TableId, b.mask.getLsbD u.val = true → ∀ h, s.bank.states[u] ≠ .loading h) ∧
        b.mask.getLsbD t.val = true ∧ s.bank.states[t] = .partialLoad ∧
        (∀ u : TableId, u < t → b.mask.getLsbD u.val = true → s.bank.states[u] ≠ .partialLoad) ∧
        code = .incomplete ∧ extra = BitVec.ofNat 16 t.val) ∨
     (s.bank.record = none ∧
        (∀ u : TableId, b.mask.getLsbD u.val = true → s.bank.states[u] = .clean ∨ s.bank.states[u] = .loaded) ∧
        b.timing = 1 ∧ ((b.target - s.framer.n).toNat = 0 ∨ 32768 ≤ (b.target - s.framer.n).toNat) ∧
        code = .late ∧ extra = s.framer.n) ∨
     (∃ (t : TableId) (k : Nat), s.bank.record = none ∧
        (∀ u : TableId, b.mask.getLsbD u.val = true → s.bank.states[u] = .clean ∨ s.bank.states[u] = .loaded) ∧
        (b.timing = 1 → 1 ≤ (b.target - s.framer.n).toNat ∧ (b.target - s.framer.n).toNat ≤ 32767) ∧
        firstRejected s.bank.shadow (maskTables b.mask) = some (t, k) ∧
        code = .rejected ∧ extra = BitVec.ofNat 16 (256 * t.val + k))) →
    exec (.commit ch seq payload) s = .next
      (s.answered ch (s.channels[ch].replied ⟨seq, 0x05, code, extra, []⟩) ⟨seq, 0x05, code, extra, []⟩)

/-- A COMMIT with mask 0 or an unknown timing, and a REVERT with mask 0, are refused with INVALID, counted; the spec
states no extra field there, and the model's is a free value (assumption log 10). -/
def Obligations.InvalidMaskRefused : Prop :=
  ∀ (s : State) (ch : Channel) (seq : Bool) (payload : List Byte), s.steady → s.takes ch seq →
    s.channels[ch].errors + 1 < s.params.abandonLimit →
    (∀ b : CommitBlock, commitBlock payload = some b → b.mask = 0 ∨ 2 ≤ b.timing.toNat →
      ∃ extra : Half,
        let r : Reply := ⟨seq, 0x05, .invalid, extra, []⟩
        exec (.commit ch seq payload) s = .next
          ((s.setFree (s.free + 1)).answered ch (s.channels[ch].replied r) r)) ∧
    (payload = [0] →
      ∃ extra : Half,
        let r : Reply := ⟨seq, 0x07, .invalid, extra, []⟩
        exec (.revert ch seq payload) s = .next
          ((s.setFree (s.free + 1)).answered ch (s.channels[ch].replied r) r))

/-- The records a COMMIT rejects (R38 to R40): the first table, in ascending id, whose first record breaks a rule. The tables
a mask names are listed in ascending id (R27). -/
def Obligations.CommitValidation : Prop :=
  (∀ mask : Byte, (∀ t : TableId, t ∈ maskTables mask ↔ mask.getLsbD t.val = true) ∧
    (maskTables mask).Pairwise (· < ·)) ∧
  (∀ l : Layer, layerValid l = true ↔
    (l.enable = true →
      l.op ≤ 4 ∧ 1 ≤ l.depth ∧ l.depth ≤ 4 ∧ l.x ≤ 2047 ∧ l.y ≤ 1535 ∧ l.width ≤ 2048 ∧ l.height ≤ 1536 ∧
        1 ≤ l.stride ∧ l.stride ≤ 8192 ∧ (∀ i, l.transparent = some i → i ≤ 15) ∧ ∀ k, l.key = some k → k ≤ 7)) ∧
  (∀ c : CheckConfig, checkValid c = true ↔
    (c.enable = true → 1 ≤ c.threshold ∧ c.threshold ≤ 15 ∧ ∀ j, c.phaseLink = some j → j ≤ 15)) ∧
  (∀ f : Format, formatValid f = true ↔
    64 ≤ f.width ∧ f.width ≤ 2048 ∧ 32 ≤ f.height ∧ f.height ≤ 1536 ∧ 4000 ≤ f.period ∧ f.period ≤ 100000 ∧
      f.policy ≤ 1) ∧
  (∀ (copy : Vector Memory 8) (ts : List TableId), firstRejected copy ts = none ↔
    (0 ∈ ts → ∀ k, k < 16 → layerValid (layerRecord copy k) = true) ∧
    (6 ∈ ts → ∀ k, k < 8 → checkValid (checkConfig copy k) = true) ∧
    (7 ∈ ts → formatValid (formatRecord copy) = true)) ∧
  ∀ (copy : Vector Memory 8) (ts : List TableId) (t : TableId) (k : Nat), firstRejected copy ts = some (t, k) →
    (∃ before after : List TableId, ts = before ++ t :: after ∧ firstRejected copy before = none) ∧
    ((t = 0 ∧ k < 16 ∧ layerValid (layerRecord copy k) = false ∧
        ∀ j, j < k → layerValid (layerRecord copy j) = true) ∨
     (t = 6 ∧ k < 8 ∧ checkValid (checkConfig copy k) = false ∧
        ∀ j, j < k → checkValid (checkConfig copy j) = true) ∨
     (t = 7 ∧ k = 0 ∧ formatValid (formatRecord copy) = false))

/-- A CANCEL withdraws an armed commit (R49): its tables LOADED, the record empty, extra yes; with none armed nothing
changes, extra no. No event is raised. -/
def Obligations.CancelWithdrawsCommit : Prop :=
  ∀ (s : State) (ch : Channel) (seq : Bool), s.steady → s.takes ch seq →
    (∀ c : Commit, s.bank.record = some c →
      let r : Reply := ⟨seq, 0x06, .ok, 1, []⟩
      ∃ bank' : Bank,
        exec (.cancel ch seq []) s = .next ((s.setBank bank').answered ch (s.channels[ch].replied r) r) ∧
        bank'.shadow = s.bank.shadow ∧ bank'.active = s.bank.active ∧ bank'.record = none ∧
        ∀ t : TableId, bank'.states[t] = if c.mask.getLsbD t.val then .loaded else s.bank.states[t]) ∧
    (s.bank.record = none →
      let r : Reply := ⟨seq, 0x06, .ok, 0, []⟩
      exec (.cancel ch seq []) s = .next (s.answered ch (s.channels[ch].replied r) r))

/-- A REVERT discards the named shadows (R50): active copied into shadow, every named table CLEAN, extra the mask. One that
names a LOADING table is refused with BUSY, one that names an ARMED table with PENDING, extra the lowest such table;
uncounted, and nothing changes but the channel and the return queue. -/
def Obligations.RevertTaken : Prop :=
  (∀ (s : State) (ch : Channel) (seq : Bool) (mask : Byte), s.steady → s.takes ch seq → mask ≠ 0 →
    (∀ t : TableId, mask.getLsbD t.val = true →
      s.bank.states[t] = .clean ∨ s.bank.states[t] = .loaded ∨ s.bank.states[t] = .partialLoad) →
    let r : Reply := ⟨seq, 0x07, .ok, mask.setWidth 16, []⟩
    ∃ bank' : Bank,
      exec (.revert ch seq [mask]) s = .next ((s.setBank bank').answered ch (s.channels[ch].replied r) r) ∧
      bank'.active = s.bank.active ∧ bank'.record = s.bank.record ∧
      ∀ t : TableId,
        bank'.shadow[t] = (if mask.getLsbD t.val then s.bank.active[t] else s.bank.shadow[t]) ∧
        bank'.states[t] = if mask.getLsbD t.val then .clean else s.bank.states[t]) ∧
  (∀ (s : State) (ch : Channel) (seq : Bool) (mask : Byte) (t : TableId) (code : ReplyCode), s.steady →
    s.takes ch seq → mask.getLsbD t.val = true →
    (((∃ h, s.bank.states[t] = .loading h) ∧
        (∀ u : TableId, u < t → mask.getLsbD u.val = true → ∀ h, s.bank.states[u] ≠ .loading h) ∧ code = .busy) ∨
     ((∀ u : TableId, mask.getLsbD u.val = true → ∀ h, s.bank.states[u] ≠ .loading h) ∧ s.bank.states[t] = .armed ∧
        (∀ u : TableId, u < t → mask.getLsbD u.val = true → s.bank.states[u] ≠ .armed) ∧ code = .pending)) →
    let r : Reply := ⟨seq, 0x07, code, BitVec.ofNat 16 t.val, []⟩
    exec (.revert ch seq [mask]) s = .next (s.answered ch (s.channels[ch].replied r) r))

/-- Active table copies change only at an output frame start and at power-on reset (R44): no other command, and no step, an
idle moment on an empty queue among them, changes a byte of an active copy of a settled part in which no frame packet waits
that need not wait. The idle moment in which the part leaves reset by itself is left out, since it takes an output frame
start (R152, R189; assumption log 7). -/
def Obligations.ActiveCopiesChangeOnlyAtStarts : Prop :=
  let quiet : Instr → Prop := fun c => (∀ first mid, c ≠ .outputFrameStart first mid) ∧
    (∀ pulse, c ≠ .powerOnReset pulse) ∧ c ≠ .resetnRelease ∧ c ≠ .leaveReset
  ∀ s t : State, s.settled = true → (s.tracker.waiting.isEmpty || s.framesWait) = true →
    (∀ c : Instr, exec c s = .next t → quiet c → t.bank.active = s.bank.active) ∧
    (step s = .next t → (∀ (c : Instr) (rest : List Instr), s.pending = c :: rest → quiet c) →
      (s.pending = [] → ∀ k, s.power = .clearing k → k < 5 * 1000) → t.bank.active = s.bank.active)

/-- At an output frame start the armed commit is applied, missed or kept by its timing and the new N (R42, R44, R45). With an
empty commit record the announcement changes no copy of any table, and the record stays empty (R42). A table no armed commit
names keeps its shadow state, unless a channel that times out within the start held it (R44, R96). The order in which blocks
take the start is the command's (log 3); frame packets that waited for it are dealt with at the end of the step (log 4), and
change nothing in the bank. -/
def Obligations.CommitResolvedAtStart : Prop :=
  ∀ (s : State) (cause : StartCause) (first mid : List Channel), s.power = .running →
    s.timeoutsDue = [] → s.tracker.expiryDue = false → s.startNow = some cause → s.ownership →
    ∃ (t : State) (n : Half), exec (.outputFrameStart first mid) s = .next t.drain ∧ t.drain.bank = t.bank ∧
      t.framer.n = n ∧ t.bank.shadow = s.bank.shadow ∧
      (∀ u : TableId, (∀ c : Commit, s.bank.record = some c → c.mask.getLsbD u.val = false) →
        (∀ ch : Channel, (ch ∈ first ∨ ch ∈ mid) → s.timesOut ch = true →
          Target.tableOf s.channels[ch].target ≠ some u) →
        t.bank.states[u] = s.bank.states[u]) ∧
      (s.bank.record = none → t.bank.active = s.bank.active ∧ t.bank.record = none) ∧
      ∀ c : Commit, s.bank.record = some c →
        ((c.timing = .next ∨ c.timing = .atFrame n) → t.bank.record = none ∧
          ∀ u : TableId,
            t.bank.active[u] = (if c.mask.getLsbD u.val then s.bank.shadow[u] else s.bank.active[u]) ∧
            (c.mask.getLsbD u.val = true → t.bank.states[u] = .clean)) ∧
        (∀ target : Half, c.timing = .atFrame target → 32768 ≤ (target - n).toNat →
          t.bank.active = s.bank.active ∧ t.bank.record = none ∧
          ∀ u : TableId, c.mask.getLsbD u.val = true → t.bank.states[u] = .loaded) ∧
        (∀ target : Half, c.timing = .atFrame target → 1 ≤ (target - n).toNat → (target - n).toNat ≤ 32767 →
          t.bank.active = s.bank.active ∧ t.bank.record = some c ∧
          ∀ u : TableId, c.mask.getLsbD u.val = true → t.bank.states[u] = .armed)

/-! ## READ, STATUS and SET_PARAM -/

/-- A READ that passes its checks is answered OK with the bytes as they stand, extra the length (R70, R102 to R104);
otherwise it is refused by the first check that fails (R102): INVALID or RANGE, extra 0, counted. -/
def Obligations.ReadTaken : Prop :=
  (∀ (s : State) (ch : Channel) (seq : Bool) (payload : List Byte) (b : ReadBlock) (bytes : List Byte), s.steady →
    s.takes ch seq → readBlock payload = some b → 1 ≤ b.length.toNat → b.length.toNat ≤ 64 →
    ((∃ t : TableId, b.target.toNat = t.val ∧ b.selector.toNat ≤ 1 ∧
        b.offset.toNat + b.length.toNat ≤ tableSize t ∧
        bytes = (List.range b.length.toNat).map (fun i =>
          tableRead (if b.selector = 0 then s.bank.shadow else s.bank.active) t (b.offset.toNat + i))) ∨
     (∃ plane : Fin 4, b.target = 8 ∧ b.plane.toNat = plane.val ∧ b.offset.toNat + b.length.toNat ≤ 65536 ∧
        bytes = (List.range b.length.toNat).map (fun i =>
          storeRead s.store.cells plane (BitVec.ofNat 16 (b.offset.toNat + i)))) ∨
     (b.target = 9 ∧ b.offset.toNat + b.length.toNat ≤ 120 ∧
        bytes = ((runtimeArea s.checker.records).drop b.offset.toNat).take b.length.toNat)) →
    let r : Reply := ⟨seq, 0x08, .ok, b.length.setWidth 16, bytes⟩
    exec (.read ch seq payload) s = .next (s.answered ch (s.channels[ch].replied r) r)) ∧
  (∀ (s : State) (ch : Channel) (seq : Bool) (payload : List Byte) (b : ReadBlock) (code : ReplyCode), s.steady →
    s.takes ch seq → readBlock payload = some b → s.channels[ch].errors + 1 < s.params.abandonLimit →
    readError b code →
    exec (.read ch seq payload) s = .next
      (s.answered ch (s.channels[ch].replied ⟨seq, 0x08, code, 0, []⟩) ⟨seq, 0x08, code, 0, []⟩))

/-- A STATUS is answered OK, extra 0, with the 28-byte summary, each field at its place (R105, R188); it changes nothing
but its own channel and the return queue (R106). The check runtime area is eight records of 15 bytes, record k at 15 k
(R104, R188). -/
def Obligations.StatusAnswered : Prop :=
  (∀ (s : State) (ch : Channel) (seq : Bool), s.steady → s.takes ch seq →
    ∃ d : List Byte,
      (let r : Reply := ⟨seq, 0x09, .ok, 0, d⟩
       exec (.status ch seq []) s = .next (s.answered ch (s.channels[ch].replied r) r)) ∧
      d.length = 28 ∧
      (d.getD 0 0 = match s.tracker.state with
        | .search => 0
        | .locking => 1
        | .locked => 2) ∧
      (d.getD 1 0 = match s.framer.mode with
        | .pass => 0
        | .fallback => 1) ∧
      half (d.getD 2 0) (d.getD 3 0) = s.framer.n ∧
      word (d.getD 4 0) (d.getD 5 0) (d.getD 6 0) (d.getD 7 0) = s.framer.f ∧
      (∀ t : TableId, d.getD (8 + t.val) 0 = match s.bank.states[t] with
        | .clean => 0
        | .loading _ => 1
        | .loaded => 2
        | .partialLoad => 3
        | .armed => 4) ∧
      (match s.bank.record with
        | none => d.getD 16 0 = 0 ∧ d.getD 17 0 = 0 ∧ d.getD 18 0 = 0 ∧ d.getD 19 0 = 0
        | some ⟨_, .next, tag⟩ => d.getD 16 0 = 1 ∧ d.getD 17 0 = 0 ∧ d.getD 18 0 = 0 ∧ d.getD 19 0 = tag
        | some ⟨_, .atFrame target, tag⟩ =>
          d.getD 16 0 = 3 ∧ half (d.getD 17 0) (d.getD 18 0) = target ∧ d.getD 19 0 = tag) ∧
      (∀ k : Channel, d.getD (20 + k.val) 0 = match s.channels[k].state with
        | .idle => 0
        | .opened => 1
        | .filling => 2
        | .abandoned => 3) ∧
      d.getD 24 0 = BitVec.ofNat 8 s.rtq.lost ∧ d.getD 25 0 = BitVec.ofNat 8 s.tracker.faultyFrames ∧
      (∀ k : Fin 8, (d.getD 26 0).getLsbD k.val = (s.checker.records[k].status == .failing)) ∧
      (match s.store.fill with
        | none => d.getD 27 0 = 0
        | some f => d.getD 27 0 = BitVec.ofNat 8 (1 + 2 * f.channel.val))) ∧
  (∀ (records : Vector CheckRecord 8) (k : Fin 8),
    (runtimeArea records).length = 120 ∧
    ((runtimeArea records).drop (15 * k.val)).take 15 =
      [(match records[k].status with
        | .off => 0
        | .learning => 1
        | .passing => 2
        | .failing => 3),
       BitVec.ofNat 8 records[k].mismatches,
       (if records[k].learnedAFlag then 1 else 0) + (if records[k].learnedBFlag then 2 else 0)] ++
        wordBytes records[k].observed ++ wordBytes records[k].learnedA ++ wordBytes records[k].learnedB)

/-- A SET_PARAM with a value in range sets its parameter alone, extra the value held before (R107, R108); a loss multiple
that brings the loss time to the elapsed time or below makes the expiry due at once (R122). That the step marks this expiry as
due and leaves the tracker as it is, the expiry being taken once the step is over and before the next command, is the model's
reading of 'at once' (log 2). An id above 5 gets RANGE, extra 0, a value out of range RANGE, extra the value held (R108);
counted, and nothing is set. -/
def Obligations.SetParamTaken : Prop :=
  ((∀ (s : State) (ch : Channel) (seq : Bool) (payload : List Byte) (id : Byte) (v : Half) (p : ParamId), s.steady →
    s.takes ch seq → paramBlock payload = some (id, v) →
    ((id = 0 ∧ p = .channelTimeout ∧ 1 ≤ v.toNat ∧ v.toNat ≤ 255) ∨
     (id = 1 ∧ p = .abandonLimit ∧ 1 ≤ v.toNat ∧ v.toNat ≤ 7) ∨
     (id = 2 ∧ p = .lossMultiple ∧ 2 ≤ v.toNat ∧ v.toNat ≤ 15) ∨
     (id = 3 ∧ p = .lockCount ∧ 1 ≤ v.toNat ∧ v.toNat ≤ 7) ∨
     (id = 4 ∧ p = .faultLimit ∧ 1 ≤ v.toNat ∧ v.toNat ≤ 15) ∨
     (id = 5 ∧ p = .eventMask ∧ v.toNat ≤ 2047)) →
    let r : Reply := ⟨seq, 0x0A, .ok, BitVec.ofNat 16 (s.params.get p), []⟩
    let u := s.setParams (s.params.set p v.toNat)
    exec (.setParam ch seq payload) s = .next
      ((if p = .lossMultiple ∧ u.lossTimeUp = true then u.setTracker { s.tracker with expiryDue := true }
        else u).answered ch (s.channels[ch].replied r) r)) ∧
  ∀ (q : Params) (p p' : ParamId) (v : Nat), v ≤ p.greatest →
    (q.set p v).get p' = if p' = p then v else q.get p') ∧
  (∀ (s : State) (ch : Channel) (seq : Bool) (payload : List Byte) (id : Byte) (v : Half) (extra : Half), s.steady →
    s.takes ch seq → paramBlock payload = some (id, v) → s.channels[ch].errors + 1 < s.params.abandonLimit →
    s.paramError id v extra →
    exec (.setParam ch seq payload) s = .next
      (s.answered ch (s.channels[ch].replied ⟨seq, 0x0A, .range, extra, []⟩) ⟨seq, 0x0A, .range, extra, []⟩))

/-! ## Resets -/

/-- RESET with scope CHANNELS (R99, R112): every channel IDLE, every load ended incomplete, the fill stopped, every
waiting reply removed and the RESET's own queued last; nothing else changes. A scope of 2 or above is refused (R111).
That the arbiter runs at the end of the step is the model's reading (log 6). -/
def Obligations.ResetChannelsEffect : Prop :=
  ∀ (s : State) (ch : Channel) (seq : Bool), s.steady → s.takes ch seq →
    (let r : Reply := ⟨seq, 0x0B, .ok, 0, []⟩
     ∃ t, exec (.resetChannels ch seq [0]) s = .next t ∧
      (∀ k : Channel, t.channels[k] =
        if k = ch then
          { s.channels[k] with
            state := .idle, target := none, errors := 0, idleFrames := 0, expected := !s.channels[k].expected, last := r }
        else { s.channels[k] with state := .idle, target := none, errors := 0, idleFrames := 0 }) ∧
      t.bank.shadow = s.bank.shadow ∧ t.bank.active = s.bank.active ∧ t.bank.record = s.bank.record ∧
      (∀ u : TableId, ((∃ k : Channel, Target.tableOf s.channels[k].target = some u) → t.bank.states[u] = .partialLoad) ∧
        ((∀ k : Channel, Target.tableOf s.channels[k].target ≠ some u) → t.bank.states[u] = s.bank.states[u])) ∧
      t.store = { s.store with fill := none } ∧
      t.rtq = Rtq.arbitrate { s.rtq with entries := s.rtq.entries.filter Entry.isEvent ++ [.reply ch r] } ∧
      t.tracker = s.tracker ∧ t.params = s.params ∧ t.framer = s.framer ∧ t.plan = s.plan ∧ t.checker = s.checker ∧
      t.power = s.power ∧ t.timeoutsDue = s.timeoutsDue ∧ t.free = s.free) ∧
    ∀ scope : Byte, 2 ≤ scope.toNat → s.channels[ch].errors + 1 < s.params.abandonLimit →
      let r : Reply := ⟨seq, 0x0B, .invalid, 0, []⟩
      exec (.resetChannels ch seq [scope]) s = .next (s.answered ch (s.channels[ch].replied r) r)

/-- RESET with scope STATE (R99, R113, R114, R181): what scope CHANNELS does, every table CLEAN with its shadow equal to
its active copy, the record empty, the runtime records reset, events removed, parameters at their defaults, the tracker
in SEARCH with STREAM_LOST(RESET) if it was LOCKED, the reply last. When the tracker leaves LOCKED in PASS mode, a frame not
handed over whole is truncated and not evaluated (R148, R159), one handed over whole is finished, and the first fallback frame
is due (R147); in FALLBACK mode the switch back is forgotten (R152). Active copies, store contents, F, N and line memory are
kept. That the arbiter runs at the end of the step, and frame packets that then need not wait are dealt with, is the
model's reading (log 4, 6), and so is that a start still due is superseded (log 13, 14). -/
def Obligations.ResetStateEffect : Prop :=
  ∀ (s : State) (ch : Channel) (seq : Bool), s.steady → s.takes ch seq →
    let r : Reply := ⟨seq, 0x0B, .ok, 1, []⟩
    ∃ t : State, exec (.resetState ch seq [1]) s = .next t.drain ∧
      (∀ k : Channel, t.channels[k] =
        if k = ch then
          { s.channels[k] with
            state := .idle, target := none, errors := 0, idleFrames := 0, expected := !s.channels[k].expected, last := r }
        else { s.channels[k] with state := .idle, target := none, errors := 0, idleFrames := 0 }) ∧
      t.bank.active = s.bank.active ∧ t.bank.record = none ∧
      (∀ u : TableId, t.bank.shadow[u] = s.bank.active[u] ∧ t.bank.states[u] = .clean) ∧
      t.store = { s.store with fill := none } ∧
      (∀ k : Fin 8, t.checker.records[k] =
        ⟨if (checkConfig s.bank.active k.val).enable then .learning else .off, 0, false, false, 0, 0, 0⟩) ∧
      t.checker.pin = false ∧
      t.rtq = Rtq.arbitrate
        { s.rtq with
          entries := (if s.tracker.state = .locked then [.event ⟨.streamLost, 3, 1, s.framer.n, s.framer.n⟩] else []) ++
            [.reply ch r]
          lost := 0, lostInFlight := 0 } ∧
      t.params = ⟨16, 4, 3, 2, 3, 0x7FF⟩ ∧
      t.tracker =
        { s.tracker with
          state := .search, phase := .noFrame, expected := 0, conforming := 0, faultyFrames := 0, frameFaulty := false
          lossTimer := none, expiryDue := false } ∧
      t.framer =
        (if s.tracker.state = .locked then
          match s.framer.mode, s.framer.frame with
          | .fallback, _ => { s.framer with switchBack := false }
          | .pass, none => { s.framer with mode := .fallback, switchBack := false, due := some .entry }
          | .pass, some f =>
            if f.height ≤ f.lines + s.framer.handed.length then { s.framer with due := some .entry }
            else
              { s.framer with
                mode := .fallback, switchBack := false, due := some .entry, frame := none, handed := []
                linkOut := s.framer.linkOut ++ [.frameEnd f.n f.lines true] }
         else s.framer) ∧
      t.checker.plans =
        (if s.tracker.state = .locked ∧ s.framer.mode = .pass ∧
            s.framer.frame.any (fun f => decide (f.lines + s.framer.handed.length < f.height)) = true then
          #v[none, none, none, none, none, none, none, none]
         else s.checker.plans) ∧
      t.plan = s.plan ∧ t.power = s.power ∧ t.timeoutsDue = s.timeoutsDue ∧ t.free = s.free

/-- A low pulse on RESETN of at least 10 us applies power-on reset: every block at its power-on values. A shorter one
either does the same or leaves every block as it was (R189; assumption log 9, 17). -/
def Obligations.PowerOnResetHolds : Prop :=
  ∀ (s : State) (pulse : Nat),
    ∃ t, exec (.powerOnReset pulse) s = .next t ∧
      let held : Nat → Prop := fun free =>
        t.power = .held ∧ t.tracker = .powerOn ∧ t.params = ⟨16, 4, 3, 2, 3, 0x7FF⟩ ∧
        (∀ k : Channel, t.channels[k] = .powerOn) ∧ t.timeoutsDue = [] ∧ t.bank = .powerOn ∧ t.store = .powerOn ∧
        t.framer = { Framer.powerOn with linkOut := s.framer.linkOut } ∧ t.plan = none ∧
        t.checker.records = Checker.powerOn.records ∧ t.checker.plans = Checker.powerOn.plans ∧
        t.checker.pin = false ∧ t.rtq = { Rtq.powerOn with sent := s.rtq.sent } ∧ t.free = free
      (10 ≤ pulse → held s.free) ∧ (pulse < 10 → held (s.free + 1) ∨ t = s.setFree (s.free + 1))

/-- When RESETN goes high the store is cleared and the tables set to their defaults (R189); the part then leaves reset and
takes its first output frame start at once, a FALLBACK frame with N 0 and F 0 (R141, R142, R152). -/
def Obligations.ResetReleasedAndLeft : Prop :=
  (∀ s : State, s.power = .held →
    exec .resetnRelease s = .next (((s.setStore .powerOn).setBank .powerOn).setPower (.clearing 0))) ∧
  ∀ (s : State) (k : Nat), s.power = .clearing k → s.bank.record = none → s.framer.firstFrame = true →
    s.framer.f = 0 → s.tracker.waiting = [] → (∀ ch : Channel, s.channels[ch].state = .idle) →
    ∃ t, exec .leaveReset s = .next t ∧ t.power = .running ∧
      t.framer =
        { s.framer with
          mode := .fallback, firstFrame := false, f := 0, n := 0, due := none
          frame := some ⟨.fallback, 0, 0, s.format.height, 0⟩, timer := some ⟨0, s.format.period⟩, handed := []
          building := [s.store.cells], linkOut := s.framer.linkOut ++ [.frameStart 0] } ∧
      t.plan = some (formPlan s.bank.active .fallback 0) ∧
      t.tracker = s.tracker ∧ t.channels = s.channels ∧ t.bank = s.bank ∧ t.store = s.store ∧ t.params = s.params

/-- The state right after reset: what the spec gives for power-on, block by block (R28, R34, R54, R72, R107, R118, R138,
R155, R164, R169), with nothing marked as due or waiting (log 2, 4); that the part is running with its first start due is the
model's choice (assumption log 8). -/
def Obligations.ResetValues : Prop :=
  let s := State.reset
  s.pending = [] ∧ s.power = .running ∧ s.framer.due = some .leaveReset ∧ s.timeoutsDue = [] ∧
  (s.tracker.state = .search ∧ s.tracker.phase = .noFrame ∧ s.tracker.expected = 0 ∧ s.tracker.conforming = 0 ∧
    s.tracker.faultyFrames = 0 ∧ s.tracker.frameFaulty = false ∧ s.tracker.lossTimer = none ∧ s.tracker.upstreamN = 0 ∧
    s.tracker.lineMemory = List.replicate 2048 ⟨0, 0, 0⟩ ∧ s.tracker.expiryDue = false ∧ s.tracker.waiting = []) ∧
  (s.params.channelTimeout = 16 ∧ s.params.abandonLimit = 4 ∧ s.params.lossMultiple = 3 ∧ s.params.lockCount = 2 ∧
    s.params.faultLimit = 3 ∧ s.params.eventMask = 0x7FF) ∧
  (∀ ch : Channel, s.channels[ch] = ⟨.idle, false, none, 0, 0, 0, 0, ⟨true, 0, .state, 0, []⟩⟩) ∧
  ((∀ t : TableId, s.bank.states[t] = .clean ∧ s.bank.shadow[t] = s.bank.active[t]) ∧ s.bank.record = none ∧
    (formatRecord s.bank.active = ⟨800, 480, 16667, ⟨0, 0, 0⟩, 0⟩) ∧
    (∀ (p : Fin 4) (e : Fin 256), paletteEntry s.bank.active p.val e.val =
      ⟨⟨BitVec.ofNat 8 e.val, BitVec.ofNat 8 e.val, BitVec.ofNat 8 e.val⟩, 255⟩) ∧
    (∀ (t : TableId) (offset : Nat), t = 0 ∨ t = 5 ∨ t = 6 → tableRead s.bank.active t offset = 0) ∧
    (∀ k : Fin 16, (layerRecord s.bank.active k.val).enable = false) ∧
    ∀ k : Fin 8, (checkConfig s.bank.active k.val).enable = false) ∧
  (s.store.fill = none ∧ ∀ (plane : Fin 4) (address : Half), storeRead s.store.cells plane address = 0) ∧
  (s.framer.mode = .fallback ∧ s.framer.firstFrame = true ∧ s.framer.f = 0 ∧ s.framer.n = 0 ∧ s.framer.frame = none ∧
    s.framer.timer = none ∧ s.framer.switchBack = false ∧ s.framer.handed = []) ∧ s.plan = none ∧
  ((∀ k : Fin 8, s.checker.records[k] = ⟨.off, 0, false, false, 0, 0, 0⟩ ∧ s.checker.plans[k] = none) ∧
    s.checker.pin = false) ∧
  (s.rtq.entries = [] ∧ s.rtq.inFlight = none ∧ s.rtq.lost = 0 ∧ s.rtq.lostInFlight = 0)

/-! ## Link-in: damaged packets, IDLE and the frame packets -/

/-- A damaged packet is discarded whole (R116): PACKET_INTEGRITY with its kind, or UNKNOWN, and an open lock attempt
is broken. A good IDLE packet changes nothing (R117). That these packets do not wait behind frame packets is the
model's reading (log 4). -/
def Obligations.DamagedAndIdlePackets : Prop :=
  (∀ (s : State) (code : Byte), s.steady →
    exec (.packetDiscard code) s = .next
      ((s.setTracker
        (if s.tracker.state = .locking ∧ s.tracker.phase ≠ .noFrame then s.tracker.cleared else s.tracker)).setRtq
        (s.reported s.rtq .packetIntegrity (if code.toNat ≤ 4 then code else 0xFF)).arbitrate)) ∧
  ∀ s : State, s.steady → s.rtq.laneKept → exec .idle s = .next s

/-- In SEARCH a FRAME_START begins a lock attempt, LINE and FRAME_END are discarded (R120). A frame packet that must wait
for an output frame start joins the waiting ones (R123; assumption log 4). -/
def Obligations.FramePacketsInSearchOrWaiting : Prop :=
  ∀ (s : State) (i : Instr) (p : FramePacket), s.steady →
    ((∃ n, i = .frameStart n ∧ p = .start n) ∨ (∃ number pixels, i = .line number pixels ∧ p = .line number pixels) ∨
      (∃ n count flags, i = .frameEnd n count flags ∧ p = .ending n count flags)) →
    (s.framesWait = true →
      exec i s = .next (s.setTracker { s.tracker with waiting := s.tracker.waiting ++ [p] }).arbitrate) ∧
    (s.framesWait = false → s.tracker.state = .search →
      exec i s = .next
        (match p with
         | .start n =>
           s.setTracker
             { s.tracker with
               state := .locking, phase := .receiving, expected := 0, conforming := 0, upstreamN := n
               lossTimer := some 0, expiryDue := false }
         | .line _ _ => s
         | .ending _ _ _ => s).arbitrate)

/-- LOCKING measures the upstream frames (R121): a conforming packet moves the attempt on, the FRAME_END that brings k to
the lock count locks the tracker with STREAM_LOCKED(0), and in FALLBACK mode the switch back is pending (R149); every
other frame packet takes the tracker to SEARCH without an event. What the expected line number between frames and the conforming
count in LOCKED are is the model's choice (log 16). -/
def Obligations.LockingMeasuresFrames : Prop :=
  ∀ s : State, s.steady → s.framesWait = false → s.tracker.state = .locking →
    (∀ n : Half, exec (.frameStart n) s = .next
      (s.setTracker
        (if s.tracker.phase = .noFrame then
          { s.tracker with phase := .receiving, expected := 0, upstreamN := n, lossTimer := some 0, expiryDue := false }
         else s.tracker.cleared)).arbitrate) ∧
    (∀ (number : Half) (pixels : List Pixel), exec (.line number pixels) s = .next
      (s.setTracker
        (if s.tracker.phase = .receiving ∧ number.toNat = s.tracker.expected ∧ pixels.length = s.format.width then
          { s.tracker with
            expected := number.toNat + 1
            phase := if number.toNat + 1 = s.format.height then .complete else .receiving }
         else s.tracker.cleared)).arbitrate) ∧
    ∀ (n count : Half) (flags : Byte),
      (s.tracker.phase = .complete → count.toNat = s.format.height → s.tracker.conforming + 1 < s.params.lockCount →
        exec (.frameEnd n count flags) s = .next
          (s.setTracker { s.tracker with conforming := s.tracker.conforming + 1, phase := .noFrame }).arbitrate) ∧
      (s.tracker.phase = .complete → count.toNat = s.format.height → s.params.lockCount ≤ s.tracker.conforming + 1 →
        exec (.frameEnd n count flags) s = .next
          (((s.setTracker
            { s.tracker with
              state := .locked, phase := .noFrame, conforming := s.tracker.conforming + 1, faultyFrames := 0 }).setFramer
            { s.framer with switchBack := s.framer.switchBack || s.framer.mode == .fallback }).setRtq
            (s.reported s.rtq .streamLocked 0).arbitrate)) ∧
      (s.tracker.phase ≠ .complete ∨ count.toNat ≠ s.format.height →
        exec (.frameEnd n count flags) s = .next (s.setTracker s.tracker.cleared).arbitrate)

/-- In LOCKED with no frame RECEIVING, a FRAME_START opens an upstream frame and asks for its output frame (R123): in PASS
mode the start is due (R143); with the switch back pending a fallback frame in progress is truncated, its check plan
discarded, the timer stopped, and the start is due in PASS mode (R148, R149, R159). That the start waits behind a first
fallback frame still due after a PASS frame being finished is the model's reading (log 14). -/
def Obligations.FrameStartUnderLock : Prop :=
  ∀ (s : State) (n : Half), s.steady → s.framesWait = false → s.tracker.state = .locked →
    s.tracker.phase ≠ .receiving →
    let u := s.setTracker
      { s.tracker with
        upstreamN := n, lossTimer := some 0, expiryDue := false, phase := .receiving, expected := 0, frameFaulty := false }
    (s.framer.mode = .pass →
      exec (.frameStart n) s = .next
        (u.setFramer
          { s.framer with
            due := if s.framer.due = some .entry then some .entryThenUpstream else some .upstream }).arbitrate) ∧
    (s.framer.mode = .fallback → s.framer.switchBack = false → exec (.frameStart n) s = .next u.arbitrate) ∧
    (s.framer.mode = .fallback → s.framer.switchBack = true → s.framer.frame = none →
      exec (.frameStart n) s = .next
        (u.setFramer { s.framer with mode := .pass, timer := none, switchBack := false, due := some .upstream }).arbitrate) ∧
    ∀ f : OutputFrame, s.framer.mode = .fallback → s.framer.switchBack = true → s.framer.frame = some f →
      exec (.frameStart n) s = .next
        ((u.setFramer
          { s.framer with
            mode := .pass, timer := none, switchBack := false, due := some .upstream, frame := none, handed := []
            linkOut := s.framer.linkOut ++ [.frameEnd f.n f.lines true] }).setChecker
          { s.checker with plans := #v[none, none, none, none, none, none, none, none] }).arbitrate

/-- A FRAME_START that finds a frame RECEIVING under lock ends it by RESTART (R129): the event, substitutes for the
missing lines, the verdict. Below the fault limit it then opens its own frame; at the limit the stream is lost (R135),
the PASS frame is finished before the first fallback frame (R147), and the FRAME_START begins a lock attempt. That the
mode stays PASS until that frame's end is the model's reading (log 14). -/
def Obligations.RestartEndsOpenFrame : Prop :=
  ∀ (s : State) (n : Half), s.steady → s.framesWait = false → s.tracker.state = .locked →
    s.tracker.phase = .receiving → s.framer.mode = .pass →
    let subs := s.substituteLines s.tracker.expected (s.format.height - s.tracker.expected)
    let q := s.reported s.rtq .frameFault 5
    (s.tracker.faultyFrames + 1 < s.params.faultLimit →
      exec (.frameStart n) s = .next
        (((s.setTracker
          { s.tracker with
            upstreamN := n, lossTimer := some 0, expiryDue := false, phase := .receiving, expected := 0
            frameFaulty := false, faultyFrames := s.tracker.faultyFrames + 1 }).setFramer
          { s.framer with
            handed := s.framer.handed ++ subs
            due := if s.framer.due = some .entry then some .entryThenUpstream else some .upstream }).setRtq
          q.arbitrate)) ∧
    ∀ f : OutputFrame, s.params.faultLimit ≤ s.tracker.faultyFrames + 1 → s.framer.frame = some f →
      f.height ≤ f.lines + s.framer.handed.length + (s.format.height - s.tracker.expected) →
      exec (.frameStart n) s = .next
        (((s.setTracker
          { s.tracker.cleared with state := .locking, phase := .receiving, upstreamN := n, lossTimer := some 0 }).setFramer
          { s.framer with handed := s.framer.handed ++ subs, due := some .entry }).setRtq
          (s.reported q .streamLost 1).arbitrate)

/-- A LINE taken under lock while RECEIVING: EXCESS and ORDER discard it (R126); otherwise a gap before it is
substituted (R125), it is forwarded, cut or filled to W pixels (R124, R127), and its pixels enter the line memory
(R132); each fault is reported once and marks the frame. With line H - 1 the phase is COMPLETE and the verdict is
given (R134, R135); a faulty frame that reaches the fault limit loses the stream, the PASS frame being finished first
(R147). That the mode stays PASS until that frame's end is the model's reading (log 14). -/
def Obligations.LineInOpenFrame : Prop :=
  ∀ (s : State) (number : Half) (pixels : List Pixel), s.steady → s.framesWait = false → s.tracker.state = .locked →
    s.tracker.phase = .receiving →
    let n := number.toNat
    let e := s.tracker.expected
    let handed := s.framer.handed ++ s.substituteLines e (n - e) ++ [s.forwardedLine n pixels]
    let memory := (pixels.take s.format.width).take 2048 ++
      s.tracker.lineMemory.drop ((pixels.take s.format.width).take 2048).length
    let q1 := if e < n then s.reported s.rtq .frameFault 0 else s.rtq
    let q2 := if pixels.length ≠ s.format.width then s.reported q1 .frameFault 3 else q1
    let faulty := s.tracker.frameFaulty || decide (e < n) || decide (pixels.length ≠ s.format.width)
    (s.format.height ≤ n →
      exec (.line number pixels) s = .next
        ((s.setTracker { s.tracker with frameFaulty := true }).setRtq (s.reported s.rtq .frameFault 2).arbitrate)) ∧
    (n < s.format.height → n < e →
      exec (.line number pixels) s = .next
        ((s.setTracker { s.tracker with frameFaulty := true }).setRtq (s.reported s.rtq .frameFault 1).arbitrate)) ∧
    (e ≤ n → n + 1 < s.format.height →
      exec (.line number pixels) s = .next
        (((s.setTracker { s.tracker with lineMemory := memory, expected := n + 1, frameFaulty := faulty }).setFramer
          { s.framer with handed := handed }).setRtq q2.arbitrate)) ∧
    (e ≤ n → n + 1 = s.format.height → (faulty = true → s.tracker.faultyFrames + 1 < s.params.faultLimit) →
      exec (.line number pixels) s = .next
        (((s.setTracker
          { s.tracker with
            lineMemory := memory, expected := n + 1, frameFaulty := faulty, phase := .complete
            faultyFrames := if faulty then s.tracker.faultyFrames + 1 else 0 }).setFramer
          { s.framer with handed := handed }).setRtq q2.arbitrate)) ∧
    ∀ f : OutputFrame, e ≤ n → n + 1 = s.format.height → faulty = true →
      s.params.faultLimit ≤ s.tracker.faultyFrames + 1 → s.framer.mode = .pass → s.framer.frame = some f →
      f.height ≤ f.lines + handed.length →
      exec (.line number pixels) s = .next
        (((s.setTracker { s.tracker.cleared with lineMemory := memory }).setFramer
          { s.framer with handed := handed, due := some .entry }).setRtq (s.reported q2 .streamLost 1).arbitrate)

/-- A FRAME_END under lock (R128, R130, R131): STRAY with no frame open; in COMPLETE it closes the frame, with a line count
other than H as a late EARLY_END; in RECEIVING it is EARLY_END, with substitutes for the missing lines and the verdict. At the
fault limit the stream is lost (R135), and the framer enters FALLBACK mode, after the PASS frame still in progress, whose lines
are all handed over (R147). What the expected line number is after a frame is closed is the model's choice (log 16); that
the mode stays PASS until a frame's end, and that a start still due is superseded, is its reading (log 13, 14). -/
def Obligations.FrameEndUnderLock : Prop :=
  ∀ (s : State) (n count : Half) (flags : Byte), s.steady → s.framesWait = false → s.tracker.state = .locked →
    (s.tracker.phase = .noFrame →
      exec (.frameEnd n count flags) s = .next (s.setRtq (s.reported s.rtq .frameFault 6).arbitrate)) ∧
    (s.tracker.phase = .complete → count.toNat = s.format.height →
      exec (.frameEnd n count flags) s = .next (s.setTracker { s.tracker with phase := .noFrame }).arbitrate) ∧
    (s.tracker.phase = .complete → count.toNat ≠ s.format.height →
      (s.tracker.frameFaulty = false → s.tracker.faultyFrames + 1 < s.params.faultLimit) →
      exec (.frameEnd n count flags) s = .next
        ((s.setTracker
          { s.tracker with
            phase := .noFrame, frameFaulty := true
            faultyFrames := if s.tracker.frameFaulty then s.tracker.faultyFrames else s.tracker.faultyFrames + 1 }).setRtq
          (s.reported s.rtq .frameFault 4).arbitrate)) ∧
    (s.tracker.phase = .receiving → s.tracker.faultyFrames + 1 < s.params.faultLimit →
      exec (.frameEnd n count flags) s = .next
        (((s.setTracker
          { s.tracker with
            phase := .noFrame, expected := s.format.height, frameFaulty := true
            faultyFrames := s.tracker.faultyFrames + 1 }).setFramer
          { s.framer with
            handed := s.framer.handed ++ s.substituteLines s.tracker.expected (s.format.height - s.tracker.expected) }).setRtq
          (s.reported s.rtq .frameFault 4).arbitrate)) ∧
    (∀ f : OutputFrame, s.tracker.phase = .receiving → s.params.faultLimit ≤ s.tracker.faultyFrames + 1 →
      s.framer.mode = .pass → s.framer.frame = some f →
      f.height ≤ f.lines + s.framer.handed.length + (s.format.height - s.tracker.expected) →
      exec (.frameEnd n count flags) s = .next
        (((s.setTracker s.tracker.cleared).setFramer
          { s.framer with
            handed := s.framer.handed ++ s.substituteLines s.tracker.expected (s.format.height - s.tracker.expected)
            due := some .entry }).setRtq
          (s.reported (s.reported s.rtq .frameFault 4) .streamLost 1).arbitrate)) ∧
    (s.tracker.phase = .complete → count.toNat ≠ s.format.height → s.tracker.frameFaulty = false →
      s.params.faultLimit ≤ s.tracker.faultyFrames + 1 → s.framer.mode = .pass →
      (∀ f, s.framer.frame = some f → s.frameHanded f) →
      exec (.frameEnd n count flags) s = .next
        (((s.setTracker s.tracker.cleared).setFramer
          (if s.framer.frame.isSome then { s.framer with due := some .entry }
           else { s.framer with mode := .fallback, switchBack := false, due := some .entry })).setRtq
          (s.reported (s.reported s.rtq .frameFault 4) .streamLost 1).arbitrate))

/-- A LINE under lock with no frame RECEIVING (R130, R131): STRAY in NO_FRAME; in COMPLETE a late EXCESS or ORDER,
which makes a frame judged good faulty; when that reaches the fault limit the stream is lost (R135) and the framer
enters FALLBACK mode, after the PASS frame still in progress, whose lines are all handed over (R147). That an output
frame start still due is superseded is the model's reading (log 13). -/
def Obligations.StrayAndLateLines : Prop :=
  ∀ (s : State) (number : Half) (pixels : List Pixel), s.steady → s.framesWait = false → s.tracker.state = .locked →
    let q := s.reported s.rtq .frameFault (if s.format.height ≤ number.toNat then 2 else 1)
    (s.tracker.phase = .noFrame →
      exec (.line number pixels) s = .next (s.setRtq (s.reported s.rtq .frameFault 6).arbitrate)) ∧
    (s.tracker.phase = .complete → (s.tracker.frameFaulty = false → s.tracker.faultyFrames + 1 < s.params.faultLimit) →
      exec (.line number pixels) s = .next
        ((s.setTracker
          { s.tracker with
            frameFaulty := true
            faultyFrames := if s.tracker.frameFaulty then s.tracker.faultyFrames else s.tracker.faultyFrames + 1 }).setRtq
          q.arbitrate)) ∧
    (s.tracker.phase = .complete → s.tracker.frameFaulty = false → s.params.faultLimit ≤ s.tracker.faultyFrames + 1 →
      s.framer.mode = .pass → (∀ f, s.framer.frame = some f → s.frameHanded f) →
      exec (.line number pixels) s = .next
        (((s.setTracker s.tracker.cleared).setFramer
          (if s.framer.frame.isSome then { s.framer with due := some .entry }
           else { s.framer with mode := .fallback, switchBack := false, due := some .entry })).setRtq
          (s.reported q .streamLost 1).arbitrate))

/-! ## Timers -/

/-- The loss timer expires (R122), when its command comes or at once when an expiry is due: SEARCH, from LOCKED with
STREAM_LOST(TIMEOUT); in PASS mode a frame not yet handed over whole is truncated (R148) and the first fallback frame is due,
a frame handed over whole is finished first (R147); in FALLBACK mode the switch back is withdrawn. The fallback frame timer
expires in FALLBACK mode: the next fallback frame is due (R145), at once when no frame is in progress, otherwise after that
frame's end. The expiry commands say that the time has come (log 7); an expiry due at once is taken before the channel
timeouts and frame packets that wait (log 2, 4); that the mode stays PASS until the end of a frame handed over whole, and that
a start still due is superseded, are the model's reading (log 13, 14). -/
def Obligations.TimersExpire : Prop :=
  (∀ s : State, s.power = .running →
    (s.tracker.expiryDue = true ∨ (s.steady ∧ ∃ k, s.tracker.lossTimer = some k)) →
    (s.tracker.state = .locking → exec .lossTimerExpiry s = .next (s.setTracker s.tracker.cleared).arbitrate.drain) ∧
    (s.tracker.state = .locked →
      let u := (s.setTracker s.tracker.cleared).setRtq (s.reported s.rtq .streamLost 0).arbitrate
      (s.framer.mode = .fallback →
        exec .lossTimerExpiry s = .next
          (u.setFramer
            { s.framer with
              switchBack := false, due := if s.framer.due = some .upstream then none else s.framer.due }).drain) ∧
      (s.framer.mode = .pass → s.framer.frame = none →
        exec .lossTimerExpiry s = .next
          (u.setFramer { s.framer with mode := .fallback, switchBack := false, due := some .entry }).drain) ∧
      (∀ f : OutputFrame, s.framer.mode = .pass → s.framer.frame = some f → s.frameHanded f →
        exec .lossTimerExpiry s = .next (u.setFramer { s.framer with due := some .entry }).drain) ∧
      ∀ f : OutputFrame, s.framer.mode = .pass → s.framer.frame = some f → ¬s.frameHanded f →
        exec .lossTimerExpiry s = .next
          ((u.setFramer
            { s.framer with
              mode := .fallback, switchBack := false, due := some .entry, frame := none, handed := []
              linkOut := s.framer.linkOut ++ [.frameEnd f.n f.lines true] }).setChecker
            { s.checker with plans := #v[none, none, none, none, none, none, none, none] }).drain)) ∧
  (∀ (s : State) (k : FallbackTimer), s.steady → s.framer.mode = .fallback → s.framer.timer = some k →
    s.framer.due = none →
    exec .fallbackTimerExpiry s = .next (s.setFramer { s.framer with due := some .timer }).arbitrate ∧
    (s.setFramer { s.framer with due := some .timer }).arbitrate.startNow =
      if s.framer.frame.isSome then none else some .timer)

/-! ## Output frames -/

/-- The output frame start (R140 to R142, R150): F rises by 1 and N is the upstream number or the last N plus 1, both
0 at the first frame after reset; FRAME_START leaves on link-out; a frame brought by an upstream frame is PASS unless
a FORMAT commit changed W or H, every other FALLBACK with its timer running from this start; the plans of compositor
and checker are formed from the active tables. An applied commit is reported with its tag (R44), a missed one too (R45), with
the new N; one of CHECKS resets the runtime records (R48, R165); one of FORMAT that changes W or H sends the tracker to SEARCH,
from LOCKED with STREAM_LOST(FORMAT) (R46), and one that brings the loss time to the elapsed time or below makes the loss
timer's expiry due (R47, R122). The order in which blocks take the start, and so the order of their events (R190), is the
command's (log 3); that other channels' timeouts and the expiry come as steps of their own is the model's reading (log 2), and
so are the frame packets dealt with at the end of the step (log 4), the arbiter after it (log 6) and the upstream frame's start
due behind a first fallback frame, whose switch back truncates that frame at once (log 14). -/
def Obligations.OutputFrameStarts : Prop :=
  ∀ (s : State) (cause : StartCause) (first mid : List Channel), s.power = .running → s.timeoutsDue = [] →
    s.tracker.expiryDue = false → s.startNow = some cause →
    ∃ t : State, exec (.outputFrameStart first mid) s = .next t.drain ∧
      let geometry : Bool := s.format.width != t.format.width || s.format.height != t.format.height
      let type : FrameType := if cause = .upstream ∧ geometry = false then .pass else .fallback
      let f : Word := if s.framer.firstFrame then s.framer.f else s.framer.f + 1
      let n : Half :=
        if s.framer.firstFrame then 0 else if cause = .upstream then s.tracker.upstreamN else s.framer.n + 1
      let cut : List LinkPacket := match s.framer.frame with
        | some f => [.frameEnd f.n f.lines true]
        | none => []
      let applied : Commit → Bool := fun c => c.timing == .next || c.timing == .atFrame n
      let missed : Commit → Bool := fun c => match c.timing with
        | .next => false
        | .atFrame target => decide (32768 ≤ (target - n).toNat)
      let checks : Bool := s.bank.record.any (fun c => applied c && c.mask.getLsbD 6)
      let loss : Bool := s.bank.record.any (fun c => applied c && c.mask.getLsbD 7) && t.lossTimeUp
      t.framer =
        { s.framer with
          mode := type, firstFrame := false, f := f, n := n, frame := some ⟨type, n, f, t.format.height, 0⟩
          due := if cause = .entryThenUpstream ∧ geometry = false then some .upstream else none
          timer := if type = .fallback then some ⟨0, t.format.period⟩ else none
          switchBack := s.framer.switchBack && !geometry && !(cause == .upstream && s.framer.mode == .fallback)
          handed := [], building := [s.store.cells], linkOut := s.framer.linkOut ++ cut ++ [.frameStart n] } ∧
      t.plan = some (formPlan t.bank.active type f) ∧
      (∀ k : Fin 8, t.checker.plans[k] =
        planCheck t.bank.active t.checker.records[k].status k.val f t.format.width t.format.height) ∧
      (∀ k : Fin 8, t.checker.records[k] =
        if checks then ⟨if (checkConfig t.bank.active k.val).enable then .learning else .off, 0, false, false, 0, 0, 0⟩
        else s.checker.records[k]) ∧
      t.checker.pin = (if checks then false else s.checker.pin) ∧
      t.tracker =
        (if geometry = true ∧ s.tracker.state ≠ .search then s.tracker.cleared else { s.tracker with expiryDue := loss }) ∧
      ((first ++ mid).Nodup →
        let timeouts : List Channel → Rtq → Rtq := fun chs q =>
          (chs.filter s.timesOut).foldl (fun q ch => t.reported q .channelTimeout (BitVec.ofNat 8 ch.val)) q
        let resolved : Rtq → Rtq := fun q => match s.bank.record with
          | none => q
          | some c =>
            if applied c then t.reported q .committed c.tag
            else if missed c then t.reported q .commitMissed c.tag else q
        let told : Rtq → Rtq := fun q =>
          if geometry = true ∧ s.tracker.state = .locked then t.reported q .streamLost 2 else q
        t.rtq = (told (timeouts mid (resolved (timeouts first s.rtq)))).arbitrate) ∧
      t.store = s.store ∧ t.params = s.params ∧ t.power = .running ∧ t.pending = s.pending

/-- The frame plan (R3 to R7): the frame's type and F, W, H and the background colour of the active FORMAT, and the enabled,
blink-visible layers, in a FALLBACK frame the persistent ones alone, in ascending index, each with its rectangle clipped to
the frame. -/
def Obligations.PlanHoldsVisibleLayers : Prop :=
  ∀ (active : Vector Memory 8) (type : FrameType) (f : Word),
    ((formPlan active type f).type = type ∧ (formPlan active type f).f = f ∧
      (formPlan active type f).width = (formatRecord active).width ∧
      (formPlan active type f).height = (formatRecord active).height ∧
      (formPlan active type f).background = (formatRecord active).background) ∧
    ((formPlan active type f).layers.Pairwise (fun a b => a.index < b.index)) ∧
    (∀ p : PlannedLayer, p ∈ (formPlan active type f).layers ↔
      p.index < 16 ∧
      (let l := layerRecord active p.index
       l.enable = true ∧ (type = .fallback → l.persistent = true) ∧
       (l.period = 0 ∨ (f + l.blinkOffset.setWidth 32).toNat / l.period.toNat % 2 = 0) ∧
       p.clip = clipTo l.x l.y l.width l.height (formatRecord active).width (formatRecord active).height)) ∧
    ∀ (x y width height w h sx sy : Nat), sx < w → sy < h →
      ((clipTo x y width height w h).covers sx sy = true ↔ x ≤ sx ∧ sx < x + width ∧ y ≤ sy ∧ sy < y + height)

/-- A key rule matches a colour when each channel agrees with its reference on the bits its care mask selects; a care mask
FFh demands the exact value, 00h ignores the channel, F0h with reference F0h matches F0h to FFh; the power-on rules are zero
in all fields: they match every colour with sense SHOW_ON_MATCH. -/
def Obligations.KeyRuleMatch : Prop :=
  (∀ (k : KeyRule) (t : Pixel), k.matches t = true ↔
    (t.r ^^^ k.reference.r) &&& k.care.r = 0 ∧ (t.g ^^^ k.reference.g) &&& k.care.g = 0 ∧
      (t.b ^^^ k.reference.b) &&& k.care.b = 0) ∧
  (∀ a b : Byte, (a ^^^ b) &&& 0xFF = 0 ↔ a = b) ∧ (∀ a b : Byte, (a ^^^ b) &&& 0x00 = 0) ∧
  (∀ a : Byte, (a ^^^ 0xF0) &&& 0xF0 = 0 ↔ 0xF0 ≤ a) ∧
  (∀ (k : KeyRule) (t : Pixel), k.care = ⟨0, 0, 0⟩ → k.matches t = true) ∧
  ∀ (i : Fin 8) (t : Pixel), (keyRule State.reset.bank.active i.val).matches t = true ∧
    keyRule State.reset.bank.active i.val = { reference := ⟨0, 0, 0⟩, care := ⟨0, 0, 0⟩, showOnMismatch := false, composed := false }

/-- The combine ops: REPLACE gives the source colour; BLEND mixes by the effective alpha, keeps within source and
destination, and is src at full alpha, dst at zero alpha; AND, OR and XOR are bitwise, with their identities; the alphas
are used by BLEND alone. -/
def Obligations.CombineOps : Prop :=
  ∀ (g : Nat) (e : PaletteEntry) (dst : Pixel),
    combine 0 g e dst = e.colour ∧
    combine 2 g e dst = ⟨dst.r &&& e.colour.r, dst.g &&& e.colour.g, dst.b &&& e.colour.b⟩ ∧
    combine 3 g e dst = ⟨dst.r ||| e.colour.r, dst.g ||| e.colour.g, dst.b ||| e.colour.b⟩ ∧
    combine 4 g e dst = ⟨dst.r ^^^ e.colour.r, dst.g ^^^ e.colour.g, dst.b ^^^ e.colour.b⟩ ∧
    (e.colour = ⟨255, 255, 255⟩ → combine 4 g e dst = ⟨~~~dst.r, ~~~dst.g, ~~~dst.b⟩ ∧ combine 2 g e dst = dst) ∧
    (e.colour = ⟨0, 0, 0⟩ → combine 3 g e dst = dst ∧ combine 4 g e dst = dst) ∧
    combine 4 g e (combine 4 g e dst) = dst ∧
    (g ≤ 255 → e.alpha ≤ 255 →
      let a := (e.alpha * g + 127) / 255
      a ≤ 255 ∧
      (let mix : Byte → Byte → Byte := fun src dst =>
         BitVec.ofNat 8 ((src.toNat * a + dst.toNat * (255 - a) + 127) / 255)
       combine 1 g e dst = ⟨mix e.colour.r dst.r, mix e.colour.g dst.g, mix e.colour.b dst.b⟩ ∧
       ∀ src d : Byte,
         (mix src d).toNat = (src.toNat * a + d.toNat * (255 - a) + 127) / 255 ∧
         min src.toNat d.toNat ≤ (mix src d).toNat ∧ (mix src d).toNat ≤ max src.toNat d.toNat) ∧
      (e.alpha = 255 ∧ g = 255 → combine 1 g e dst = e.colour) ∧ (e.alpha = 0 ∨ g = 0 → combine 1 g e dst = dst) ∧
      (e.alpha = 128 ∧ g = 255 ∧ e.colour = ⟨255, 255, 255⟩ ∧ dst = ⟨0, 0, 0⟩ →
        combine 1 g e dst = ⟨128, 128, 128⟩))

/-- A planned layer at a pixel (R8 to R12, R14 to R17): outside its rectangle, with a transparent index, or gated off
by its key rule it leaves the pixel; otherwise palette entry (index + offset) mod 256 is combined. A composed line has
W pixels, and with no layer planned it is the underlying line, filled with the background (R20, R24). Which store
contents each fetch finds is a free value (log 5). -/
def Obligations.LayersComposeLine : Prop :=
  (∀ (active : Vector Memory 8) (cells : Memory) (p : PlannedLayer) (sx sy : Nat) (under composed : Pixel),
    let l := layerRecord active p.index
    let bit : Fin 4 → Nat := fun k =>
      if k.val < l.depth ∧
        (storeRead cells k
          (BitVec.ofNat 16 (l.base + (sy - l.y) * l.stride + (sx - l.x) / 8))).getLsbD (7 - (sx - l.x) % 8) = true
      then 2 ^ k.val else 0
    let i := bit 0 + bit 1 + bit 2 + bit 3
    let shows : Bool :=
      match l.key with
      | none => true
      | some k =>
        (keyRule active k).matches (if (keyRule active k).composed then composed else under) !=
          (keyRule active k).showOnMismatch
    applyLayer active cells p sx sy under composed =
      if p.clip.covers sx sy = true ∧ l.transparent ≠ some i ∧ shows = true then
        combine l.op l.alpha (paletteEntry active l.palette ((i + l.paletteOffset) % 256)) composed
      else composed) ∧
  ∀ (active : Vector Memory 8) (plan : FramePlan) (moments : List Memory) (line sy : Nat) (pixels : List Pixel),
    (composeLine active plan moments line sy pixels).length = plan.width ∧
    (plan.layers = [] → composeLine active plan moments line sy pixels =
      (List.range plan.width).map (fun sx => pixels.getD sx plan.background)) ∧
    ∀ sx, sx < plan.width → ∃ pick : PlannedLayer → Memory,
      (∀ p, moments ≠ [] → pick p ∈ moments) ∧
      (composeLine active plan moments line sy pixels)[sx]? =
        some (plan.layers.foldl
          (fun px p => applyLayer active (pick p) p sx sy (pixels.getD sx plan.background) px)
          (pixels.getD sx plan.background))

/-- A line is emitted (R139, R145, R159): in a PASS frame the oldest line in hand, in a FALLBACK frame the next
background line, composed under the frame plan and taken by the checks. After line H - 1 the frame ends with FRAME_END
and every planned check is evaluated, in ascending check index (R144, R160). With no line to emit, link-out carries an IDLE
packet (R139). The store contents a line is composed from are the free values of log 5: those up to some moment e, while the
lines after it, composed one by one in ascending order, are fetched from that moment on (R1, R10). That the mode turns
FALLBACK at that end when a fallback run waits for it, with the switch back pending under a new lock, is the model's
reading (log 14). -/
def Obligations.LineEmitted : Prop :=
  (∀ (s : State) (f : OutputFrame) (plan : FramePlan) (number : Nat) (pixels : List Pixel) (seen : List Memory)
    (later : List HandedLine), s.steady → s.framer.frame = some f → s.plan = some plan →
    ((f.type = .pass ∧ ∃ kind, s.framer.handed = ⟨number, kind, pixels, seen⟩ :: later) ∨
     (f.type = .fallback ∧ number = f.lines ∧ pixels = List.replicate plan.width plan.background ∧
        seen = s.framer.building ∧ later = s.framer.handed)) →
    ∃ (moments : List Memory) (rest : List HandedLine),
      ((f.type = .pass ∧ ∃ e : Nat, (seen ≠ [] → e < seen.length) ∧ moments = seen.take (e + 1) ∧
          rest = later.map (fun l => { l with moments := l.moments.drop (l.moments.length - (seen.length - e)) })) ∨
       (f.type = .fallback ∧ moments = seen ∧ rest = later)) ∧
      let out := composeLine s.bank.active plan moments s.free number pixels
      let framer' : Framer :=
        { s.framer with
          handed := rest, building := [s.store.cells], frame := some { f with lines := f.lines + 1 }
          linkOut := s.framer.linkOut ++ [.line number out] }
      let checker' := s.checker.takeLine number out
      let run : Prop := s.framer.due = some .entry ∨ s.framer.due = some .entryThenUpstream
      (f.lines + 1 < f.height →
        exec .emitLine s = .next
          (((s.setFramer framer').setChecker checker').setFree (s.free + 1)).arbitrate) ∧
      (f.height ≤ f.lines + 1 →
        ∃ t : State, exec .emitLine s = .next t.drain ∧
          t.framer.linkOut = s.framer.linkOut ++ [.line number out, .frameEnd f.n f.height false] ∧
          t.framer.frame = none ∧ t.framer.handed = rest ∧ t.framer.f = s.framer.f ∧ t.framer.n = s.framer.n ∧
          t.framer.due = s.framer.due ∧ t.framer.timer = s.framer.timer ∧
          (run → t.framer.mode = .fallback) ∧ (¬run → t.framer.mode = s.framer.mode) ∧
          (run → s.framer.mode = .pass → t.framer.switchBack = (s.tracker.state == .locked)) ∧
          (¬run ∨ s.framer.mode = .fallback → t.framer.switchBack = s.framer.switchBack) ∧
          t.checker.plans = checker'.plans ∧
          (∀ k : Fin 8, t.checker.records[k] =
            match checker'.plans[k] with
            | none => s.checker.records[k]
            | some p => s.checker.records[k].evaluate (checkConfig s.bank.active k.val) p.selection (~~~p.crc)) ∧
          (let done := ([0, 1, 2, 3, 4, 5, 6, 7] : List (Fin 8)).foldl State.evaluateCheck (s.setChecker checker')
           t.checker.pin = done.checker.pin ∧ t.rtq = done.rtq.arbitrate) ∧
          t.tracker = s.tracker ∧ t.params = s.params ∧ t.channels = s.channels ∧ t.bank = s.bank ∧ t.store = s.store ∧
          t.plan = s.plan ∧ t.free = s.free + 1)) ∧
  ∀ s : State, s.steady →
    (s.framer.frame = none ∨ ∃ f, s.framer.frame = some f ∧ f.type = .pass ∧ s.framer.handed = []) →
    exec .emitLine s = .next (s.setFramer { s.framer with linkOut := s.framer.linkOut ++ [.idle] }).arbitrate

/-! ## Channel timeouts -/

/-- At an output frame start the idle frames of the channels in OPEN rise by 1, those of the others do not (R95). A channel
whose idle frames reach the channel timeout times out (R96): within the start where the command names it before or after the
table bank (R190; log 3), its load ended incomplete and the channel IDLE; otherwise its CHANNEL_TIMEOUT is due, in ascending
channel number, which, taken, does the same and raises the event. That timeouts of a start are due as steps of their own, and
that frame packets wait for them, is the model's reading (log 2, 4). -/
def Obligations.ChannelTimesOut : Prop :=
  (∀ (s : State) (cause : StartCause) (first mid : List Channel), s.power = .running → s.timeoutsDue = [] →
    s.tracker.expiryDue = false → s.startNow = some cause → s.ownership →
    ∃ t : State, exec (.outputFrameStart first mid) s = .next t.drain ∧
      (∀ ch : Channel, t.channels[ch] =
        if s.timesOut ch = true ∧ (ch ∈ first ∨ ch ∈ mid) then
          { s.channels[ch] with state := .idle, target := none, idleFrames := 0 }
        else if s.channels[ch].state = .opened then
          { s.channels[ch] with idleFrames := s.channels[ch].idleFrames + 1 }
        else s.channels[ch]) ∧
      (∀ (ch : Channel) (u : TableId), s.timesOut ch = true → (ch ∈ first ∨ ch ∈ mid) →
        Target.tableOf s.channels[ch].target = some u → t.bank.states[u] = .partialLoad) ∧
      t.timeoutsDue = ([0, 1, 2, 3] : List Channel).filter (fun ch => s.timesOut ch && !(first ++ mid).contains ch)) ∧
  (∀ (s : State) (ch : Channel), s.timesOut ch = true ↔
    s.channels[ch].state = .opened ∧ s.params.channelTimeout ≤ s.channels[ch].idleFrames + 1) ∧
  ∀ (s : State) (ch : Channel), s.power = .running → ch ∈ s.timeoutsDue → s.channels[ch].state = .opened →
    exec (.channelTimeout ch) s = .next
      ((((s.loadDropped ch).setTimeoutsDue (s.timeoutsDue.erase ch)).setChannels
        (s.channels.set ch { s.channels[ch] with state := .idle, target := none, idleFrames := 0 })).setRtq
        (s.reported s.rtq .channelTimeout (BitVec.ofNat 8 ch.val)).arbitrate).drain

/-! ## Fills -/

/-- A fill step writes the fill byte of each selected plane at A + P as one write, and P rises by 1 (R65); the lines
in hand may be fetched before or after it (R10). When P equals the span the fill completes: port FREE, channel IDLE,
target absent, FILL_DONE (R67). The record of possible fetch moments is the model's (log 5). -/
def Obligations.FillStepsAndCompletes : Prop :=
  (∀ (s : State) (f : FillRecord), s.steady → s.store.fill = some f → f.progress < f.span →
    ∃ cells : Memory,
      exec .fillStep s = .next
        ((s.writeStore cells).setStore
          { cells := cells, fill := some { f with progress := f.progress + 1 } }).arbitrate ∧
      (s.store.cells.wf storeDefault = true → f.start + f.progress < 65536 →
        ∀ (plane : Fin 4) (address : Half), storeRead cells plane address =
          if f.planes.getLsbD plane.val = true ∧ address.toNat = f.start + f.progress then
            (if f.colour.getLsbD plane.val then 0xFF else 0x00)
          else storeRead s.store.cells plane address)) ∧
  ∀ (s : State) (f : FillRecord), s.steady → s.store.fill = some f → f.progress = f.span →
    exec .fillCompletion s = .next
      (((s.setStore { s.store with fill := none }).setChannels
        (s.channels.set f.channel { s.channels[f.channel] with state := .idle, target := none })).setRtq
        (s.reported s.rtq .fillDone (BitVec.ofNat 8 f.channel.val)).arbitrate)

/-! ## Checks -/

/-- The evaluation of a planned check (R160 to R162): the observed value is written; with no expected value it is learned
for the selection and FAILING alone stays; a match clears the count and is PASSING; a mismatch raises the count while
below the threshold, and at the threshold the check is FAILING. The part then raises CHECK_PASS when the check leaves
FAILING and CHECK_FAIL, the observed value in its frame fields, when it enters it (R163); FAULT is asserted exactly
while a check is FAILING (R164). -/
def Obligations.CheckEvaluated : Prop :=
  (∀ (s : State) (k : Fin 8) (p : CheckPlan), s.checker.plans[k] = some p →
    let observed := ~~~p.crc
    let old := s.checker.records[k]
    let new := old.evaluate (checkConfig s.bank.active k.val) p.selection observed
    let t := s.evaluateCheck k
    t.checker.records = s.checker.records.set k new ∧
    (t.checker.pin = true ↔ ∃ j : Fin 8, t.checker.records[j].status = .failing) ∧
    t.rtq =
      (if old.status = .failing ∧ new.status ≠ .failing then s.reported s.rtq .checkPass (BitVec.ofNat 8 k.val)
       else if old.status ≠ .failing ∧ new.status = .failing ∧ s.params.eventMask.getLsbD EventKind.checkFail.bit = true
       then s.rtq.raise .checkFail (BitVec.ofNat 8 k.val) (observed.extractLsb' 0 16) (observed.extractLsb' 16 16)
       else s.rtq)) ∧
  ∀ (r : CheckRecord) (cfg : CheckConfig) (sel : Selection) (observed : Word),
    let inRecord := match sel with
      | .a => cfg.expectedA
      | .b => cfg.expectedB
    let learned := match sel with
      | .a => if r.learnedAFlag then some r.learnedA else none
      | .b => if r.learnedBFlag then some r.learnedB else none
    let expected := inRecord.or learned
    let t := r.evaluate cfg sel observed
    t.observed = observed ∧
    (expected = none →
      t.status = (if r.status = .failing then .failing else .learning) ∧ t.mismatches = r.mismatches ∧
      (sel = .a → t.learnedAFlag = true ∧ t.learnedA = observed ∧ t.learnedBFlag = r.learnedBFlag ∧
        t.learnedB = r.learnedB) ∧
      (sel = .b → t.learnedBFlag = true ∧ t.learnedB = observed ∧ t.learnedAFlag = r.learnedAFlag ∧
        t.learnedA = r.learnedA)) ∧
    (expected = some observed → t = { r with observed := observed, mismatches := 0, status := .passing }) ∧
    ∀ v, expected = some v → v ≠ observed →
      t = { r with
        observed := observed
        mismatches := if r.mismatches < cfg.threshold then r.mismatches + 1 else r.mismatches
        status :=
          if (if r.mismatches < cfg.threshold then r.mismatches + 1 else r.mismatches) = cfg.threshold then .failing
          else r.status }

/-! ## Return queue and lane -/

/-- The message in flight completes (R177, R178). The arbiter of a FREE lane starts the oldest reply, whatever events
stand before it, otherwise the oldest event, whose message carries the lost-event counter while the lost-in-flight
count becomes 0; a BUSY lane or an empty list starts nothing (R176). The list of messages sent is the model's
observation log (log 11). -/
def Obligations.MessagesFollowOnLane : Prop :=
  (∀ (s : State) (m : Message), s.steady → s.rtq.inFlight = some m →
    exec .messageCompletion s = .next (s.setRtq
      (Rtq.arbitrate
        { s.rtq with
          inFlight := none, laneTicks := 0, sent := s.rtq.sent ++ [m]
          lost := match m with
            | .reply _ _ => s.rtq.lost
            | .event _ _ => s.rtq.lostInFlight }))) ∧
  (∀ (q : Rtq) (ch : Channel) (r : Reply) (before after : List Entry), q.inFlight = none →
    q.entries = before ++ .reply ch r :: after → (∀ e ∈ before, e.isEvent = true) →
    q.arbitrate = { q with entries := before ++ after, inFlight := some (.reply ch r), laneTicks := 0 }) ∧
  (∀ (q : Rtq) (e : EventEntry) (rest : List Entry), q.inFlight = none → q.entries = .event e :: rest →
    (∀ x ∈ rest, x.isEvent = true) →
    q.arbitrate =
      { q with entries := rest, inFlight := some (.event e q.lost), lostInFlight := 0, laneTicks := 0 }) ∧
  ∀ q : Rtq, (q.inFlight ≠ none ∨ q.entries = []) → q.arbitrate = q

/-- A reply joins the list as its newest entry, or replaces the waiting reply of its channel where it stands (R171). An event
merges with the waiting entry of its kind and argument (R174), otherwise joins while fewer than twelve events wait,
otherwise is dropped and counted (R175). -/
def Obligations.EntriesJoinQueue : Prop :=
  (∀ (q : Rtq) (ch : Channel) (r : Reply),
    ((∀ e ∈ q.entries, e.isReplyOf ch = false) → q.handOver ch r = { q with entries := q.entries ++ [.reply ch r] }) ∧
    ∀ (before after : List Entry) (old : Reply), q.entries = before ++ .reply ch old :: after →
      (∀ e ∈ before, e.isReplyOf ch = false) → (∀ e ∈ after, e.isReplyOf ch = false) →
      q.handOver ch r = { q with entries := before ++ .reply ch r :: after }) ∧
  (∀ (q : Rtq) (kind : EventKind) (arg : Byte) (first last : Half),
    (∀ (before after : List Entry) (e : EventEntry), q.entries = before ++ .event e :: after → e.kind = kind →
      e.arg = arg → (∀ x ∈ before, x.isEventOf kind arg = false) → (∀ x ∈ after, x.isEventOf kind arg = false) →
      q.raise kind arg first last =
        { q with
          entries := before ++
            .event
              { e with
                count := if e.count < 255 then e.count + 1 else e.count
                first := if kind = .checkFail then first else e.first
                last := last } :: after }) ∧
    ((∀ x ∈ q.entries, x.isEventOf kind arg = false) → q.entries.countP Entry.isEvent < 12 →
      q.raise kind arg first last = { q with entries := q.entries ++ [.event ⟨kind, arg, 1, first, last⟩] }) ∧
    ((∀ x ∈ q.entries, x.isEventOf kind arg = false) → 12 ≤ q.entries.countP Entry.isEvent →
      q.raise kind arg first last =
        { q with
          lost := if q.lost < 255 then q.lost + 1 else q.lost
          lostInFlight :=
            match q.inFlight with
            | some (.event _ _) => if q.lostInFlight < 255 then q.lostInFlight + 1 else q.lostInFlight
            | some (.reply _ _) => q.lostInFlight
            | none => q.lostInFlight }))

/-! ## Invariants of every step -/

/-- The return queue keeps its bounds and counts, and no entry waits while the lane is FREE. -/
def Obligations.QueueKeptByEveryStep : Prop :=
  ∀ s t : State, s.rtq.bounded → s.rtq.laneKept → s.rtq.countsFit → step s = .next t →
    t.rtq.bounded ∧ t.rtq.laneKept ∧ t.rtq.countsFit

/-- The store and both copies of every table keep their canonical form. -/
def Obligations.MemoriesKeptByEveryStep : Prop :=
  ∀ s t : State, s.memoriesCanonical → step s = .next t → t.memoriesCanonical

/-- Channels, table states, commit record, write port and due timeouts keep agreeing on who holds what. -/
def Obligations.OwnershipKeptByEveryStep : Prop :=
  ∀ s t : State, s.ownership → s.timeoutsHeld → step s = .next t → t.ownership ∧ t.timeoutsHeld

/-- The FAULT pin follows the check statuses, the line memory keeps its positions, the operating parameters and the
tracker's counts stay in their ranges. -/
def Obligations.BlocksKeptByEveryStep : Prop :=
  ∀ s t : State, s.checker.pinFollows → s.tracker.memoryWhole → s.params.inRange → s.tracker.countsFit →
    step s = .next t →
    t.checker.pinFollows ∧ t.tracker.memoryWhole ∧ t.params.inRange ∧ t.tracker.countsFit

/-- The invariants hold right after reset. -/
def Obligations.InvariantsHoldAtReset : Prop :=
  let s := State.reset
  (s.rtq.bounded ∧ s.rtq.laneKept ∧ s.rtq.countsFit) ∧ s.memoriesCanonical ∧ (s.ownership ∧ s.timeoutsHeld) ∧
    (s.checker.pinFollows ∧ s.tracker.memoryWhole ∧ s.params.inRange ∧ s.tracker.countsFit) ∧
    (s.tracker.waiting.isEmpty || s.framesWait) = true

/-! ## Link-in in bytes -/

/-- Receiving the packet of a command gives that command back, for every well-formed command that is a packet, with
every operand at every value. A packet is discarded exactly when it fails the check of R116, and then whole, as PACKET_DISCARD
with its kind code: its kind is none of the five, its CRC-16 differs, or its length is not the one its kind and fields give, a
CONTROL payload length above 256 among these (R184). A packet too short to hold a kind byte and a CRC-16 is discarded too. The
operands, the split of OPEN and RESET packets over their two rows, and the kind codes of packets too short are the model's
(log 12). -/
def Obligations.ReceiveReadsPackets : Prop :=
  (∀ (c : Instr) (bytes : List Byte), c.wf = true → packetOf c = some bytes → receive bytes = c) ∧
  (∀ (code : Byte) (fields : List Byte) (c0 c1 : Byte),
    let wrongLength : Prop :=
      (code = 0 ∧ fields.length ≠ 0) ∨ (code = 1 ∧ fields.length ≠ 2) ∨
      (code = 2 ∧ (fields.length < 4 ∨
        fields.length ≠ 4 + 3 * (half (fields.getD 2 0) (fields.getD 3 0)).toNat)) ∨
      (code = 3 ∧ fields.length ≠ 5) ∨
      (code = 4 ∧ (fields.length < 4 ∨ 256 < (half (fields.getD 2 0) (fields.getD 3 0)).toNat ∨
        fields.length ≠ 4 + (half (fields.getD 2 0) (fields.getD 3 0)).toNat))
    let fails : Prop := 5 ≤ code.toNat ∨ half c0 c1 ≠ crc16 (code :: fields) ∨ wrongLength
    (fails → receive (code :: fields ++ [c0, c1]) = .packetDiscard code) ∧
    (¬fails → ∀ k : Byte, receive (code :: fields ++ [c0, c1]) ≠ .packetDiscard k)) ∧
  ∀ packet : List Byte, packet.length ≤ 2 → receive packet = .packetDiscard (packet.headD 0xFF)
end

