-- ==== Sys2Proof/Laws/Bank.lean ====
section
/-! SUPPORT. Laws of the table bank: the tables a mask names, and what setting states, activating and restoring do to each table. -/

namespace Sys2Proof.Machine

/-- Every table id is among all tables. -/
theorem mem_allTables (t : TableId) : t ∈ allTables := by
  revert t
  decide

/-- Bit i of a mask names table i (R27). -/
theorem mem_maskTables (mask : Byte) (t : TableId) : t ∈ maskTables mask ↔ mask.getLsbD t.val = true := by
  simp [maskTables, List.mem_filter, mem_allTables]

/-- The tables a mask names stand in ascending table id. -/
theorem maskTables_sorted (mask : Byte) : (maskTables mask).Pairwise (· < ·) :=
  List.Pairwise.filter _ (by decide)

/-- A table of a vector after a set. -/
theorem getElem_set_table {α : Type} (v : Vector α 8) (t u : TableId) (x : α) :
    (v.set t x)[u] = if u = t then x else v[u] := by
  by_cases h : u = t
  · subst h
    simp
  · have : (t : Nat) ≠ u := fun e => h (Fin.ext e.symm)
    simp [Vector.getElem_set_ne _ _ this, h]

/-- The state of each table after setting those of a list. -/
theorem Bank.setStates_states (b : Bank) (ts : List TableId) (st : ShadowState) (u : TableId) :
    (b.setStates ts st).states[u] = if u ∈ ts then st else b.states[u] := by
  unfold Bank.setStates
  induction ts generalizing b with
  | nil => simp
  | cons t rest ih =>
    rw [List.foldl_cons, ih]
    simp only [Bank.setState, getElem_set_table, List.mem_cons]
    by_cases h1 : u ∈ rest <;> by_cases h2 : u = t <;> simp [h1, h2]

/-- Setting states changes nothing else of the bank. -/
@[simp] theorem Bank.setStates_kept (b : Bank) (ts : List TableId) (st : ShadowState) :
    (b.setStates ts st).shadow = b.shadow ∧ (b.setStates ts st).active = b.active ∧
      (b.setStates ts st).record = b.record := by
  unfold Bank.setStates
  induction ts generalizing b with
  | nil => simp
  | cons t rest ih => simpa [Bank.setState] using ih (b.setState t st)

/-- Each table of a copy after the tables of a list are copied from another. -/
theorem copyTables_getElem (src : Vector Memory 8) (ts : List TableId) (dst : Vector Memory 8) (u : TableId) :
    (ts.foldl (fun (a : Vector Memory 8) (t : TableId) => a.set t src[t]) dst)[u] =
      if u ∈ ts then src[u] else dst[u] := by
  induction ts generalizing dst with
  | nil => simp
  | cons t rest ih =>
    rw [List.foldl_cons, ih]
    simp only [getElem_set_table, List.mem_cons]
    by_cases h1 : u ∈ rest <;> by_cases h2 : u = t <;> simp [h1, h2]

/-- The active copy of each table after a commit of a list of tables (R44). -/
theorem Bank.activate_active (b : Bank) (ts : List TableId) (u : TableId) :
    (b.activate ts).active[u] = if u ∈ ts then b.shadow[u] else b.active[u] :=
  copyTables_getElem b.shadow ts b.active u

/-- The shadow of each table after active copies are restored (R50, R52). -/
theorem Bank.restore_shadow (b : Bank) (ts : List TableId) (u : TableId) :
    (b.restore ts).shadow[u] = if u ∈ ts then b.active[u] else b.shadow[u] :=
  copyTables_getElem b.active ts b.shadow u

/-- Activating changes the active copies alone. -/
@[simp] theorem Bank.activate_kept (b : Bank) (ts : List TableId) :
    (b.activate ts).shadow = b.shadow ∧ (b.activate ts).states = b.states ∧ (b.activate ts).record = b.record :=
  ⟨rfl, rfl, rfl⟩

/-- Restoring changes the shadows alone. -/
@[simp] theorem Bank.restore_kept (b : Bank) (ts : List TableId) :
    (b.restore ts).active = b.active ∧ (b.restore ts).states = b.states ∧ (b.restore ts).record = b.record :=
  ⟨rfl, rfl, rfl⟩

/-- The end of a load changes no copy and no record. -/
@[simp] theorem Bank.loadEnded_kept (b : Bank) (target : Option Target) (st : ShadowState) :
    (b.loadEnded target st).shadow = b.shadow ∧ (b.loadEnded target st).active = b.active ∧
      (b.loadEnded target st).record = b.record := by
  unfold Bank.loadEnded
  split <;> simp [Bank.setState]

/-- A find over the tables a mask names gives the lowest table named that passes. -/
theorem find_maskTables {mask : Byte} {p : TableId → Bool} {t : TableId} (h1 : mask.getLsbD t.val = true)
    (h2 : p t = true) (h3 : ∀ u : TableId, u < t → mask.getLsbD u.val = true → p u = false) :
    (maskTables mask).find? p = some t := by
  rw [List.find?_eq_some_iff_append]
  refine ⟨h2, ?_⟩
  obtain ⟨as, bs, h⟩ := List.append_of_mem ((mem_maskTables mask t).2 h1)
  refine ⟨as, bs, h, fun u hu => ?_⟩
  have hs := maskTables_sorted mask
  rw [h, List.pairwise_append] at hs
  have hlt : u < t := hs.2.2 u hu t (List.mem_cons_self ..)
  have hm : u ∈ maskTables mask := by
    rw [h]
    exact List.mem_append_left _ hu
  simp [h3 u hlt ((mem_maskTables mask u).1 hm)]

/-- A find over the tables a mask names that finds none. -/
theorem find_maskTables_none {mask : Byte} {p : TableId → Bool}
    (h : ∀ u : TableId, mask.getLsbD u.val = true → p u = false) : (maskTables mask).find? p = none := by
  rw [List.find?_eq_none]
  intro u hu
  simp [h u ((mem_maskTables mask u).1 hu)]

end Sys2Proof.Machine
end

