-- ==== Sys2Proof/Laws/Memory.lean ====
section
/-! SUPPORT. Laws of the sparse memory: what a read finds after a write, and that every write keeps the canonical form. -/

namespace Sys2Proof.Machine

/-- A read finds the byte just written, and every other byte as before. -/
theorem Memory.read_write (d : Nat → Byte) (m : Memory) (a b : Nat) (v : Byte) (h : m.sorted = true) :
    (m.write d a v).read d b = if b = a then v else m.read d b := by
  induction m with
  | nil =>
    simp only [Memory.write]
    split
    · by_cases hb : b = a <;> simp_all [Memory.read]
    · by_cases hb : b = a
      · simp [Memory.read, hb]
      · simp [Memory.read, hb, Ne.symm hb]
  | cons c rest ih =>
    obtain ⟨k, w⟩ := c
    simp only [Memory.sorted, Bool.and_eq_true, List.all_eq_true, decide_eq_true_eq] at h
    have unlisted : ∀ (r : Memory) (n : Nat), (∀ x ∈ r, n < x.1) → r.read d n = d n := by
      intro r n hr
      induction r with
      | nil => rfl
      | cons x xs ihx =>
        have h1 := hr x (List.mem_cons_self ..)
        have h2 := ihx (fun y hy => hr y (List.mem_cons_of_mem _ hy))
        rw [Memory.read, if_neg (by omega), h2]
    simp only [Memory.write]
    by_cases hlt : a < k
    · rw [if_pos hlt]
      have ha : Memory.read d ((k, w) :: rest) a = d a :=
        unlisted _ _ (by
          intro x hx
          rcases List.mem_cons.1 hx with rfl | hx
          · exact hlt
          · have := h.1 x hx
            simp at this ⊢
            omega)
      by_cases hv : v = d a
      · rw [if_pos hv]
        by_cases hb : b = a
        · rw [if_pos hb, hb, ha, hv]
        · rw [if_neg hb]
      · rw [if_neg hv]
        by_cases hb : b = a
        · simp [Memory.read, hb]
        · rw [if_neg hb]
          conv => lhs; rw [Memory.read, if_neg (Ne.symm hb)]
    · rw [if_neg hlt]
      by_cases hk : a = k
      · rw [if_pos hk]
        subst hk
        by_cases hv : v = d a
        · rw [if_pos hv]
          by_cases hb : b = a
          · rw [if_pos hb, hb, hv]
            exact unlisted rest a (fun x hx => by simpa using h.1 x hx)
          · rw [if_neg hb, Memory.read, if_neg (Ne.symm hb)]
        · rw [if_neg hv]
          by_cases hb : b = a
          · simp [Memory.read, hb]
          · simp [Memory.read, hb, Ne.symm hb]
      · rw [if_neg hk]
        by_cases hb : b = k
        · have : b ≠ a := by omega
          simp [Memory.read, hb, Ne.symm hk]
        · simp only [Memory.read]
          rw [if_neg (Ne.symm hb), if_neg (Ne.symm hb), ih h.2]

/-- Every address of a memory written to is the written one or one listed before. -/
theorem Memory.mem_write (d : Nat → Byte) (m : Memory) (a : Nat) (v : Byte) (x : Nat × Byte)
    (h : x ∈ m.write d a v) : (x = (a, v) ∧ v ≠ d a) ∨ x ∈ m := by
  induction m with
  | nil =>
    simp only [Memory.write] at h
    split at h <;> simp_all
  | cons c rest ih =>
    obtain ⟨k, w⟩ := c
    simp only [Memory.write] at h
    split at h
    · split at h
      · exact Or.inr h
      · rcases List.mem_cons.1 h with h | h
        · exact Or.inl ⟨h, by assumption⟩
        · exact Or.inr h
    · split at h
      · split at h
        · exact Or.inr (List.mem_cons_of_mem _ h)
        · rcases List.mem_cons.1 h with h | h
          · exact Or.inl ⟨h, by assumption⟩
          · exact Or.inr (List.mem_cons_of_mem _ h)
      · rcases List.mem_cons.1 h with h | h
        · exact Or.inr (by rw [h]; exact List.mem_cons_self ..)
        · rcases ih h with h | h
          · exact Or.inl h
          · exact Or.inr (List.mem_cons_of_mem _ h)

/-- A write keeps the addresses rising. -/
theorem Memory.sorted_write (d : Nat → Byte) (m : Memory) (a : Nat) (v : Byte) (h : m.sorted = true) :
    (m.write d a v).sorted = true := by
  induction m with
  | nil =>
    simp only [Memory.write]
    split <;> simp [Memory.sorted]
  | cons c rest ih =>
    obtain ⟨k, w⟩ := c
    have h' := h
    simp only [Memory.sorted, Bool.and_eq_true, List.all_eq_true, decide_eq_true_eq] at h
    simp only [Memory.write]
    split
    · rename_i hlt
      split
      · exact h'
      · simp only [Memory.sorted, Bool.and_eq_true, List.all_eq_true, decide_eq_true_eq, List.mem_cons,
          forall_eq_or_imp]
        exact ⟨⟨hlt, fun x hx => Nat.lt_trans hlt (h.1 x hx)⟩, h.1, h.2⟩
    · split
      · rename_i hk
        subst hk
        split
        · exact h.2
        · simpa only [Memory.sorted, Bool.and_eq_true, List.all_eq_true, decide_eq_true_eq] using h
      · rename_i hlt hk
        simp only [Memory.sorted, Bool.and_eq_true, List.all_eq_true, decide_eq_true_eq]
        refine ⟨fun x hx => ?_, ih h.2⟩
        rcases Memory.mem_write d rest a v x hx with ⟨hx, _⟩ | hx
        · rw [hx]
          show k < a
          omega
        · exact h.1 x hx

/-- A write keeps the canonical form. -/
theorem Memory.wf_write (d : Nat → Byte) (m : Memory) (a : Nat) (v : Byte) (h : m.wf d = true) :
    (m.write d a v).wf d = true := by
  simp only [Memory.wf, Bool.and_eq_true, List.all_eq_true, bne_iff_ne, ne_eq] at h ⊢
  refine ⟨Memory.sorted_write d m a v h.1, fun x hx => ?_⟩
  rcases Memory.mem_write d m a v x hx with ⟨hx, hv⟩ | hx
  · rw [hx]
    exact hv
  · exact h.2 x hx

/-- The empty memory is canonical. -/
theorem Memory.wf_nil (d : Nat → Byte) : Memory.wf d [] = true := rfl

/-- Two planes, or two addresses of one plane, never share a store byte. -/
theorem storeKey_inj (p q : Fin 4) (a b : Half) : storeKey p a = storeKey q b ↔ p = q ∧ a = b := by
  constructor
  · intro h
    simp only [storeKey] at h
    have ha := a.isLt
    have hb := b.isLt
    have hp : p.val = q.val := by omega
    exact ⟨Fin.ext hp, BitVec.eq_of_toNat_eq (by omega)⟩
  · rintro ⟨rfl, rfl⟩
    rfl

/-- A store read after a store write. -/
theorem storeRead_storeWrite (cells : Memory) (p q : Fin 4) (a b : Half) (v : Byte)
    (h : cells.wf storeDefault = true) :
    storeRead (storeWrite cells p a v) q b = if q = p ∧ b = a then v else storeRead cells q b := by
  simp only [Memory.wf, Bool.and_eq_true] at h
  simp only [storeRead, storeWrite]
  rw [Memory.read_write _ _ _ _ _ h.1]
  simp only [storeKey_inj]

/-- A store write keeps the canonical form. -/
theorem storeWrite_wf (cells : Memory) (p : Fin 4) (a : Half) (v : Byte) (h : cells.wf storeDefault = true) :
    (storeWrite cells p a v).wf storeDefault = true := Memory.wf_write _ _ _ _ h

/-- A table write keeps the canonical form of every table of the copy. -/
theorem tableWrite_wf (copy : Vector Memory 8) (t : TableId) (o : Nat) (v : Byte) (h : copyWf copy) :
    copyWf (tableWrite copy t o v) := by
  intro u
  simp only [tableWrite]
  split
  · by_cases hu : u = t
    · subst hu
      simp only [Fin.getElem_fin, Vector.getElem_set_self]
      exact Memory.wf_write _ _ _ _ (h u)
    · have : (t : Nat) ≠ u := fun e => hu (Fin.ext e.symm)
      simp only [Fin.getElem_fin, Vector.getElem_set_ne _ _ this]
      exact h u
  · exact h u

/-- A run of table writes keeps the canonical form. -/
theorem tableWriteRun_wf (copy : Vector Memory 8) (t : TableId) (o : Nat) (bs : List Byte) (h : copyWf copy) :
    copyWf (tableWriteRun copy t o bs) := by
  induction bs generalizing copy o with
  | nil => exact h
  | cons b rest ih => exact ih _ _ (tableWrite_wf _ _ _ _ h)

/-- A table read after a table write inside the table. -/
theorem tableRead_tableWrite (copy : Vector Memory 8) (t u : TableId) (o p : Nat) (v : Byte) (h : copyWf copy)
    (ho : o < tableSize t) :
    tableRead (tableWrite copy t o v) u p = if u = t ∧ p = o then v else tableRead copy u p := by
  simp only [tableRead, tableWrite, if_pos ho]
  by_cases hu : u = t
  · subst hu
    have hw := h u
    simp only [Memory.wf, Bool.and_eq_true] at hw
    simp only [Fin.getElem_fin, Vector.getElem_set_self, true_and]
    exact Memory.read_write _ _ _ _ _ hw.1
  · have : (t : Nat) ≠ u := fun e => hu (Fin.ext e.symm)
    simp only [Fin.getElem_fin, Vector.getElem_set_ne _ _ this, hu, false_and, if_false]

end Sys2Proof.Machine
end

