-- ==== Sys2Proof/Laws/State.lean ====
section
/-! SUPPORT. One lemma per field and named update of State: the field written, and every other field unchanged. -/

namespace Sys2Proof.Machine

@[simp] theorem State.setPending_pending (s : State) (v : List Instr) : (s.setPending v).pending = v := rfl
@[simp] theorem State.setPending_power (s : State) (v : List Instr) : (s.setPending v).power = s.power := rfl
@[simp] theorem State.setPending_tracker (s : State) (v : List Instr) : (s.setPending v).tracker = s.tracker := rfl
@[simp] theorem State.setPending_params (s : State) (v : List Instr) : (s.setPending v).params = s.params := rfl
@[simp] theorem State.setPending_channels (s : State) (v : List Instr) : (s.setPending v).channels = s.channels := rfl
@[simp] theorem State.setPending_timeoutsDue (s : State) (v : List Instr) : (s.setPending v).timeoutsDue = s.timeoutsDue := rfl
@[simp] theorem State.setPending_bank (s : State) (v : List Instr) : (s.setPending v).bank = s.bank := rfl
@[simp] theorem State.setPending_store (s : State) (v : List Instr) : (s.setPending v).store = s.store := rfl
@[simp] theorem State.setPending_framer (s : State) (v : List Instr) : (s.setPending v).framer = s.framer := rfl
@[simp] theorem State.setPending_plan (s : State) (v : List Instr) : (s.setPending v).plan = s.plan := rfl
@[simp] theorem State.setPending_checker (s : State) (v : List Instr) : (s.setPending v).checker = s.checker := rfl
@[simp] theorem State.setPending_rtq (s : State) (v : List Instr) : (s.setPending v).rtq = s.rtq := rfl
@[simp] theorem State.setPending_free (s : State) (v : List Instr) : (s.setPending v).free = s.free := rfl
@[simp] theorem State.setPending_self (s : State) : s.setPending s.pending = s := rfl

@[simp] theorem State.setPower_pending (s : State) (v : Power) : (s.setPower v).pending = s.pending := rfl
@[simp] theorem State.setPower_power (s : State) (v : Power) : (s.setPower v).power = v := rfl
@[simp] theorem State.setPower_tracker (s : State) (v : Power) : (s.setPower v).tracker = s.tracker := rfl
@[simp] theorem State.setPower_params (s : State) (v : Power) : (s.setPower v).params = s.params := rfl
@[simp] theorem State.setPower_channels (s : State) (v : Power) : (s.setPower v).channels = s.channels := rfl
@[simp] theorem State.setPower_timeoutsDue (s : State) (v : Power) : (s.setPower v).timeoutsDue = s.timeoutsDue := rfl
@[simp] theorem State.setPower_bank (s : State) (v : Power) : (s.setPower v).bank = s.bank := rfl
@[simp] theorem State.setPower_store (s : State) (v : Power) : (s.setPower v).store = s.store := rfl
@[simp] theorem State.setPower_framer (s : State) (v : Power) : (s.setPower v).framer = s.framer := rfl
@[simp] theorem State.setPower_plan (s : State) (v : Power) : (s.setPower v).plan = s.plan := rfl
@[simp] theorem State.setPower_checker (s : State) (v : Power) : (s.setPower v).checker = s.checker := rfl
@[simp] theorem State.setPower_rtq (s : State) (v : Power) : (s.setPower v).rtq = s.rtq := rfl
@[simp] theorem State.setPower_free (s : State) (v : Power) : (s.setPower v).free = s.free := rfl
@[simp] theorem State.setPower_self (s : State) : s.setPower s.power = s := rfl

@[simp] theorem State.setTracker_pending (s : State) (v : Tracker) : (s.setTracker v).pending = s.pending := rfl
@[simp] theorem State.setTracker_power (s : State) (v : Tracker) : (s.setTracker v).power = s.power := rfl
@[simp] theorem State.setTracker_tracker (s : State) (v : Tracker) : (s.setTracker v).tracker = v := rfl
@[simp] theorem State.setTracker_params (s : State) (v : Tracker) : (s.setTracker v).params = s.params := rfl
@[simp] theorem State.setTracker_channels (s : State) (v : Tracker) : (s.setTracker v).channels = s.channels := rfl
@[simp] theorem State.setTracker_timeoutsDue (s : State) (v : Tracker) : (s.setTracker v).timeoutsDue = s.timeoutsDue := rfl
@[simp] theorem State.setTracker_bank (s : State) (v : Tracker) : (s.setTracker v).bank = s.bank := rfl
@[simp] theorem State.setTracker_store (s : State) (v : Tracker) : (s.setTracker v).store = s.store := rfl
@[simp] theorem State.setTracker_framer (s : State) (v : Tracker) : (s.setTracker v).framer = s.framer := rfl
@[simp] theorem State.setTracker_plan (s : State) (v : Tracker) : (s.setTracker v).plan = s.plan := rfl
@[simp] theorem State.setTracker_checker (s : State) (v : Tracker) : (s.setTracker v).checker = s.checker := rfl
@[simp] theorem State.setTracker_rtq (s : State) (v : Tracker) : (s.setTracker v).rtq = s.rtq := rfl
@[simp] theorem State.setTracker_free (s : State) (v : Tracker) : (s.setTracker v).free = s.free := rfl
@[simp] theorem State.setTracker_self (s : State) : s.setTracker s.tracker = s := rfl

@[simp] theorem State.setParams_pending (s : State) (v : Params) : (s.setParams v).pending = s.pending := rfl
@[simp] theorem State.setParams_power (s : State) (v : Params) : (s.setParams v).power = s.power := rfl
@[simp] theorem State.setParams_tracker (s : State) (v : Params) : (s.setParams v).tracker = s.tracker := rfl
@[simp] theorem State.setParams_params (s : State) (v : Params) : (s.setParams v).params = v := rfl
@[simp] theorem State.setParams_channels (s : State) (v : Params) : (s.setParams v).channels = s.channels := rfl
@[simp] theorem State.setParams_timeoutsDue (s : State) (v : Params) : (s.setParams v).timeoutsDue = s.timeoutsDue := rfl
@[simp] theorem State.setParams_bank (s : State) (v : Params) : (s.setParams v).bank = s.bank := rfl
@[simp] theorem State.setParams_store (s : State) (v : Params) : (s.setParams v).store = s.store := rfl
@[simp] theorem State.setParams_framer (s : State) (v : Params) : (s.setParams v).framer = s.framer := rfl
@[simp] theorem State.setParams_plan (s : State) (v : Params) : (s.setParams v).plan = s.plan := rfl
@[simp] theorem State.setParams_checker (s : State) (v : Params) : (s.setParams v).checker = s.checker := rfl
@[simp] theorem State.setParams_rtq (s : State) (v : Params) : (s.setParams v).rtq = s.rtq := rfl
@[simp] theorem State.setParams_free (s : State) (v : Params) : (s.setParams v).free = s.free := rfl
@[simp] theorem State.setParams_self (s : State) : s.setParams s.params = s := rfl

@[simp] theorem State.setChannels_pending (s : State) (v : Vector ChannelContext 4) : (s.setChannels v).pending = s.pending := rfl
@[simp] theorem State.setChannels_power (s : State) (v : Vector ChannelContext 4) : (s.setChannels v).power = s.power := rfl
@[simp] theorem State.setChannels_tracker (s : State) (v : Vector ChannelContext 4) : (s.setChannels v).tracker = s.tracker := rfl
@[simp] theorem State.setChannels_params (s : State) (v : Vector ChannelContext 4) : (s.setChannels v).params = s.params := rfl
@[simp] theorem State.setChannels_channels (s : State) (v : Vector ChannelContext 4) : (s.setChannels v).channels = v := rfl
@[simp] theorem State.setChannels_timeoutsDue (s : State) (v : Vector ChannelContext 4) : (s.setChannels v).timeoutsDue = s.timeoutsDue := rfl
@[simp] theorem State.setChannels_bank (s : State) (v : Vector ChannelContext 4) : (s.setChannels v).bank = s.bank := rfl
@[simp] theorem State.setChannels_store (s : State) (v : Vector ChannelContext 4) : (s.setChannels v).store = s.store := rfl
@[simp] theorem State.setChannels_framer (s : State) (v : Vector ChannelContext 4) : (s.setChannels v).framer = s.framer := rfl
@[simp] theorem State.setChannels_plan (s : State) (v : Vector ChannelContext 4) : (s.setChannels v).plan = s.plan := rfl
@[simp] theorem State.setChannels_checker (s : State) (v : Vector ChannelContext 4) : (s.setChannels v).checker = s.checker := rfl
@[simp] theorem State.setChannels_rtq (s : State) (v : Vector ChannelContext 4) : (s.setChannels v).rtq = s.rtq := rfl
@[simp] theorem State.setChannels_free (s : State) (v : Vector ChannelContext 4) : (s.setChannels v).free = s.free := rfl
@[simp] theorem State.setChannels_self (s : State) : s.setChannels s.channels = s := rfl

@[simp] theorem State.setTimeoutsDue_pending (s : State) (v : List Channel) : (s.setTimeoutsDue v).pending = s.pending := rfl
@[simp] theorem State.setTimeoutsDue_power (s : State) (v : List Channel) : (s.setTimeoutsDue v).power = s.power := rfl
@[simp] theorem State.setTimeoutsDue_tracker (s : State) (v : List Channel) : (s.setTimeoutsDue v).tracker = s.tracker := rfl
@[simp] theorem State.setTimeoutsDue_params (s : State) (v : List Channel) : (s.setTimeoutsDue v).params = s.params := rfl
@[simp] theorem State.setTimeoutsDue_channels (s : State) (v : List Channel) : (s.setTimeoutsDue v).channels = s.channels := rfl
@[simp] theorem State.setTimeoutsDue_timeoutsDue (s : State) (v : List Channel) : (s.setTimeoutsDue v).timeoutsDue = v := rfl
@[simp] theorem State.setTimeoutsDue_bank (s : State) (v : List Channel) : (s.setTimeoutsDue v).bank = s.bank := rfl
@[simp] theorem State.setTimeoutsDue_store (s : State) (v : List Channel) : (s.setTimeoutsDue v).store = s.store := rfl
@[simp] theorem State.setTimeoutsDue_framer (s : State) (v : List Channel) : (s.setTimeoutsDue v).framer = s.framer := rfl
@[simp] theorem State.setTimeoutsDue_plan (s : State) (v : List Channel) : (s.setTimeoutsDue v).plan = s.plan := rfl
@[simp] theorem State.setTimeoutsDue_checker (s : State) (v : List Channel) : (s.setTimeoutsDue v).checker = s.checker := rfl
@[simp] theorem State.setTimeoutsDue_rtq (s : State) (v : List Channel) : (s.setTimeoutsDue v).rtq = s.rtq := rfl
@[simp] theorem State.setTimeoutsDue_free (s : State) (v : List Channel) : (s.setTimeoutsDue v).free = s.free := rfl
@[simp] theorem State.setTimeoutsDue_self (s : State) : s.setTimeoutsDue s.timeoutsDue = s := rfl

@[simp] theorem State.setBank_pending (s : State) (v : Bank) : (s.setBank v).pending = s.pending := rfl
@[simp] theorem State.setBank_power (s : State) (v : Bank) : (s.setBank v).power = s.power := rfl
@[simp] theorem State.setBank_tracker (s : State) (v : Bank) : (s.setBank v).tracker = s.tracker := rfl
@[simp] theorem State.setBank_params (s : State) (v : Bank) : (s.setBank v).params = s.params := rfl
@[simp] theorem State.setBank_channels (s : State) (v : Bank) : (s.setBank v).channels = s.channels := rfl
@[simp] theorem State.setBank_timeoutsDue (s : State) (v : Bank) : (s.setBank v).timeoutsDue = s.timeoutsDue := rfl
@[simp] theorem State.setBank_bank (s : State) (v : Bank) : (s.setBank v).bank = v := rfl
@[simp] theorem State.setBank_store (s : State) (v : Bank) : (s.setBank v).store = s.store := rfl
@[simp] theorem State.setBank_framer (s : State) (v : Bank) : (s.setBank v).framer = s.framer := rfl
@[simp] theorem State.setBank_plan (s : State) (v : Bank) : (s.setBank v).plan = s.plan := rfl
@[simp] theorem State.setBank_checker (s : State) (v : Bank) : (s.setBank v).checker = s.checker := rfl
@[simp] theorem State.setBank_rtq (s : State) (v : Bank) : (s.setBank v).rtq = s.rtq := rfl
@[simp] theorem State.setBank_free (s : State) (v : Bank) : (s.setBank v).free = s.free := rfl
@[simp] theorem State.setBank_self (s : State) : s.setBank s.bank = s := rfl

@[simp] theorem State.setStore_pending (s : State) (v : Store) : (s.setStore v).pending = s.pending := rfl
@[simp] theorem State.setStore_power (s : State) (v : Store) : (s.setStore v).power = s.power := rfl
@[simp] theorem State.setStore_tracker (s : State) (v : Store) : (s.setStore v).tracker = s.tracker := rfl
@[simp] theorem State.setStore_params (s : State) (v : Store) : (s.setStore v).params = s.params := rfl
@[simp] theorem State.setStore_channels (s : State) (v : Store) : (s.setStore v).channels = s.channels := rfl
@[simp] theorem State.setStore_timeoutsDue (s : State) (v : Store) : (s.setStore v).timeoutsDue = s.timeoutsDue := rfl
@[simp] theorem State.setStore_bank (s : State) (v : Store) : (s.setStore v).bank = s.bank := rfl
@[simp] theorem State.setStore_store (s : State) (v : Store) : (s.setStore v).store = v := rfl
@[simp] theorem State.setStore_framer (s : State) (v : Store) : (s.setStore v).framer = s.framer := rfl
@[simp] theorem State.setStore_plan (s : State) (v : Store) : (s.setStore v).plan = s.plan := rfl
@[simp] theorem State.setStore_checker (s : State) (v : Store) : (s.setStore v).checker = s.checker := rfl
@[simp] theorem State.setStore_rtq (s : State) (v : Store) : (s.setStore v).rtq = s.rtq := rfl
@[simp] theorem State.setStore_free (s : State) (v : Store) : (s.setStore v).free = s.free := rfl
@[simp] theorem State.setStore_self (s : State) : s.setStore s.store = s := rfl

@[simp] theorem State.setFramer_pending (s : State) (v : Framer) : (s.setFramer v).pending = s.pending := rfl
@[simp] theorem State.setFramer_power (s : State) (v : Framer) : (s.setFramer v).power = s.power := rfl
@[simp] theorem State.setFramer_tracker (s : State) (v : Framer) : (s.setFramer v).tracker = s.tracker := rfl
@[simp] theorem State.setFramer_params (s : State) (v : Framer) : (s.setFramer v).params = s.params := rfl
@[simp] theorem State.setFramer_channels (s : State) (v : Framer) : (s.setFramer v).channels = s.channels := rfl
@[simp] theorem State.setFramer_timeoutsDue (s : State) (v : Framer) : (s.setFramer v).timeoutsDue = s.timeoutsDue := rfl
@[simp] theorem State.setFramer_bank (s : State) (v : Framer) : (s.setFramer v).bank = s.bank := rfl
@[simp] theorem State.setFramer_store (s : State) (v : Framer) : (s.setFramer v).store = s.store := rfl
@[simp] theorem State.setFramer_framer (s : State) (v : Framer) : (s.setFramer v).framer = v := rfl
@[simp] theorem State.setFramer_plan (s : State) (v : Framer) : (s.setFramer v).plan = s.plan := rfl
@[simp] theorem State.setFramer_checker (s : State) (v : Framer) : (s.setFramer v).checker = s.checker := rfl
@[simp] theorem State.setFramer_rtq (s : State) (v : Framer) : (s.setFramer v).rtq = s.rtq := rfl
@[simp] theorem State.setFramer_free (s : State) (v : Framer) : (s.setFramer v).free = s.free := rfl
@[simp] theorem State.setFramer_self (s : State) : s.setFramer s.framer = s := rfl

@[simp] theorem State.setPlan_pending (s : State) (v : Option FramePlan) : (s.setPlan v).pending = s.pending := rfl
@[simp] theorem State.setPlan_power (s : State) (v : Option FramePlan) : (s.setPlan v).power = s.power := rfl
@[simp] theorem State.setPlan_tracker (s : State) (v : Option FramePlan) : (s.setPlan v).tracker = s.tracker := rfl
@[simp] theorem State.setPlan_params (s : State) (v : Option FramePlan) : (s.setPlan v).params = s.params := rfl
@[simp] theorem State.setPlan_channels (s : State) (v : Option FramePlan) : (s.setPlan v).channels = s.channels := rfl
@[simp] theorem State.setPlan_timeoutsDue (s : State) (v : Option FramePlan) : (s.setPlan v).timeoutsDue = s.timeoutsDue := rfl
@[simp] theorem State.setPlan_bank (s : State) (v : Option FramePlan) : (s.setPlan v).bank = s.bank := rfl
@[simp] theorem State.setPlan_store (s : State) (v : Option FramePlan) : (s.setPlan v).store = s.store := rfl
@[simp] theorem State.setPlan_framer (s : State) (v : Option FramePlan) : (s.setPlan v).framer = s.framer := rfl
@[simp] theorem State.setPlan_plan (s : State) (v : Option FramePlan) : (s.setPlan v).plan = v := rfl
@[simp] theorem State.setPlan_checker (s : State) (v : Option FramePlan) : (s.setPlan v).checker = s.checker := rfl
@[simp] theorem State.setPlan_rtq (s : State) (v : Option FramePlan) : (s.setPlan v).rtq = s.rtq := rfl
@[simp] theorem State.setPlan_free (s : State) (v : Option FramePlan) : (s.setPlan v).free = s.free := rfl
@[simp] theorem State.setPlan_self (s : State) : s.setPlan s.plan = s := rfl

@[simp] theorem State.setChecker_pending (s : State) (v : Checker) : (s.setChecker v).pending = s.pending := rfl
@[simp] theorem State.setChecker_power (s : State) (v : Checker) : (s.setChecker v).power = s.power := rfl
@[simp] theorem State.setChecker_tracker (s : State) (v : Checker) : (s.setChecker v).tracker = s.tracker := rfl
@[simp] theorem State.setChecker_params (s : State) (v : Checker) : (s.setChecker v).params = s.params := rfl
@[simp] theorem State.setChecker_channels (s : State) (v : Checker) : (s.setChecker v).channels = s.channels := rfl
@[simp] theorem State.setChecker_timeoutsDue (s : State) (v : Checker) : (s.setChecker v).timeoutsDue = s.timeoutsDue := rfl
@[simp] theorem State.setChecker_bank (s : State) (v : Checker) : (s.setChecker v).bank = s.bank := rfl
@[simp] theorem State.setChecker_store (s : State) (v : Checker) : (s.setChecker v).store = s.store := rfl
@[simp] theorem State.setChecker_framer (s : State) (v : Checker) : (s.setChecker v).framer = s.framer := rfl
@[simp] theorem State.setChecker_plan (s : State) (v : Checker) : (s.setChecker v).plan = s.plan := rfl
@[simp] theorem State.setChecker_checker (s : State) (v : Checker) : (s.setChecker v).checker = v := rfl
@[simp] theorem State.setChecker_rtq (s : State) (v : Checker) : (s.setChecker v).rtq = s.rtq := rfl
@[simp] theorem State.setChecker_free (s : State) (v : Checker) : (s.setChecker v).free = s.free := rfl
@[simp] theorem State.setChecker_self (s : State) : s.setChecker s.checker = s := rfl

@[simp] theorem State.setRtq_pending (s : State) (v : Rtq) : (s.setRtq v).pending = s.pending := rfl
@[simp] theorem State.setRtq_power (s : State) (v : Rtq) : (s.setRtq v).power = s.power := rfl
@[simp] theorem State.setRtq_tracker (s : State) (v : Rtq) : (s.setRtq v).tracker = s.tracker := rfl
@[simp] theorem State.setRtq_params (s : State) (v : Rtq) : (s.setRtq v).params = s.params := rfl
@[simp] theorem State.setRtq_channels (s : State) (v : Rtq) : (s.setRtq v).channels = s.channels := rfl
@[simp] theorem State.setRtq_timeoutsDue (s : State) (v : Rtq) : (s.setRtq v).timeoutsDue = s.timeoutsDue := rfl
@[simp] theorem State.setRtq_bank (s : State) (v : Rtq) : (s.setRtq v).bank = s.bank := rfl
@[simp] theorem State.setRtq_store (s : State) (v : Rtq) : (s.setRtq v).store = s.store := rfl
@[simp] theorem State.setRtq_framer (s : State) (v : Rtq) : (s.setRtq v).framer = s.framer := rfl
@[simp] theorem State.setRtq_plan (s : State) (v : Rtq) : (s.setRtq v).plan = s.plan := rfl
@[simp] theorem State.setRtq_checker (s : State) (v : Rtq) : (s.setRtq v).checker = s.checker := rfl
@[simp] theorem State.setRtq_rtq (s : State) (v : Rtq) : (s.setRtq v).rtq = v := rfl
@[simp] theorem State.setRtq_free (s : State) (v : Rtq) : (s.setRtq v).free = s.free := rfl
@[simp] theorem State.setRtq_self (s : State) : s.setRtq s.rtq = s := rfl

@[simp] theorem State.setFree_pending (s : State) (v : Nat) : (s.setFree v).pending = s.pending := rfl
@[simp] theorem State.setFree_power (s : State) (v : Nat) : (s.setFree v).power = s.power := rfl
@[simp] theorem State.setFree_tracker (s : State) (v : Nat) : (s.setFree v).tracker = s.tracker := rfl
@[simp] theorem State.setFree_params (s : State) (v : Nat) : (s.setFree v).params = s.params := rfl
@[simp] theorem State.setFree_channels (s : State) (v : Nat) : (s.setFree v).channels = s.channels := rfl
@[simp] theorem State.setFree_timeoutsDue (s : State) (v : Nat) : (s.setFree v).timeoutsDue = s.timeoutsDue := rfl
@[simp] theorem State.setFree_bank (s : State) (v : Nat) : (s.setFree v).bank = s.bank := rfl
@[simp] theorem State.setFree_store (s : State) (v : Nat) : (s.setFree v).store = s.store := rfl
@[simp] theorem State.setFree_framer (s : State) (v : Nat) : (s.setFree v).framer = s.framer := rfl
@[simp] theorem State.setFree_plan (s : State) (v : Nat) : (s.setFree v).plan = s.plan := rfl
@[simp] theorem State.setFree_checker (s : State) (v : Nat) : (s.setFree v).checker = s.checker := rfl
@[simp] theorem State.setFree_rtq (s : State) (v : Nat) : (s.setFree v).rtq = s.rtq := rfl
@[simp] theorem State.setFree_free (s : State) (v : Nat) : (s.setFree v).free = v := rfl
@[simp] theorem State.setFree_self (s : State) : s.setFree s.free = s := rfl

end Sys2Proof.Machine
end

