-- ==== Sys2Proof/Laws/Frames.lean ====
section
/-! SUPPORT. What each shared operation keeps: one lemma per operation, every block it does not touch unchanged. -/

namespace Sys2Proof.Machine

/-- An update of a channel keeps every other block. -/
@[simp] theorem State.updateChannel_kept (s : State) (ch : Channel) (f : ChannelContext → ChannelContext) :
    (s.updateChannel ch f).pending = s.pending ∧
    (s.updateChannel ch f).power = s.power ∧
    (s.updateChannel ch f).tracker = s.tracker ∧
    (s.updateChannel ch f).params = s.params ∧
    (s.updateChannel ch f).timeoutsDue = s.timeoutsDue ∧
    (s.updateChannel ch f).bank = s.bank ∧
    (s.updateChannel ch f).store = s.store ∧
    (s.updateChannel ch f).framer = s.framer ∧
    (s.updateChannel ch f).plan = s.plan ∧
    (s.updateChannel ch f).checker = s.checker ∧
    (s.updateChannel ch f).rtq = s.rtq ∧
    (s.updateChannel ch f).free = s.free := by
  simp [State.updateChannel]

/-- A delivery keeps every other block. -/
@[simp] theorem State.touch_kept (s : State) (ch : Channel) :
    (s.touch ch).pending = s.pending ∧
    (s.touch ch).power = s.power ∧
    (s.touch ch).tracker = s.tracker ∧
    (s.touch ch).params = s.params ∧
    (s.touch ch).timeoutsDue = s.timeoutsDue ∧
    (s.touch ch).bank = s.bank ∧
    (s.touch ch).store = s.store ∧
    (s.touch ch).framer = s.framer ∧
    (s.touch ch).plan = s.plan ∧
    (s.touch ch).checker = s.checker ∧
    (s.touch ch).rtq = s.rtq ∧
    (s.touch ch).free = s.free := by
  simp [State.touch]

/-- An event changes the return queue alone (R110). -/
@[simp] theorem State.raiseWith_kept (s : State) (k : EventKind) (a : Byte) (x y : Half) :
    (s.raiseWith k a x y).pending = s.pending ∧
    (s.raiseWith k a x y).power = s.power ∧
    (s.raiseWith k a x y).tracker = s.tracker ∧
    (s.raiseWith k a x y).params = s.params ∧
    (s.raiseWith k a x y).channels = s.channels ∧
    (s.raiseWith k a x y).timeoutsDue = s.timeoutsDue ∧
    (s.raiseWith k a x y).bank = s.bank ∧
    (s.raiseWith k a x y).store = s.store ∧
    (s.raiseWith k a x y).framer = s.framer ∧
    (s.raiseWith k a x y).plan = s.plan ∧
    (s.raiseWith k a x y).checker = s.checker ∧
    (s.raiseWith k a x y).free = s.free := by
  unfold State.raiseWith
  repeat' split
  all_goals simp

/-- An event changes the return queue alone (R110). -/
@[simp] theorem State.raise_kept (s : State) (k : EventKind) (a : Byte) :
    (s.raise k a).pending = s.pending ∧
    (s.raise k a).power = s.power ∧
    (s.raise k a).tracker = s.tracker ∧
    (s.raise k a).params = s.params ∧
    (s.raise k a).channels = s.channels ∧
    (s.raise k a).timeoutsDue = s.timeoutsDue ∧
    (s.raise k a).bank = s.bank ∧
    (s.raise k a).store = s.store ∧
    (s.raise k a).framer = s.framer ∧
    (s.raise k a).plan = s.plan ∧
    (s.raise k a).checker = s.checker ∧
    (s.raise k a).free = s.free := by
  simp [State.raise]

/-- A reply changes the return queue alone. -/
@[simp] theorem State.handOver_kept (s : State) (ch : Channel) (r : Reply) :
    (s.handOver ch r).pending = s.pending ∧
    (s.handOver ch r).power = s.power ∧
    (s.handOver ch r).tracker = s.tracker ∧
    (s.handOver ch r).params = s.params ∧
    (s.handOver ch r).channels = s.channels ∧
    (s.handOver ch r).timeoutsDue = s.timeoutsDue ∧
    (s.handOver ch r).bank = s.bank ∧
    (s.handOver ch r).store = s.store ∧
    (s.handOver ch r).framer = s.framer ∧
    (s.handOver ch r).plan = s.plan ∧
    (s.handOver ch r).checker = s.checker ∧
    (s.handOver ch r).free = s.free := by
  simp [State.handOver]

/-- The arbiter changes the return queue alone. -/
@[simp] theorem State.arbitrate_kept (s : State) :
    (s.arbitrate).pending = s.pending ∧
    (s.arbitrate).power = s.power ∧
    (s.arbitrate).tracker = s.tracker ∧
    (s.arbitrate).params = s.params ∧
    (s.arbitrate).channels = s.channels ∧
    (s.arbitrate).timeoutsDue = s.timeoutsDue ∧
    (s.arbitrate).bank = s.bank ∧
    (s.arbitrate).store = s.store ∧
    (s.arbitrate).framer = s.framer ∧
    (s.arbitrate).plan = s.plan ∧
    (s.arbitrate).checker = s.checker ∧
    (s.arbitrate).free = s.free := by
  simp [State.arbitrate]

/-- Stopping a fill changes the store alone. -/
@[simp] theorem State.stopFill_kept (s : State) :
    (s.stopFill).pending = s.pending ∧
    (s.stopFill).power = s.power ∧
    (s.stopFill).tracker = s.tracker ∧
    (s.stopFill).params = s.params ∧
    (s.stopFill).channels = s.channels ∧
    (s.stopFill).timeoutsDue = s.timeoutsDue ∧
    (s.stopFill).bank = s.bank ∧
    (s.stopFill).framer = s.framer ∧
    (s.stopFill).plan = s.plan ∧
    (s.stopFill).checker = s.checker ∧
    (s.stopFill).rtq = s.rtq ∧
    (s.stopFill).free = s.free := by
  simp [State.stopFill]

/-- Stopping a fill changes the store alone. -/
@[simp] theorem State.stopFillOf_kept (s : State) (ch : Channel) :
    (s.stopFillOf ch).pending = s.pending ∧
    (s.stopFillOf ch).power = s.power ∧
    (s.stopFillOf ch).tracker = s.tracker ∧
    (s.stopFillOf ch).params = s.params ∧
    (s.stopFillOf ch).channels = s.channels ∧
    (s.stopFillOf ch).timeoutsDue = s.timeoutsDue ∧
    (s.stopFillOf ch).bank = s.bank ∧
    (s.stopFillOf ch).framer = s.framer ∧
    (s.stopFillOf ch).plan = s.plan ∧
    (s.stopFillOf ch).checker = s.checker ∧
    (s.stopFillOf ch).rtq = s.rtq ∧
    (s.stopFillOf ch).free = s.free := by
  unfold State.stopFillOf
  repeat' split
  all_goals simp

/-- The end of a load changes channels and table bank alone. -/
@[simp] theorem State.endLoad_kept (s : State) (ch : Channel) (st : ShadowState) (n : ChannelState) :
    (s.endLoad ch st n).pending = s.pending ∧
    (s.endLoad ch st n).power = s.power ∧
    (s.endLoad ch st n).tracker = s.tracker ∧
    (s.endLoad ch st n).params = s.params ∧
    (s.endLoad ch st n).timeoutsDue = s.timeoutsDue ∧
    (s.endLoad ch st n).store = s.store ∧
    (s.endLoad ch st n).framer = s.framer ∧
    (s.endLoad ch st n).plan = s.plan ∧
    (s.endLoad ch st n).checker = s.checker ∧
    (s.endLoad ch st n).rtq = s.rtq ∧
    (s.endLoad ch st n).free = s.free := by
  simp [State.endLoad]

/-- A store write changes the store, and what the lines in hand may be fetched from. -/
@[simp] theorem State.writeStore_kept (s : State) (m : Memory) :
    (s.writeStore m).pending = s.pending ∧
    (s.writeStore m).power = s.power ∧
    (s.writeStore m).tracker = s.tracker ∧
    (s.writeStore m).params = s.params ∧
    (s.writeStore m).channels = s.channels ∧
    (s.writeStore m).timeoutsDue = s.timeoutsDue ∧
    (s.writeStore m).bank = s.bank ∧
    (s.writeStore m).plan = s.plan ∧
    (s.writeStore m).checker = s.checker ∧
    (s.writeStore m).rtq = s.rtq ∧
    (s.writeStore m).free = s.free := by
  simp [State.writeStore]

/-- A fill step changes the store, and what the lines in hand may be fetched from. -/
@[simp] theorem State.fillOnce_kept (s : State) (f : FillRecord) :
    (s.fillOnce f).pending = s.pending ∧
    (s.fillOnce f).power = s.power ∧
    (s.fillOnce f).tracker = s.tracker ∧
    (s.fillOnce f).params = s.params ∧
    (s.fillOnce f).channels = s.channels ∧
    (s.fillOnce f).timeoutsDue = s.timeoutsDue ∧
    (s.fillOnce f).bank = s.bank ∧
    (s.fillOnce f).plan = s.plan ∧
    (s.fillOnce f).checker = s.checker ∧
    (s.fillOnce f).rtq = s.rtq ∧
    (s.fillOnce f).free = s.free := by
  simp [State.fillOnce]

/-- The completion of a fill changes store, channels and return queue alone. -/
@[simp] theorem State.completeFill_kept (s : State) (f : FillRecord) :
    (s.completeFill f).pending = s.pending ∧
    (s.completeFill f).power = s.power ∧
    (s.completeFill f).tracker = s.tracker ∧
    (s.completeFill f).params = s.params ∧
    (s.completeFill f).timeoutsDue = s.timeoutsDue ∧
    (s.completeFill f).bank = s.bank ∧
    (s.completeFill f).framer = s.framer ∧
    (s.completeFill f).plan = s.plan ∧
    (s.completeFill f).checker = s.checker ∧
    (s.completeFill f).free = s.free := by
  simp [State.completeFill]

/-- An abandonment changes channels, table bank, store and return queue alone. -/
@[simp] theorem State.abandon_kept (s : State) (ch : Channel) :
    (s.abandon ch).pending = s.pending ∧
    (s.abandon ch).power = s.power ∧
    (s.abandon ch).tracker = s.tracker ∧
    (s.abandon ch).params = s.params ∧
    (s.abandon ch).timeoutsDue = s.timeoutsDue ∧
    (s.abandon ch).framer = s.framer ∧
    (s.abandon ch).plan = s.plan ∧
    (s.abandon ch).checker = s.checker ∧
    (s.abandon ch).free = s.free := by
  simp [State.abandon]

/-- The abandon test changes channels, table bank, store and return queue alone. -/
@[simp] theorem State.abandonTest_kept (s : State) (ch : Channel) (c : ReplyCode) :
    (s.abandonTest ch c).pending = s.pending ∧
    (s.abandonTest ch c).power = s.power ∧
    (s.abandonTest ch c).tracker = s.tracker ∧
    (s.abandonTest ch c).params = s.params ∧
    (s.abandonTest ch c).timeoutsDue = s.timeoutsDue ∧
    (s.abandonTest ch c).framer = s.framer ∧
    (s.abandonTest ch c).plan = s.plan ∧
    (s.abandonTest ch c).checker = s.checker ∧
    (s.abandonTest ch c).free = s.free := by
  unfold State.abandonTest
  repeat' split
  all_goals simp

/-- The reply to a taken packet changes channels, table bank, store and return queue alone. -/
@[simp] theorem State.finishTaken_kept (s : State) (ch : Channel) (q : Bool) (k : Byte) (a : Answer) :
    (s.finishTaken ch q k a).pending = s.pending ∧
    (s.finishTaken ch q k a).power = s.power ∧
    (s.finishTaken ch q k a).tracker = s.tracker ∧
    (s.finishTaken ch q k a).params = s.params ∧
    (s.finishTaken ch q k a).timeoutsDue = s.timeoutsDue ∧
    (s.finishTaken ch q k a).framer = s.framer ∧
    (s.finishTaken ch q k a).plan = s.plan ∧
    (s.finishTaken ch q k a).checker = s.checker ∧
    (s.finishTaken ch q k a).free = s.free := by
  simp [State.finishTaken]

/-- A replay changes the return queue alone. -/
@[simp] theorem State.replay_kept (s : State) (ch : Channel) :
    (s.replay ch).pending = s.pending ∧
    (s.replay ch).power = s.power ∧
    (s.replay ch).tracker = s.tracker ∧
    (s.replay ch).params = s.params ∧
    (s.replay ch).channels = s.channels ∧
    (s.replay ch).timeoutsDue = s.timeoutsDue ∧
    (s.replay ch).bank = s.bank ∧
    (s.replay ch).store = s.store ∧
    (s.replay ch).framer = s.framer ∧
    (s.replay ch).plan = s.plan ∧
    (s.replay ch).checker = s.checker ∧
    (s.replay ch).free = s.free := by
  unfold State.replay
  repeat' split
  all_goals simp

/-- A refusal in ABANDONED changes the return queue alone (R82). -/
@[simp] theorem State.refuseAbandoned_kept (s : State) (ch : Channel) (q : Bool) (k : Byte) :
    (s.refuseAbandoned ch q k).pending = s.pending ∧
    (s.refuseAbandoned ch q k).power = s.power ∧
    (s.refuseAbandoned ch q k).tracker = s.tracker ∧
    (s.refuseAbandoned ch q k).params = s.params ∧
    (s.refuseAbandoned ch q k).channels = s.channels ∧
    (s.refuseAbandoned ch q k).timeoutsDue = s.timeoutsDue ∧
    (s.refuseAbandoned ch q k).bank = s.bank ∧
    (s.refuseAbandoned ch q k).store = s.store ∧
    (s.refuseAbandoned ch q k).framer = s.framer ∧
    (s.refuseAbandoned ch q k).plan = s.plan ∧
    (s.refuseAbandoned ch q k).checker = s.checker ∧
    (s.refuseAbandoned ch q k).free = s.free := by
  simp [State.refuseAbandoned]

/-- An ABORT changes channels, table bank, store and return queue alone (R93). -/
@[simp] theorem State.takeAbort_kept (s : State) (ch : Channel) (q : Bool) :
    (s.takeAbort ch q).pending = s.pending ∧
    (s.takeAbort ch q).power = s.power ∧
    (s.takeAbort ch q).tracker = s.tracker ∧
    (s.takeAbort ch q).params = s.params ∧
    (s.takeAbort ch q).timeoutsDue = s.timeoutsDue ∧
    (s.takeAbort ch q).framer = s.framer ∧
    (s.takeAbort ch q).plan = s.plan ∧
    (s.takeAbort ch q).checker = s.checker ∧
    (s.takeAbort ch q).free = s.free := by
  simp [State.takeAbort]

/-- Taking up a load changes channels alone. -/
@[simp] theorem State.startLoad_kept (s : State) (ch : Channel) (st : ChannelState) (t : Target) (n : Nat) :
    (s.startLoad ch st t n).pending = s.pending ∧
    (s.startLoad ch st t n).power = s.power ∧
    (s.startLoad ch st t n).tracker = s.tracker ∧
    (s.startLoad ch st t n).params = s.params ∧
    (s.startLoad ch st t n).timeoutsDue = s.timeoutsDue ∧
    (s.startLoad ch st t n).bank = s.bank ∧
    (s.startLoad ch st t n).store = s.store ∧
    (s.startLoad ch st t n).framer = s.framer ∧
    (s.startLoad ch st t n).plan = s.plan ∧
    (s.startLoad ch st t n).checker = s.checker ∧
    (s.startLoad ch st t n).rtq = s.rtq ∧
    (s.startLoad ch st t n).free = s.free := by
  simp [State.startLoad]

/-- A segment changes table bank and store alone, and what the lines in hand may be fetched from. -/
@[simp] theorem State.writeSegment_kept (s : State) (c : ChannelContext) (p : List Byte) :
    (s.writeSegment c p).pending = s.pending ∧
    (s.writeSegment c p).power = s.power ∧
    (s.writeSegment c p).tracker = s.tracker ∧
    (s.writeSegment c p).params = s.params ∧
    (s.writeSegment c p).channels = s.channels ∧
    (s.writeSegment c p).timeoutsDue = s.timeoutsDue ∧
    (s.writeSegment c p).plan = s.plan ∧
    (s.writeSegment c p).checker = s.checker ∧
    (s.writeSegment c p).rtq = s.rtq ∧
    (s.writeSegment c p).free = s.free := by
  unfold State.writeSegment
  repeat' split
  all_goals simp

/-- An evaluation changes checker and return queue alone. -/
@[simp] theorem State.evaluateCheck_kept (s : State) (k : Fin 8) :
    (s.evaluateCheck k).pending = s.pending ∧
    (s.evaluateCheck k).power = s.power ∧
    (s.evaluateCheck k).tracker = s.tracker ∧
    (s.evaluateCheck k).params = s.params ∧
    (s.evaluateCheck k).channels = s.channels ∧
    (s.evaluateCheck k).timeoutsDue = s.timeoutsDue ∧
    (s.evaluateCheck k).bank = s.bank ∧
    (s.evaluateCheck k).store = s.store ∧
    (s.evaluateCheck k).framer = s.framer ∧
    (s.evaluateCheck k).plan = s.plan ∧
    (s.evaluateCheck k).free = s.free := by
  unfold State.evaluateCheck
  repeat' split
  all_goals simp
  all_goals (repeat' split)
  all_goals simp

/-- The evaluation at an output frame end changes checker and return queue alone. -/
@[simp] theorem State.evaluateChecks_kept (s : State) :
    (s.evaluateChecks).pending = s.pending ∧
    (s.evaluateChecks).power = s.power ∧
    (s.evaluateChecks).tracker = s.tracker ∧
    (s.evaluateChecks).params = s.params ∧
    (s.evaluateChecks).channels = s.channels ∧
    (s.evaluateChecks).timeoutsDue = s.timeoutsDue ∧
    (s.evaluateChecks).bank = s.bank ∧
    (s.evaluateChecks).store = s.store ∧
    (s.evaluateChecks).framer = s.framer ∧
    (s.evaluateChecks).plan = s.plan ∧
    (s.evaluateChecks).free = s.free := by
  simp [State.evaluateChecks]

/-- A truncation changes framer and checker alone (R148). -/
@[simp] theorem State.truncate_kept (s : State) :
    (s.truncate).pending = s.pending ∧
    (s.truncate).power = s.power ∧
    (s.truncate).tracker = s.tracker ∧
    (s.truncate).params = s.params ∧
    (s.truncate).channels = s.channels ∧
    (s.truncate).timeoutsDue = s.timeoutsDue ∧
    (s.truncate).bank = s.bank ∧
    (s.truncate).store = s.store ∧
    (s.truncate).plan = s.plan ∧
    (s.truncate).rtq = s.rtq ∧
    (s.truncate).free = s.free := by
  unfold State.truncate
  repeat' split
  all_goals simp

/-- The framer losing the stream changes framer and checker alone (R147). -/
@[simp] theorem State.framerLosesLock_kept (s : State) :
    (s.framerLosesLock).pending = s.pending ∧
    (s.framerLosesLock).power = s.power ∧
    (s.framerLosesLock).tracker = s.tracker ∧
    (s.framerLosesLock).params = s.params ∧
    (s.framerLosesLock).channels = s.channels ∧
    (s.framerLosesLock).timeoutsDue = s.timeoutsDue ∧
    (s.framerLosesLock).bank = s.bank ∧
    (s.framerLosesLock).store = s.store ∧
    (s.framerLosesLock).plan = s.plan ∧
    (s.framerLosesLock).rtq = s.rtq ∧
    (s.framerLosesLock).free = s.free := by
  unfold State.framerLosesLock
  repeat' split
  all_goals simp

/-- A stream loss changes tracker, framer, checker and return queue alone. -/
@[simp] theorem State.loseStream_kept (s : State) (c : LostCause) :
    (s.loseStream c).pending = s.pending ∧
    (s.loseStream c).power = s.power ∧
    (s.loseStream c).params = s.params ∧
    (s.loseStream c).channels = s.channels ∧
    (s.loseStream c).timeoutsDue = s.timeoutsDue ∧
    (s.loseStream c).bank = s.bank ∧
    (s.loseStream c).store = s.store ∧
    (s.loseStream c).plan = s.plan ∧
    (s.loseStream c).free = s.free := by
  unfold State.loseStream
  repeat' split
  all_goals simp

/-- The loss timer changes tracker, framer, checker and return queue alone. -/
@[simp] theorem State.loseByTimeout_kept (s : State) :
    (s.loseByTimeout).pending = s.pending ∧
    (s.loseByTimeout).power = s.power ∧
    (s.loseByTimeout).params = s.params ∧
    (s.loseByTimeout).channels = s.channels ∧
    (s.loseByTimeout).timeoutsDue = s.timeoutsDue ∧
    (s.loseByTimeout).bank = s.bank ∧
    (s.loseByTimeout).store = s.store ∧
    (s.loseByTimeout).plan = s.plan ∧
    (s.loseByTimeout).free = s.free := by
  unfold State.loseByTimeout
  repeat' split
  all_goals simp

/-- FRAME_FAULT changes the return queue alone. -/
@[simp] theorem State.frameFault_kept (s : State) (k : FaultKind) :
    (s.frameFault k).pending = s.pending ∧
    (s.frameFault k).power = s.power ∧
    (s.frameFault k).tracker = s.tracker ∧
    (s.frameFault k).params = s.params ∧
    (s.frameFault k).channels = s.channels ∧
    (s.frameFault k).timeoutsDue = s.timeoutsDue ∧
    (s.frameFault k).bank = s.bank ∧
    (s.frameFault k).store = s.store ∧
    (s.frameFault k).framer = s.framer ∧
    (s.frameFault k).plan = s.plan ∧
    (s.frameFault k).checker = s.checker ∧
    (s.frameFault k).free = s.free := by
  simp [State.frameFault]

/-- A fault in a frame changes tracker and return queue alone. -/
@[simp] theorem State.faultInFrame_kept (s : State) (k : FaultKind) :
    (s.faultInFrame k).pending = s.pending ∧
    (s.faultInFrame k).power = s.power ∧
    (s.faultInFrame k).params = s.params ∧
    (s.faultInFrame k).channels = s.channels ∧
    (s.faultInFrame k).timeoutsDue = s.timeoutsDue ∧
    (s.faultInFrame k).bank = s.bank ∧
    (s.faultInFrame k).store = s.store ∧
    (s.faultInFrame k).framer = s.framer ∧
    (s.faultInFrame k).plan = s.plan ∧
    (s.faultInFrame k).checker = s.checker ∧
    (s.faultInFrame k).free = s.free := by
  simp [State.faultInFrame]

/-- The fault limit test changes tracker, framer, checker and return queue alone. -/
@[simp] theorem State.testFaultLimit_kept (s : State) :
    (s.testFaultLimit).pending = s.pending ∧
    (s.testFaultLimit).power = s.power ∧
    (s.testFaultLimit).params = s.params ∧
    (s.testFaultLimit).channels = s.channels ∧
    (s.testFaultLimit).timeoutsDue = s.timeoutsDue ∧
    (s.testFaultLimit).bank = s.bank ∧
    (s.testFaultLimit).store = s.store ∧
    (s.testFaultLimit).plan = s.plan ∧
    (s.testFaultLimit).free = s.free := by
  unfold State.testFaultLimit
  repeat' split
  all_goals simp

/-- A verdict changes tracker, framer, checker and return queue alone. -/
@[simp] theorem State.verdict_kept (s : State) :
    (s.verdict).pending = s.pending ∧
    (s.verdict).power = s.power ∧
    (s.verdict).params = s.params ∧
    (s.verdict).channels = s.channels ∧
    (s.verdict).timeoutsDue = s.timeoutsDue ∧
    (s.verdict).bank = s.bank ∧
    (s.verdict).store = s.store ∧
    (s.verdict).plan = s.plan ∧
    (s.verdict).free = s.free := by
  unfold State.verdict
  repeat' split
  all_goals simp

/-- A late fault changes tracker, framer, checker and return queue alone. -/
@[simp] theorem State.lateFault_kept (s : State) (k : FaultKind) :
    (s.lateFault k).pending = s.pending ∧
    (s.lateFault k).power = s.power ∧
    (s.lateFault k).params = s.params ∧
    (s.lateFault k).channels = s.channels ∧
    (s.lateFault k).timeoutsDue = s.timeoutsDue ∧
    (s.lateFault k).bank = s.bank ∧
    (s.lateFault k).store = s.store ∧
    (s.lateFault k).plan = s.plan ∧
    (s.lateFault k).free = s.free := by
  unfold State.lateFault
  try dsimp only
  repeat' split
  all_goals simp

/-- A handover changes the lines in hand alone. -/
@[simp] theorem State.handLine_kept (s : State) (n : Nat) (k : LineKind) (p : List Pixel) :
    (s.handLine n k p).pending = s.pending ∧
    (s.handLine n k p).power = s.power ∧
    (s.handLine n k p).tracker = s.tracker ∧
    (s.handLine n k p).params = s.params ∧
    (s.handLine n k p).channels = s.channels ∧
    (s.handLine n k p).timeoutsDue = s.timeoutsDue ∧
    (s.handLine n k p).bank = s.bank ∧
    (s.handLine n k p).store = s.store ∧
    (s.handLine n k p).plan = s.plan ∧
    (s.handLine n k p).checker = s.checker ∧
    (s.handLine n k p).rtq = s.rtq ∧
    (s.handLine n k p).free = s.free := by
  simp [State.handLine]

/-- A handover changes the lines in hand alone. -/
@[simp] theorem State.handSubstitute_kept (s : State) (n : Nat) :
    (s.handSubstitute n).pending = s.pending ∧
    (s.handSubstitute n).power = s.power ∧
    (s.handSubstitute n).tracker = s.tracker ∧
    (s.handSubstitute n).params = s.params ∧
    (s.handSubstitute n).channels = s.channels ∧
    (s.handSubstitute n).timeoutsDue = s.timeoutsDue ∧
    (s.handSubstitute n).bank = s.bank ∧
    (s.handSubstitute n).store = s.store ∧
    (s.handSubstitute n).plan = s.plan ∧
    (s.handSubstitute n).checker = s.checker ∧
    (s.handSubstitute n).rtq = s.rtq ∧
    (s.handSubstitute n).free = s.free := by
  simp [State.handSubstitute]

/-- Handovers one after another change the lines in hand alone. -/
theorem handSubstitutes_fold_kept (l : List Nat) (e : Nat) (s : State) :
    (l.foldl (fun s i => s.handSubstitute (e + i)) s).pending = s.pending ∧
    (l.foldl (fun s i => s.handSubstitute (e + i)) s).power = s.power ∧
    (l.foldl (fun s i => s.handSubstitute (e + i)) s).tracker = s.tracker ∧
    (l.foldl (fun s i => s.handSubstitute (e + i)) s).params = s.params ∧
    (l.foldl (fun s i => s.handSubstitute (e + i)) s).channels = s.channels ∧
    (l.foldl (fun s i => s.handSubstitute (e + i)) s).timeoutsDue = s.timeoutsDue ∧
    (l.foldl (fun s i => s.handSubstitute (e + i)) s).bank = s.bank ∧
    (l.foldl (fun s i => s.handSubstitute (e + i)) s).store = s.store ∧
    (l.foldl (fun s i => s.handSubstitute (e + i)) s).plan = s.plan ∧
    (l.foldl (fun s i => s.handSubstitute (e + i)) s).checker = s.checker ∧
    (l.foldl (fun s i => s.handSubstitute (e + i)) s).rtq = s.rtq ∧
    (l.foldl (fun s i => s.handSubstitute (e + i)) s).free = s.free := by
  induction l generalizing s with
  | nil => simp
  | cons i rest ih => simpa using ih (s.handSubstitute (e + i))

/-- Handovers of substitute lines change the lines in hand alone. -/
@[simp] theorem State.handSubstitutes_kept (s : State) (e n : Nat) :
    (s.handSubstitutes e n).pending = s.pending ∧
    (s.handSubstitutes e n).power = s.power ∧
    (s.handSubstitutes e n).tracker = s.tracker ∧
    (s.handSubstitutes e n).params = s.params ∧
    (s.handSubstitutes e n).channels = s.channels ∧
    (s.handSubstitutes e n).timeoutsDue = s.timeoutsDue ∧
    (s.handSubstitutes e n).bank = s.bank ∧
    (s.handSubstitutes e n).store = s.store ∧
    (s.handSubstitutes e n).plan = s.plan ∧
    (s.handSubstitutes e n).checker = s.checker ∧
    (s.handSubstitutes e n).rtq = s.rtq ∧
    (s.handSubstitutes e n).free = s.free := by
  exact handSubstitutes_fold_kept (List.range n) e s

/-- The last line of a frame changes tracker, framer, checker and return queue alone. -/
@[simp] theorem State.lastLineHanded_kept (s : State) :
    (s.lastLineHanded).pending = s.pending ∧
    (s.lastLineHanded).power = s.power ∧
    (s.lastLineHanded).params = s.params ∧
    (s.lastLineHanded).channels = s.channels ∧
    (s.lastLineHanded).timeoutsDue = s.timeoutsDue ∧
    (s.lastLineHanded).bank = s.bank ∧
    (s.lastLineHanded).store = s.store ∧
    (s.lastLineHanded).plan = s.plan ∧
    (s.lastLineHanded).free = s.free := by
  simp [State.lastLineHanded]

/-- A forwarded line changes tracker, framer, checker and return queue alone. -/
@[simp] theorem State.forwardLine_kept (s : State) (n : Nat) (p : List Pixel) :
    (s.forwardLine n p).pending = s.pending ∧
    (s.forwardLine n p).power = s.power ∧
    (s.forwardLine n p).params = s.params ∧
    (s.forwardLine n p).channels = s.channels ∧
    (s.forwardLine n p).timeoutsDue = s.timeoutsDue ∧
    (s.forwardLine n p).bank = s.bank ∧
    (s.forwardLine n p).store = s.store ∧
    (s.forwardLine n p).plan = s.plan ∧
    (s.forwardLine n p).free = s.free := by
  unfold State.forwardLine
  try dsimp only
  repeat' split
  all_goals simp

/-- The rest of a frame changes tracker, framer, checker and return queue alone. -/
@[simp] theorem State.substituteRest_kept (s : State) (p : FramePhase) :
    (s.substituteRest p).pending = s.pending ∧
    (s.substituteRest p).power = s.power ∧
    (s.substituteRest p).params = s.params ∧
    (s.substituteRest p).channels = s.channels ∧
    (s.substituteRest p).timeoutsDue = s.timeoutsDue ∧
    (s.substituteRest p).bank = s.bank ∧
    (s.substituteRest p).store = s.store ∧
    (s.substituteRest p).plan = s.plan ∧
    (s.substituteRest p).free = s.free := by
  simp [State.substituteRest]

/-- A broken lock attempt changes the tracker alone. -/
@[simp] theorem State.breakLock_kept (s : State) :
    (s.breakLock).pending = s.pending ∧
    (s.breakLock).power = s.power ∧
    (s.breakLock).params = s.params ∧
    (s.breakLock).channels = s.channels ∧
    (s.breakLock).timeoutsDue = s.timeoutsDue ∧
    (s.breakLock).bank = s.bank ∧
    (s.breakLock).store = s.store ∧
    (s.breakLock).framer = s.framer ∧
    (s.breakLock).plan = s.plan ∧
    (s.breakLock).checker = s.checker ∧
    (s.breakLock).rtq = s.rtq ∧
    (s.breakLock).free = s.free := by
  simp [State.breakLock]

/-- A lock changes tracker, framer and return queue alone. -/
@[simp] theorem State.lock_kept (s : State) :
    (s.lock).pending = s.pending ∧
    (s.lock).power = s.power ∧
    (s.lock).params = s.params ∧
    (s.lock).channels = s.channels ∧
    (s.lock).timeoutsDue = s.timeoutsDue ∧
    (s.lock).bank = s.bank ∧
    (s.lock).store = s.store ∧
    (s.lock).plan = s.plan ∧
    (s.lock).checker = s.checker ∧
    (s.lock).free = s.free := by
  simp [State.lock]

/-- A conforming frame changes tracker, framer and return queue alone. -/
@[simp] theorem State.conformingFrame_kept (s : State) :
    (s.conformingFrame).pending = s.pending ∧
    (s.conformingFrame).power = s.power ∧
    (s.conformingFrame).params = s.params ∧
    (s.conformingFrame).channels = s.channels ∧
    (s.conformingFrame).timeoutsDue = s.timeoutsDue ∧
    (s.conformingFrame).bank = s.bank ∧
    (s.conformingFrame).store = s.store ∧
    (s.conformingFrame).plan = s.plan ∧
    (s.conformingFrame).checker = s.checker ∧
    (s.conformingFrame).free = s.free := by
  unfold State.conformingFrame
  try dsimp only
  repeat' split
  all_goals simp

/-- The switch back changes framer and checker alone (R149). -/
@[simp] theorem State.switchToPass_kept (s : State) :
    (s.switchToPass).pending = s.pending ∧
    (s.switchToPass).power = s.power ∧
    (s.switchToPass).tracker = s.tracker ∧
    (s.switchToPass).params = s.params ∧
    (s.switchToPass).channels = s.channels ∧
    (s.switchToPass).timeoutsDue = s.timeoutsDue ∧
    (s.switchToPass).bank = s.bank ∧
    (s.switchToPass).store = s.store ∧
    (s.switchToPass).plan = s.plan ∧
    (s.switchToPass).rtq = s.rtq ∧
    (s.switchToPass).free = s.free := by
  simp [State.switchToPass]

/-- An upstream frame opened changes framer and checker alone. -/
@[simp] theorem State.askStart_kept (s : State) :
    (s.askStart).pending = s.pending ∧
    (s.askStart).power = s.power ∧
    (s.askStart).tracker = s.tracker ∧
    (s.askStart).params = s.params ∧
    (s.askStart).channels = s.channels ∧
    (s.askStart).timeoutsDue = s.timeoutsDue ∧
    (s.askStart).bank = s.bank ∧
    (s.askStart).store = s.store ∧
    (s.askStart).plan = s.plan ∧
    (s.askStart).rtq = s.rtq ∧
    (s.askStart).free = s.free := by
  unfold State.askStart
  repeat' split
  all_goals simp

/-- A frame packet changes tracker, framer, checker and return queue alone. -/
@[simp] theorem State.lineInLocking_kept (s : State) (n : Nat) (p : List Pixel) :
    (s.lineInLocking n p).pending = s.pending ∧
    (s.lineInLocking n p).power = s.power ∧
    (s.lineInLocking n p).params = s.params ∧
    (s.lineInLocking n p).channels = s.channels ∧
    (s.lineInLocking n p).timeoutsDue = s.timeoutsDue ∧
    (s.lineInLocking n p).bank = s.bank ∧
    (s.lineInLocking n p).store = s.store ∧
    (s.lineInLocking n p).plan = s.plan ∧
    (s.lineInLocking n p).free = s.free := by
  unfold State.lineInLocking
  try dsimp only
  repeat' split
  all_goals simp

/-- A frame packet changes tracker, framer, checker and return queue alone. -/
@[simp] theorem State.openUpstream_kept (s : State) (n : Half) :
    (s.openUpstream n).pending = s.pending ∧
    (s.openUpstream n).power = s.power ∧
    (s.openUpstream n).params = s.params ∧
    (s.openUpstream n).channels = s.channels ∧
    (s.openUpstream n).timeoutsDue = s.timeoutsDue ∧
    (s.openUpstream n).bank = s.bank ∧
    (s.openUpstream n).store = s.store ∧
    (s.openUpstream n).plan = s.plan ∧
    (s.openUpstream n).free = s.free := by
  unfold State.openUpstream
  try dsimp only
  all_goals simp

/-- A frame packet changes tracker, framer, checker and return queue alone. -/
@[simp] theorem State.lineReceiving_kept (s : State) (n : Nat) (p : List Pixel) :
    (s.lineReceiving n p).pending = s.pending ∧
    (s.lineReceiving n p).power = s.power ∧
    (s.lineReceiving n p).params = s.params ∧
    (s.lineReceiving n p).channels = s.channels ∧
    (s.lineReceiving n p).timeoutsDue = s.timeoutsDue ∧
    (s.lineReceiving n p).bank = s.bank ∧
    (s.lineReceiving n p).store = s.store ∧
    (s.lineReceiving n p).plan = s.plan ∧
    (s.lineReceiving n p).free = s.free := by
  unfold State.lineReceiving
  try dsimp only
  repeat' split
  all_goals simp

/-- A frame packet changes tracker, framer, checker and return queue alone. -/
@[simp] theorem State.lineInLocked_kept (s : State) (n : Nat) (p : List Pixel) :
    (s.lineInLocked n p).pending = s.pending ∧
    (s.lineInLocked n p).power = s.power ∧
    (s.lineInLocked n p).params = s.params ∧
    (s.lineInLocked n p).channels = s.channels ∧
    (s.lineInLocked n p).timeoutsDue = s.timeoutsDue ∧
    (s.lineInLocked n p).bank = s.bank ∧
    (s.lineInLocked n p).store = s.store ∧
    (s.lineInLocked n p).plan = s.plan ∧
    (s.lineInLocked n p).free = s.free := by
  unfold State.lineInLocked
  try dsimp only
  repeat' split
  all_goals simp

/-- A frame packet changes tracker, framer, checker and return queue alone. -/
@[simp] theorem State.endInLocked_kept (s : State) (n : Nat) :
    (s.endInLocked n).pending = s.pending ∧
    (s.endInLocked n).power = s.power ∧
    (s.endInLocked n).params = s.params ∧
    (s.endInLocked n).channels = s.channels ∧
    (s.endInLocked n).timeoutsDue = s.timeoutsDue ∧
    (s.endInLocked n).bank = s.bank ∧
    (s.endInLocked n).store = s.store ∧
    (s.endInLocked n).plan = s.plan ∧
    (s.endInLocked n).free = s.free := by
  unfold State.endInLocked
  try dsimp only
  repeat' split
  all_goals simp

/-- A frame packet changes tracker, framer, checker and return queue alone. -/
@[simp] theorem State.takeStartPacket_kept (s : State) (n : Half) :
    (s.takeStartPacket n).pending = s.pending ∧
    (s.takeStartPacket n).power = s.power ∧
    (s.takeStartPacket n).params = s.params ∧
    (s.takeStartPacket n).channels = s.channels ∧
    (s.takeStartPacket n).timeoutsDue = s.timeoutsDue ∧
    (s.takeStartPacket n).bank = s.bank ∧
    (s.takeStartPacket n).store = s.store ∧
    (s.takeStartPacket n).plan = s.plan ∧
    (s.takeStartPacket n).free = s.free := by
  unfold State.takeStartPacket
  try dsimp only
  repeat' split
  all_goals simp

/-- A frame packet changes tracker, framer, checker and return queue alone. -/
@[simp] theorem State.dealStart_kept (s : State) (n : Half) :
    (s.dealStart n).pending = s.pending ∧
    (s.dealStart n).power = s.power ∧
    (s.dealStart n).params = s.params ∧
    (s.dealStart n).channels = s.channels ∧
    (s.dealStart n).timeoutsDue = s.timeoutsDue ∧
    (s.dealStart n).bank = s.bank ∧
    (s.dealStart n).store = s.store ∧
    (s.dealStart n).plan = s.plan ∧
    (s.dealStart n).free = s.free := by
  unfold State.dealStart
  try dsimp only
  repeat' split
  all_goals simp

/-- A frame packet changes tracker, framer, checker and return queue alone. -/
@[simp] theorem State.dealLine_kept (s : State) (n : Half) (p : List Pixel) :
    (s.dealLine n p).pending = s.pending ∧
    (s.dealLine n p).power = s.power ∧
    (s.dealLine n p).params = s.params ∧
    (s.dealLine n p).channels = s.channels ∧
    (s.dealLine n p).timeoutsDue = s.timeoutsDue ∧
    (s.dealLine n p).bank = s.bank ∧
    (s.dealLine n p).store = s.store ∧
    (s.dealLine n p).plan = s.plan ∧
    (s.dealLine n p).free = s.free := by
  unfold State.dealLine
  try dsimp only
  repeat' split
  all_goals simp

/-- A frame packet changes tracker, framer, checker and return queue alone. -/
@[simp] theorem State.dealEnd_kept (s : State) (n : Half) :
    (s.dealEnd n).pending = s.pending ∧
    (s.dealEnd n).power = s.power ∧
    (s.dealEnd n).params = s.params ∧
    (s.dealEnd n).channels = s.channels ∧
    (s.dealEnd n).timeoutsDue = s.timeoutsDue ∧
    (s.dealEnd n).bank = s.bank ∧
    (s.dealEnd n).store = s.store ∧
    (s.dealEnd n).plan = s.plan ∧
    (s.dealEnd n).free = s.free := by
  unfold State.dealEnd
  try dsimp only
  repeat' split
  all_goals simp

/-- A frame packet changes tracker, framer, checker and return queue alone. -/
@[simp] theorem State.dealFrame_kept (s : State) (p : FramePacket) :
    (s.dealFrame p).pending = s.pending ∧
    (s.dealFrame p).power = s.power ∧
    (s.dealFrame p).params = s.params ∧
    (s.dealFrame p).channels = s.channels ∧
    (s.dealFrame p).timeoutsDue = s.timeoutsDue ∧
    (s.dealFrame p).bank = s.bank ∧
    (s.dealFrame p).store = s.store ∧
    (s.dealFrame p).plan = s.plan ∧
    (s.dealFrame p).free = s.free := by
  unfold State.dealFrame
  try dsimp only
  repeat' split
  all_goals simp

/-- Waiting frame packets change tracker, framer, checker and return queue alone. -/
@[simp] theorem dealWaiting_kept (l : List FramePacket) (s : State) :
    (dealWaiting l s).pending = s.pending ∧
    (dealWaiting l s).power = s.power ∧
    (dealWaiting l s).params = s.params ∧
    (dealWaiting l s).channels = s.channels ∧
    (dealWaiting l s).timeoutsDue = s.timeoutsDue ∧
    (dealWaiting l s).bank = s.bank ∧
    (dealWaiting l s).store = s.store ∧
    (dealWaiting l s).plan = s.plan ∧
    (dealWaiting l s).free = s.free := by
  induction l generalizing s with
  | nil => simp [dealWaiting]
  | cons p rest ih =>
    simp only [dealWaiting]
    split
    · simp
    · simpa using ih (s.dealFrame p).arbitrate

/-- A frame packet changes tracker, framer, checker and return queue alone. -/
@[simp] theorem State.arrive_kept (s : State) (p : FramePacket) :
    (s.arrive p).pending = s.pending ∧
    (s.arrive p).power = s.power ∧
    (s.arrive p).params = s.params ∧
    (s.arrive p).channels = s.channels ∧
    (s.arrive p).timeoutsDue = s.timeoutsDue ∧
    (s.arrive p).bank = s.bank ∧
    (s.arrive p).store = s.store ∧
    (s.arrive p).plan = s.plan ∧
    (s.arrive p).free = s.free := by
  unfold State.arrive
  repeat' split
  all_goals simp

/-- A discard changes tracker and return queue alone. -/
@[simp] theorem State.discardPacket_kept (s : State) (c : Byte) :
    (s.discardPacket c).pending = s.pending ∧
    (s.discardPacket c).power = s.power ∧
    (s.discardPacket c).params = s.params ∧
    (s.discardPacket c).channels = s.channels ∧
    (s.discardPacket c).timeoutsDue = s.timeoutsDue ∧
    (s.discardPacket c).bank = s.bank ∧
    (s.discardPacket c).store = s.store ∧
    (s.discardPacket c).framer = s.framer ∧
    (s.discardPacket c).plan = s.plan ∧
    (s.discardPacket c).checker = s.checker ∧
    (s.discardPacket c).free = s.free := by
  unfold State.discardPacket
  try dsimp only
  repeat' split
  all_goals simp

/-- A channel timeout changes channels, table bank and return queue alone (R96). -/
@[simp] theorem State.timeOut_kept (s : State) (ch : Channel) :
    (s.timeOut ch).pending = s.pending ∧
    (s.timeOut ch).power = s.power ∧
    (s.timeOut ch).tracker = s.tracker ∧
    (s.timeOut ch).params = s.params ∧
    (s.timeOut ch).timeoutsDue = s.timeoutsDue ∧
    (s.timeOut ch).store = s.store ∧
    (s.timeOut ch).framer = s.framer ∧
    (s.timeOut ch).plan = s.plan ∧
    (s.timeOut ch).checker = s.checker ∧
    (s.timeOut ch).free = s.free := by
  simp [State.timeOut]

/-- Raised idle frames change the channel alone (R95). -/
@[simp] theorem State.raiseIdle_kept (s : State) (ch : Channel) :
    (s.raiseIdle ch).pending = s.pending ∧
    (s.raiseIdle ch).power = s.power ∧
    (s.raiseIdle ch).tracker = s.tracker ∧
    (s.raiseIdle ch).params = s.params ∧
    (s.raiseIdle ch).timeoutsDue = s.timeoutsDue ∧
    (s.raiseIdle ch).bank = s.bank ∧
    (s.raiseIdle ch).store = s.store ∧
    (s.raiseIdle ch).framer = s.framer ∧
    (s.raiseIdle ch).plan = s.plan ∧
    (s.raiseIdle ch).checker = s.checker ∧
    (s.raiseIdle ch).rtq = s.rtq ∧
    (s.raiseIdle ch).free = s.free := by
  simp [State.raiseIdle]

/-- A start taken changes channels, table bank and return queue alone. -/
@[simp] theorem State.channelTakesStart_kept (s : State) (ch : Channel) :
    (s.channelTakesStart ch).pending = s.pending ∧
    (s.channelTakesStart ch).power = s.power ∧
    (s.channelTakesStart ch).tracker = s.tracker ∧
    (s.channelTakesStart ch).params = s.params ∧
    (s.channelTakesStart ch).timeoutsDue = s.timeoutsDue ∧
    (s.channelTakesStart ch).store = s.store ∧
    (s.channelTakesStart ch).framer = s.framer ∧
    (s.channelTakesStart ch).plan = s.plan ∧
    (s.channelTakesStart ch).checker = s.checker ∧
    (s.channelTakesStart ch).free = s.free := by
  unfold State.channelTakesStart
  try dsimp only
  repeat' split
  all_goals simp

/-- A start counted changes channels and the timeouts due alone. -/
@[simp] theorem State.channelCountsStart_kept (s : State) (ch : Channel) :
    (s.channelCountsStart ch).pending = s.pending ∧
    (s.channelCountsStart ch).power = s.power ∧
    (s.channelCountsStart ch).tracker = s.tracker ∧
    (s.channelCountsStart ch).params = s.params ∧
    (s.channelCountsStart ch).bank = s.bank ∧
    (s.channelCountsStart ch).store = s.store ∧
    (s.channelCountsStart ch).framer = s.framer ∧
    (s.channelCountsStart ch).plan = s.plan ∧
    (s.channelCountsStart ch).checker = s.checker ∧
    (s.channelCountsStart ch).rtq = s.rtq ∧
    (s.channelCountsStart ch).free = s.free := by
  unfold State.channelCountsStart
  try dsimp only
  repeat' split
  all_goals simp

/-- Starts taken one after another. -/
@[simp] theorem channelTakesStart_fold_kept (l : List Channel) (s : State) :
    (l.foldl State.channelTakesStart s).pending = s.pending ∧
    (l.foldl State.channelTakesStart s).power = s.power ∧
    (l.foldl State.channelTakesStart s).tracker = s.tracker ∧
    (l.foldl State.channelTakesStart s).params = s.params ∧
    (l.foldl State.channelTakesStart s).timeoutsDue = s.timeoutsDue ∧
    (l.foldl State.channelTakesStart s).store = s.store ∧
    (l.foldl State.channelTakesStart s).framer = s.framer ∧
    (l.foldl State.channelTakesStart s).plan = s.plan ∧
    (l.foldl State.channelTakesStart s).checker = s.checker ∧
    (l.foldl State.channelTakesStart s).free = s.free := by
  induction l generalizing s with
  | nil => simp
  | cons c rest ih => simpa using ih (State.channelTakesStart s c)

/-- Starts counted one after another. -/
@[simp] theorem channelCountsStart_fold_kept (l : List Channel) (s : State) :
    (l.foldl State.channelCountsStart s).pending = s.pending ∧
    (l.foldl State.channelCountsStart s).power = s.power ∧
    (l.foldl State.channelCountsStart s).tracker = s.tracker ∧
    (l.foldl State.channelCountsStart s).params = s.params ∧
    (l.foldl State.channelCountsStart s).bank = s.bank ∧
    (l.foldl State.channelCountsStart s).store = s.store ∧
    (l.foldl State.channelCountsStart s).framer = s.framer ∧
    (l.foldl State.channelCountsStart s).plan = s.plan ∧
    (l.foldl State.channelCountsStart s).checker = s.checker ∧
    (l.foldl State.channelCountsStart s).rtq = s.rtq ∧
    (l.foldl State.channelCountsStart s).free = s.free := by
  induction l generalizing s with
  | nil => simp
  | cons c rest ih => simpa using ih (State.channelCountsStart s c)

/-- Timeouts taken one after another. -/
theorem timeOut_fold_kept (l : List Channel) (s : State) :
    (l.foldl (fun s ch => (s.timeOut ch).arbitrate) s).pending = s.pending ∧
    (l.foldl (fun s ch => (s.timeOut ch).arbitrate) s).power = s.power ∧
    (l.foldl (fun s ch => (s.timeOut ch).arbitrate) s).tracker = s.tracker ∧
    (l.foldl (fun s ch => (s.timeOut ch).arbitrate) s).params = s.params ∧
    (l.foldl (fun s ch => (s.timeOut ch).arbitrate) s).timeoutsDue = s.timeoutsDue ∧
    (l.foldl (fun s ch => (s.timeOut ch).arbitrate) s).store = s.store ∧
    (l.foldl (fun s ch => (s.timeOut ch).arbitrate) s).framer = s.framer ∧
    (l.foldl (fun s ch => (s.timeOut ch).arbitrate) s).plan = s.plan ∧
    (l.foldl (fun s ch => (s.timeOut ch).arbitrate) s).checker = s.checker ∧
    (l.foldl (fun s ch => (s.timeOut ch).arbitrate) s).free = s.free := by
  induction l generalizing s with
  | nil => simp
  | cons c rest ih => simpa using ih ((s.timeOut c).arbitrate)

/-- The timeouts due change channels, table bank and return queue alone, and leave none due. -/
@[simp] theorem State.timeOutDue_kept (s : State) :
    s.timeOutDue.pending = s.pending ∧
    s.timeOutDue.power = s.power ∧
    s.timeOutDue.tracker = s.tracker ∧
    s.timeOutDue.params = s.params ∧
    s.timeOutDue.store = s.store ∧
    s.timeOutDue.framer = s.framer ∧
    s.timeOutDue.plan = s.plan ∧
    s.timeOutDue.checker = s.checker ∧
    s.timeOutDue.free = s.free ∧
    s.timeOutDue.timeoutsDue = [] := by
  simp [State.timeOutDue, timeOut_fold_kept]

/-- What waits changes tracker, framer, checker and return queue alone. -/
@[simp] theorem State.drain_kept (s : State) :
    (s.drain).pending = s.pending ∧
    (s.drain).power = s.power ∧
    (s.drain).params = s.params ∧
    (s.drain).channels = s.channels ∧
    (s.drain).timeoutsDue = s.timeoutsDue ∧
    (s.drain).bank = s.bank ∧
    (s.drain).store = s.store ∧
    (s.drain).plan = s.plan ∧
    (s.drain).free = s.free := by
  unfold State.drain
  try dsimp only
  repeat' split
  all_goals simp

/-- The timeouts due, and the frame packets that waited for them, keep the queue of commands, power, parameters, store, plan
and free values, and leave no timeout due. -/
@[simp] theorem State.takeTimeouts_kept (s : State) :
    s.takeTimeouts.pending = s.pending ∧
    s.takeTimeouts.power = s.power ∧
    s.takeTimeouts.params = s.params ∧
    s.takeTimeouts.store = s.store ∧
    s.takeTimeouts.plan = s.plan ∧
    s.takeTimeouts.free = s.free ∧
    s.takeTimeouts.timeoutsDue = [] := by
  simp [State.takeTimeouts]

/-- The end of a step changes tracker, framer, checker and return queue alone. -/
@[simp] theorem State.conclude_kept (s : State) :
    (s.conclude).pending = s.pending ∧
    (s.conclude).power = s.power ∧
    (s.conclude).params = s.params ∧
    (s.conclude).channels = s.channels ∧
    (s.conclude).timeoutsDue = s.timeoutsDue ∧
    (s.conclude).bank = s.bank ∧
    (s.conclude).store = s.store ∧
    (s.conclude).plan = s.plan ∧
    (s.conclude).free = s.free := by
  simp [State.conclude]

/-- A changed loss time changes the tracker alone. -/
@[simp] theorem State.checkLoss_kept (s : State) :
    (s.checkLoss).pending = s.pending ∧
    (s.checkLoss).power = s.power ∧
    (s.checkLoss).params = s.params ∧
    (s.checkLoss).channels = s.channels ∧
    (s.checkLoss).timeoutsDue = s.timeoutsDue ∧
    (s.checkLoss).bank = s.bank ∧
    (s.checkLoss).store = s.store ∧
    (s.checkLoss).framer = s.framer ∧
    (s.checkLoss).plan = s.plan ∧
    (s.checkLoss).checker = s.checker ∧
    (s.checkLoss).rtq = s.rtq ∧
    (s.checkLoss).free = s.free := by
  unfold State.checkLoss
  repeat' split
  all_goals simp

/-- An applied commit changes table bank, checker and return queue alone (R44, R48). -/
@[simp] theorem State.applyCommit_kept (s : State) (c : Commit) :
    (s.applyCommit c).pending = s.pending ∧
    (s.applyCommit c).power = s.power ∧
    (s.applyCommit c).params = s.params ∧
    (s.applyCommit c).channels = s.channels ∧
    (s.applyCommit c).timeoutsDue = s.timeoutsDue ∧
    (s.applyCommit c).store = s.store ∧
    (s.applyCommit c).framer = s.framer ∧
    (s.applyCommit c).plan = s.plan ∧
    (s.applyCommit c).free = s.free := by
  unfold State.applyCommit
  try dsimp only
  repeat' split
  all_goals simp

/-- A missed commit changes table bank and return queue alone (R45). -/
@[simp] theorem State.missCommit_kept (s : State) (c : Commit) :
    (s.missCommit c).pending = s.pending ∧
    (s.missCommit c).power = s.power ∧
    (s.missCommit c).tracker = s.tracker ∧
    (s.missCommit c).params = s.params ∧
    (s.missCommit c).channels = s.channels ∧
    (s.missCommit c).timeoutsDue = s.timeoutsDue ∧
    (s.missCommit c).store = s.store ∧
    (s.missCommit c).framer = s.framer ∧
    (s.missCommit c).plan = s.plan ∧
    (s.missCommit c).checker = s.checker ∧
    (s.missCommit c).free = s.free := by
  simp [State.missCommit]

/-- The resolution changes table bank, checker and return queue alone (R42). -/
@[simp] theorem State.resolveCommit_kept (s : State) :
    (s.resolveCommit).pending = s.pending ∧
    (s.resolveCommit).power = s.power ∧
    (s.resolveCommit).params = s.params ∧
    (s.resolveCommit).channels = s.channels ∧
    (s.resolveCommit).timeoutsDue = s.timeoutsDue ∧
    (s.resolveCommit).store = s.store ∧
    (s.resolveCommit).framer = s.framer ∧
    (s.resolveCommit).plan = s.plan ∧
    (s.resolveCommit).free = s.free := by
  unfold State.resolveCommit
  repeat' split
  all_goals simp

/-- The geometry signal changes tracker and return queue alone (R46). -/
@[simp] theorem State.signalGeometry_kept (s : State) :
    (s.signalGeometry).pending = s.pending ∧
    (s.signalGeometry).power = s.power ∧
    (s.signalGeometry).params = s.params ∧
    (s.signalGeometry).channels = s.channels ∧
    (s.signalGeometry).timeoutsDue = s.timeoutsDue ∧
    (s.signalGeometry).bank = s.bank ∧
    (s.signalGeometry).store = s.store ∧
    (s.signalGeometry).framer = s.framer ∧
    (s.signalGeometry).plan = s.plan ∧
    (s.signalGeometry).checker = s.checker ∧
    (s.signalGeometry).free = s.free := by
  unfold State.signalGeometry
  repeat' split
  all_goals simp

/-- F and N are the framer's. -/
@[simp] theorem State.setNumbers_kept (s : State) (c : StartCause) :
    (s.setNumbers c).pending = s.pending ∧
    (s.setNumbers c).power = s.power ∧
    (s.setNumbers c).tracker = s.tracker ∧
    (s.setNumbers c).params = s.params ∧
    (s.setNumbers c).channels = s.channels ∧
    (s.setNumbers c).timeoutsDue = s.timeoutsDue ∧
    (s.setNumbers c).bank = s.bank ∧
    (s.setNumbers c).store = s.store ∧
    (s.setNumbers c).plan = s.plan ∧
    (s.setNumbers c).checker = s.checker ∧
    (s.setNumbers c).rtq = s.rtq ∧
    (s.setNumbers c).free = s.free := by
  simp [State.setNumbers]

/-- The start of a frame changes framer, plan and checker alone. -/
@[simp] theorem State.beginFrame_kept (s : State) (t : FrameType) (g : Bool) :
    (s.beginFrame t g).pending = s.pending ∧
    (s.beginFrame t g).power = s.power ∧
    (s.beginFrame t g).tracker = s.tracker ∧
    (s.beginFrame t g).params = s.params ∧
    (s.beginFrame t g).channels = s.channels ∧
    (s.beginFrame t g).timeoutsDue = s.timeoutsDue ∧
    (s.beginFrame t g).bank = s.bank ∧
    (s.beginFrame t g).store = s.store ∧
    (s.beginFrame t g).rtq = s.rtq ∧
    (s.beginFrame t g).free = s.free := by
  simp [State.beginFrame]

/-- The switch back before a start changes framer and checker alone (R149). -/
@[simp] theorem State.switchBefore_kept (s : State) (c : StartCause) :
    (s.switchBefore c).pending = s.pending ∧
    (s.switchBefore c).power = s.power ∧
    (s.switchBefore c).tracker = s.tracker ∧
    (s.switchBefore c).params = s.params ∧
    (s.switchBefore c).channels = s.channels ∧
    (s.switchBefore c).timeoutsDue = s.timeoutsDue ∧
    (s.switchBefore c).bank = s.bank ∧
    (s.switchBefore c).store = s.store ∧
    (s.switchBefore c).plan = s.plan ∧
    (s.switchBefore c).rtq = s.rtq ∧
    (s.switchBefore c).free = s.free := by
  unfold State.switchBefore
  split <;> simp

/-- An output frame start keeps the queue of commands, power, parameters, store and free values. -/
@[simp] theorem State.takeStart_kept (s : State) (c : StartCause) (a b : List Channel) :
    (s.takeStart c a b).pending = s.pending ∧
    (s.takeStart c a b).power = s.power ∧
    (s.takeStart c a b).params = s.params ∧
    (s.takeStart c a b).store = s.store ∧
    (s.takeStart c a b).free = s.free := by
  unfold State.takeStart
  try dsimp only
  repeat' split
  all_goals simp

/-- A loss timer expiry keeps the queue of commands, power, parameters, store, plan and free values. -/
@[simp] theorem State.takeExpiry_kept (s : State) :
    (s.takeExpiry).pending = s.pending ∧
    (s.takeExpiry).power = s.power ∧
    (s.takeExpiry).params = s.params ∧
    (s.takeExpiry).store = s.store ∧
    (s.takeExpiry).plan = s.plan ∧
    (s.takeExpiry).free = s.free := by
  unfold State.takeExpiry
  repeat' split
  all_goals simp

/-- What is due at once keeps the queue of commands, power, parameters, store and free values. -/
@[simp] theorem takeUrgent_kept (k : Nat) (s : State) :
    (takeUrgent k s).pending = s.pending ∧
    (takeUrgent k s).power = s.power ∧
    (takeUrgent k s).params = s.params ∧
    (takeUrgent k s).store = s.store ∧
    (takeUrgent k s).free = s.free := by
  induction k generalizing s with
  | zero => simp [takeUrgent]
  | succ k ih =>
    simp only [takeUrgent]
    split
    · simpa using ih s.takeExpiry
    · split
      · simp
      · rename_i c _
        simpa using ih (s.takeStart c [] []).conclude.takeTimeouts

/-- Settling keeps the queue of commands, power, parameters, store and free values. -/
@[simp] theorem State.settle_kept (s : State) :
    (s.settle).pending = s.pending ∧
    (s.settle).power = s.power ∧
    (s.settle).params = s.params ∧
    (s.settle).store = s.store ∧
    (s.settle).free = s.free := by
  simp [State.settle]

/-- An output frame end changes framer, checker and return queue alone. -/
@[simp] theorem State.endFrame_kept (s : State) (f : OutputFrame) :
    (s.endFrame f).pending = s.pending ∧
    (s.endFrame f).power = s.power ∧
    (s.endFrame f).tracker = s.tracker ∧
    (s.endFrame f).params = s.params ∧
    (s.endFrame f).channels = s.channels ∧
    (s.endFrame f).timeoutsDue = s.timeoutsDue ∧
    (s.endFrame f).bank = s.bank ∧
    (s.endFrame f).store = s.store ∧
    (s.endFrame f).plan = s.plan ∧
    (s.endFrame f).free = s.free := by
  unfold State.endFrame
  try dsimp only
  repeat' split
  all_goals simp

/-- An emitted line changes framer, checker and return queue alone. -/
@[simp] theorem State.emitComposed_kept (s : State) (f : OutputFrame) (n : Nat) (p : List Pixel) :
    (s.emitComposed f n p).pending = s.pending ∧
    (s.emitComposed f n p).power = s.power ∧
    (s.emitComposed f n p).tracker = s.tracker ∧
    (s.emitComposed f n p).params = s.params ∧
    (s.emitComposed f n p).channels = s.channels ∧
    (s.emitComposed f n p).timeoutsDue = s.timeoutsDue ∧
    (s.emitComposed f n p).bank = s.bank ∧
    (s.emitComposed f n p).store = s.store ∧
    (s.emitComposed f n p).plan = s.plan ∧
    (s.emitComposed f n p).free = s.free := by
  unfold State.emitComposed
  try dsimp only
  repeat' split
  all_goals simp

/-- An IDLE packet changes the framer alone. -/
@[simp] theorem State.emitIdle_kept (s : State) :
    (s.emitIdle).pending = s.pending ∧
    (s.emitIdle).power = s.power ∧
    (s.emitIdle).tracker = s.tracker ∧
    (s.emitIdle).params = s.params ∧
    (s.emitIdle).channels = s.channels ∧
    (s.emitIdle).timeoutsDue = s.timeoutsDue ∧
    (s.emitIdle).bank = s.bank ∧
    (s.emitIdle).store = s.store ∧
    (s.emitIdle).plan = s.plan ∧
    (s.emitIdle).checker = s.checker ∧
    (s.emitIdle).rtq = s.rtq ∧
    (s.emitIdle).free = s.free := by
  simp [State.emitIdle]

/-- An emission changes framer, checker, return queue and the free-value counter alone. -/
@[simp] theorem State.emitNext_kept (s : State) :
    (s.emitNext).pending = s.pending ∧
    (s.emitNext).power = s.power ∧
    (s.emitNext).tracker = s.tracker ∧
    (s.emitNext).params = s.params ∧
    (s.emitNext).channels = s.channels ∧
    (s.emitNext).timeoutsDue = s.timeoutsDue ∧
    (s.emitNext).bank = s.bank ∧
    (s.emitNext).store = s.store ∧
    (s.emitNext).plan = s.plan := by
  unfold State.emitNext
  try dsimp only
  repeat' split
  all_goals simp

/-- A channel reset changes channels and table bank alone. -/
@[simp] theorem State.resetChannel_kept (s : State) (ch : Channel) :
    (s.resetChannel ch).pending = s.pending ∧
    (s.resetChannel ch).power = s.power ∧
    (s.resetChannel ch).tracker = s.tracker ∧
    (s.resetChannel ch).params = s.params ∧
    (s.resetChannel ch).timeoutsDue = s.timeoutsDue ∧
    (s.resetChannel ch).store = s.store ∧
    (s.resetChannel ch).framer = s.framer ∧
    (s.resetChannel ch).plan = s.plan ∧
    (s.resetChannel ch).checker = s.checker ∧
    (s.resetChannel ch).rtq = s.rtq ∧
    (s.resetChannel ch).free = s.free := by
  simp [State.resetChannel]

/-- Scope CHANNELS changes channels, table bank, store and return queue alone (R112). -/
@[simp] theorem State.resetAllChannels_kept (s : State) :
    (s.resetAllChannels).pending = s.pending ∧
    (s.resetAllChannels).power = s.power ∧
    (s.resetAllChannels).tracker = s.tracker ∧
    (s.resetAllChannels).params = s.params ∧
    (s.resetAllChannels).timeoutsDue = s.timeoutsDue ∧
    (s.resetAllChannels).framer = s.framer ∧
    (s.resetAllChannels).plan = s.plan ∧
    (s.resetAllChannels).checker = s.checker ∧
    (s.resetAllChannels).free = s.free := by
  simp [State.resetAllChannels, allChannels]

/-- Scope STATE keeps the queue of commands, power, plan and free values. -/
@[simp] theorem State.resetManagement_kept (s : State) :
    (s.resetManagement).pending = s.pending ∧
    (s.resetManagement).power = s.power ∧
    (s.resetManagement).timeoutsDue = s.timeoutsDue ∧
    (s.resetManagement).plan = s.plan ∧
    (s.resetManagement).free = s.free := by
  simp [State.resetManagement]

/-- The fallback timer changes the framer alone. -/
@[simp] theorem State.expireFallback_kept (s : State) :
    (s.expireFallback).pending = s.pending ∧
    (s.expireFallback).power = s.power ∧
    (s.expireFallback).tracker = s.tracker ∧
    (s.expireFallback).params = s.params ∧
    (s.expireFallback).channels = s.channels ∧
    (s.expireFallback).timeoutsDue = s.timeoutsDue ∧
    (s.expireFallback).bank = s.bank ∧
    (s.expireFallback).store = s.store ∧
    (s.expireFallback).plan = s.plan ∧
    (s.expireFallback).checker = s.checker ∧
    (s.expireFallback).rtq = s.rtq ∧
    (s.expireFallback).free = s.free := by
  unfold State.expireFallback
  repeat' split
  all_goals simp

/-- A fill step changes the store, and what the lines in hand may be fetched from. -/
@[simp] theorem State.stepFill_kept (s : State) :
    (s.stepFill).pending = s.pending ∧
    (s.stepFill).power = s.power ∧
    (s.stepFill).tracker = s.tracker ∧
    (s.stepFill).params = s.params ∧
    (s.stepFill).channels = s.channels ∧
    (s.stepFill).timeoutsDue = s.timeoutsDue ∧
    (s.stepFill).bank = s.bank ∧
    (s.stepFill).plan = s.plan ∧
    (s.stepFill).checker = s.checker ∧
    (s.stepFill).rtq = s.rtq ∧
    (s.stepFill).free = s.free := by
  unfold State.stepFill
  repeat' split
  all_goals simp

/-- The end of a fill changes store, channels and return queue alone. -/
@[simp] theorem State.endFill_kept (s : State) :
    (s.endFill).pending = s.pending ∧
    (s.endFill).power = s.power ∧
    (s.endFill).tracker = s.tracker ∧
    (s.endFill).params = s.params ∧
    (s.endFill).timeoutsDue = s.timeoutsDue ∧
    (s.endFill).bank = s.bank ∧
    (s.endFill).framer = s.framer ∧
    (s.endFill).plan = s.plan ∧
    (s.endFill).checker = s.checker ∧
    (s.endFill).free = s.free := by
  unfold State.endFill
  repeat' split
  all_goals simp

/-- The completion of a message changes the return queue alone. -/
@[simp] theorem State.completeMessage_kept (s : State) :
    (s.completeMessage).pending = s.pending ∧
    (s.completeMessage).power = s.power ∧
    (s.completeMessage).tracker = s.tracker ∧
    (s.completeMessage).params = s.params ∧
    (s.completeMessage).channels = s.channels ∧
    (s.completeMessage).timeoutsDue = s.timeoutsDue ∧
    (s.completeMessage).bank = s.bank ∧
    (s.completeMessage).store = s.store ∧
    (s.completeMessage).framer = s.framer ∧
    (s.completeMessage).plan = s.plan ∧
    (s.completeMessage).checker = s.checker ∧
    (s.completeMessage).free = s.free := by
  simp [State.completeMessage]

/-- An OPEN changes channels, table bank, store and return queue alone. -/
@[simp] theorem actOpen_kept (s : State) (ch : Channel) (p : List Byte) :
    (actOpen ch p s).2.pending = s.pending ∧
    (actOpen ch p s).2.power = s.power ∧
    (actOpen ch p s).2.tracker = s.tracker ∧
    (actOpen ch p s).2.params = s.params ∧
    (actOpen ch p s).2.timeoutsDue = s.timeoutsDue ∧
    (actOpen ch p s).2.framer = s.framer ∧
    (actOpen ch p s).2.plan = s.plan ∧
    (actOpen ch p s).2.checker = s.checker ∧
    (actOpen ch p s).2.rtq = s.rtq ∧
    (actOpen ch p s).2.free = s.free := by
  unfold actOpen
  simp only [withBlock, openBlockInIdle, openTable, openStore]
  repeat' split
  all_goals simp

/-- An OPEN changes channels, table bank, store and return queue alone. -/
@[simp] theorem deliver_actOpen_kept (s : State) (ch : Channel) (p : List Byte) (q : Bool) (k : Byte) :
    (s.deliver ch q k (actOpen ch p)).pending = s.pending ∧
    (s.deliver ch q k (actOpen ch p)).power = s.power ∧
    (s.deliver ch q k (actOpen ch p)).tracker = s.tracker ∧
    (s.deliver ch q k (actOpen ch p)).params = s.params ∧
    (s.deliver ch q k (actOpen ch p)).timeoutsDue = s.timeoutsDue ∧
    (s.deliver ch q k (actOpen ch p)).framer = s.framer ∧
    (s.deliver ch q k (actOpen ch p)).plan = s.plan ∧
    (s.deliver ch q k (actOpen ch p)).checker = s.checker ∧
    (s.deliver ch q k (actOpen ch p)).free = s.free := by
  unfold State.deliver
  try dsimp only
  repeat' split
  all_goals simp

/-- A DATA changes channels, table bank, store and return queue alone, and what the lines in hand may be fetched from. -/
@[simp] theorem actData_kept (s : State) (ch : Channel) (p : List Byte) :
    (actData ch p s).2.pending = s.pending ∧
    (actData ch p s).2.power = s.power ∧
    (actData ch p s).2.tracker = s.tracker ∧
    (actData ch p s).2.params = s.params ∧
    (actData ch p s).2.timeoutsDue = s.timeoutsDue ∧
    (actData ch p s).2.plan = s.plan ∧
    (actData ch p s).2.checker = s.checker ∧
    (actData ch p s).2.rtq = s.rtq ∧
    (actData ch p s).2.free = s.free := by
  unfold actData
  simp only [dataInOpen, acceptSegment]
  repeat' split
  all_goals simp

/-- A DATA changes channels, table bank, store and return queue alone, and what the lines in hand may be fetched from. -/
@[simp] theorem deliver_actData_kept (s : State) (ch : Channel) (p : List Byte) (q : Bool) (k : Byte) :
    (s.deliver ch q k (actData ch p)).pending = s.pending ∧
    (s.deliver ch q k (actData ch p)).power = s.power ∧
    (s.deliver ch q k (actData ch p)).tracker = s.tracker ∧
    (s.deliver ch q k (actData ch p)).params = s.params ∧
    (s.deliver ch q k (actData ch p)).timeoutsDue = s.timeoutsDue ∧
    (s.deliver ch q k (actData ch p)).plan = s.plan ∧
    (s.deliver ch q k (actData ch p)).checker = s.checker ∧
    (s.deliver ch q k (actData ch p)).free = s.free := by
  unfold State.deliver
  try dsimp only
  repeat' split
  all_goals simp

/-- A CLOSE changes channels, table bank, store and return queue alone. -/
@[simp] theorem actClose_kept (s : State) (ch : Channel) (p : List Byte) :
    (actClose ch p s).2.pending = s.pending ∧
    (actClose ch p s).2.power = s.power ∧
    (actClose ch p s).2.tracker = s.tracker ∧
    (actClose ch p s).2.params = s.params ∧
    (actClose ch p s).2.timeoutsDue = s.timeoutsDue ∧
    (actClose ch p s).2.store = s.store ∧
    (actClose ch p s).2.framer = s.framer ∧
    (actClose ch p s).2.plan = s.plan ∧
    (actClose ch p s).2.checker = s.checker ∧
    (actClose ch p s).2.rtq = s.rtq ∧
    (actClose ch p s).2.free = s.free := by
  unfold actClose
  simp only [closeInOpen]
  repeat' split
  all_goals simp

/-- A CLOSE changes channels, table bank, store and return queue alone. -/
@[simp] theorem deliver_actClose_kept (s : State) (ch : Channel) (p : List Byte) (q : Bool) (k : Byte) :
    (s.deliver ch q k (actClose ch p)).pending = s.pending ∧
    (s.deliver ch q k (actClose ch p)).power = s.power ∧
    (s.deliver ch q k (actClose ch p)).tracker = s.tracker ∧
    (s.deliver ch q k (actClose ch p)).params = s.params ∧
    (s.deliver ch q k (actClose ch p)).timeoutsDue = s.timeoutsDue ∧
    (s.deliver ch q k (actClose ch p)).framer = s.framer ∧
    (s.deliver ch q k (actClose ch p)).plan = s.plan ∧
    (s.deliver ch q k (actClose ch p)).checker = s.checker ∧
    (s.deliver ch q k (actClose ch p)).free = s.free := by
  unfold State.deliver
  try dsimp only
  repeat' split
  all_goals simp

/-- A COMMIT changes table bank, channels, store, return queue and the free-value counter alone. -/
@[simp] theorem actCommit_kept (s : State) (p : List Byte) :
    (actCommit p s).2.pending = s.pending ∧
    (actCommit p s).2.power = s.power ∧
    (actCommit p s).2.tracker = s.tracker ∧
    (actCommit p s).2.params = s.params ∧
    (actCommit p s).2.channels = s.channels ∧
    (actCommit p s).2.timeoutsDue = s.timeoutsDue ∧
    (actCommit p s).2.store = s.store ∧
    (actCommit p s).2.framer = s.framer ∧
    (actCommit p s).2.plan = s.plan ∧
    (actCommit p s).2.checker = s.checker ∧
    (actCommit p s).2.rtq = s.rtq := by
  unfold actCommit
  simp only [withBlock, commitOf, unstatedAnswer]
  repeat' split
  all_goals simp

/-- A COMMIT changes table bank, channels, store, return queue and the free-value counter alone. -/
@[simp] theorem deliver_actCommit_kept (s : State) (ch : Channel) (p : List Byte) (q : Bool) (k : Byte) :
    (s.deliver ch q k (actCommit p)).pending = s.pending ∧
    (s.deliver ch q k (actCommit p)).power = s.power ∧
    (s.deliver ch q k (actCommit p)).tracker = s.tracker ∧
    (s.deliver ch q k (actCommit p)).params = s.params ∧
    (s.deliver ch q k (actCommit p)).timeoutsDue = s.timeoutsDue ∧
    (s.deliver ch q k (actCommit p)).framer = s.framer ∧
    (s.deliver ch q k (actCommit p)).plan = s.plan ∧
    (s.deliver ch q k (actCommit p)).checker = s.checker := by
  unfold State.deliver
  try dsimp only
  repeat' split
  all_goals simp

/-- A CANCEL changes table bank, channels, store and return queue alone. -/
@[simp] theorem actCancel_kept (s : State) (p : List Byte) :
    (actCancel p s).2.pending = s.pending ∧
    (actCancel p s).2.power = s.power ∧
    (actCancel p s).2.tracker = s.tracker ∧
    (actCancel p s).2.params = s.params ∧
    (actCancel p s).2.channels = s.channels ∧
    (actCancel p s).2.timeoutsDue = s.timeoutsDue ∧
    (actCancel p s).2.store = s.store ∧
    (actCancel p s).2.framer = s.framer ∧
    (actCancel p s).2.plan = s.plan ∧
    (actCancel p s).2.checker = s.checker ∧
    (actCancel p s).2.rtq = s.rtq ∧
    (actCancel p s).2.free = s.free := by
  unfold actCancel
  repeat' split
  all_goals simp

/-- A CANCEL changes table bank, channels, store and return queue alone. -/
@[simp] theorem deliver_actCancel_kept (s : State) (ch : Channel) (p : List Byte) (q : Bool) (k : Byte) :
    (s.deliver ch q k (actCancel p)).pending = s.pending ∧
    (s.deliver ch q k (actCancel p)).power = s.power ∧
    (s.deliver ch q k (actCancel p)).tracker = s.tracker ∧
    (s.deliver ch q k (actCancel p)).params = s.params ∧
    (s.deliver ch q k (actCancel p)).timeoutsDue = s.timeoutsDue ∧
    (s.deliver ch q k (actCancel p)).framer = s.framer ∧
    (s.deliver ch q k (actCancel p)).plan = s.plan ∧
    (s.deliver ch q k (actCancel p)).checker = s.checker ∧
    (s.deliver ch q k (actCancel p)).free = s.free := by
  unfold State.deliver
  try dsimp only
  repeat' split
  all_goals simp

/-- A REVERT changes table bank, channels, store, return queue and the free-value counter alone. -/
@[simp] theorem actRevert_kept (s : State) (p : List Byte) :
    (actRevert p s).2.pending = s.pending ∧
    (actRevert p s).2.power = s.power ∧
    (actRevert p s).2.tracker = s.tracker ∧
    (actRevert p s).2.params = s.params ∧
    (actRevert p s).2.channels = s.channels ∧
    (actRevert p s).2.timeoutsDue = s.timeoutsDue ∧
    (actRevert p s).2.store = s.store ∧
    (actRevert p s).2.framer = s.framer ∧
    (actRevert p s).2.plan = s.plan ∧
    (actRevert p s).2.checker = s.checker ∧
    (actRevert p s).2.rtq = s.rtq := by
  unfold actRevert
  simp only [withBlock, revertOf, unstatedAnswer]
  repeat' split
  all_goals simp

/-- A REVERT changes table bank, channels, store, return queue and the free-value counter alone. -/
@[simp] theorem deliver_actRevert_kept (s : State) (ch : Channel) (p : List Byte) (q : Bool) (k : Byte) :
    (s.deliver ch q k (actRevert p)).pending = s.pending ∧
    (s.deliver ch q k (actRevert p)).power = s.power ∧
    (s.deliver ch q k (actRevert p)).tracker = s.tracker ∧
    (s.deliver ch q k (actRevert p)).params = s.params ∧
    (s.deliver ch q k (actRevert p)).timeoutsDue = s.timeoutsDue ∧
    (s.deliver ch q k (actRevert p)).framer = s.framer ∧
    (s.deliver ch q k (actRevert p)).plan = s.plan ∧
    (s.deliver ch q k (actRevert p)).checker = s.checker := by
  unfold State.deliver
  try dsimp only
  repeat' split
  all_goals simp

/-- A READ changes channels, table bank, store and return queue alone (R102). -/
@[simp] theorem actRead_kept (s : State) (p : List Byte) :
    (actRead p s).2.pending = s.pending ∧
    (actRead p s).2.power = s.power ∧
    (actRead p s).2.tracker = s.tracker ∧
    (actRead p s).2.params = s.params ∧
    (actRead p s).2.channels = s.channels ∧
    (actRead p s).2.timeoutsDue = s.timeoutsDue ∧
    (actRead p s).2.bank = s.bank ∧
    (actRead p s).2.store = s.store ∧
    (actRead p s).2.framer = s.framer ∧
    (actRead p s).2.plan = s.plan ∧
    (actRead p s).2.checker = s.checker ∧
    (actRead p s).2.rtq = s.rtq ∧
    (actRead p s).2.free = s.free := by
  unfold actRead
  simp only [withBlock]
  repeat' split
  all_goals simp

/-- A READ changes channels, table bank, store and return queue alone (R102). -/
@[simp] theorem deliver_actRead_kept (s : State) (ch : Channel) (p : List Byte) (q : Bool) (k : Byte) :
    (s.deliver ch q k (actRead p)).pending = s.pending ∧
    (s.deliver ch q k (actRead p)).power = s.power ∧
    (s.deliver ch q k (actRead p)).tracker = s.tracker ∧
    (s.deliver ch q k (actRead p)).params = s.params ∧
    (s.deliver ch q k (actRead p)).timeoutsDue = s.timeoutsDue ∧
    (s.deliver ch q k (actRead p)).framer = s.framer ∧
    (s.deliver ch q k (actRead p)).plan = s.plan ∧
    (s.deliver ch q k (actRead p)).checker = s.checker ∧
    (s.deliver ch q k (actRead p)).free = s.free := by
  unfold State.deliver
  try dsimp only
  repeat' split
  all_goals simp

/-- A STATUS changes channels, table bank, store and return queue alone (R106). -/
@[simp] theorem actStatus_kept (s : State) (p : List Byte) :
    (actStatus p s).2.pending = s.pending ∧
    (actStatus p s).2.power = s.power ∧
    (actStatus p s).2.tracker = s.tracker ∧
    (actStatus p s).2.params = s.params ∧
    (actStatus p s).2.channels = s.channels ∧
    (actStatus p s).2.timeoutsDue = s.timeoutsDue ∧
    (actStatus p s).2.bank = s.bank ∧
    (actStatus p s).2.store = s.store ∧
    (actStatus p s).2.framer = s.framer ∧
    (actStatus p s).2.plan = s.plan ∧
    (actStatus p s).2.checker = s.checker ∧
    (actStatus p s).2.rtq = s.rtq ∧
    (actStatus p s).2.free = s.free := by
  unfold actStatus
  repeat' split
  all_goals simp

/-- A STATUS changes channels, table bank, store and return queue alone (R106). -/
@[simp] theorem deliver_actStatus_kept (s : State) (ch : Channel) (p : List Byte) (q : Bool) (k : Byte) :
    (s.deliver ch q k (actStatus p)).pending = s.pending ∧
    (s.deliver ch q k (actStatus p)).power = s.power ∧
    (s.deliver ch q k (actStatus p)).tracker = s.tracker ∧
    (s.deliver ch q k (actStatus p)).params = s.params ∧
    (s.deliver ch q k (actStatus p)).timeoutsDue = s.timeoutsDue ∧
    (s.deliver ch q k (actStatus p)).framer = s.framer ∧
    (s.deliver ch q k (actStatus p)).plan = s.plan ∧
    (s.deliver ch q k (actStatus p)).checker = s.checker ∧
    (s.deliver ch q k (actStatus p)).free = s.free := by
  unfold State.deliver
  try dsimp only
  repeat' split
  all_goals simp

/-- A parameter set changes parameters, and the loss timer expiry due, alone. -/
@[simp] theorem State.setParam_kept (s : State) (id : ParamId) (v : Nat) :
    (s.setParam id v).pending = s.pending ∧
    (s.setParam id v).power = s.power ∧
    (s.setParam id v).channels = s.channels ∧
    (s.setParam id v).timeoutsDue = s.timeoutsDue ∧
    (s.setParam id v).bank = s.bank ∧
    (s.setParam id v).store = s.store ∧
    (s.setParam id v).framer = s.framer ∧
    (s.setParam id v).plan = s.plan ∧
    (s.setParam id v).checker = s.checker ∧
    (s.setParam id v).rtq = s.rtq ∧
    (s.setParam id v).free = s.free := by
  unfold State.setParam
  try dsimp only
  repeat' split
  all_goals simp

/-- A SET_PARAM changes parameters, channels, table bank, store and return queue alone. -/
@[simp] theorem actSetParam_kept (s : State) (p : List Byte) :
    (actSetParam p s).2.pending = s.pending ∧
    (actSetParam p s).2.power = s.power ∧
    (actSetParam p s).2.channels = s.channels ∧
    (actSetParam p s).2.timeoutsDue = s.timeoutsDue ∧
    (actSetParam p s).2.bank = s.bank ∧
    (actSetParam p s).2.store = s.store ∧
    (actSetParam p s).2.framer = s.framer ∧
    (actSetParam p s).2.plan = s.plan ∧
    (actSetParam p s).2.checker = s.checker ∧
    (actSetParam p s).2.rtq = s.rtq ∧
    (actSetParam p s).2.free = s.free := by
  unfold actSetParam
  simp only [withBlock, setParamOf]
  repeat' split
  all_goals simp

/-- A SET_PARAM changes parameters, channels, table bank, store and return queue alone. -/
@[simp] theorem deliver_actSetParam_kept (s : State) (ch : Channel) (p : List Byte) (q : Bool) (k : Byte) :
    (s.deliver ch q k (actSetParam p)).pending = s.pending ∧
    (s.deliver ch q k (actSetParam p)).power = s.power ∧
    (s.deliver ch q k (actSetParam p)).timeoutsDue = s.timeoutsDue ∧
    (s.deliver ch q k (actSetParam p)).framer = s.framer ∧
    (s.deliver ch q k (actSetParam p)).plan = s.plan ∧
    (s.deliver ch q k (actSetParam p)).checker = s.checker ∧
    (s.deliver ch q k (actSetParam p)).free = s.free := by
  unfold State.deliver
  try dsimp only
  repeat' split
  all_goals simp

/-- A RESET keeps the queue of commands, power, plan and free values. -/
@[simp] theorem actReset_kept (s : State) (p : List Byte) :
    (actReset p s).2.pending = s.pending ∧
    (actReset p s).2.power = s.power ∧
    (actReset p s).2.timeoutsDue = s.timeoutsDue ∧
    (actReset p s).2.plan = s.plan ∧
    (actReset p s).2.free = s.free := by
  unfold actReset
  simp only [withBlock, resetOf]
  repeat' split
  all_goals simp

/-- A RESET keeps the queue of commands, power, plan and free values. -/
@[simp] theorem deliver_actReset_kept (s : State) (ch : Channel) (p : List Byte) (q : Bool) (k : Byte) :
    (s.deliver ch q k (actReset p)).pending = s.pending ∧
    (s.deliver ch q k (actReset p)).power = s.power ∧
    (s.deliver ch q k (actReset p)).timeoutsDue = s.timeoutsDue ∧
    (s.deliver ch q k (actReset p)).plan = s.plan ∧
    (s.deliver ch q k (actReset p)).free = s.free := by
  unfold State.deliver
  try dsimp only
  repeat' split
  all_goals simp

/-- A refusal changes channels, table bank, store and return queue alone. -/
@[simp] theorem deliver_refusal_kept (s : State) (ch : Channel) (a : Answer) (q : Bool) (k : Byte) :
    (s.deliver ch q k (fun s => (a, s))).pending = s.pending ∧
    (s.deliver ch q k (fun s => (a, s))).power = s.power ∧
    (s.deliver ch q k (fun s => (a, s))).tracker = s.tracker ∧
    (s.deliver ch q k (fun s => (a, s))).params = s.params ∧
    (s.deliver ch q k (fun s => (a, s))).timeoutsDue = s.timeoutsDue ∧
    (s.deliver ch q k (fun s => (a, s))).framer = s.framer ∧
    (s.deliver ch q k (fun s => (a, s))).plan = s.plan ∧
    (s.deliver ch q k (fun s => (a, s))).checker = s.checker ∧
    (s.deliver ch q k (fun s => (a, s))).free = s.free := by
  unfold State.deliver
  try dsimp only
  repeat' split
  all_goals simp

end Sys2Proof.Machine
end

