-- ==== Sys2Proof/Laws/Flow.lean ====
section
/-! SUPPORT. The frame of a step: what settling and concluding do between commands, and the envelope of a CONTROL packet on a steady part. -/

namespace Sys2Proof.Machine

/-! ## Settled and steady states -/

theorem State.settled_iff (s : State) :
    s.settled = true ↔ s.timeoutsDue = [] ∧ s.tracker.expiryDue = false ∧ s.startNow = none := by
  simp [State.settled, List.isEmpty_iff, Option.isNone_iff_eq_none, and_assoc]

/-- Frame packets that must wait, or that are none, are left as they are. -/
theorem State.drain_of_waits {s : State} (h : (s.tracker.waiting.isEmpty || s.framesWait) = true) : s.drain = s := by
  rw [State.drain, if_pos h]

/-- With no timeout due, none is taken. -/
theorem State.timeOutDue_of_none {s : State} (h : s.timeoutsDue = []) : s.timeOutDue = s := by
  simp only [State.timeOutDue, h, List.foldl_nil]
  rw [← h]
  exact State.setTimeoutsDue_self s

/-- With no timeout due and no frame packet that need not wait, taking the timeouts changes nothing. -/
theorem State.takeTimeouts_of_none {s : State} (h : s.timeoutsDue = [])
    (hw : (s.tracker.waiting.isEmpty || s.framesWait) = true) : s.takeTimeouts = s := by
  rw [State.takeTimeouts, State.timeOutDue_of_none h, State.drain_of_waits hw]

/-- With nothing due at once, nothing is taken. -/
theorem takeUrgent_of_none {s : State} (k : Nat) (he : s.tracker.expiryDue = false) (h : s.startNow = none) :
    takeUrgent k s = s := by
  cases k with
  | zero => rfl
  | succ k => simp [takeUrgent, he, h]

/-- A settled state is left as it is. -/
theorem State.settle_of_settled {s : State} (h : s.settled = true)
    (hw : (s.tracker.waiting.isEmpty || s.framesWait) = true) : s.settle = s := by
  rw [State.settled_iff] at h
  rw [State.settle, State.takeTimeouts_of_none h.1 hw, takeUrgent_of_none _ h.2.1 h.2.2]

/-- On a settled state frame packets wait for the start of an upstream frame alone (R123). -/
theorem State.framesWait_of_settled {s : State} (h : s.settled = true) : s.framesWait = s.framer.upstreamDue := by
  rw [State.settled_iff] at h
  simp [State.framesWait, h.1, h.2.1, h.2.2]

/-- While the start of an upstream frame is due, frame packets wait. -/
theorem State.framesWait_of_upstreamDue {s : State} (h : s.framer.upstreamDue = true) : s.framesWait = true := by
  simp [State.framesWait, h]

/-- With no frame packet that need not wait, the end of a step is the arbiter alone. -/
theorem State.conclude_of_waits {s : State} (h : (s.tracker.waiting.isEmpty || s.framesWait) = true) :
    s.conclude = s.arbitrate := by
  exact State.drain_of_waits (s := s.arbitrate) h

/-- On a steady state a step is the effect and the end of the step. -/
theorem State.operate_of_steady {s : State} (h : s.steady) (f : State → State) : s.operate f = (f s).conclude := by
  simp only [State.operate, h.1, State.settle_of_settled h.2.1 h.2.2]

/-- On a steady state, an effect that leaves what frame packets wait for as it is, is followed by the arbiter alone. -/
theorem State.operate_of_steady_waits {s : State} (h : s.steady) (f : State → State)
    (hf : ((f s).tracker.waiting.isEmpty || (f s).framesWait) = true) : s.operate f = (f s).arbitrate := by
  rw [State.operate_of_steady h, State.conclude_of_waits hf]

/-- On a steady state, an effect that keeps the packets waiting and the start due leaves none that need not wait. -/
theorem State.waits_of_due {s t : State} (h : s.steady) (h1 : t.tracker.waiting = s.tracker.waiting)
    (h2 : t.framer.due = s.framer.due) : (t.tracker.waiting.isEmpty || t.framesWait) = true := by
  have h3 := h.2.2
  rw [State.framesWait_of_settled h.2.1] at h3
  rw [h1, Bool.or_eq_true]
  rw [Bool.or_eq_true] at h3
  refine h3.imp id (fun e => State.framesWait_of_upstreamDue ?_)
  simpa only [Framer.upstreamDue, h2] using e

/-- On a steady state, an effect that keeps tracker and framer is followed by the arbiter alone. -/
theorem State.operate_of_kept {s : State} (h : s.steady) (f : State → State) (h1 : (f s).tracker = s.tracker)
    (h2 : (f s).framer.due = s.framer.due) : s.operate f = (f s).arbitrate := by
  exact State.operate_of_steady_waits h f (State.waits_of_due h (by rw [h1]) h2)

/-! ## The envelope -/

@[simp] theorem State.updateChannel_self (s : State) (ch : Channel) (f : ChannelContext → ChannelContext) :
    (s.updateChannel ch f).channels[ch] = f s.channels[ch] := by
  simp [State.updateChannel]

/-- A second update of the same channel. -/
theorem State.updateChannel_twice (s : State) (ch : Channel) (f g : ChannelContext → ChannelContext) :
    (s.updateChannel ch f).updateChannel ch g = s.updateChannel ch (fun c => g (f c)) := by
  simp only [State.updateChannel, State.setChannels_channels, Fin.getElem_fin, Vector.getElem_set_self]
  simp only [State.setChannels, Vector.set_set]

/-- An update of a channel, written as the context it leaves. -/
theorem State.updateChannel_eq (s : State) (ch : Channel) (f : ChannelContext → ChannelContext) :
    s.updateChannel ch f = s.setChannels (s.channels.set ch (f s.channels[ch])) := rfl

/-- A packet on an ABANDONED channel (R82). -/
theorem State.deliver_of_abandoned (s : State) (ch : Channel) (seq : Bool) (kind : Byte)
    (act : State → Answer × State) (h : s.channels[ch].state = .abandoned) :
    s.deliver ch seq kind act = (s.touch ch).refuseAbandoned ch seq kind := by
  simp only [State.deliver]
  rw [if_pos]
  simp only [State.touch, State.updateChannel_self, h]

/-- A duplicate (R76). -/
theorem State.deliver_of_duplicate (s : State) (ch : Channel) (seq : Bool) (kind : Byte)
    (act : State → Answer × State) (h : s.channels[ch].state ≠ .abandoned) (hq : seq ≠ s.channels[ch].expected) :
    s.deliver ch seq kind act = (s.touch ch).replay ch := by
  simp only [State.deliver]
  rw [if_neg, if_neg]
  · simpa only [State.touch, State.updateChannel_self] using hq
  · simpa only [State.touch, State.updateChannel_self] using h

/-- A taken packet (R75). -/
theorem State.deliver_of_takes (s : State) (ch : Channel) (seq : Bool) (kind : Byte) (act : State → Answer × State)
    (h : s.takes ch seq) :
    s.deliver ch seq kind act = (act (s.touch ch)).2.finishTaken ch seq kind (act (s.touch ch)).1 := by
  simp only [State.deliver]
  rw [if_neg, if_pos]
  · simpa only [State.touch, State.updateChannel_self] using h.2
  · simpa only [State.touch, State.updateChannel_self] using h.1

/-- A reply that does not abandon its channel: the context, the queue, and nothing else. -/
theorem State.finishTaken_of_kept (s : State) (ch : Channel) (seq : Bool) (kind : Byte) (a : Answer)
    (h : a.code.counted = true → errorsAfter a.code s.channels[ch].errors < s.params.abandonLimit) :
    s.finishTaken ch seq kind a =
      (s.setChannels (s.channels.set ch (s.channels[ch].answered (a.reply seq kind)))).setRtq
        (s.rtq.handOver ch (a.reply seq kind)) := by
  simp only [State.finishTaken, State.abandonTest]
  rw [if_neg]
  · rfl
  · rintro ⟨h1, h2⟩
    have := h h1
    simp only [State.handOver_kept, State.updateChannel_kept, State.updateChannel_self, ChannelContext.answered,
      Answer.reply] at h2
    omega

/-- A taken packet whose owner changes nothing, with a reply that does not abandon the channel. -/
theorem State.operate_deliver_of_kept {s : State} (hs : s.steady) (ch : Channel) (seq : Bool) (kind : Byte)
    (act : State → Answer × State) (a : Answer) (ht : s.takes ch seq) (ha : act (s.touch ch) = (a, s.touch ch))
    (h : a.code.counted = true → errorsAfter a.code s.channels[ch].errors < s.params.abandonLimit) :
    s.operate (·.deliver ch seq kind act) =
      s.answered ch (s.channels[ch].replied (a.reply seq kind)) (a.reply seq kind) := by
  have e : s.deliver ch seq kind act =
      (s.setChannels (s.channels.set ch (s.channels[ch].replied (a.reply seq kind)))).setRtq
        (s.rtq.handOver ch (a.reply seq kind)) := by
    rw [State.deliver_of_takes s ch seq kind act ht, ha, State.finishTaken_of_kept]
    · simp only [State.touch, State.updateChannel, State.setChannels_channels, Fin.getElem_fin,
        Vector.getElem_set_self, Vector.set_set]
      rfl
    · simpa only [State.touch, State.updateChannel_self, State.updateChannel_kept] using h
  rw [State.operate_of_kept hs _ (by rw [e]; rfl) (by rw [e]; rfl), e]
  rfl

/-- What the owner of a request finds on the channel: the context with idle frames 0. -/
theorem State.touch_self (s : State) (ch : Channel) :
    (s.touch ch).channels[ch] = { s.channels[ch] with idleFrames := 0 } := by
  simp only [State.touch, State.updateChannel_self]

/-- The same, by the channel's number. -/
@[simp] theorem State.touch_getElem (s : State) (ch : Channel) (h : ch.val < 4) :
    (s.touch ch).channels[ch.val] = { s.channels[ch] with idleFrames := 0 } := State.touch_self s ch

/-- A taken packet whose owner leaves the state `u` and does not abandon the channel. -/
theorem State.operate_deliver_of_takes {s : State} (hs : s.steady) (ch : Channel) (seq : Bool) (kind : Byte)
    (act : State → Answer × State) (ht : s.takes ch seq) (a : Answer) (u : State) (ha : act (s.touch ch) = (a, u))
    (h1 : u.tracker = s.tracker) (h2 : u.framer.due = s.framer.due)
    (h : a.code.counted = true → errorsAfter a.code u.channels[ch].errors < u.params.abandonLimit) :
    s.operate (·.deliver ch seq kind act) =
      u.answered ch (u.channels[ch].answered (a.reply seq kind)) (a.reply seq kind) := by
  have e := State.deliver_of_takes s ch seq kind act ht
  rw [ha] at e
  simp only at e
  rw [State.finishTaken_of_kept _ _ _ _ _ h] at e
  rw [State.operate_of_kept hs _ (by rw [e]; simpa using h1) (by rw [e]; simpa using h2), e]
  rfl

/-- A taken packet refused without data, below the abandon limit when the code is counted. -/
theorem State.operate_deliver_of_refused {s : State} (hs : s.steady) (ch : Channel) (seq : Bool) (kind : Byte)
    (act : State → Answer × State) (ht : s.takes ch seq) (code : ReplyCode) (extra : Half)
    (ha : act (s.touch ch) = (.plain code extra, s.touch ch))
    (h : code.counted = true → s.channels[ch].errors + 1 < s.params.abandonLimit) :
    s.operate (·.deliver ch seq kind act) =
      s.answered ch (s.channels[ch].replied ⟨seq, kind, code, extra, []⟩) ⟨seq, kind, code, extra, []⟩ := by
  refine State.operate_deliver_of_kept hs ch seq kind act (.plain code extra) ht ha ?_
  intro hc
  have := h hc
  simp only [Answer.plain] at hc ⊢
  have : errorsAfter code s.channels[ch].errors ≤ s.channels[ch].errors + 1 := by
    cases code <;> simp [errorsAfter, ReplyCode.counted]
  omega

/-! ## Ends of loads, and abandonment -/

/-- An updated channel, by its number. -/
@[simp] theorem State.updateChannel_getElem (s : State) (ch : Channel) (f : ChannelContext → ChannelContext) (h : ch.val < 4) :
    (s.updateChannel ch f).channels[ch.val] = f s.channels[ch] := State.updateChannel_self s ch f

/-- The end of a load, written out: the table it held, and the channel. -/
theorem State.endLoad_eq (s : State) (ch : Channel) (st : ShadowState) (n : ChannelState) :
    s.endLoad ch st n =
      (s.setBank
        (match s.channels[ch].target with
         | some (.table t _) => { s.bank with states := s.bank.states.set t st }
         | some (.store _ _ _) => s.bank
         | some .fill => s.bank
         | none => s.bank)).setChannels
        (s.channels.set ch { s.channels[ch] with target := none, idleFrames := 0, state := n }) := by
  simp only [State.endLoad, State.updateChannel, Bank.loadEnded, Bank.setState]
  rcases s.channels[ch].target with _ | ⟨_ | _ | _⟩ <;> rfl

/-- A load or fill that ends incomplete, written out (R33, R68, R94). -/
theorem State.dropLoad_eq (s : State) (ch : Channel) (n : ChannelState) :
    (s.stopFillOf ch).endLoad ch .partialLoad n =
      (s.loadDropped ch).setChannels
        (s.channels.set ch { s.channels[ch] with target := none, idleFrames := 0, state := n }) := by
  rw [State.endLoad_eq]
  simp only [State.stopFillOf, State.loadDropped]
  split <;> rfl

/-- An event raised is the queue after it. -/
theorem State.raise_eq (s : State) (k : EventKind) (a : Byte) : s.raise k a = s.setRtq (s.reported s.rtq k a) := by
  by_cases h : s.params.eventMask.getLsbD k.bit = true
  · have h' : s.enabled k = true := h
    simp only [State.raise, State.raiseWith, State.reported, if_pos h', if_pos h]
  · have h' : ¬s.enabled k = true := h
    simp only [State.raise, State.raiseWith, State.reported, if_neg h', if_neg h]
    rfl

/-- The load dropped rests on the channel's state and target alone. -/
theorem State.loadDropped_setChannels (s : State) (ch : Channel) (cs : Vector ChannelContext 4)
    (h1 : cs[ch].state = s.channels[ch].state) (h2 : cs[ch].target = s.channels[ch].target) :
    (s.setChannels cs).loadDropped ch = (s.loadDropped ch).setChannels cs := by
  simp only [State.loadDropped, State.setChannels_channels, h1, h2]
  rfl

/-- The load dropped does not rest on the return queue. -/
theorem State.loadDropped_setRtq (s : State) (ch : Channel) (q : Rtq) :
    (s.setRtq q).loadDropped ch = (s.loadDropped ch).setRtq q := rfl

/-- A reply that abandons its channel (R81). -/
theorem State.finishTaken_of_abandons (s : State) (ch : Channel) (seq : Bool) (kind : Byte) (a : Answer)
    (h1 : a.code.counted = true) (h2 : s.params.abandonLimit ≤ errorsAfter a.code s.channels[ch].errors) :
    s.finishTaken ch seq kind a =
      ((s.loadDropped ch).setChannels (s.channels.set ch
        { s.channels[ch].answered (a.reply seq kind) with state := .abandoned, target := none, idleFrames := 0 })).setRtq
        (s.reported (s.rtq.handOver ch (a.reply seq kind)) .channelAbandoned (channelByte ch)) := by
  simp only [State.finishTaken, State.abandonTest]
  rw [if_pos]
  · simp only [State.abandon]
    rw [State.dropLoad_eq]
    rw [State.updateChannel_eq]
    simp only [State.handOver]
    rw [State.loadDropped_setRtq, State.loadDropped_setChannels _ _ _ (by simp [ChannelContext.answered]) (by simp [ChannelContext.answered])]
    simp only [State.setRtq_channels, State.setChannels_channels, Fin.getElem_fin, Vector.getElem_set_self, Vector.set_set,
      State.raise_eq]
    rfl
  · refine ⟨h1, ?_⟩
    simpa [ChannelContext.answered, Answer.reply] using h2

/-- A taken packet refused with a counted code that brings the error count to the abandon limit (R81). The free-value counter
may have moved (assumption log 10). -/
theorem State.operate_deliver_of_abandons {s : State} (hs : s.steady) (ch : Channel) (seq : Bool) (kind : Byte)
    (act : State → Answer × State) (ht : s.takes ch seq) (code : ReplyCode) (extra : Half) (free : Nat)
    (ha : act (s.touch ch) = (.plain code extra, (s.touch ch).setFree free)) (hc : code.counted = true)
    (hl : s.params.abandonLimit ≤ s.channels[ch].errors + 1) :
    s.operate (·.deliver ch seq kind act) =
      ((((s.setFree free).loadDropped ch).setChannels (s.channels.set ch
        { s.channels[ch] with
          state := .abandoned, expected := !s.channels[ch].expected, target := none
          errors := s.channels[ch].errors + 1, idleFrames := 0, last := ⟨seq, kind, code, extra, []⟩ })).setRtq
        (s.reported (s.rtq.handOver ch ⟨seq, kind, code, extra, []⟩) .channelAbandoned (channelByte ch)).arbitrate) := by
  have he : ∀ n, errorsAfter code n = n + 1 := by
    intro n
    cases code <;> first | rfl | cases hc
  have e := State.deliver_of_takes s ch seq kind act ht
  rw [ha] at e
  simp only at e
  have hk : ((s.touch ch).setFree free).channels[ch] = { s.channels[ch] with idleFrames := 0 } := s.touch_self ch
  rw [State.finishTaken_of_abandons _ _ _ _ _ hc (by rw [hk]; exact (he _).symm ▸ hl)] at e
  have e2 : ((s.touch ch).setFree free).loadDropped ch =
      ((s.setFree free).loadDropped ch).setChannels (s.touch ch).channels :=
    State.loadDropped_setChannels (s.setFree free) ch _ (by simp) (by simp)
  rw [State.operate_of_kept hs _ (by rw [e]; simp [State.loadDropped]) (by rw [e]; simp [State.loadDropped]), e, e2, hk]
  simp only [ChannelContext.answered, Answer.reply, Answer.plain, he]
  simp only [State.touch, State.updateChannel, State.setFree_channels, State.setChannels_channels, Fin.getElem_fin,
    Vector.set_set]
  rfl

end Sys2Proof.Machine
end

