-- ==== Sys2Proof/Laws/Stream.lean ====
section
/-! SUPPORT. The stream tracker between commands: frame packets on a steady part, substitute and forwarded lines, faults, and the loss of the stream, each written out as the state it leaves. -/

namespace Sys2Proof.Machine

/-- With the lane kept, the arbiter has nothing to do. -/
theorem State.arbitrate_of_laneKept (s : State) (h : s.rtq.laneKept) : s.arbitrate = s := by
  have : s.rtq.arbitrate = s.rtq := by
    unfold Rtq.arbitrate
    cases hi : s.rtq.inFlight with
    | some m => rfl
    | none => simp [h hi, chooseEntry]
  simp [State.arbitrate, this]

/-- On a steady part where frame packets need not wait, none waits. -/
theorem State.waiting_nil {s : State} (hs : s.steady) (h : s.framesWait = false) : s.tracker.waiting = [] := by
  have := hs.2.2
  simpa [h, List.isEmpty_iff] using this

/-- A step whose effect leaves no frame packet waiting ends with the arbiter. -/
theorem State.operate_of_nil {s : State} (hs : s.steady) (f : State → State) (h : (f s).tracker.waiting = []) :
    s.operate f = (f s).arbitrate := State.operate_of_steady_waits hs f (by simp [h])

/-- A frame packet that need not wait is dealt with at once. -/
theorem State.arrive_now {s : State} (hs : s.steady) (h : s.framesWait = false) (p : FramePacket) :
    s.arrive p = s.dealFrame p := by
  simp [State.arrive, h, State.waiting_nil hs h]

/-- Substitute pixels from column 0 are those of the substitute line (R133). -/
theorem substitutePixels_zero (s : State) (n : Nat) :
    (⟨n, .substitute, substitutePixels s.format s.tracker.lineMemory 0, [s.store.cells]⟩ : HandedLine) =
      s.substituteLine n := by
  simp [State.substituteLine, substitutePixels, substitutePixel, Pixel.black]

/-- A line handed over as a substitute. -/
theorem State.handSubstitute_eq (s : State) (n : Nat) :
    s.handSubstitute n = s.setFramer { s.framer with handed := s.framer.handed ++ [s.substituteLine n] } := by
  simp only [State.handSubstitute, State.handLine, substitutePixels_zero]

/-- A run of substitute lines handed over. -/
theorem State.handSubstitutes_eq (s : State) (start count : Nat) :
    s.handSubstitutes start count =
      s.setFramer { s.framer with handed := s.framer.handed ++ s.substituteLines start count } := by
  induction count with
  | zero =>
    simp only [State.handSubstitutes, State.substituteLines, List.range_zero, List.map_nil, List.foldl_nil, List.append_nil]
    exact (State.setFramer_self s).symm
  | succ k ih =>
    have : s.handSubstitutes start (k + 1) = (s.handSubstitutes start k).handSubstitute (start + k) := by
      simp only [State.handSubstitutes, List.range_succ, List.foldl_append, List.foldl_cons, List.foldl_nil]
    rw [this, ih, State.handSubstitute_eq]
    simp only [State.substituteLines, List.range_succ, List.map_append, List.map_cons, List.map_nil,
      State.setFramer_framer, List.append_assoc]
    rfl

/-- The pixels of a forwarded line: those taken, then substitute pixels (R127). -/
theorem forwardedPixels (s : State) (pixels : List Pixel) :
    pixels.take s.format.width ++
        substitutePixels s.format s.tracker.lineMemory (pixels.take s.format.width).length =
      (List.range s.format.width).map (fun c =>
        pixels.getD c (if s.format.policy = 1 then s.tracker.lineMemory.getD c ⟨0, 0, 0⟩ else s.format.background)) := by
  apply List.ext_getElem
  · simp [substitutePixels]
  · intro i h1 h2
    simp only [List.length_map, List.length_range] at h2
    simp only [List.getElem_map, List.getElem_range]
    by_cases hi : i < pixels.length
    · rw [List.getElem_append_left (by simp; omega)]
      simp [List.getD_eq_getElem?_getD, hi]
    · rw [List.getElem_append_right (by simp; omega)]
      simp only [List.length_take, substitutePixels, List.getElem_map, List.getElem_range, substitutePixel, Pixel.black]
      have h3 : min s.format.width pixels.length + (i - min s.format.width pixels.length) = i := by omega
      rw [h3]
      simp [List.getD_eq_getElem?_getD, List.getElem?_eq_none (Nat.le_of_not_lt hi)]

/-- A fault found while RECEIVING: reported, and the frame faulty. -/
theorem State.faultInFrame_eq (s : State) (k : FaultKind) :
    s.faultInFrame k =
      (s.setTracker { s.tracker with frameFaulty := true }).setRtq (s.reported s.rtq .frameFault k.byte) := by
  simp only [State.faultInFrame, State.frameFault, State.raise_eq]
  rfl

/-- The stream lost from LOCKED in PASS mode with the frame in progress handed over whole (R147). -/
theorem State.loseStream_handed (s : State) (cause : LostCause) (f : OutputFrame) (h1 : s.tracker.state = .locked)
    (h2 : s.framer.mode = .pass) (h3 : s.framer.frame = some f) (h4 : s.frameHanded f) :
    s.loseStream cause =
      ((s.setTracker s.tracker.cleared).setFramer { s.framer with due := some .entry }).setRtq
        (s.reported s.rtq .streamLost cause.byte) := by
  have h5 : s.framer.allHanded f = true := by simpa [Framer.allHanded, State.frameHanded] using h4
  simp only [State.loseStream, h1, State.raise_eq, State.framerLosesLock, State.setRtq_framer, State.setTracker_framer,
    h2, h3, h5, if_true]
  rfl

/-- The stream lost from LOCKED in PASS mode with no frame in progress. -/
theorem State.loseStream_between (s : State) (cause : LostCause) (h1 : s.tracker.state = .locked)
    (h2 : s.framer.mode = .pass) (h3 : s.framer.frame = none) :
    s.loseStream cause =
      ((s.setTracker s.tracker.cleared).setFramer
        { s.framer with mode := .fallback, switchBack := false, due := some .entry }).setRtq
        (s.reported s.rtq .streamLost cause.byte) := by
  simp only [State.loseStream, h1, State.raise_eq, State.framerLosesLock, State.setRtq_framer, State.setTracker_framer,
    h2, h3, Framer.enterFallback]
  rfl

/-- The stream lost from LOCKED in PASS mode with lines of the frame in progress still missing: truncated (R148). -/
theorem State.loseStream_cut (s : State) (cause : LostCause) (f : OutputFrame) (h1 : s.tracker.state = .locked)
    (h2 : s.framer.mode = .pass) (h3 : s.framer.frame = some f) (h4 : ¬s.frameHanded f) :
    s.loseStream cause =
      (((s.setTracker s.tracker.cleared).setFramer
        { s.framer with
          mode := .fallback, switchBack := false, due := some .entry, frame := none, handed := []
          linkOut := s.framer.linkOut ++ [.frameEnd f.n f.lines true] }).setChecker
        { s.checker with plans := #v[none, none, none, none, none, none, none, none] }).setRtq
        (s.reported s.rtq .streamLost cause.byte) := by
  have h5 : ¬s.framer.allHanded f = true := by simpa [Framer.allHanded, State.frameHanded] using h4
  simp only [State.loseStream, h1, State.raise_eq, State.framerLosesLock, State.setRtq_framer, State.setTracker_framer,
    h2, h3, h5, State.truncate, Framer.truncate]
  rfl

/-- The stream lost from LOCKED in FALLBACK mode: the switch back is withdrawn. -/
theorem State.loseStream_fallback (s : State) (cause : LostCause) (h1 : s.tracker.state = .locked)
    (h2 : s.framer.mode = .fallback) :
    s.loseStream cause =
      ((s.setTracker s.tracker.cleared).setFramer
        { s.framer with
          switchBack := false, due := if s.framer.due = some .upstream then none else s.framer.due }).setRtq
        (s.reported s.rtq .streamLost cause.byte) := by
  simp only [State.loseStream, h1, State.raise_eq, State.framerLosesLock, State.setRtq_framer, State.setTracker_framer,
    h2]
  rfl

/-- On a settled part in FALLBACK mode no start of an upstream frame is due: it would be taken at once (R149). -/
theorem State.due_of_settled_fallback {s : State} (h : s.settled = true) (h2 : s.framer.mode = .fallback) :
    s.framer.due ≠ some .upstream := by
  intro e
  have h3 := ((State.settled_iff s).mp h).2.2
  unfold State.startNow at h3
  split at h3
  · rw [e] at h3
    cases h3
  · rw [if_pos ⟨e, h2⟩] at h3
    cases h3

end Sys2Proof.Machine
end

