-- ==== Sys2Proof/Laws/Starts.lean ====
section
/-! SUPPORT. The output frame start (R140), block by block: the channels' part of it, the resolution of the commit record, the geometry signal, and the state the whole leaves. -/

namespace Sys2Proof.Machine

/-! ## What the channels' part keeps of the table bank -/

/-- The end of a load changes table states alone. -/
theorem State.endLoad_bank (s : State) (ch : Channel) (st : ShadowState) (n : ChannelState) :
    (s.endLoad ch st n).bank.shadow = s.bank.shadow ∧ (s.endLoad ch st n).bank.active = s.bank.active ∧
      (s.endLoad ch st n).bank.record = s.bank.record := by
  simp only [State.endLoad, State.updateChannel_kept, State.setBank_bank, Bank.loadEnded]
  split <;> simp [Bank.setState]

/-- A channel timeout changes table states alone. -/
theorem State.timeOut_bank (s : State) (ch : Channel) :
    (s.timeOut ch).bank.shadow = s.bank.shadow ∧ (s.timeOut ch).bank.active = s.bank.active ∧
      (s.timeOut ch).bank.record = s.bank.record := by
  simp only [State.timeOut, State.raise_kept]
  exact s.endLoad_bank ch _ _

/-- A channel that takes a start changes table states alone. -/
theorem State.channelTakesStart_bank (s : State) (ch : Channel) :
    (s.channelTakesStart ch).bank.shadow = s.bank.shadow ∧ (s.channelTakesStart ch).bank.active = s.bank.active ∧
      (s.channelTakesStart ch).bank.record = s.bank.record := by
  simp only [State.channelTakesStart]
  split
  · simpa [State.raiseIdle] using (s.raiseIdle ch).timeOut_bank ch
  · simp [State.raiseIdle]

/-- Channels that take a start change table states alone. -/
theorem channelTakesStart_fold_bank (l : List Channel) (s : State) :
    (l.foldl State.channelTakesStart s).bank.shadow = s.bank.shadow ∧
      (l.foldl State.channelTakesStart s).bank.active = s.bank.active ∧
      (l.foldl State.channelTakesStart s).bank.record = s.bank.record := by
  induction l generalizing s with
  | nil => simp
  | cons ch rest ih =>
    have h1 := ih (s.channelTakesStart ch)
    have h2 := s.channelTakesStart_bank ch
    simp only [List.foldl_cons]
    exact ⟨h1.1.trans h2.1, h1.2.1.trans h2.2.1, h1.2.2.trans h2.2.2⟩

/-! ## Resolution -/

/-- A changed loss time changes the tracker's due expiry alone. -/
theorem State.checkLoss_tracker (s : State) :
    s.checkLoss.tracker = { s.tracker with expiryDue := s.checkLoss.tracker.expiryDue } := by
  unfold State.checkLoss
  split <;> rfl

/-- The resolution changes the tracker's due expiry alone. -/
theorem State.resolveCommit_tracker (s : State) :
    s.resolveCommit.tracker = { s.tracker with expiryDue := s.resolveCommit.tracker.expiryDue } := by
  unfold State.resolveCommit
  split
  · rfl
  · split
    · rename_i c _ _ _
      have key : ∀ u : State, u.tracker = s.tracker → (∃ e, u.checkLoss.tracker = { s.tracker with expiryDue := e }) := by
        intro u hu
        exact ⟨u.checkLoss.tracker.expiryDue, by rw [State.checkLoss_tracker, hu]⟩
      have e : ∃ e, (s.applyCommit c).tracker = { s.tracker with expiryDue := e } := by
        unfold State.applyCommit
        dsimp only
        by_cases h7 : c.mask.getLsbD 7 = true
        · rw [if_pos h7]
          split
          · exact key _ (by simp)
          · exact key _ (by simp)
        · rw [if_neg h7]
          refine ⟨s.tracker.expiryDue, ?_⟩
          split <;> simp
      obtain ⟨x, hx⟩ := e
      rw [hx]
    · simp [State.missCommit]
    · rfl

/-- The geometry signal takes the tracker to SEARCH (R46). -/
theorem State.signalGeometry_tracker (s : State) :
    s.signalGeometry.tracker = if s.tracker.state = .search then s.tracker else s.tracker.cleared := by
  unfold State.signalGeometry
  cases h : s.tracker.state <;> simp [Tracker.enterSearch, Tracker.cleared]

/-- The format rests on the active copies alone. -/
theorem State.format_congr {s t : State} (h : s.bank.active = t.bank.active) : s.format = t.format := by
  simp only [State.format, h]

/-! ## Channels at a start -/

/-- A channel of a vector after a set. -/
theorem getElem_set_channel {α : Type} (v : Vector α 4) (c k : Channel) (x : α) :
    (v.set c x)[k] = if k = c then x else v[k] := by
  by_cases h : k = c
  · subst h
    simp
  · have : (c : Nat) ≠ k := fun e => h (Fin.ext e.symm)
    simp [Vector.getElem_set_ne _ _ this, h]

/-- Each channel after an update of one. -/
theorem State.updateChannel_at (s : State) (ch k : Channel) (f : ChannelContext → ChannelContext) :
    (s.updateChannel ch f).channels[k] = if k = ch then f s.channels[ch] else s.channels[k] := by
  simp only [State.updateChannel, State.setChannels_channels]
  exact getElem_set_channel _ _ _ _

/-- The state of each table after the end of a load. -/
theorem State.endLoad_states (s : State) (ch : Channel) (st : ShadowState) (n : ChannelState) (u : TableId) :
    (s.endLoad ch st n).bank.states[u] =
      if Target.tableOf s.channels[ch].target = some u then st else s.bank.states[u] := by
  simp only [State.endLoad, State.updateChannel_kept, State.setBank_bank, Bank.loadEnded]
  have key : ∀ x : Option TableId,
      (match x with
        | some t => s.bank.setState t st
        | none => s.bank).states[u] = if x = some u then st else s.bank.states[u] := by
    rintro (_ | t)
    · simp
    · refine (getElem_set_table _ _ _ _).trans ?_
      simp only [Option.some.injEq, eq_comm]
  exact key _

/-- Each channel after the end of a load. -/
theorem State.endLoad_channels (s : State) (ch : Channel) (st : ShadowState) (n : ChannelState) (k : Channel) :
    (s.endLoad ch st n).channels[k] =
      if k = ch then { s.channels[k] with target := none, idleFrames := 0, state := n } else s.channels[k] := by
  simp only [State.endLoad, State.updateChannel_at, State.setBank_channels]
  split
  · rename_i h
    subst h
    rfl
  · rfl

/-- No channel's load names table u. -/
def State.unheld (s : State) (u : TableId) : Prop := ∀ ch : Channel, Target.tableOf s.channels[ch].target ≠ some u

/-- The end of a load leaves a table no channel holds as it was, and unheld. -/
theorem State.endLoad_unheld {s : State} {u : TableId} (h : s.unheld u) (ch : Channel) (st : ShadowState)
    (n : ChannelState) :
    (s.endLoad ch st n).bank.states[u] = s.bank.states[u] ∧ (s.endLoad ch st n).unheld u := by
  constructor
  · simp only [State.endLoad, State.updateChannel_kept, State.setBank_bank, Bank.loadEnded]
    have key : ∀ x : Option TableId, x ≠ some u →
        (match x with
          | some t => s.bank.setState t st
          | none => s.bank).states[u] = s.bank.states[u] := by
      rintro (_ | t) hx
      · rfl
      · have hne : u ≠ t := fun e => hx (by rw [e])
        exact (getElem_set_table _ _ _ _).trans (if_neg hne)
    exact key _ (h ch)
  · intro k
    simp only [State.endLoad, State.updateChannel_at, State.setBank_channels]
    split
    · simp [Target.tableOf]
    · exact h k

/-- Raising the idle frames of a channel keeps every target. -/
theorem State.raiseIdle_unheld {s : State} {u : TableId} (h : s.unheld u) (ch : Channel) : (s.raiseIdle ch).unheld u := by
  intro k
  simp only [State.raiseIdle, State.updateChannel_at]
  split
  · rename_i e
    subst e
    split
    · exact h k
    · exact h k
  · exact h k

/-- A channel that takes a start leaves a table no channel holds as it was, and unheld. -/
theorem State.channelTakesStart_unheld {s : State} {u : TableId} (h : s.unheld u) (ch : Channel) :
    (s.channelTakesStart ch).bank.states[u] = s.bank.states[u] ∧ (s.channelTakesStart ch).unheld u := by
  have h1 := State.raiseIdle_unheld h ch
  simp only [State.channelTakesStart]
  split
  · have h2 := State.endLoad_unheld h1 ch .partialLoad .idle
    simp only [State.timeOut, State.raise_kept]
    refine ⟨?_, ?_⟩
    · rw [h2.1]
      simp [State.raiseIdle]
    · intro k
      simpa [State.raise_kept] using h2.2 k
  · exact ⟨by simp [State.raiseIdle], h1⟩

/-- Channels that take a start leave a table no channel holds as it was, and unheld. -/
theorem channelTakesStart_fold_unheld (l : List Channel) {s : State} {u : TableId} (h : s.unheld u) :
    (l.foldl State.channelTakesStart s).bank.states[u] = s.bank.states[u] ∧
      (l.foldl State.channelTakesStart s).unheld u := by
  induction l generalizing s with
  | nil => exact ⟨rfl, h⟩
  | cons ch rest ih =>
    have h1 := State.channelTakesStart_unheld h ch
    have h2 := ih h1.2
    exact ⟨h2.1.trans h1.1, h2.2⟩

/-- A channel whose timeout comes as a step of its own: its idle frames rise in state OPEN, and at the channel timeout it
is listed as due (R95, R96). -/
theorem State.channelCountsStart_at (s : State) (ch k : Channel) :
    (s.channelCountsStart ch).channels[k] =
      (if k = ch ∧ s.channels[ch].state = .opened then
        { s.channels[ch] with idleFrames := s.channels[ch].idleFrames + 1 } else s.channels[k]) ∧
    (s.channelCountsStart ch).timeoutsDue =
      if s.channels[ch].state = .opened ∧ s.params.channelTimeout ≤ s.channels[ch].idleFrames + 1 then
        s.timeoutsDue ++ [ch] else s.timeoutsDue := by
  have hc : (s.raiseIdle ch).channels[k] =
      if k = ch ∧ s.channels[ch].state = .opened then
        { s.channels[ch] with idleFrames := s.channels[ch].idleFrames + 1 } else s.channels[k] := by
    simp only [State.raiseIdle, State.updateChannel_at]
    by_cases h1 : k = ch
    · subst h1
      by_cases h2 : s.channels[k].state = .opened
      · rw [if_pos rfl, if_pos h2, if_pos ⟨rfl, h2⟩]
      · rw [if_pos rfl, if_neg h2, if_neg (fun h => h2 h.2)]
    · rw [if_neg h1, if_neg (fun h => h1 h.1)]
  have ht : (s.raiseIdle ch).timeoutReached ch = true ↔
      s.channels[ch].state = .opened ∧ s.params.channelTimeout ≤ s.channels[ch].idleFrames + 1 := by
    simp only [State.timeoutReached, State.raiseIdle, State.updateChannel_self, State.updateChannel_kept]
    by_cases h2 : s.channels[ch].state = .opened
    · rw [if_pos h2, Bool.and_eq_true, beq_iff_eq, decide_eq_true_eq]
    · rw [if_neg h2, Bool.and_eq_true, beq_iff_eq, decide_eq_true_eq]
      exact ⟨fun h => absurd h.1 h2, fun h => absurd h.1 h2⟩
  by_cases h : (s.raiseIdle ch).timeoutReached ch = true
  · have e : s.channelCountsStart ch = (s.raiseIdle ch).setTimeoutsDue ((s.raiseIdle ch).timeoutsDue ++ [ch]) :=
      if_pos h
    simp only [e, if_pos (ht.mp h)]
    exact ⟨hc, rfl⟩
  · have e : s.channelCountsStart ch = s.raiseIdle ch := if_neg h
    simp only [e, if_neg (fun e => h (ht.mpr e))]
    exact ⟨hc, rfl⟩

/-- The channels that take a start one after another, their timeouts to come as steps of their own. -/
theorem channelCountsStart_fold_at (l : List Channel) (hl : l.Nodup) (s : State) :
    (∀ k : Channel, (l.foldl State.channelCountsStart s).channels[k] =
      if k ∈ l ∧ s.channels[k].state = .opened then
        { s.channels[k] with idleFrames := s.channels[k].idleFrames + 1 } else s.channels[k]) ∧
    (l.foldl State.channelCountsStart s).timeoutsDue =
      s.timeoutsDue ++ l.filter (fun k =>
        s.channels[k].state = .opened ∧ s.params.channelTimeout ≤ s.channels[k].idleFrames + 1) := by
  induction l generalizing s with
  | nil => simp
  | cons ch rest ih =>
    have hd := List.nodup_cons.mp hl
    have h1 := ih hd.2 (s.channelCountsStart ch)
    have at' : ∀ k : Channel, k ∈ rest → (s.channelCountsStart ch).channels[k] = s.channels[k] := by
      intro k hk
      rw [(s.channelCountsStart_at ch k).1, if_neg]
      exact fun h => hd.1 (h.1 ▸ hk)
    refine ⟨fun k => ?_, ?_⟩
    · rw [List.foldl_cons, h1.1 k]
      by_cases hk : k ∈ rest
      · rw [at' k hk]
        simp [hk]
      · rw [if_neg (fun h => hk h.1), (s.channelCountsStart_at ch k).1]
        by_cases e : k = ch
        · subst e
          simp
        · simp [e, hk]
    · rw [List.foldl_cons, h1.2, (s.channelCountsStart_at ch ch).2]
      have e : rest.filter (fun k => (s.channelCountsStart ch).channels[k].state = .opened ∧
            (s.channelCountsStart ch).params.channelTimeout ≤ (s.channelCountsStart ch).channels[k].idleFrames + 1) =
          rest.filter (fun k => s.channels[k].state = .opened ∧ s.params.channelTimeout ≤ s.channels[k].idleFrames + 1) := by
        apply List.filter_congr
        intro k hk
        rw [at' k hk]
        simp
      rw [e]
      by_cases h : s.channels[ch].state = .opened ∧ s.params.channelTimeout ≤ s.channels[ch].idleFrames + 1
      · rw [if_pos h, List.filter_cons_of_pos (by simpa using h)]
        simp
      · rw [if_neg h, List.filter_cons_of_neg (by simpa using h)]

/-- Every channel is among all channels. -/
theorem mem_allChannels : ∀ ch : Channel, ch ∈ allChannels := by decide

/-! ## The start as a whole -/

/-- A list with its later duplicates erased has none. -/
theorem nodup_eraseDups {α : Type} [DecidableEq α] (l : List α) : l.eraseDups.Nodup := by
  generalize h : l.length = n
  induction n using Nat.strongRecOn generalizing l with
  | _ n ih =>
    cases l with
    | nil => simp
    | cons a rest =>
      rw [List.eraseDups_cons, List.nodup_cons]
      refine ⟨by simp, ih _ ?_ _ rfl⟩
      have := List.length_filter_le (fun b => !b == a) rest
      rw [List.length_cons] at h
      omega

/-- A list without duplicates keeps all its members. -/
theorem eraseDups_of_nodup {α : Type} [DecidableEq α] (l : List α) (h : l.Nodup) : l.eraseDups = l := by
  induction l with
  | nil => rfl
  | cons a rest ih =>
    have hd := List.nodup_cons.mp h
    rw [List.eraseDups_cons, List.filter_eq_self.mpr, ih hd.2]
    intro b hb
    have : b ≠ a := fun e => hd.1 (e ▸ hb)
    simpa using this

/-- The context of a channel that has taken a start whole: timed out, or with its idle frames raised in state OPEN (R95,
R96). -/
def State.afterStart (s : State) (ch : Channel) : ChannelContext :=
  if s.timesOut ch then { s.channels[ch] with state := .idle, target := none, idleFrames := 0 }
  else if s.channels[ch].state = .opened then
    { s.channels[ch] with idleFrames := s.channels[ch].idleFrames + 1 }
  else s.channels[ch]

/-- A channel times out at a start exactly when its raised idle frames reach the channel timeout (R95, R96). -/
theorem State.timeoutReached_raiseIdle (s : State) (ch : Channel) :
    (s.raiseIdle ch).timeoutReached ch = s.timesOut ch := by
  simp only [State.timeoutReached, State.timesOut, State.raiseIdle, State.updateChannel_self, State.updateChannel_kept]
  by_cases h : s.channels[ch].state = .opened
  · simp only [if_pos h]
  · have e : (s.channels[ch].state == ChannelState.opened) = false := by simpa using h
    simp only [if_neg h, e, Bool.false_and]

/-- A channel that takes a start whole: its context, the table it held, and the event. -/
theorem State.channelTakesStart_at (s : State) (ch : Channel) :
    (∀ k : Channel, (s.channelTakesStart ch).channels[k] = if k = ch then s.afterStart ch else s.channels[k]) ∧
    (∀ u : TableId, (s.channelTakesStart ch).bank.states[u] =
      if s.timesOut ch = true ∧ Target.tableOf s.channels[ch].target = some u then .partialLoad else s.bank.states[u]) ∧
    (s.channelTakesStart ch).rtq =
      if s.timesOut ch then s.reported s.rtq .channelTimeout (channelByte ch) else s.rtq := by
  have hc : (s.raiseIdle ch).channels[ch] =
      if s.channels[ch].state = .opened then { s.channels[ch] with idleFrames := s.channels[ch].idleFrames + 1 }
      else s.channels[ch] := by
    simp only [State.raiseIdle, State.updateChannel_self]
  have hk : ∀ k : Channel, k ≠ ch → (s.raiseIdle ch).channels[k] = s.channels[k] := by
    intro k hk
    simp only [State.raiseIdle, State.updateChannel_at, if_neg hk]
  by_cases h : s.timesOut ch = true
  · have ho : s.channels[ch].state = .opened := by
      simp only [State.timesOut, Bool.and_eq_true, beq_iff_eq] at h
      exact h.1
    rw [if_pos ho] at hc
    have e : s.channelTakesStart ch = (s.raiseIdle ch).timeOut ch :=
      if_pos ((s.timeoutReached_raiseIdle ch).trans h)
    refine ⟨fun k => ?_, fun u => ?_, ?_⟩
    · simp only [e, State.timeOut, State.raise_kept, State.endLoad_channels]
      by_cases hkc : k = ch
      · subst hkc
        simp only [if_true, hc, State.afterStart, if_pos h]
      · simp only [if_neg hkc, hk k hkc]
    · simp only [e, State.timeOut, State.raise_kept, State.endLoad_states, hc, h, true_and]
      simp only [State.raiseIdle, State.updateChannel_kept]
    · rw [if_pos h, e, State.timeOut, State.raise_eq]
      simp only [State.reported, State.setRtq_rtq, State.endLoad_kept, State.raiseIdle_kept]
  · have e : s.channelTakesStart ch = s.raiseIdle ch :=
      if_neg (fun h' => h ((s.timeoutReached_raiseIdle ch).symm.trans h'))
    refine ⟨fun k => ?_, fun u => ?_, ?_⟩
    · rw [e]
      by_cases hkc : k = ch
      · subst hkc
        simp only [if_true, hc, State.afterStart, if_neg h]
      · simp only [if_neg hkc, hk k hkc]
    · rw [e, if_neg (fun h' => h h'.1)]
      simp only [State.raiseIdle, State.updateChannel_kept]
    · rw [e, if_neg h]
      simp only [State.raiseIdle_kept]

/-- Channels that take a start whole, one after another: their contexts, the tables they held, and their events. -/
theorem channelTakesStart_fold_at (l : List Channel) (hl : l.Nodup) (s : State) :
    (∀ k : Channel, (l.foldl State.channelTakesStart s).channels[k] =
      if k ∈ l then s.afterStart k else s.channels[k]) ∧
    (∀ u : TableId, (l.foldl State.channelTakesStart s).bank.states[u] =
      if ∃ k ∈ l, s.timesOut k = true ∧ Target.tableOf s.channels[k].target = some u then .partialLoad
      else s.bank.states[u]) ∧
    (l.foldl State.channelTakesStart s).rtq =
      (l.filter s.timesOut).foldl (fun q ch => s.reported q .channelTimeout (channelByte ch)) s.rtq := by
  induction l generalizing s with
  | nil => simp
  | cons ch rest ih =>
    have hd := List.nodup_cons.mp hl
    have h1 := ih hd.2 (s.channelTakesStart ch)
    have h2 := s.channelTakesStart_at ch
    have at' : ∀ k : Channel, k ∈ rest → (s.channelTakesStart ch).channels[k] = s.channels[k] := by
      intro k hk
      rw [h2.1 k, if_neg]
      exact fun h => hd.1 (h ▸ hk)
    have out : ∀ k : Channel, k ∈ rest → (s.channelTakesStart ch).timesOut k = s.timesOut k := by
      intro k hk
      simp only [State.timesOut, at' k hk, State.channelTakesStart_kept]
    simp only [List.foldl_cons]
    refine ⟨fun k => ?_, fun u => ?_, ?_⟩
    · rw [h1.1 k]
      by_cases hk : k ∈ rest
      · rw [if_pos hk, if_pos (List.mem_cons_of_mem _ hk)]
        simp only [State.afterStart, at' k hk, out k hk]
      · rw [if_neg hk, h2.1 k]
        by_cases e : k = ch
        · subst e
          simp
        · simp [e, hk]
    · have e : (∃ k ∈ rest, (s.channelTakesStart ch).timesOut k = true ∧
            Target.tableOf (s.channelTakesStart ch).channels[k].target = some u) ↔
          ∃ k ∈ rest, s.timesOut k = true ∧ Target.tableOf s.channels[k].target = some u := by
        refine exists_congr (fun k => and_congr_right (fun hk => ?_))
        rw [out k hk, at' k hk]
      rw [h1.2.1 u, h2.2.1 u]
      by_cases hr : ∃ k ∈ rest, s.timesOut k = true ∧ Target.tableOf s.channels[k].target = some u
      · rw [if_pos (e.mpr hr), if_pos]
        obtain ⟨k, hk, h⟩ := hr
        exact ⟨k, List.mem_cons_of_mem _ hk, h⟩
      · rw [if_neg (fun h => hr (e.mp h))]
        by_cases hc : s.timesOut ch = true ∧ Target.tableOf s.channels[ch].target = some u
        · rw [if_pos hc, if_pos ⟨ch, List.mem_cons_self, hc⟩]
        · rw [if_neg hc, if_neg]
          rintro ⟨k, hk, h⟩
          rcases List.mem_cons.mp hk with rfl | hk
          · exact hc h
          · exact hr ⟨k, hk, h⟩
    · rw [h1.2.2, h2.2.2]
      have e : rest.filter (s.channelTakesStart ch).timesOut = rest.filter s.timesOut :=
        List.filter_congr (fun k hk => out k hk)
      rw [e]
      have e2 : ∀ q ch', (s.channelTakesStart ch).reported q .channelTimeout (channelByte ch') =
          s.reported q .channelTimeout (channelByte ch') := by
        intro q ch'
        simp only [State.reported, State.channelTakesStart_kept]
      simp only [e2]
      by_cases h : s.timesOut ch = true
      · rw [if_pos h, List.filter_cons_of_pos h, List.foldl_cons]
      · rw [if_neg h, List.filter_cons_of_neg h]

/-- The fallback frame that the start of an upstream frame truncates (R148, R149). -/
def Framer.cut (o : Framer) : List LinkPacket :=
  match o.frame with
  | some f => [.frameEnd f.n f.lines true]
  | none => []

/-- F of the frame that starts (R141). -/
def Framer.nextF (o : Framer) : Word := if o.firstFrame then o.f else o.f + 1

/-- N of the frame that starts (R142). -/
def State.nextN (s : State) (cause : StartCause) : Half :=
  if s.framer.firstFrame then 0 else if cause = .upstream then s.tracker.upstreamN else s.framer.n + 1

/-- The switch back before a start that can be taken (R148, R149): numbers and first-frame flag are kept. -/
theorem State.switchBefore_framer {s : State} {cause : StartCause} (hn : s.startNow = some cause) :
    (s.switchBefore cause).framer.firstFrame = s.framer.firstFrame ∧ (s.switchBefore cause).framer.f = s.framer.f ∧
      (s.switchBefore cause).framer.n = s.framer.n ∧
      (s.switchBefore cause).framer.linkOut = s.framer.linkOut ++ s.framer.cut ∧
      (s.switchBefore cause).framer.switchBack =
        (s.framer.switchBack && !(cause == .upstream && s.framer.mode == .fallback)) ∧
      (s.switchBefore cause).tracker = s.tracker := by
  rcases hf : s.framer.frame with _ | f
  · rcases hm : s.framer.mode with _ | _ <;> cases cause <;>
      simp [State.switchBefore, State.switchToPass, State.truncate, Framer.cut, hf, hm]
  · have hc : s.framer.due = some .upstream ∧ s.framer.mode = .fallback ∧ cause = .upstream := by
      simp only [State.startNow, hf] at hn
      split at hn
      · rename_i h
        exact ⟨h.1, h.2, (Option.some.inj hn).symm⟩
      · cases hn
    obtain ⟨_, hm, rfl⟩ := hc
    simp [State.switchBefore, State.switchToPass, State.truncate, Framer.truncate, Framer.emit, Framer.cut, hf, hm]

/-- The numbers of a frame (R141, R142). -/
theorem State.setNumbers_framer (s : State) (cause : StartCause) :
    (s.setNumbers cause).framer =
      { s.framer with f := s.framer.nextF, n := s.nextN cause, firstFrame := false, due := dueBehind cause } := by
  cases cause <;> rfl

/-- The framer after a start that can be taken (R140 to R142, R145, R149, R150). -/
theorem State.beginFrame_framer {s u : State} {cause : StartCause} (hn : s.startNow = some cause)
    (hu : u.framer = ((s.switchBefore cause).setNumbers cause).framer) (type : FrameType) (g : Bool) :
    (u.beginFrame type g).framer =
      { s.framer with
        mode := type, firstFrame := false, f := s.framer.nextF, n := s.nextN cause
        frame := some ⟨type, s.nextN cause, s.framer.nextF, u.format.height, 0⟩
        due := if g then none else dueBehind cause
        timer := if type = .fallback then some ⟨0, u.format.period⟩ else none
        switchBack := s.framer.switchBack && !g && !(cause == .upstream && s.framer.mode == .fallback)
        handed := [], building := [u.store.cells]
        linkOut := s.framer.linkOut ++ s.framer.cut ++ [.frameStart (s.nextN cause)] } := by
  obtain ⟨h1, h2, h3, h4, h5, h6⟩ := State.switchBefore_framer hn
  have e1 : (s.switchBefore cause).framer.nextF = s.framer.nextF := by simp only [Framer.nextF, h1, h2]
  have e2 : (s.switchBefore cause).nextN cause = s.nextN cause := by simp only [State.nextN, h1, h3, h6]
  simp only [State.beginFrame, State.setChecker_framer, State.setPlan_framer, State.setFramer_framer, Framer.emit, hu,
    State.setNumbers_framer, e1, e2, h4, h5, Bool.and_right_comm]

/-! ## The resolution's queue, checks and loss time -/

/-- The record's commit applies at the start of frame N (R42). -/
def Commit.applies (c : Commit) (n : Half) : Bool := c.timing == .next || c.timing == .atFrame n

/-- The record's commit is missed at the start of frame N (R42). -/
def Commit.missedAt (c : Commit) (n : Half) : Bool :=
  match c.timing with
  | .next => false
  | .atFrame target => decide (32768 ≤ (target - n).toNat)

/-- The resolution of a commit by what applies and what is missed. -/
theorem resolution_eq (c : Commit) (n : Half) :
    resolution c.timing n = if c.applies n then .applied else if c.missedAt n then .missed else .kept := by
  unfold resolution Commit.applies Commit.missedAt
  cases h : c.timing with
  | next => simp
  | atFrame target =>
    have e : (target - n = 0) ↔ target = n := by
      constructor
      · intro h
        have := BitVec.sub_eq_iff_eq_add.mp h
        simpa using this
      · rintro rfl
        simp
    by_cases h1 : target = n
    · simp [h1]
    · have h2 : ¬target - n = 0 := fun h => h1 (e.mp h)
      have h3 : (Timing.atFrame target == Timing.atFrame n) = false := by simpa using h1
      have h4 : (Timing.atFrame target == Timing.next) = false := rfl
      simp only [if_neg h2, h3, h4, Bool.or_false, Bool.false_eq_true, if_false, decide_eq_true_eq]

/-- The loss time rests on loss timer, parameters and format alone (R122). -/
theorem State.lossTimeUp_congr {s t : State} (h1 : t.tracker.lossTimer = s.tracker.lossTimer) (h2 : t.params = s.params)
    (h3 : t.bank.active = s.bank.active) : t.lossTimeUp = s.lossTimeUp := by
  have e : t.lossTicks = s.lossTicks := by simp only [State.lossTicks, State.format, h2, h3]
  simp only [State.lossTimeUp, h1, e]

/-- A changed loss time: the expiry is due when the elapsed time has reached it (R122). -/
theorem State.checkLoss_eq (s : State) :
    s.checkLoss = s.setTracker { s.tracker with expiryDue := s.tracker.expiryDue || s.lossTimeUp } := by
  unfold State.checkLoss
  by_cases h : s.lossTimeUp = true
  · simp only [h, if_true, Bool.or_true]
  · simp only [h, Bool.or_false]
    exact (State.setTracker_self s).symm

/-- What an applied commit does to queue, checks and tracker (R44, R48, R122, R165). -/
theorem State.applyCommit_effect (s : State) (c : Commit) :
    (s.applyCommit c).rtq = s.reported s.rtq .committed c.tag ∧
    (s.applyCommit c).checker =
      (if c.mask.getLsbD 6 then s.checker.runtimeReset (s.applyCommit c).bank.active else s.checker) ∧
    (s.applyCommit c).tracker =
      { s.tracker with
        expiryDue := s.tracker.expiryDue || (c.mask.getLsbD 7 && (s.applyCommit c).lossTimeUp) } := by
  have e7 : c.mask.getLsbD 7 = true → (s.applyCommit c).lossTimeUp =
      (((s.setBank { (s.bank.activate (maskTables c.mask)).setStates (maskTables c.mask) .clean with
        record := none }).raise .committed c.tag)).lossTimeUp := by
    intro h
    refine State.lossTimeUp_congr ?_ ?_ ?_ <;>
      · simp only [State.applyCommit, State.checkLoss_eq]
        repeat' split
        all_goals simp
  refine ⟨?_, ?_, ?_⟩
  · simp only [State.applyCommit, State.checkLoss_eq, State.raise_eq]
    repeat' split
    all_goals simp [State.reported]
  · simp only [State.applyCommit, State.checkLoss_eq]
    repeat' split
    all_goals simp
  · by_cases h : c.mask.getLsbD 7 = true
    · rw [e7 h, h, Bool.true_and]
      simp only [State.applyCommit, State.checkLoss_eq, if_pos h]
      repeat' split
      all_goals simp
    · simp only [h, Bool.false_and, Bool.or_false]
      simp only [State.applyCommit, State.checkLoss_eq, if_neg h]
      repeat' split
      all_goals simp

/-- What the resolution does to queue, checks and tracker (R44, R45, R48, R122, R165). -/
theorem State.resolveCommit_effect (s : State) :
    s.resolveCommit.rtq =
      (match s.bank.record with
       | none => s.rtq
       | some c =>
         if c.applies s.framer.n then s.reported s.rtq .committed c.tag
         else if c.missedAt s.framer.n then s.reported s.rtq .commitMissed c.tag else s.rtq) ∧
    s.resolveCommit.checker =
      (if s.bank.record.any (fun c => c.applies s.framer.n && c.mask.getLsbD 6) then
        s.checker.runtimeReset s.resolveCommit.bank.active else s.checker) ∧
    s.resolveCommit.tracker =
      { s.tracker with
        expiryDue := s.tracker.expiryDue ||
          (s.bank.record.any (fun c => c.applies s.framer.n && c.mask.getLsbD 7) && s.resolveCommit.lossTimeUp) } := by
  rcases hr : s.bank.record with _ | c
  · have e : s.resolveCommit = s := by simp only [State.resolveCommit, hr]
    simp [e]
  · have e : s.resolveCommit =
        if c.applies s.framer.n then s.applyCommit c else if c.missedAt s.framer.n then s.missCommit c else s := by
      simp only [State.resolveCommit, hr, resolution_eq]
      by_cases ha : c.applies s.framer.n = true
      · simp [ha]
      · by_cases hm : c.missedAt s.framer.n = true <;> simp [ha, hm]
    by_cases ha : c.applies s.framer.n = true
    · rw [e, if_pos ha]
      have h := s.applyCommit_effect c
      simp only [ha, if_true, Option.any_some, Bool.true_and]
      exact h
    · simp only [e, ha, Option.any_some, Bool.false_and, if_false, Bool.or_false, Bool.false_eq_true]
      by_cases hm : c.missedAt s.framer.n = true
      · simp only [hm, if_true, State.missCommit, State.raise_eq, State.setRtq_rtq, State.setRtq_checker,
          State.setBank_checker, State.setRtq_tracker, State.setBank_tracker]
        exact ⟨rfl, trivial, trivial⟩
      · simp only [hm, Bool.false_eq_true, if_false, and_self]

/-- What the resolution leaves in the table bank (R44, R45). -/
theorem State.resolveCommit_bank (s : State) :
    s.resolveCommit.bank =
      match s.bank.record with
      | none => s.bank
      | some c =>
        if c.applies s.framer.n then
          { (s.bank.activate (maskTables c.mask)).setStates (maskTables c.mask) .clean with record := none }
        else if c.missedAt s.framer.n then { s.bank.setStates (maskTables c.mask) .loaded with record := none }
        else s.bank := by
  rcases hr : s.bank.record with _ | c
  · simp only [State.resolveCommit, hr]
  · simp only [State.resolveCommit, hr, resolution_eq]
    by_cases ha : c.applies s.framer.n = true
    · simp only [if_pos ha, State.applyCommit, State.checkLoss_eq]
      repeat' split
      all_goals simp
    · by_cases hm : c.missedAt s.framer.n = true <;> simp [ha, hm, State.missCommit]

/-- The resolution rests on the table bank and N alone: two states that differ in other things, and in states of tables,
are left with the same copies and record. -/
theorem State.resolveCommit_bank_congr {s t : State} (h1 : t.bank.shadow = s.bank.shadow)
    (h2 : t.bank.active = s.bank.active) (h3 : t.bank.record = s.bank.record) (h4 : t.framer.n = s.framer.n) :
    t.resolveCommit.bank.shadow = s.resolveCommit.bank.shadow ∧
      t.resolveCommit.bank.active = s.resolveCommit.bank.active ∧
      t.resolveCommit.bank.record = s.resolveCommit.bank.record ∧
      ∀ u : TableId, t.bank.states[u] = s.bank.states[u] →
        t.resolveCommit.bank.states[u] = s.resolveCommit.bank.states[u] := by
  rw [State.resolveCommit_bank, State.resolveCommit_bank, h3, h4]
  rcases s.bank.record with _ | c
  · exact ⟨h1, h2, h3, fun _ h => h⟩
  · dsimp only
    by_cases ha : c.applies s.framer.n = true
    · simp only [if_pos ha, Bank.setStates_kept, Bank.setStates_states, Bank.activate, h1, h2, true_and]
      intro u h
      split
      · rfl
      · exact h
    · by_cases hm : c.missedAt s.framer.n = true
      · simp only [if_neg ha, if_pos hm, Bank.setStates_kept, Bank.setStates_states, h1, h2, true_and]
        intro u h
        split
        · rfl
        · exact h
      · simp only [if_neg ha, if_neg hm]
        exact ⟨h1, h2, h3, fun _ h => h⟩

/-- An event reported rests on event mask and N alone. -/
theorem State.reported_congr {s t : State} (h1 : t.params = s.params) (h2 : t.framer.n = s.framer.n) (q : Rtq)
    (kind : EventKind) (arg : Byte) : t.reported q kind arg = s.reported q kind arg := by
  simp only [State.reported, h1, h2]

/-! ## The checks at a start -/

/-- A runtime reset (R165): every record at its enable's status and otherwise zero, FAULT released, the plans kept. -/
theorem Checker.runtimeReset_at (c : Checker) (active : Vector Memory 8) :
    (∀ k : Fin 8, (c.runtimeReset active).records[k] =
      ⟨if (checkConfig active k.val).enable then .learning else .off, 0, false, false, 0, 0, 0⟩) ∧
    (c.runtimeReset active).pin = false ∧ (c.runtimeReset active).plans = c.plans := by
  have none : ∀ b, (resetRecord b).failing = false := by decide
  refine ⟨fun k => ?_, ?_, ?_⟩
  · simp only [Checker.runtimeReset, Checker.followPin]
    split <;> fin_cases k <;> rfl
  · have h : ∀ d : Checker, anyFailing d.records = false → d.followPin.pin = false := by
      intro d h
      unfold Checker.followPin
      dsimp only
      split
      · rename_i e
        rw [← e, h]
      · exact h
    exact h _ (by simp [anyFailing, none])
  · simp only [Checker.runtimeReset, Checker.followPin]
    split <;> rfl

/-- The plans of a frame (R156): check by check, records and pin kept. -/
theorem Checker.formPlan_at (c : Checker) (active : Vector Memory 8) (f : Word) (w h : Nat) :
    (∀ k : Fin 8, (c.formPlan active f w h).plans[k] = planCheck active c.records[k].status k.val f w h) ∧
    (c.formPlan active f w h).records = c.records ∧ (c.formPlan active f w h).pin = c.pin := by
  refine ⟨fun k => ?_, rfl, rfl⟩
  fin_cases k <;> rfl

/-! ## The start, block by block -/

/-- The channels that take a start before the table bank, each once. -/
def startFirst (first : List Channel) : List Channel := first.eraseDups

/-- The channels that take a start between table bank and tracker, each once. -/
def startMid (first mid : List Channel) : List Channel :=
  (mid.filter (fun c => !(startFirst first).contains c)).eraseDups

/-- The channels that take a start after them. -/
def startRest (first mid : List Channel) : List Channel :=
  allChannels.filter (fun c => !(startFirst first).contains c && !(startMid first mid).contains c)

/-- The events of channel timeouts within a start (R96). -/
def State.timeoutEvents (s : State) (chs : List Channel) (q : Rtq) : Rtq :=
  (chs.filter s.timesOut).foldl (fun q ch => s.reported q .channelTimeout (channelByte ch)) q

/-- The event of the record's resolution (R44, R45). -/
def State.resolutionEvent (s : State) (q : Rtq) : Rtq :=
  match s.bank.record with
  | none => q
  | some c =>
    if c.applies s.framer.n then s.reported q .committed c.tag
    else if c.missedAt s.framer.n then s.reported q .commitMissed c.tag else q

/-- The state in which the frame of a start begins: the numbers set, the start taken by channels, table bank and tracker.
`v` is the state with the new numbers. -/
theorem State.takeStart_eq (s : State) (cause : StartCause) (first mid : List Channel) :
    ∃ (u : State) (g : Bool), s.takeStart cause first mid = u.beginFrame (startType cause g) g ∧
      let v := (s.switchBefore cause).setNumbers cause
      let out := fun ch => v.timesOut ch && ((startFirst first).contains ch || (startMid first mid).contains ch)
      g = geometryChanged v u ∧ u.framer = v.framer ∧ u.store = v.store ∧ u.params = v.params ∧ u.power = v.power ∧
      u.pending = v.pending ∧
      u.tracker =
        (if g = true ∧ v.tracker.state ≠ .search then v.tracker.cleared
         else
          { v.tracker with
            expiryDue := v.tracker.expiryDue ||
              (v.bank.record.any (fun c => c.applies v.framer.n && c.mask.getLsbD 7) && u.lossTimeUp) }) ∧
      u.checker =
        (if v.bank.record.any (fun c => c.applies v.framer.n && c.mask.getLsbD 6) then
          v.checker.runtimeReset u.bank.active else v.checker) ∧
      u.rtq =
        (let q := v.timeoutEvents (startMid first mid)
          (v.resolutionEvent (v.timeoutEvents (startFirst first) v.rtq))
         if g = true ∧ v.tracker.state = .locked then v.reported q .streamLost 2 else q) ∧
      (∀ ch : Channel, u.channels[ch] =
        if out ch = true then { v.channels[ch] with state := .idle, target := none, idleFrames := 0 }
        else if v.channels[ch].state = .opened then
          { v.channels[ch] with idleFrames := v.channels[ch].idleFrames + 1 }
        else v.channels[ch]) ∧
      u.timeoutsDue = v.timeoutsDue ++ (startRest first mid).filter v.timesOut ∧
      u.bank.shadow = v.resolveCommit.bank.shadow ∧ u.bank.active = v.resolveCommit.bank.active ∧
      u.bank.record = v.resolveCommit.bank.record ∧
      (∀ k : TableId, v.unheld k → u.bank.states[k] = v.resolveCommit.bank.states[k]) ∧
      ∀ k : TableId, (∀ c, v.bank.record = some c → c.mask.getLsbD k.val = false) →
        u.bank.states[k] =
          if ∃ ch : Channel, out ch = true ∧ Target.tableOf v.channels[ch].target = some k then .partialLoad
          else v.bank.states[k] := by
  generalize hv : (s.switchBefore cause).setNumbers cause = v
  generalize hs1 : (startFirst first).foldl State.channelTakesStart v = s1
  generalize hs2 : s1.resolveCommit = s2
  generalize hs3 : (startMid first mid).foldl State.channelTakesStart s2 = s3
  generalize hg : geometryChanged s1 s2 = g
  generalize hs4 : (if g = true then s3.signalGeometry else s3) = s4
  generalize hs5 : (startRest first mid).foldl State.channelCountsStart s4 = s5
  refine ⟨s5, g, ?_, ?_⟩
  · simp only [State.takeStart, hv]
    rw [show first.eraseDups = startFirst first from rfl]
    rw [show (mid.filter (fun c => !(startFirst first).contains c)).eraseDups = startMid first mid from rfl]
    rw [show allChannels.filter (fun c => !(startFirst first).contains c && !(startMid first mid).contains c) =
      startRest first mid from rfl]
    rw [hs1, hs2, hg, hs3, hs4, hs5]
  · have b1 := channelTakesStart_fold_bank (startFirst first) v
    have b3 := channelTakesStart_fold_bank (startMid first mid) s2
    have k1 := channelTakesStart_fold_kept (startFirst first) v
    have k3 := channelTakesStart_fold_kept (startMid first mid) s2
    have k2 := s1.resolveCommit_kept
    have k5 := channelCountsStart_fold_kept (startRest first mid) s4
    have a1 := channelTakesStart_fold_at (startFirst first) (nodup_eraseDups _) v
    have a3 := channelTakesStart_fold_at (startMid first mid) (nodup_eraseDups _) s2
    have a5 := channelCountsStart_fold_at (startRest first mid) (List.Nodup.filter _ (by decide)) s4
    rw [hs1] at b1 k1 a1
    rw [hs3] at b3 k3 a3
    rw [hs5] at k5 a5
    rw [hs2] at k2
    have r := s1.resolveCommit_effect
    rw [hs2] at r
    have k4 : s4.framer = s3.framer ∧ s4.store = s3.store ∧ s4.params = s3.params ∧ s4.power = s3.power ∧
        s4.pending = s3.pending ∧ s4.bank = s3.bank ∧ s4.checker = s3.checker ∧ s4.channels = s3.channels ∧
        s4.timeoutsDue = s3.timeoutsDue := by
      rw [← hs4]
      split <;> simp
    have out2 : ∀ ch : Channel, ch ∉ startFirst first → s2.channels[ch] = v.channels[ch] := by
      intro ch h
      simp only [k2]
      rw [a1.1 ch, if_neg h]
    have disj : ∀ ch : Channel, ch ∈ startMid first mid → ch ∉ startFirst first := by
      intro ch h
      simpa using (List.mem_filter.mp (List.mem_eraseDups.mp h)).2
    have to2 : ∀ ch : Channel, ch ∉ startFirst first → s2.timesOut ch = v.timesOut ch := by
      intro ch h
      simp only [State.timesOut, out2 ch h, k2.2.2.1, k1.2.2.2.1]
    have rc : s2.bank.shadow = v.resolveCommit.bank.shadow ∧ s2.bank.active = v.resolveCommit.bank.active ∧
        s2.bank.record = v.resolveCommit.bank.record ∧
        ∀ u : TableId, s1.bank.states[u] = v.bank.states[u] →
          s2.bank.states[u] = v.resolveCommit.bank.states[u] := by
      rw [← hs2]
      exact State.resolveCommit_bank_congr b1.1 b1.2.1 b1.2.2 (by rw [k1.2.2.2.2.2.2.1])
    have b5 : s5.bank = s3.bank := by rw [k5.2.2.2.2.1, k4.2.2.2.2.2.1]
    have n1 : s1.framer.n = v.framer.n := by rw [k1.2.2.2.2.2.2.1]
    have n2 : s2.framer.n = v.framer.n := by rw [k2.2.2.2.2.2.2.1, n1]
    have p1 : s1.params = v.params := k1.2.2.2.1
    have p2 : s2.params = v.params := by rw [k2.2.2.1, p1]
    have tr3 : s3.tracker = s2.tracker := k3.2.2.1
    have st2 : s2.tracker.state = v.tracker.state := by rw [r.2.2, k1.2.2.1]
    have cl2 : s2.tracker.cleared = v.tracker.cleared := by rw [r.2.2, k1.2.2.1]; rfl
    have lt5 : s5.tracker.lossTimer = s2.tracker.lossTimer → s5.lossTimeUp = s2.lossTimeUp := by
      intro h
      refine State.lossTimeUp_congr h ?_ (by rw [b5, b3.2.1])
      rw [k5.2.2.2.1, k4.2.2.1, k3.2.2.2.1]
    have tr5 : s5.tracker = if g = true ∧ v.tracker.state ≠ .search then v.tracker.cleared else s2.tracker := by
      rw [k5.2.2.1, ← hs4]
      by_cases hg' : g = true
      · simp only [hg', if_true, State.signalGeometry_tracker, tr3, st2, cl2, true_and, ite_not]
      · rw [if_neg hg', if_neg (fun h => hg' h.1), tr3]
    have q3 : s3.rtq = v.timeoutEvents (startMid first mid) (v.resolutionEvent (v.timeoutEvents (startFirst first) v.rtq)) := by
      have ef : (startMid first mid).filter s2.timesOut = (startMid first mid).filter v.timesOut :=
        List.filter_congr (fun ch h => to2 ch (disj ch h))
      simp only [a3.2.2, ef, r.1, a1.2.2, b1.2.2, n1, State.reported_congr p2 n2, State.reported_congr p1 n1]
      rfl
    have ch3 : ∀ ch : Channel, s3.channels[ch] =
        if ch ∈ startFirst first ∨ ch ∈ startMid first mid then v.afterStart ch else v.channels[ch] := by
      intro ch
      rw [a3.1 ch]
      by_cases h1 : ch ∈ startMid first mid
      · have h2 := disj ch h1
        simp only [h1, if_true, or_true, State.afterStart, out2 ch h2, to2 ch h2]
      · by_cases h2 : ch ∈ startFirst first
        · simp only [h1, h2, if_true, if_false, true_or, k2, a1.1 ch]
        · simp only [h1, h2, if_false, or_self, out2 ch h2]
    dsimp only
    refine ⟨?_, ?_, ?_, ?_, ?_, ?_, ?_, ?_, ?_, ?_, ?_, ?_, ?_, ?_, ?_, ?_⟩
    · rw [← hg]
      simp only [geometryChanged, State.format, b1.2.1, b5, b3.2.1]
    · rw [k5.2.2.2.2.2.2.1, k4.1, k3.2.2.2.2.2.2.1, k2.2.2.2.2.2.2.1, k1.2.2.2.2.2.2.1]
    · rw [k5.2.2.2.2.2.1, k4.2.1, k3.2.2.2.2.2.1, k2.2.2.2.2.2.1, k1.2.2.2.2.2.1]
    · rw [k5.2.2.2.1, k4.2.2.1, k3.2.2.2.1, p2]
    · rw [k5.2.1, k4.2.2.2.1, k3.2.1, k2.2.1, k1.2.1]
    · rw [k5.1, k4.2.2.2.2.1, k3.1, k2.1, k1.1]
    · rw [tr5]
      by_cases h : g = true ∧ v.tracker.state ≠ .search
      · rw [if_pos h, if_pos h]
      · rw [if_neg h, if_neg h]
        rw [tr5, if_neg h] at lt5
        rw [lt5 rfl, r.2.2, k1.2.2.1, b1.2.2, n1]
    · rw [k5.2.2.2.2.2.2.2.2.1, k4.2.2.2.2.2.2.1, k3.2.2.2.2.2.2.2.2.1, r.2.1, b1.2.2, n1, b5, b3.2.1,
        k1.2.2.2.2.2.2.2.2.1]
    · rw [k5.2.2.2.2.2.2.2.2.2.1, ← hs4]
      by_cases hg' : g = true
      · simp only [hg', if_true, true_and]
        unfold State.signalGeometry
        rw [tr3, st2]
        rcases v.tracker.state with _ | _ | _
        · simp [q3]
        · simp [q3]
        · simp only [State.raise_eq, State.setRtq_rtq, State.setTracker_rtq, q3, if_true]
          exact State.reported_congr (by rw [State.setTracker_params, k3.2.2.2.1, p2])
            (by rw [State.setTracker_framer, k3.2.2.2.2.2.2.1, n2]) _ _ _
      · rw [if_neg hg', if_neg (fun h => hg' h.1), q3]
    · intro ch
      have hch : s5.channels[ch] = if ch ∈ startRest first mid ∧ s3.channels[ch].state = .opened then
          { s3.channels[ch] with idleFrames := s3.channels[ch].idleFrames + 1 } else s3.channels[ch] := by
        rw [a5.1 ch, k4.2.2.2.2.2.2.2.1]
      rw [hch, ch3 ch]
      by_cases hm : ch ∈ startFirst first ∨ ch ∈ startMid first mid
      · have hr : ch ∉ startRest first mid := by
          intro h
          have := (List.mem_filter.mp h).2
          rcases hm with h | h <;> simp [h] at this
        have hb : ((startFirst first).contains ch || (startMid first mid).contains ch) = true := by simpa using hm
        simp only [hb, Bool.and_true, if_neg (fun h => hr (And.left h)), if_pos hm]
        rfl
      · have hr : ch ∈ startRest first mid := by
          refine List.mem_filter.mpr ⟨mem_allChannels ch, ?_⟩
          simpa using hm
        have hb : ((startFirst first).contains ch || (startMid first mid).contains ch) = false := by
          simpa using hm
        simp only [hr, if_neg hm, hb, Bool.and_false, true_and, Bool.false_eq_true, if_false]
    · rw [a5.2, k4.2.2.2.2.2.2.2.2, k3.2.2.2.2.1, k2.2.2.2.2.1, k1.2.2.2.2.1]
      congr 1
      refine List.filter_congr (fun ch h => ?_)
      have h' : ¬(ch ∈ startFirst first ∨ ch ∈ startMid first mid) := by
        have := (List.mem_filter.mp h).2
        simpa using this
      rw [k4.2.2.2.2.2.2.2.1, k4.2.2.1, ch3 ch, if_neg h', k3.2.2.2.1, p2]
      simp only [State.timesOut, Bool.decide_and]
      rfl
    · rw [b5, b3.1, rc.1]
    · rw [b5, b3.2.1, rc.2.1]
    · rw [b5, b3.2.2, rc.2.2.1]
    · intro k hk
      rw [b5, a3.2.1 k, if_neg, rc.2.2.2 k]
      · rw [a1.2.1 k, if_neg]
        rintro ⟨ch, _, _, h⟩
        exact hk ch h
      · rintro ⟨ch, hm, _, h⟩
        rw [out2 ch (disj ch hm)] at h
        exact hk ch h
    · intro k hk
      have e2 : s2.bank.states[k] = s1.bank.states[k] := by
        rw [← hs2, State.resolveCommit_bank, b1.2.2]
        rcases hr : v.bank.record with _ | c
        · rfl
        · have hn : k ∉ maskTables c.mask := by
            rw [mem_maskTables, hk c hr]
            decide
          dsimp only
          split
          · simp only [Bank.setStates_states, if_neg hn, Bank.activate_kept]
          · split
            · simp only [Bank.setStates_states, if_neg hn]
            · rfl
      rw [b5, a3.2.1 k, e2, a1.2.1 k]
      by_cases h : ∃ ch : Channel, (v.timesOut ch && ((startFirst first).contains ch || (startMid first mid).contains ch)) = true ∧
          Target.tableOf v.channels[ch].target = some k
      · rw [if_pos h]
        obtain ⟨ch, ho, ht⟩ := h
        simp only [Bool.and_eq_true, Bool.or_eq_true, List.contains_iff_mem] at ho
        rcases ho.2 with hf | hm
        · have : ∃ j ∈ startFirst first, v.timesOut j = true ∧ Target.tableOf v.channels[j].target = some k :=
            ⟨ch, hf, ho.1, ht⟩
          rw [if_pos this, ite_self]
        · rw [if_pos ⟨ch, hm, by rw [to2 ch (disj ch hm)]; exact ho.1, by rw [out2 ch (disj ch hm)]; exact ht⟩]
      · rw [if_neg h, if_neg, if_neg]
        · rintro ⟨j, hf, ho, ht⟩
          exact h ⟨j, by simp [ho, hf], ht⟩
        · rintro ⟨j, hm, ho, ht⟩
          rw [to2 j (disj j hm)] at ho
          rw [out2 j (disj j hm)] at ht
          exact h ⟨j, by simp [ho, hm], ht⟩

end Sys2Proof.Machine
end

