-- ==== Sys2Proof/Laws/Resets.lean ====
section
/-! SUPPORT. The management RESET (R99, R112): every channel reset, written out channel by channel and table by table. -/

namespace Sys2Proof.Machine

/-- Each channel and each table after one channel is reset (R99). -/
theorem State.resetChannel_at (s : State) (ch : Channel) :
    (∀ k : Channel, (s.resetChannel ch).channels[k] =
      if k = ch then { s.channels[k] with state := .idle, target := none, errors := 0, idleFrames := 0 }
      else s.channels[k]) ∧
    ∀ u : TableId, (s.resetChannel ch).bank.states[u] =
      if Target.tableOf s.channels[ch].target = some u then .partialLoad else s.bank.states[u] := by
  refine ⟨fun k => ?_, fun u => ?_⟩
  · simp only [State.resetChannel, State.updateChannel_at, State.endLoad_channels]
    by_cases h : k = ch
    · subst h
      simp only [if_true]
    · simp only [if_neg h]
  · simp only [State.resetChannel, State.updateChannel_kept, State.endLoad_states]

/-- A reset of one channel changes table states alone in the bank. -/
theorem State.resetChannel_bank (s : State) (ch : Channel) :
    (s.resetChannel ch).bank.shadow = s.bank.shadow ∧ (s.resetChannel ch).bank.active = s.bank.active ∧
      (s.resetChannel ch).bank.record = s.bank.record := by
  simp only [State.resetChannel, State.updateChannel_kept]
  exact s.endLoad_bank ch _ _

/-- Channels reset one after another. -/
theorem resetChannel_fold_at (l : List Channel) (hl : l.Nodup) (s : State) :
    (∀ k : Channel, (l.foldl State.resetChannel s).channels[k] =
      if k ∈ l then { s.channels[k] with state := .idle, target := none, errors := 0, idleFrames := 0 }
      else s.channels[k]) ∧
    (∀ u : TableId, (l.foldl State.resetChannel s).bank.states[u] =
      if ∃ k ∈ l, Target.tableOf s.channels[k].target = some u then .partialLoad else s.bank.states[u]) ∧
    (l.foldl State.resetChannel s).bank.shadow = s.bank.shadow ∧
    (l.foldl State.resetChannel s).bank.active = s.bank.active ∧
    (l.foldl State.resetChannel s).bank.record = s.bank.record ∧
    (l.foldl State.resetChannel s).rtq = s.rtq := by
  induction l generalizing s with
  | nil => simp
  | cons ch rest ih =>
    have hd := List.nodup_cons.mp hl
    have h1 := ih hd.2 (s.resetChannel ch)
    have h2 := s.resetChannel_at ch
    have h3 := s.resetChannel_bank ch
    have at' : ∀ k : Channel, k ∈ rest → (s.resetChannel ch).channels[k] = s.channels[k] := by
      intro k hk
      rw [h2.1 k, if_neg]
      rintro rfl
      exact hd.1 hk
    simp only [List.foldl_cons]
    refine ⟨fun k => ?_, fun u => ?_, h1.2.2.1.trans h3.1, h1.2.2.2.1.trans h3.2.1, h1.2.2.2.2.1.trans h3.2.2,
      h1.2.2.2.2.2.trans (by simp)⟩
    · rw [h1.1 k]
      by_cases hk : k ∈ rest
      · rw [if_pos hk, if_pos (List.mem_cons_of_mem _ hk), at' k hk]
      · rw [if_neg hk, h2.1 k]
        by_cases e : k = ch
        · rw [if_pos e, if_pos (by rw [e]; exact List.mem_cons_self)]
        · rw [if_neg e, if_neg (fun h => (List.mem_cons.mp h).elim e hk)]
    · rw [h1.2.1 u, h2.2 u]
      have e : (∃ k ∈ rest, Target.tableOf (s.resetChannel ch).channels[k].target = some u) ↔
          ∃ k ∈ rest, Target.tableOf s.channels[k].target = some u := by
        constructor <;> rintro ⟨k, hk, h⟩ <;> refine ⟨k, hk, ?_⟩
        · rwa [at' k hk] at h
        · rwa [at' k hk]
      by_cases hr : ∃ k ∈ rest, Target.tableOf s.channels[k].target = some u
      · rw [if_pos (e.mpr hr), if_pos]
        obtain ⟨k, hk, h⟩ := hr
        exact ⟨k, List.mem_cons_of_mem _ hk, h⟩
      · rw [if_neg (fun h => hr (e.mp h))]
        by_cases hc : Target.tableOf s.channels[ch].target = some u
        · rw [if_pos hc, if_pos ⟨ch, List.mem_cons_self, hc⟩]
        · rw [if_neg hc, if_neg]
          rintro ⟨k, hk, h⟩
          rcases List.mem_cons.mp hk with rfl | hk
          · exact hc h
          · exact hr ⟨k, hk, h⟩

end Sys2Proof.Machine
end

