-- ==== Sys2Proof/Laws/Carries.lean ====
section
/-! SUPPORT. What every operation carries on: the queue's bounds and counts, the canonical memories, the FAULT pin, the line memory, and the ranges of parameters and tracker counts. One lemma per operation, one for the commands at the end. -/

namespace Sys2Proof.Machine

/-- The queue's bounds and counts together (R169, R170). -/
def Rtq.held (q : Rtq) : Prop := q.bounded ∧ q.countsFit

/-- From one state to another, each invariant of a block is carried on. -/
structure Carries (s t : State) : Prop where
  queue : s.rtq.held → t.rtq.held
  memories : s.memoriesCanonical → t.memoriesCanonical
  pin : s.checker.pinFollows → t.checker.pinFollows
  whole : s.tracker.memoryWhole → t.tracker.memoryWhole
  range : s.params.inRange → t.params.inRange
  counts : s.params.inRange → s.tracker.countsFit → t.tracker.countsFit

/-- Nothing changed. -/
@[simp] theorem Carries.refl (s : State) : Carries s s := ⟨id, id, id, id, id, fun _ => id⟩

/-- One change after another. -/
theorem Carries.trans {s t u : State} (h1 : Carries s t) (h2 : Carries t u) : Carries s u :=
  ⟨h2.queue ∘ h1.queue, h2.memories ∘ h1.memories, h2.pin ∘ h1.pin, h2.whole ∘ h1.whole, h2.range ∘ h1.range,
    fun r c => h2.counts (h1.range r) (h1.counts r c)⟩

/-! ## Named updates -/

/-- The pending commands bear on no invariant. -/
@[simp] theorem Carries.setPending {s t : State} (h : Carries s t) (v : List Instr) : Carries s (t.setPending v) :=
  ⟨h.queue, h.memories, h.pin, h.whole, h.range, h.counts⟩

/-- The reset phase bears on no invariant. -/
@[simp] theorem Carries.setPower {s t : State} (h : Carries s t) (v : Power) : Carries s (t.setPower v) :=
  ⟨h.queue, h.memories, h.pin, h.whole, h.range, h.counts⟩

/-- The channels bear on no invariant of another block. -/
@[simp] theorem Carries.setChannels {s t : State} (h : Carries s t) (v : Vector ChannelContext 4) :
    Carries s (t.setChannels v) := ⟨h.queue, h.memories, h.pin, h.whole, h.range, h.counts⟩

/-- The timeouts due bear on no invariant of another block. -/
@[simp] theorem Carries.setTimeoutsDue {s t : State} (h : Carries s t) (v : List Channel) :
    Carries s (t.setTimeoutsDue v) := ⟨h.queue, h.memories, h.pin, h.whole, h.range, h.counts⟩

/-- The framer bears on no invariant of another block. -/
@[simp] theorem Carries.setFramer {s t : State} (h : Carries s t) (v : Framer) : Carries s (t.setFramer v) :=
  ⟨h.queue, h.memories, h.pin, h.whole, h.range, h.counts⟩

/-- The frame plan bears on no invariant. -/
@[simp] theorem Carries.setPlan {s t : State} (h : Carries s t) (v : Option FramePlan) : Carries s (t.setPlan v) :=
  ⟨h.queue, h.memories, h.pin, h.whole, h.range, h.counts⟩

/-- The counter of the free values bears on no invariant. -/
@[simp] theorem Carries.setFree {s t : State} (h : Carries s t) (v : Nat) : Carries s (t.setFree v) :=
  ⟨h.queue, h.memories, h.pin, h.whole, h.range, h.counts⟩

/-- A return queue that keeps its bounds and counts. -/
theorem Carries.setRtq {s t : State} (h : Carries s t) (v : Rtq) (hv : t.rtq.held → v.held) :
    Carries s (t.setRtq v) := ⟨fun q => hv (h.queue q), h.memories, h.pin, h.whole, h.range, h.counts⟩

/-- A store whose cells stay canonical. -/
theorem Carries.setStore {s t : State} (h : Carries s t) (v : Store)
    (hv : t.store.cells.wf storeDefault = true → v.cells.wf storeDefault = true) : Carries s (t.setStore v) :=
  ⟨h.queue, fun m => ⟨hv (h.memories m).1, (h.memories m).2.1, (h.memories m).2.2⟩, h.pin, h.whole, h.range, h.counts⟩

/-- A table bank whose copies stay canonical. -/
theorem Carries.setBank {s t : State} (h : Carries s t) (v : Bank)
    (hv : copyWf t.bank.shadow → copyWf t.bank.active → copyWf v.shadow ∧ copyWf v.active) : Carries s (t.setBank v) :=
  ⟨h.queue, fun m => ⟨(h.memories m).1, hv (h.memories m).2.1 (h.memories m).2.2⟩, h.pin, h.whole, h.range, h.counts⟩

/-- A table bank with the same copies. -/
theorem Carries.setBank_same {s t : State} (h : Carries s t) (v : Bank) (h1 : v.shadow = t.bank.shadow)
    (h2 : v.active = t.bank.active) : Carries s (t.setBank v) :=
  h.setBank v (fun a b => ⟨by rwa [h1], by rwa [h2]⟩)

/-- A checker whose pin follows. -/
theorem Carries.setChecker {s t : State} (h : Carries s t) (v : Checker)
    (hv : t.checker.pinFollows → v.pinFollows) : Carries s (t.setChecker v) :=
  ⟨h.queue, h.memories, fun p => hv (h.pin p), h.whole, h.range, h.counts⟩

/-- Parameters that stay in range. -/
theorem Carries.setParams {s t : State} (h : Carries s t) (v : Params) (hv : t.params.inRange → v.inRange) :
    Carries s (t.setParams v) := ⟨h.queue, h.memories, h.pin, h.whole, fun r => hv (h.range r), h.counts⟩

/-- A tracker whose line memory stays whole and whose counts stay in range. -/
theorem Carries.setTracker {s t : State} (h : Carries s t) (v : Tracker)
    (h1 : v.lineMemory.length = t.tracker.lineMemory.length)
    (h2 : t.params.inRange → t.tracker.countsFit → v.countsFit) : Carries s (t.setTracker v) :=
  ⟨h.queue, h.memories, h.pin, fun w => h1.trans (h.whole w), h.range, fun r c => h2 (h.range r) (h.counts r c)⟩

/-- A tracker with the same line memory and counts, and no newly LOCKING state. -/
theorem Carries.setTracker_same {s t : State} (h : Carries s t) (v : Tracker)
    (h1 : v.lineMemory = t.tracker.lineMemory) (h2 : v.faultyFrames = t.tracker.faultyFrames)
    (h3 : v.conforming = t.tracker.conforming) (h4 : v.state = t.tracker.state) : Carries s (t.setTracker v) :=
  h.setTracker v (by rw [h1]) (fun _ c => by
    unfold Tracker.countsFit at c ⊢
    rw [h2, h3, h4]
    exact c)

/-! ## The return queue -/

/-- The marked places in a list after a mapping that keeps the mark. -/
theorem countP_map_same {α : Type} (p : α → Bool) (f : α → α) (hf : ∀ a, p (f a) = p a) (l : List α) :
    (l.map f).countP p = l.countP p := by
  rw [List.countP_map]
  exact congrArg (fun q => l.countP q) (funext hf)

/-- The length of a list by replies of each channel and events. -/
theorem entries_length (l : List Entry) :
    l.length = l.countP Entry.isEvent + l.countP (Entry.isReplyOf 0) + l.countP (Entry.isReplyOf 1) +
      l.countP (Entry.isReplyOf 2) + l.countP (Entry.isReplyOf 3) := by
  induction l with
  | nil => rfl
  | cons e rest ih =>
    simp only [List.length_cons, List.countP_cons, ih]
    cases e with
    | event e => simp [Entry.isEvent, Entry.isReply, Entry.isReplyOf]; omega
    | reply c r =>
      have : c = 0 ∨ c = 1 ∨ c = 2 ∨ c = 3 := by
        revert c
        decide
      rcases this with rfl | rfl | rfl | rfl <;> simp [Entry.isEvent, Entry.isReply, Entry.isReplyOf] <;> omega

/-- The bounds, from those on replies and events. -/
theorem Rtq.bounded_of (q : Rtq) (h1 : q.entries.countP Entry.isEvent ≤ 12)
    (h2 : ∀ ch : Channel, q.entries.countP (Entry.isReplyOf ch) ≤ 1) : q.bounded := by
  refine ⟨?_, h1, h2⟩
  rw [entries_length]
  have a := h2 0
  have b := h2 1
  have c := h2 2
  have d := h2 3
  omega

/-- A queue with fewer or the same entries. -/
theorem Rtq.held_of_sublist {q r : Rtq} (h : q.held) (he : r.entries.Sublist q.entries) (h1 : r.lost ≤ 255)
    (h2 : r.lostInFlight ≤ 255) : r.held := by
  refine ⟨Rtq.bounded_of r (he.countP_le.trans h.1.2.1) (fun ch => he.countP_le.trans (h.1.2.2 ch)), h1, h2, ?_⟩
  intro e hm
  exact h.2.2.2 e (he.subset hm)

/-- A reply keeps the queue's bounds and counts (R171). -/
theorem Rtq.held_handOver {q : Rtq} (h : q.held) (ch : Channel) (r : Reply) : (q.handOver ch r).held := by
  unfold Rtq.handOver
  split
  · have ev : ∀ e : Entry, (if e.isReplyOf ch = true then Entry.reply ch r else e).isEvent = e.isEvent := by
      intro e
      cases e with
      | event e => simp [Entry.isReplyOf]
      | reply c x =>
        by_cases hc : c = ch <;> simp [Entry.isReplyOf, Entry.isEvent, Entry.isReply, hc]
    have re : ∀ (k : Channel) (e : Entry),
        (if e.isReplyOf ch = true then Entry.reply ch r else e).isReplyOf k = e.isReplyOf k := by
      intro k e
      cases e with
      | event e => simp [Entry.isReplyOf]
      | reply c x =>
        by_cases hc : c = ch
        · subst hc
          simp [Entry.isReplyOf]
        · simp [Entry.isReplyOf, hc]
    refine ⟨Rtq.bounded_of _ ?_ (fun k => ?_), h.2.1, h.2.2.1, ?_⟩
    · simp only [countP_map_same _ _ ev]
      exact h.1.2.1
    · simp only [countP_map_same _ _ (re k)]
      exact h.1.2.2 k
    · intro e he
      obtain ⟨x, hx, rfl⟩ := List.mem_map.mp he
      split
      · trivial
      · exact h.2.2.2 x hx
  · rename_i hn
    have h0 : q.entries.countP (Entry.isReplyOf ch) = 0 := by
      rw [List.countP_eq_zero]
      intro e he hc
      exact hn (List.any_eq_true.mpr ⟨e, he, hc⟩)
    refine ⟨Rtq.bounded_of _ ?_ (fun k => ?_), h.2.1, h.2.2.1, ?_⟩
    · simpa [List.countP_append, Entry.isEvent, Entry.isReply] using h.1.2.1
    · by_cases hk : ch = k
      · subst hk
        simp [List.countP_append, h0, Entry.isReplyOf]
      · simpa [List.countP_append, List.countP_cons, Entry.isReplyOf, hk] using h.1.2.2 k
    · intro e he
      rcases List.mem_append.mp he with he | he
      · exact h.2.2.2 e he
      · rw [List.mem_singleton.mp he]
        trivial

/-- A bumped count stays at most 255. -/
theorem bump_le {n : Nat} (h : n ≤ 255) : bump n ≤ 255 := by
  unfold bump
  split <;> omega

/-- An event keeps the queue's bounds and counts (R174, R175). -/
theorem Rtq.held_raise {q : Rtq} (h : q.held) (kind : EventKind) (arg : Byte) (first last : Half) :
    (q.raise kind arg first last).held := by
  unfold Rtq.raise
  split
  · have ev : ∀ e : Entry, (mergeEvent kind arg first last e).isEvent = e.isEvent := by
      intro e
      cases e with
      | reply c x => rfl
      | event e =>
        simp only [mergeEvent]
        split <;> rfl
    have re : ∀ (k : Channel) (e : Entry), (mergeEvent kind arg first last e).isReplyOf k = e.isReplyOf k := by
      intro k e
      cases e with
      | reply c x => rfl
      | event e =>
        simp only [mergeEvent]
        split <;> rfl
    refine ⟨Rtq.bounded_of _ ?_ (fun k => ?_), h.2.1, h.2.2.1, ?_⟩
    · simp only [countP_map_same _ _ ev]
      exact h.1.2.1
    · simp only [countP_map_same _ _ (re k)]
      exact h.1.2.2 k
    · intro e he
      obtain ⟨x, hx, rfl⟩ := List.mem_map.mp he
      have hf := h.2.2.2 x hx
      cases x with
      | reply c x => trivial
      | event x =>
        simp only [mergeEvent]
        split
        · simp only [Entry.countFits, EventEntry.merge, bump] at hf ⊢
          split <;> omega
        · exact hf
  · split
    · rename_i hn hc
      have hc : q.entries.countP Entry.isEvent < 12 := hc
      refine ⟨Rtq.bounded_of _ ?_ (fun k => ?_), h.2.1, h.2.2.1, ?_⟩
      · rw [List.countP_append]
        have : List.countP Entry.isEvent [Entry.event ⟨kind, arg, 1, first, last⟩] = 1 := rfl
        omega
      · simpa [List.countP_append, List.countP_cons, Entry.isReplyOf] using h.1.2.2 k
      · intro e he
        rcases List.mem_append.mp he with he | he
        · exact h.2.2.2 e he
        · rw [List.mem_singleton.mp he]
          simp [Entry.countFits]
    · refine Rtq.held_of_sublist h (List.Sublist.refl _) (bump_le h.2.1) ?_
      simp only [Rtq.drop]
      split
      · exact bump_le h.2.2.1
      · exact h.2.2.1

/-- The arbiter keeps the queue's bounds and counts (R176). -/
theorem Rtq.held_arbitrate {q : Rtq} (h : q.held) : q.arbitrate.held := by
  unfold Rtq.arbitrate
  split
  · exact h
  · split
    · exact h
    · rename_i e rest hc
      refine Rtq.held_of_sublist h ?_ h.2.1 ?_
      · simp only [chooseEntry] at hc
        split at hc
        · simp only [Option.some.injEq, Prod.mk.injEq] at hc
          rw [← hc.2]
          exact List.eraseP_sublist
        · split at hc
          · cases hc
          · simp only [Option.some.injEq, Prod.mk.injEq] at hc
            rename_i x xs he
            rw [← hc.2, he]
            exact List.sublist_cons_self x xs
      · dsimp only
        split
        · omega
        · exact h.2.2.1

/-- The completion of a message keeps the queue's bounds and counts (R177, R178). -/
theorem Rtq.held_complete {q : Rtq} (h : q.held) : q.complete.held := by
  unfold Rtq.complete
  split
  · exact h
  · refine Rtq.held_of_sublist h (List.Sublist.refl _) ?_ h.2.2.1
    dsimp only
    split
    · exact h.2.2.1
    · exact h.2.1

/-- With the arbiter run, no entry waits while the lane is FREE. -/
theorem Rtq.laneKept_arbitrate (q : Rtq) : q.arbitrate.laneKept := by
  unfold Rtq.arbitrate
  split
  · rename_i m hm
    intro h
    rw [hm] at h
    cases h
  · split
    · rename_i hc
      intro _
      simp only [chooseEntry] at hc
      split at hc
      · cases hc
      · split at hc
        · assumption
        · cases hc
    · intro h
      cases h

/-! ## Operations -/

/-- An update of a channel. -/
@[simp] theorem State.updateChannel_carries {s t : State} (h : Carries s t) (ch : Channel) (f : ChannelContext → ChannelContext) :
    Carries s (t.updateChannel ch f) := by
  unfold State.updateChannel
  try dsimp only
  all_goals simp (maxDischargeDepth := 40) [h]

/-- A delivery. -/
@[simp] theorem State.touch_carries {s t : State} (h : Carries s t) (ch : Channel) :
    Carries s (t.touch ch) := by
  unfold State.touch
  try dsimp only
  all_goals simp (maxDischargeDepth := 40) [h]

/-- An event. -/
@[simp] theorem State.raiseWith_carries {s t : State} (h : Carries s t) (k : EventKind) (a : Byte) (x y : Half) :
    Carries s (t.raiseWith k a x y) := by
  unfold State.raiseWith
  split
  · exact h.setRtq _ (fun q => Rtq.held_raise q k a x y)
  · exact h

/-- An event. -/
@[simp] theorem State.raise_carries {s t : State} (h : Carries s t) (k : EventKind) (a : Byte) :
    Carries s (t.raise k a) := by
  unfold State.raise
  try dsimp only
  all_goals simp (maxDischargeDepth := 40) [h]

/-- A reply. -/
@[simp] theorem State.handOver_carries {s t : State} (h : Carries s t) (ch : Channel) (r : Reply) :
    Carries s (t.handOver ch r) := by
  exact h.setRtq _ (fun q => Rtq.held_handOver q ch r)

/-- The arbiter. -/
@[simp] theorem State.arbitrate_carries {s t : State} (h : Carries s t) :
    Carries s (t.arbitrate) := by
  exact h.setRtq _ Rtq.held_arbitrate

/-- The completion of a message. -/
@[simp] theorem State.completeMessage_carries {s t : State} (h : Carries s t) :
    Carries s (t.completeMessage) := by
  exact h.setRtq _ Rtq.held_complete

/-- A fill stopped. -/
@[simp] theorem State.stopFill_carries {s t : State} (h : Carries s t) :
    Carries s (t.stopFill) := by
  exact h.setStore _ id

/-- A fill stopped. -/
@[simp] theorem State.stopFillOf_carries {s t : State} (h : Carries s t) (ch : Channel) :
    Carries s (t.stopFillOf ch) := by
  unfold State.stopFillOf
  try dsimp only
  repeat' split
  all_goals simp (maxDischargeDepth := 40) [h]

/-- The end of a load. -/
@[simp] theorem State.endLoad_carries {s t : State} (h : Carries s t) (ch : Channel) (st : ShadowState) (n : ChannelState) :
    Carries s (t.endLoad ch st n) := by
  unfold State.endLoad
  apply State.updateChannel_carries
  unfold Bank.loadEnded
  split
  · exact h.setBank_same _ rfl rfl
  · exact h.setBank_same _ rfl rfl

/-- A store write. -/
@[simp] theorem State.writeStore_carries {s t : State} (h : Carries s t) (m : Memory) (hm : t.store.cells.wf storeDefault = true → m.wf storeDefault = true) :
    Carries s (t.writeStore m) := by
  exact (h.setStore _ hm).setFramer _

/-- A segment keeps the store canonical. -/
theorem storeSegment_wf (planes : List (Fin 4)) (start : Nat) (mode : StoreMode) (q : Nat) (cells : Memory)
    (payload : List Byte) (h : cells.wf storeDefault = true) :
    (storeSegment planes start mode q cells payload).wf storeDefault = true := by
  induction payload generalizing q cells with
  | nil => exact h
  | cons b rest ih => exact ih (q + 1) _ (storeWrite_wf _ _ _ _ h)

/-- A fill step keeps the store canonical. -/
theorem FillRecord.write_wf (f : FillRecord) (cells : Memory) (h : cells.wf storeDefault = true) :
    (f.write cells).wf storeDefault = true := by
  unfold FillRecord.write
  generalize selectedPlanes f.planes = ks
  induction ks generalizing cells with
  | nil => exact h
  | cons k rest ih => exact ih _ (storeWrite_wf _ _ _ _ h)

/-- Copying tables from a canonical copy keeps a copy canonical. -/
theorem copyTables_wf (src dst : Vector Memory 8) (ts : List TableId) (h1 : copyWf src) (h2 : copyWf dst) :
    copyWf (ts.foldl (fun (a : Vector Memory 8) (t : TableId) => a.set t src[t]) dst) := by
  intro t
  rw [copyTables_getElem]
  split
  · exact h1 t
  · exact h2 t

/-- A fill step. -/
@[simp] theorem State.fillOnce_carries {s t : State} (h : Carries s t) (f : FillRecord) :
    Carries s (t.fillOnce f) := by
  exact (State.writeStore_carries h _ (f.write_wf _)).setStore _ id

/-- The completion of a fill. -/
@[simp] theorem State.completeFill_carries {s t : State} (h : Carries s t) (f : FillRecord) :
    Carries s (t.completeFill f) := by
  unfold State.completeFill
  try dsimp only
  all_goals simp (maxDischargeDepth := 40) [h]

/-- An abandonment. -/
@[simp] theorem State.abandon_carries {s t : State} (h : Carries s t) (ch : Channel) :
    Carries s (t.abandon ch) := by
  unfold State.abandon
  try dsimp only
  all_goals simp (maxDischargeDepth := 40) [h]

/-- The abandon test. -/
@[simp] theorem State.abandonTest_carries {s t : State} (h : Carries s t) (ch : Channel) (c : ReplyCode) :
    Carries s (t.abandonTest ch c) := by
  unfold State.abandonTest
  try dsimp only
  repeat' split
  all_goals simp (maxDischargeDepth := 40) [h]

/-- The reply to a taken packet. -/
@[simp] theorem State.finishTaken_carries {s t : State} (h : Carries s t) (ch : Channel) (q : Bool) (k : Byte) (a : Answer) :
    Carries s (t.finishTaken ch q k a) := by
  unfold State.finishTaken
  try dsimp only
  all_goals simp (maxDischargeDepth := 40) [h]

/-- A replay. -/
@[simp] theorem State.replay_carries {s t : State} (h : Carries s t) (ch : Channel) :
    Carries s (t.replay ch) := by
  unfold State.replay
  try dsimp only
  repeat' split
  all_goals simp (maxDischargeDepth := 40) [h]

/-- A refusal in ABANDONED. -/
@[simp] theorem State.refuseAbandoned_carries {s t : State} (h : Carries s t) (ch : Channel) (q : Bool) (k : Byte) :
    Carries s (t.refuseAbandoned ch q k) := by
  unfold State.refuseAbandoned
  try dsimp only
  all_goals simp (maxDischargeDepth := 40) [h]

/-- An ABORT. -/
@[simp] theorem State.takeAbort_carries {s t : State} (h : Carries s t) (ch : Channel) (q : Bool) :
    Carries s (t.takeAbort ch q) := by
  unfold State.takeAbort
  try dsimp only
  all_goals simp (maxDischargeDepth := 40) [h]

/-- Taking up a load. -/
@[simp] theorem State.startLoad_carries {s t : State} (h : Carries s t) (ch : Channel) (st : ChannelState) (g : Target) (n : Nat) :
    Carries s (t.startLoad ch st g n) := by
  unfold State.startLoad
  try dsimp only
  all_goals simp (maxDischargeDepth := 40) [h]

/-- A segment. -/
@[simp] theorem State.writeSegment_carries {s t : State} (h : Carries s t) (c : ChannelContext) (p : List Byte) :
    Carries s (t.writeSegment c p) := by
  unfold State.writeSegment
  split
  · exact h.setBank _ (fun a b => ⟨tableWriteRun_wf _ _ _ _ a, b⟩)
  · exact State.writeStore_carries h _ (storeSegment_wf _ _ _ _ _ _)
  · exact h
  · exact h

/-! ## Checker -/

/-- After following, the pin follows. -/
theorem Checker.followPin_follows (c : Checker) : c.followPin.pinFollows := by
  unfold Checker.followPin Checker.pinFollows
  dsimp only
  split
  · rename_i h
    exact h.symm
  · rfl

/-- A runtime record written. -/
@[simp] theorem State.setRecord_carries {s t : State} (h : Carries s t) (k : Fin 8) (r : CheckRecord) :
    Carries s (t.setChecker (t.checker.setRecord k r)) := by
  exact h.setChecker _ (fun _ => Checker.followPin_follows _)

/-- A runtime reset. -/
@[simp] theorem State.runtimeReset_carries {s t : State} (h : Carries s t) (a : Vector Memory 8) :
    Carries s (t.setChecker (t.checker.runtimeReset a)) := by
  exact h.setChecker _ (fun _ => Checker.followPin_follows _)

/-- The check plan formed. -/
@[simp] theorem State.formCheckPlan_carries {s t : State} (h : Carries s t) (a : Vector Memory 8) (f : Word) (x y : Nat) :
    Carries s (t.setChecker (t.checker.formPlan a f x y)) := by
  exact h.setChecker _ id

/-- The check plan discarded. -/
@[simp] theorem State.discardCheckPlan_carries {s t : State} (h : Carries s t) :
    Carries s (t.setChecker t.checker.discardPlan) := by
  exact h.setChecker _ id

/-- A line taken by the checks. -/
@[simp] theorem State.checksTakeLine_carries {s t : State} (h : Carries s t) (n : Nat) (p : List Pixel) :
    Carries s (t.setChecker (t.checker.takeLine n p)) := by
  exact h.setChecker _ id

/-- An evaluation. -/
@[simp] theorem State.evaluateCheck_carries {s t : State} (h : Carries s t) (k : Fin 8) :
    Carries s (t.evaluateCheck k) := by
  unfold State.evaluateCheck
  split
  · exact h
  · dsimp only
    split
    · simp (maxDischargeDepth := 40) [h]
    · split
      · simp (maxDischargeDepth := 40) [h]
      · simp (maxDischargeDepth := 40) [h]

/-- The evaluation at an output frame end. -/
@[simp] theorem State.evaluateChecks_carries {s t : State} (h : Carries s t) :
    Carries s (t.evaluateChecks) := by
  unfold State.evaluateChecks
  try dsimp only
  all_goals simp (maxDischargeDepth := 40) [h]

/-! ## Tracker and framer -/

/-- A truncation. -/
@[simp] theorem State.truncate_carries {s t : State} (h : Carries s t) :
    Carries s (t.truncate) := by
  unfold State.truncate
  split
  · exact h
  · exact (h.setFramer _).setChecker _ id

/-- The framer losing the stream. -/
@[simp] theorem State.framerLosesLock_carries {s t : State} (h : Carries s t) :
    Carries s (t.framerLosesLock) := by
  unfold State.framerLosesLock
  try dsimp only
  repeat' split
  all_goals simp (maxDischargeDepth := 40) [h]

/-- An entry into SEARCH. -/
@[simp] theorem State.enterSearch_carries {s t : State} (h : Carries s t) :
    Carries s (t.setTracker t.tracker.enterSearch) := by
  refine h.setTracker _ rfl (fun _ c => ?_)
  exact ⟨Nat.zero_le _, Nat.zero_le _, fun _ => Nat.zero_le _⟩

/-- A stream loss. -/
@[simp] theorem State.loseStream_carries {s t : State} (h : Carries s t) (c : LostCause) :
    Carries s (t.loseStream c) := by
  unfold State.loseStream
  try dsimp only
  repeat' split
  all_goals simp (maxDischargeDepth := 40) [h]

/-- The loss timer. -/
@[simp] theorem State.loseByTimeout_carries {s t : State} (h : Carries s t) :
    Carries s (t.loseByTimeout) := by
  unfold State.loseByTimeout
  try dsimp only
  repeat' split
  all_goals simp (maxDischargeDepth := 40) [h]

/-- FRAME_FAULT. -/
@[simp] theorem State.frameFault_carries {s t : State} (h : Carries s t) (k : FaultKind) :
    Carries s (t.frameFault k) := by
  unfold State.frameFault
  try dsimp only
  all_goals simp (maxDischargeDepth := 40) [h]

/-- A fault in a frame. -/
@[simp] theorem State.faultInFrame_carries {s t : State} (h : Carries s t) (k : FaultKind) :
    Carries s (t.faultInFrame k) := by
  exact (State.frameFault_carries h k).setTracker_same _ rfl rfl rfl rfl

/-- A rise of the faulty-frame count with its test: a count past the range has reached the fault limit (R107, R135). -/
theorem State.riseAndTest_carries {s t : State} (h : Carries s t) (v : Tracker)
    (h1 : v.lineMemory = t.tracker.lineMemory) (h2 : v.faultyFrames = t.tracker.faultyFrames + 1)
    (h3 : v.conforming = t.tracker.conforming) (h4 : v.state = t.tracker.state) :
    Carries s (t.setTracker v).testFaultLimit := by
  refine h.trans ?_
  unfold State.testFaultLimit
  split
  · have base : ∀ c : Tracker, c.lineMemory = t.tracker.lineMemory →
        Carries t ((t.setTracker c).setTracker c.enterSearch) := by
      intro c hc
      refine (Carries.refl t).trans ?_
      have e : (t.setTracker c).setTracker c.enterSearch = t.setTracker c.enterSearch := rfl
      rw [e]
      refine (Carries.refl t).setTracker _ (by rw [show c.enterSearch.lineMemory = c.lineMemory from rfl, hc])
        (fun _ _ => ?_)
      exact ⟨Nat.zero_le _, Nat.zero_le _, fun _ => Nat.zero_le _⟩
    have b := base v h1
    unfold State.loseStream
    split
    · exact State.framerLosesLock_carries (State.raise_carries b _ _)
    · exact b
    · exact b
  · rename_i hl
    refine (Carries.refl t).setTracker v (by rw [h1]) (fun r c => ?_)
    have hl : ¬t.params.faultLimit ≤ v.faultyFrames := hl
    have hr : t.params.faultLimit ≤ 15 := (r .faultLimit).2
    unfold Tracker.countsFit at c ⊢
    rw [h3, h4]
    exact ⟨by omega, c.2⟩

/-- A verdict. -/
@[simp] theorem State.verdict_carries {s t : State} (h : Carries s t) :
    Carries s (t.verdict) := by
  unfold State.verdict
  split
  · exact State.riseAndTest_carries h _ rfl rfl rfl rfl
  · refine h.setTracker _ rfl (fun _ c => ?_)
    exact ⟨Nat.zero_le _, c.2⟩

/-- A late fault. -/
@[simp] theorem State.lateFault_carries {s t : State} (h : Carries s t) (k : FaultKind) :
    Carries s (t.lateFault k) := by
  unfold State.lateFault
  dsimp only
  split
  · simp [h]
  · exact State.riseAndTest_carries (State.frameFault_carries h k) _ rfl rfl rfl rfl

/-- A handover. -/
@[simp] theorem State.handLine_carries {s t : State} (h : Carries s t) (n : Nat) (k : LineKind) (p : List Pixel) :
    Carries s (t.handLine n k p) := by
  unfold State.handLine
  try dsimp only
  all_goals simp (maxDischargeDepth := 40) [h]

/-- A handover. -/
@[simp] theorem State.handSubstitute_carries {s t : State} (h : Carries s t) (n : Nat) :
    Carries s (t.handSubstitute n) := by
  unfold State.handSubstitute
  try dsimp only
  all_goals simp (maxDischargeDepth := 40) [h]

/-- Handovers of substitute lines. -/
@[simp] theorem State.handSubstitutes_carries {s t : State} (h : Carries s t) (e n : Nat) :
    Carries s (t.handSubstitutes e n) := by
  rw [State.handSubstitutes_eq]
  exact h.setFramer _

/-- The last line of a frame. -/
@[simp] theorem State.lastLineHanded_carries {s t : State} (h : Carries s t) :
    Carries s (t.lastLineHanded) := by
  exact State.verdict_carries (h.setTracker_same _ rfl rfl rfl rfl)

/-- Writing a line into the line memory keeps its positions. -/
theorem writeLineMemory_length (m taken : List Pixel) (h : m.length = lineMemorySize) :
    (writeLineMemory m taken).length = lineMemorySize := by
  simp only [writeLineMemory, List.length_append, List.length_drop, List.length_take, h]
  omega

/-- A tracker whose line memory takes a line. -/
theorem Carries.setTracker_line {s t : State} (h : Carries s t) (v : Tracker) (taken : List Pixel)
    (h1 : v.lineMemory = writeLineMemory t.tracker.lineMemory taken) (h2 : v.faultyFrames = t.tracker.faultyFrames)
    (h3 : v.conforming = t.tracker.conforming) (h4 : v.state = t.tracker.state) : Carries s (t.setTracker v) :=
  ⟨h.queue, h.memories, h.pin,
    fun w => by
      show v.lineMemory.length = lineMemorySize
      rw [h1]
      exact writeLineMemory_length _ _ (h.whole w),
    h.range,
    fun r c => by
      have c := h.counts r c
      show v.countsFit
      unfold Tracker.countsFit at c ⊢
      rw [h2, h3, h4]
      exact c⟩

/-- A forwarded line. -/
@[simp] theorem State.forwardLine_carries {s t : State} (h : Carries s t) (n : Nat) (p : List Pixel) :
    Carries s (t.forwardLine n p) := by
  have base : ∀ u : State, Carries s u → ∀ (px taken : List Pixel),
      Carries s ((u.handLine n .forwarded px).setTracker
        { (u.handLine n .forwarded px).tracker with
          lineMemory := writeLineMemory (u.handLine n .forwarded px).tracker.lineMemory taken, expected := n + 1 }) :=
    fun u hu px taken => (State.handLine_carries hu _ _ _).setTracker_line _ taken rfl rfl rfl rfl
  unfold State.forwardLine
  dsimp only
  split <;> split
  · exact State.lastLineHanded_carries (base _ h _ _)
  · exact State.lastLineHanded_carries (base _ (State.faultInFrame_carries h _) _ _)
  · exact base _ h _ _
  · exact base _ (State.faultInFrame_carries h _) _ _

/-- The rest of a frame. -/
@[simp] theorem State.substituteRest_carries {s t : State} (h : Carries s t) (p : FramePhase) :
    Carries s (t.substituteRest p) := by
  exact State.verdict_carries ((State.handSubstitutes_carries h _ _).setTracker_same _ rfl rfl rfl rfl)

/-- A broken lock attempt. -/
@[simp] theorem State.breakLock_carries {s t : State} (h : Carries s t) :
    Carries s (t.breakLock) := by
  unfold State.breakLock
  try dsimp only
  all_goals simp (maxDischargeDepth := 40) [h]

/-- A conforming frame. -/
@[simp] theorem State.conformingFrame_carries {s t : State} (h : Carries s t) (hl : t.tracker.state = .locking) :
    Carries s (t.conformingFrame) := by
  have hs : Carries s (if t.params.lockCount ≤ t.tracker.conforming + 1 then
      t.setTracker
        { t.tracker with
          conforming := t.tracker.conforming + 1, phase := .noFrame, state := .locked, faultyFrames := 0 }
      else t.setTracker { t.tracker with conforming := t.tracker.conforming + 1, phase := .noFrame }) := by
    split
    · refine h.setTracker _ rfl (fun _ c => ?_)
      refine ⟨Nat.zero_le _, ?_, fun e => by cases e⟩
      have := c.2.2 hl
      show t.tracker.conforming + 1 ≤ 7
      omega
    · rename_i hk
      refine h.setTracker _ rfl (fun r c => ?_)
      have h1 := c.2.2 hl
      have h2 : t.params.lockCount ≤ 7 := (r .lockCount).2
      refine ⟨c.1, ?_, fun _ => ?_⟩
      · show t.tracker.conforming + 1 ≤ 7
        omega
      · show t.tracker.conforming + 1 ≤ 6
        omega
  unfold State.conformingFrame
  dsimp only
  split
  · rename_i hk
    rw [if_pos (by exact hk)] at hs
    exact (State.raise_carries hs _ _).setFramer _
  · rename_i hk
    rw [if_neg (by exact hk)] at hs
    exact hs

/-- The switch back to PASS. -/
@[simp] theorem State.switchToPass_carries {s t : State} (h : Carries s t) :
    Carries s (t.switchToPass) := by
  unfold State.switchToPass
  try dsimp only
  all_goals simp (maxDischargeDepth := 40) [h]

/-- An output frame asked for. -/
@[simp] theorem State.askStart_carries {s t : State} (h : Carries s t) :
    Carries s (t.askStart) := by
  unfold State.askStart
  try dsimp only
  repeat' split
  all_goals simp (maxDischargeDepth := 40) [h]

/-- A LINE in LOCKING. -/
@[simp] theorem State.lineInLocking_carries {s t : State} (h : Carries s t) (n : Nat) (p : List Pixel) :
    Carries s (t.lineInLocking n p) := by
  unfold State.lineInLocking
  dsimp only
  split
  · exact h.setTracker_same _ rfl rfl rfl rfl
  · exact State.breakLock_carries h

/-- An upstream frame opened. -/
@[simp] theorem State.openUpstream_carries {s t : State} (h : Carries s t) (n : Half) :
    Carries s (t.openUpstream n) := by
  exact State.askStart_carries (h.setTracker_same _ rfl rfl rfl rfl)

/-- A LINE while RECEIVING. -/
@[simp] theorem State.lineReceiving_carries {s t : State} (h : Carries s t) (n : Nat) (p : List Pixel) :
    Carries s (t.lineReceiving n p) := by
  unfold State.lineReceiving
  try dsimp only
  repeat' split
  all_goals simp (maxDischargeDepth := 40) [h]

/-- A LINE in LOCKED. -/
@[simp] theorem State.lineInLocked_carries {s t : State} (h : Carries s t) (n : Nat) (p : List Pixel) :
    Carries s (t.lineInLocked n p) := by
  unfold State.lineInLocked
  try dsimp only
  repeat' split
  all_goals simp (maxDischargeDepth := 40) [h]

/-- A FRAME_END in LOCKED. -/
@[simp] theorem State.endInLocked_carries {s t : State} (h : Carries s t) (n : Nat) :
    Carries s (t.endInLocked n) := by
  unfold State.endInLocked
  dsimp only
  have b := h.setTracker_same { t.tracker with phase := .noFrame } rfl rfl rfl rfl
  split
  · simp [h]
  · exact State.substituteRest_carries (State.faultInFrame_carries h _) _
  · split
    · exact b
    · exact State.lateFault_carries b _

/-- A FRAME_START. -/
@[simp] theorem State.takeStartPacket_carries {s t : State} (h : Carries s t) (n : Half) :
    Carries s (t.takeStartPacket n) := by
  unfold State.takeStartPacket
  split
  · refine h.setTracker _ rfl (fun _ c => ?_)
    exact ⟨c.1, Nat.zero_le _, fun _ => Nat.zero_le _⟩
  · split
    · exact h.setTracker_same _ rfl rfl rfl rfl
    · exact State.breakLock_carries h
    · exact State.breakLock_carries h
  · exact State.openUpstream_carries h n

/-- A FRAME_START. -/
@[simp] theorem State.dealStart_carries {s t : State} (h : Carries s t) (n : Half) :
    Carries s (t.dealStart n) := by
  unfold State.dealStart
  try dsimp only
  repeat' split
  all_goals simp (maxDischargeDepth := 40) [h]

/-- A LINE. -/
@[simp] theorem State.dealLine_carries {s t : State} (h : Carries s t) (n : Half) (p : List Pixel) :
    Carries s (t.dealLine n p) := by
  unfold State.dealLine
  try dsimp only
  repeat' split
  all_goals simp (maxDischargeDepth := 40) [h]

/-- A FRAME_END. -/
@[simp] theorem State.dealEnd_carries {s t : State} (h : Carries s t) (n : Half) :
    Carries s (t.dealEnd n) := by
  unfold State.dealEnd
  split
  · exact h
  · rename_i hl
    split
    · exact State.conformingFrame_carries h hl
    · exact State.breakLock_carries h
  · exact State.endInLocked_carries h _

/-- A frame packet. -/
@[simp] theorem State.dealFrame_carries {s t : State} (h : Carries s t) (p : FramePacket) :
    Carries s (t.dealFrame p) := by
  unfold State.dealFrame
  try dsimp only
  repeat' split
  all_goals simp (maxDischargeDepth := 40) [h]

/-- Waiting frame packets set. -/
@[simp] theorem State.setWaiting_carries {s t : State} (h : Carries s t) (l : List FramePacket) :
    Carries s (t.setTracker { t.tracker with waiting := l }) := h.setTracker_same _ rfl rfl rfl rfl

/-- Waiting frame packets dealt with. -/
@[simp] theorem dealWaiting_carries (l : List FramePacket) {s t : State} (h : Carries s t) :
    Carries s (dealWaiting l t) := by
  induction l generalizing t with
  | nil => exact h
  | cons p rest ih =>
    simp only [dealWaiting]
    split
    · exact State.setWaiting_carries h _
    · exact ih (State.arbitrate_carries (State.dealFrame_carries h p))

/-- A frame packet arrives. -/
@[simp] theorem State.arrive_carries {s t : State} (h : Carries s t) (p : FramePacket) :
    Carries s (t.arrive p) := by
  unfold State.arrive
  try dsimp only
  repeat' split
  all_goals simp (maxDischargeDepth := 40) [h]

/-- A damaged packet. -/
@[simp] theorem State.discardPacket_carries {s t : State} (h : Carries s t) (c : Byte) :
    Carries s (t.discardPacket c) := by
  unfold State.discardPacket
  try dsimp only
  repeat' split
  all_goals simp (maxDischargeDepth := 40) [h]

/-! ## Framing -/

/-- A channel timeout. -/
@[simp] theorem State.timeOut_carries {s t : State} (h : Carries s t) (ch : Channel) :
    Carries s (t.timeOut ch) := by
  unfold State.timeOut
  try dsimp only
  all_goals simp (maxDischargeDepth := 40) [h]

/-- Idle frames raised. -/
@[simp] theorem State.raiseIdle_carries {s t : State} (h : Carries s t) (ch : Channel) :
    Carries s (t.raiseIdle ch) := by
  unfold State.raiseIdle
  try dsimp only
  all_goals simp (maxDischargeDepth := 40) [h]

/-- A channel takes a start. -/
@[simp] theorem State.channelTakesStart_carries {s t : State} (h : Carries s t) (ch : Channel) :
    Carries s (t.channelTakesStart ch) := by
  unfold State.channelTakesStart
  try dsimp only
  repeat' split
  all_goals simp (maxDischargeDepth := 40) [h]

/-- A channel counts a start. -/
@[simp] theorem State.channelCountsStart_carries {s t : State} (h : Carries s t) (ch : Channel) :
    Carries s (t.channelCountsStart ch) := by
  unfold State.channelCountsStart
  try dsimp only
  repeat' split
  all_goals simp (maxDischargeDepth := 40) [h]

/-- A run of steps, each of which carries. -/
theorem foldl_carries {α : Type} (f : State → α → State)
    (hf : ∀ (s t : State) (a : α), Carries s t → Carries s (f t a)) (l : List α) {s t : State} (h : Carries s t) :
    Carries s (l.foldl f t) := by
  induction l generalizing t with
  | nil => exact h
  | cons a rest ih => exact ih (hf s t a h)

/-- Channels take a start. -/
@[simp] theorem channelTakesStart_fold_carries {s t : State} (h : Carries s t) (l : List Channel) :
    Carries s (l.foldl State.channelTakesStart t) := by
  exact foldl_carries _ (fun _ _ a g => State.channelTakesStart_carries g a) l h

/-- Channels count a start. -/
@[simp] theorem channelCountsStart_fold_carries {s t : State} (h : Carries s t) (l : List Channel) :
    Carries s (l.foldl State.channelCountsStart t) := by
  exact foldl_carries _ (fun _ _ a g => State.channelCountsStart_carries g a) l h

/-- Channels time out. -/
@[simp] theorem State.timeOutDue_carries {s t : State} (h : Carries s t) :
    Carries s (t.timeOutDue) := by
  exact foldl_carries _ (fun _ _ a g => State.arbitrate_carries (State.timeOut_carries g a)) _ (h.setTimeoutsDue _)

/-- Waiting frame packets drained. -/
@[simp] theorem State.drain_carries {s t : State} (h : Carries s t) :
    Carries s (t.drain) := by
  unfold State.drain
  split
  · exact h
  · exact dealWaiting_carries _ (State.setWaiting_carries h [])

/-- Timeouts taken. -/
@[simp] theorem State.takeTimeouts_carries {s t : State} (h : Carries s t) :
    Carries s (t.takeTimeouts) := State.drain_carries (State.timeOutDue_carries h)

/-- The end of a step. -/
@[simp] theorem State.conclude_carries {s t : State} (h : Carries s t) :
    Carries s (t.conclude) := by
  unfold State.conclude
  try dsimp only
  all_goals simp (maxDischargeDepth := 40) [h]

/-- A changed loss time. -/
@[simp] theorem State.checkLoss_carries {s t : State} (h : Carries s t) :
    Carries s (t.checkLoss) := by
  unfold State.checkLoss
  split
  · exact h.setTracker_same _ rfl rfl rfl rfl
  · exact h

/-- Activation keeps the copies canonical. -/
theorem Bank.activate_wf (b : Bank) (ts : List TableId) (h1 : copyWf b.shadow) (h2 : copyWf b.active) :
    copyWf (b.activate ts).shadow ∧ copyWf (b.activate ts).active := ⟨h1, copyTables_wf _ _ _ h1 h2⟩

/-- Restoration keeps the copies canonical. -/
theorem Bank.restore_wf (b : Bank) (ts : List TableId) (h1 : copyWf b.shadow) (h2 : copyWf b.active) :
    copyWf (b.restore ts).shadow ∧ copyWf (b.restore ts).active := ⟨copyTables_wf _ _ _ h2 h1, h2⟩

/-- A commit applied. -/
@[simp] theorem State.applyCommit_carries {s t : State} (h : Carries s t) (c : Commit) :
    Carries s (t.applyCommit c) := by
  unfold State.applyCommit
  dsimp only
  have b : Carries s (t.setBank
      { (t.bank.activate (maskTables c.mask)).setStates (maskTables c.mask) .clean with record := none }) := by
    refine h.setBank _ (fun x y => ?_)
    simp only [Bank.setStates_kept]
    exact Bank.activate_wf _ _ x y
  have b2 := State.raise_carries b .committed c.tag
  split <;> split
  · exact State.runtimeReset_carries (State.checkLoss_carries b2) _
  · exact State.runtimeReset_carries b2 _
  · exact State.checkLoss_carries b2
  · exact b2

/-- A commit missed. -/
@[simp] theorem State.missCommit_carries {s t : State} (h : Carries s t) (c : Commit) :
    Carries s (t.missCommit c) := by
  exact State.raise_carries (h.setBank_same _ (by simp) (by simp)) _ _

/-- The resolution. -/
@[simp] theorem State.resolveCommit_carries {s t : State} (h : Carries s t) :
    Carries s (t.resolveCommit) := by
  unfold State.resolveCommit
  try dsimp only
  repeat' split
  all_goals simp (maxDischargeDepth := 40) [h]

/-- The geometry signal. -/
@[simp] theorem State.signalGeometry_carries {s t : State} (h : Carries s t) :
    Carries s (t.signalGeometry) := by
  unfold State.signalGeometry
  try dsimp only
  repeat' split
  all_goals simp (maxDischargeDepth := 40) [h]

/-- F and N. -/
@[simp] theorem State.setNumbers_carries {s t : State} (h : Carries s t) (c : StartCause) :
    Carries s (t.setNumbers c) := by
  unfold State.setNumbers
  try dsimp only
  repeat' split
  all_goals simp (maxDischargeDepth := 40) [h]

/-- A frame begun. -/
@[simp] theorem State.beginFrame_carries {s t : State} (h : Carries s t) (y : FrameType) (g : Bool) :
    Carries s (t.beginFrame y g) := by
  exact ((h.setFramer _).setPlan _).setChecker _ id

/-- The switch back before a start. -/
@[simp] theorem State.switchBefore_carries {s t : State} (h : Carries s t) (c : StartCause) :
    Carries s (t.switchBefore c) := by
  unfold State.switchBefore
  split
  · exact State.switchToPass_carries h
  all_goals exact h

/-- An output frame start. -/
@[simp] theorem State.takeStart_carries {s t : State} (h : Carries s t) (c : StartCause) (a b : List Channel) :
    Carries s (t.takeStart c a b) := by
  unfold State.takeStart
  try dsimp only
  repeat' split
  all_goals simp (maxDischargeDepth := 40) [h]

/-- A loss timer expiry due at once. -/
@[simp] theorem State.takeExpiry_carries {s t : State} (h : Carries s t) :
    Carries s (t.takeExpiry) := by
  unfold State.takeExpiry
  try dsimp only
  repeat' split
  all_goals simp (maxDischargeDepth := 40) [h]

/-- What is due at once. -/
@[simp] theorem takeUrgent_carries (k : Nat) {s t : State} (h : Carries s t) : Carries s (takeUrgent k t) := by
  induction k generalizing t with
  | zero => exact h
  | succ k ih =>
    simp only [takeUrgent]
    split
    · exact ih (State.takeExpiry_carries h)
    · split
      · exact h
      · exact ih (State.takeTimeouts_carries (State.conclude_carries (State.takeStart_carries h _ [] [])))

/-- Settling. -/
@[simp] theorem State.settle_carries {s t : State} (h : Carries s t) :
    Carries s (t.settle) := by
  exact takeUrgent_carries _ (State.takeTimeouts_carries h)

/-- A step of the part. -/
@[simp] theorem State.operate_carries {s t : State} (h : Carries s t) (f : State → State) (hf : ∀ u, Carries s u → Carries s (f u)) :
    Carries s (t.operate f) := by
  unfold State.operate
  split
  · exact State.conclude_carries (hf _ (State.settle_carries h))
  · exact h
  · exact h

/-- An output frame end. -/
@[simp] theorem State.endFrame_carries {s t : State} (h : Carries s t) (f : OutputFrame) :
    Carries s (t.endFrame f) := by
  unfold State.endFrame
  try dsimp only
  repeat' split
  all_goals simp (maxDischargeDepth := 40) [h]

/-- A line emitted. -/
@[simp] theorem State.emitComposed_carries {s t : State} (h : Carries s t) (f : OutputFrame) (n : Nat) (p : List Pixel) :
    Carries s (t.emitComposed f n p) := by
  have b : ∀ v : Framer, Carries s ((t.setFramer v).setChecker ((t.setFramer v).checker.takeLine n p)) :=
    fun v => (h.setFramer v).setChecker _ id
  unfold State.emitComposed
  dsimp only
  split
  · exact State.endFrame_carries (b _) _
  · exact b _

/-- An IDLE packet. -/
@[simp] theorem State.emitIdle_carries {s t : State} (h : Carries s t) : Carries s (t.emitIdle) := h.setFramer _

/-- The next line emitted. -/
@[simp] theorem State.emitNext_carries {s t : State} (h : Carries s t) :
    Carries s (t.emitNext) := by
  unfold State.emitNext
  try dsimp only
  repeat' split
  all_goals simp (maxDischargeDepth := 40) [h]

/-! ## Requests -/

/-- What an owner does carries. -/
def ActCarries (act : State → Answer × State) : Prop := ∀ s t : State, Carries s t → Carries s (act t).2

/-- A packet delivered. -/
@[simp] theorem State.deliver_carries {s t : State} (h : Carries s t) (ch : Channel) (q : Bool) (k : Byte) (act : State → Answer × State) (ha : ActCarries act) :
    Carries s (t.deliver ch q k act) := by
  unfold State.deliver
  dsimp only
  have b := State.touch_carries h ch
  split
  · exact State.refuseAbandoned_carries b ch q k
  · split
    · exact State.finishTaken_carries (ha _ _ b) ch q k _
    · exact State.replay_carries b ch

/-- OPEN. -/
theorem actOpen_carries (ch : Channel) (p : List Byte) : ActCarries (actOpen ch p) := by
  intro s t h
  unfold actOpen
  split
  · unfold withBlock
    split
    · exact h
    · unfold openBlockInIdle
      split
      · unfold openTable
        split
        · exact h
        · exact (State.startLoad_carries h _ _ _ _).setBank_same _ (by simp [Bank.setState]) (by simp [Bank.setState])
      · split
        · unfold openStore
          split
          · exact h
          · dsimp only
            split
            · exact (State.startLoad_carries h _ _ _ _).setStore _ (by simp)
            · exact State.startLoad_carries h _ _ _ _
        · exact h
  · exact h
  · exact h
  · exact h

/-- DATA. -/
theorem actData_carries (ch : Channel) (p : List Byte) : ActCarries (actData ch p) := by
  intro s t h
  unfold actData
  split
  · exact h
  · unfold dataInOpen
    dsimp only
    split
    · exact h
    · unfold acceptSegment
      dsimp only
      exact State.updateChannel_carries (State.writeSegment_carries h _ _) _ _
  · exact h
  · exact h

/-- CLOSE. -/
theorem actClose_carries (ch : Channel) (p : List Byte) : ActCarries (actClose ch p) := by
  intro s t h
  unfold actClose
  split
  · exact h
  · unfold closeInOpen
    repeat' split
    all_goals simp [h]
  · exact h
  · exact h

/-- COMMIT. -/
theorem actCommit_carries (p : List Byte) : ActCarries (actCommit p) := by
  intro s t h
  unfold actCommit withBlock
  split
  · exact h
  · unfold commitOf
    split
    · exact h.setFree _
    · split
      · exact h.setFree _
      · split
        · exact h
        · exact h.setBank_same _ (by simp [Bank.arm]) (by simp [Bank.arm])

/-- CANCEL. -/
theorem actCancel_carries (p : List Byte) : ActCarries (actCancel p) := by
  intro s t h
  unfold actCancel
  split
  · exact h
  · refine h.setBank_same _ ?_ ?_ <;> (unfold Bank.cancel; split <;> simp)

/-- REVERT. -/
theorem actRevert_carries (p : List Byte) : ActCarries (actRevert p) := by
  intro s t h
  unfold actRevert withBlock
  split
  · exact h
  · unfold revertOf
    split
    · exact h.setFree _
    · split
      · exact h
      · refine h.setBank _ (fun x y => ?_)
        simp only [Bank.revert, Bank.setStates_kept]
        exact Bank.restore_wf _ _ x y

/-- READ. -/
theorem actRead_carries (p : List Byte) : ActCarries (actRead p) := by
  intro s t h
  unfold actRead withBlock
  split <;> exact h

/-- STATUS. -/
theorem actStatus_carries (p : List Byte) : ActCarries (actStatus p) := by
  intro s t h
  unfold actStatus
  split <;> exact h

/-- A parameter set in its range keeps all in range (R107, R108). -/
theorem Params.set_inRange (q : Params) (id : ParamId) (v : Nat) (h : q.inRange)
    (hv : id.least ≤ v ∧ v ≤ id.greatest) : (q.set id v).inRange := by
  intro p
  have hp := h p
  have he : v ≤ 2047 → v % 2048 = v := by
    intro e
    omega
  cases id <;> cases p <;> simp only [Params.set, Params.get, ParamId.least, ParamId.greatest] at hp hv ⊢ <;>
    first
      | exact hp
      | exact hv
      | (rw [BitVec.toNat_ofNat]; omega)

/-- A parameter set. -/
@[simp] theorem State.setParam_carries {s t : State} (h : Carries s t) (id : ParamId) (v : Nat) (hv : id.least ≤ v ∧ v ≤ id.greatest) :
    Carries s (t.setParam id v) := by
  have b := h.setParams (t.params.set id v) (fun r => Params.set_inRange _ _ _ r hv)
  unfold State.setParam
  dsimp only
  split
  · exact State.checkLoss_carries b
  · exact b

/-- SET_PARAM. -/
theorem actSetParam_carries (p : List Byte) : ActCarries (actSetParam p) := by
  intro s t h
  unfold actSetParam withBlock
  split
  · exact h
  · unfold setParamOf
    split
    · exact h
    · dsimp only
      split
      · rename_i hv
        exact State.setParam_carries h _ _ hv
      · exact h

/-- A channel reset. -/
@[simp] theorem State.resetChannel_carries {s t : State} (h : Carries s t) (ch : Channel) :
    Carries s (t.resetChannel ch) := by
  unfold State.resetChannel
  try dsimp only
  all_goals simp (maxDischargeDepth := 40) [h]

/-- Every channel reset. -/
@[simp] theorem State.resetAllChannels_carries {s t : State} (h : Carries s t) :
    Carries s (t.resetAllChannels) := by
  exact (foldl_carries _ (fun _ _ a g => State.resetChannel_carries g a) allChannels (State.stopFill_carries h)).setRtq _
    (fun q => Rtq.held_of_sublist q List.filter_sublist q.2.1 q.2.2.1)

/-- The defaults are in range (R107). -/
theorem Params.default_inRange : Params.default.inRange := by
  intro p
  cases p <;> decide

/-- RESET with scope STATE. -/
@[simp] theorem State.resetManagement_carries {s t : State} (h : Carries s t) :
    Carries s (t.resetManagement) := by
  unfold State.resetManagement
  dsimp only
  apply State.loseStream_carries
  refine Carries.setParams ?_ _ (fun _ => Params.default_inRange)
  refine Carries.setRtq ?_ _ (fun q => Rtq.held_of_sublist q List.filter_sublist (Nat.zero_le _) (Nat.zero_le _))
  apply State.runtimeReset_carries
  refine (State.resetAllChannels_carries h).setBank _ (fun x y => ?_)
  simp only [Bank.resetState, Bank.setStates_kept]
  exact Bank.restore_wf _ _ x y

/-- RESET. -/
theorem actReset_carries (p : List Byte) : ActCarries (actReset p) := by
  intro s t h
  unfold actReset withBlock
  split
  · exact h
  · unfold resetOf
    repeat' split
    all_goals simp [h]

/-- The fallback timer. -/
@[simp] theorem State.expireFallback_carries {s t : State} (h : Carries s t) :
    Carries s (t.expireFallback) := by
  unfold State.expireFallback
  try dsimp only
  repeat' split
  all_goals simp (maxDischargeDepth := 40) [h]

/-- A fill step. -/
@[simp] theorem State.stepFill_carries {s t : State} (h : Carries s t) :
    Carries s (t.stepFill) := by
  unfold State.stepFill
  try dsimp only
  repeat' split
  all_goals simp (maxDischargeDepth := 40) [h]

/-- The end of a fill. -/
@[simp] theorem State.endFill_carries {s t : State} (h : Carries s t) :
    Carries s (t.endFill) := by
  unfold State.endFill
  try dsimp only
  repeat' split
  all_goals simp (maxDischargeDepth := 40) [h]

/-- Fill steps. -/
@[simp] theorem fillSteps_carries (k : Nat) {s t : State} (h : Carries s t) : Carries s (fillSteps k t) := by
  induction k generalizing t with
  | zero => exact h
  | succ k ih => exact ih (State.stepFill_carries h)

/-- A fill finished. -/
@[simp] theorem State.finishFill_carries {s t : State} (h : Carries s t) :
    Carries s (t.finishFill) := by
  unfold State.finishFill
  try dsimp only
  repeat' split
  all_goals simp (maxDischargeDepth := 40) [h]

/-- A start due taken. -/
@[simp] theorem State.takeDueStart_carries {s t : State} (h : Carries s t) (a b : List Channel) :
    Carries s (t.takeDueStart a b) := by
  unfold State.takeDueStart
  try dsimp only
  repeat' split
  all_goals simp (maxDischargeDepth := 40) [h]

/-- A timeout due taken. -/
@[simp] theorem State.takeTimeout_carries {s t : State} (h : Carries s t) (ch : Channel) :
    Carries s (t.takeTimeout ch) := by
  unfold State.takeTimeout
  try dsimp only
  repeat' split
  all_goals simp (maxDischargeDepth := 40) [h]

/-- A tick. -/
@[simp] theorem State.tick_carries {s t : State} (h : Carries s t) :
    Carries s (t.tick) := by
  unfold State.tick
  dsimp only
  refine Carries.setRtq ?_ _ id
  refine Carries.setStore ?_ _ id
  refine Carries.setFramer ?_ _
  exact h.setTracker_same _ rfl rfl rfl rfl

/-! ## Steps -/

/-- The power-on state has every invariant. -/
theorem State.powerOn_held : Rtq.powerOn.held := by
  refine ⟨Rtq.bounded_of _ (Nat.zero_le _) (fun _ => Nat.zero_le _), Nat.zero_le _, Nat.zero_le _, ?_⟩
  intro e he
  cases he

/-- Every table of a copy with nothing listed is canonical. -/
theorem copyWf_empty : copyWf #v[[], [], [], [], [], [], [], []] := by
  intro t
  fin_cases t <;> rfl

/-- Power-on reset restores every invariant. -/
@[simp] theorem State.holdReset_carries {s t : State} : Carries s t.holdReset := by
  refine ⟨fun _ => ?_, fun _ => ⟨rfl, copyWf_empty, copyWf_empty⟩, fun _ => rfl, fun _ => ?_,
    fun _ => Params.default_inRange, fun _ _ => ⟨Nat.zero_le _, Nat.zero_le _, fun _ => Nat.zero_le _⟩⟩
  · exact Rtq.held_of_sublist State.powerOn_held (List.Sublist.refl _) (Nat.zero_le _) (Nat.zero_le _)
  · exact List.length_replicate

/-- A short pulse. -/
@[simp] theorem State.shortPulse_carries {s t : State} (h : Carries s t) :
    Carries s (t.shortPulse) := by
  unfold State.shortPulse
  try dsimp only
  repeat' split
  all_goals simp (maxDischargeDepth := 40) [h]

/-- RESETN released. -/
@[simp] theorem State.releaseReset_carries {s t : State} (h : Carries s t) :
    Carries s (t.releaseReset) := by
  unfold State.releaseReset
  split
  · refine Carries.setPower ?_ _
    refine Carries.setBank (h.setStore _ (fun _ => rfl)) _ (fun _ _ => ⟨copyWf_empty, copyWf_empty⟩)
  · exact h
  · exact h

/-- Leaving reset. -/
@[simp] theorem State.leaveReset_carries {s t : State} (h : Carries s t) :
    Carries s (t.leaveReset) := by
  unfold State.leaveReset
  try dsimp only
  repeat' split
  all_goals simp (maxDischargeDepth := 40) [h]

/-- An idle moment of the running part. -/
@[simp] theorem State.idleRunning_carries {s t : State} (h : Carries s t) :
    Carries s (t.idleRunning) := by
  unfold State.idleRunning
  repeat' split
  · exact State.settle_carries h
  · exact State.operate_carries h _ (fun _ g => State.completeMessage_carries g)
  · exact State.operate_carries h _ (fun _ g => State.loseByTimeout_carries g)
  · exact State.operate_carries h _ (fun _ g => State.expireFallback_carries g)
  · exact State.operate_carries h _ (fun _ g => State.finishFill_carries g)
  · exact State.tick_carries h

/-- An idle moment. -/
@[simp] theorem State.idle_carries {s t : State} (h : Carries s t) :
    Carries s (t.idle) := by
  unfold State.idle
  try dsimp only
  repeat' split
  all_goals simp (maxDischargeDepth := 40) [h]

/-- Every command carries every invariant. -/
theorem exec_carries {c : Instr} {s t : State} (h : exec c s = .next t) : Carries s t := by
  have op : ∀ f : State → State, (∀ u, Carries s u → Carries s (f u)) → Carries s (s.operate f) :=
    fun f hf => State.operate_carries (.refl s) f hf
  cases c with
  | idle => cases h; exact op _ (fun _ g => g)
  | packetDiscard code => cases h; exact op _ (fun _ g => State.discardPacket_carries g _)
  | frameStart n => cases h; exact op _ (fun _ g => State.arrive_carries g _)
  | line number pixels => cases h; exact op _ (fun _ g => State.arrive_carries g _)
  | frameEnd n count flags => cases h; exact op _ (fun _ g => State.arrive_carries g _)
  | lossTimerExpiry =>
    simp only [exec, execLossTimerExpiry] at h
    split at h <;> cases h
    · unfold State.expireLoss
      split
      · exact State.takeExpiry_carries (.refl s)
      · exact op _ (fun _ g => State.loseByTimeout_carries g)
    · exact .refl s
    · exact .refl s
  | fallbackTimerExpiry => cases h; exact op _ (fun _ g => State.expireFallback_carries g)
  | outputFrameStart first mid =>
    simp only [exec, execOutputFrameStart] at h
    split at h <;> cases h
    · exact State.takeDueStart_carries (State.takeExpiry_carries (State.takeTimeouts_carries (.refl s))) _ _
    · exact .refl s
    · exact .refl s
  | channelTimeout ch =>
    simp only [exec, execChannelTimeout] at h
    split at h <;> cases h
    · exact State.takeTimeout_carries (.refl s) _
    · exact .refl s
    · exact .refl s
  | emitLine => cases h; exact op _ (fun _ g => State.emitNext_carries g)
  | openReq ch q p => cases h; exact op _ (fun _ g => State.deliver_carries g _ _ _ _ (actOpen_carries ch p))
  | openFill ch q p => cases h; exact op _ (fun _ g => State.deliver_carries g _ _ _ _ (actOpen_carries ch p))
  | data ch q p => cases h; exact op _ (fun _ g => State.deliver_carries g _ _ _ _ (actData_carries ch p))
  | close ch q p => cases h; exact op _ (fun _ g => State.deliver_carries g _ _ _ _ (actClose_carries ch p))
  | abort ch q p => cases h; exact op _ (fun _ g => State.takeAbort_carries g _ _)
  | commit ch q p => cases h; exact op _ (fun _ g => State.deliver_carries g _ _ _ _ (actCommit_carries p))
  | cancel ch q p => cases h; exact op _ (fun _ g => State.deliver_carries g _ _ _ _ (actCancel_carries p))
  | revert ch q p => cases h; exact op _ (fun _ g => State.deliver_carries g _ _ _ _ (actRevert_carries p))
  | read ch q p => cases h; exact op _ (fun _ g => State.deliver_carries g _ _ _ _ (actRead_carries p))
  | status ch q p => cases h; exact op _ (fun _ g => State.deliver_carries g _ _ _ _ (actStatus_carries p))
  | setParam ch q p => cases h; exact op _ (fun _ g => State.deliver_carries g _ _ _ _ (actSetParam_carries p))
  | resetChannels ch q p => cases h; exact op _ (fun _ g => State.deliver_carries g _ _ _ _ (actReset_carries p))
  | resetState ch q p => cases h; exact op _ (fun _ g => State.deliver_carries g _ _ _ _ (actReset_carries p))
  | unknownRequest ch q k p =>
    cases h
    exact op _ (fun _ g => State.deliver_carries g _ _ _ _ (fun _ _ g => g))
  | fillStep => cases h; exact op _ (fun _ g => State.stepFill_carries g)
  | fillCompletion => cases h; exact op _ (fun _ g => State.endFill_carries g)
  | messageCompletion => cases h; exact op _ (fun _ g => State.completeMessage_carries g)
  | powerOnReset pulse =>
    simp only [exec, execPowerOnReset] at h
    cases h
    split
    · exact State.holdReset_carries
    · exact State.shortPulse_carries (.refl s)
  | resetnRelease => cases h; exact State.releaseReset_carries (.refl s)
  | leaveReset => cases h; exact State.leaveReset_carries (.refl s)

end Sys2Proof.Machine
end

