-- ==== Sys2Proof/Laws/Ends.lean ====
section
/-! SUPPORT. The end of a step: frame packets wait only while they must, the lane is kept, and settling comes to an end. -/

namespace Sys2Proof.Machine

/-! ## The frame packets waiting -/

@[simp] theorem Tracker.enterSearch_waiting (t : Tracker) : t.enterSearch.waiting = t.waiting := rfl
@[simp] theorem Tracker.beginAttempt_waiting (t : Tracker) (n : Half) : (t.beginAttempt n).waiting = t.waiting := rfl
@[simp] theorem Tracker.nextLockingFrame_waiting (t : Tracker) (n : Half) :
    (t.nextLockingFrame n).waiting = t.waiting := rfl

/-- The frame packets waiting stay as they are. -/
@[simp] theorem State.truncate_waiting (s : State) :
    (s.truncate).tracker.waiting = s.tracker.waiting := by
  unfold State.truncate
  try dsimp only
  repeat' split
  all_goals simp

/-- The frame packets waiting stay as they are. -/
@[simp] theorem State.framerLosesLock_waiting (s : State) :
    (s.framerLosesLock).tracker.waiting = s.tracker.waiting := by
  unfold State.framerLosesLock
  try dsimp only
  repeat' split
  all_goals simp

/-- The frame packets waiting stay as they are. -/
@[simp] theorem State.loseStream_waiting (s : State) (c : LostCause) :
    (s.loseStream c).tracker.waiting = s.tracker.waiting := by
  unfold State.loseStream
  try dsimp only
  repeat' split
  all_goals simp

/-- The frame packets waiting stay as they are. -/
@[simp] theorem State.frameFault_waiting (s : State) (k : FaultKind) :
    (s.frameFault k).tracker.waiting = s.tracker.waiting := by
  unfold State.frameFault
  try dsimp only
  all_goals simp

/-- The frame packets waiting stay as they are. -/
@[simp] theorem State.faultInFrame_waiting (s : State) (k : FaultKind) :
    (s.faultInFrame k).tracker.waiting = s.tracker.waiting := by
  unfold State.faultInFrame
  try dsimp only
  all_goals simp

/-- The frame packets waiting stay as they are. -/
@[simp] theorem State.testFaultLimit_waiting (s : State) :
    (s.testFaultLimit).tracker.waiting = s.tracker.waiting := by
  unfold State.testFaultLimit
  try dsimp only
  repeat' split
  all_goals simp

/-- The frame packets waiting stay as they are. -/
@[simp] theorem State.verdict_waiting (s : State) :
    (s.verdict).tracker.waiting = s.tracker.waiting := by
  unfold State.verdict
  try dsimp only
  repeat' split
  all_goals simp

/-- The frame packets waiting stay as they are. -/
@[simp] theorem State.lateFault_waiting (s : State) (k : FaultKind) :
    (s.lateFault k).tracker.waiting = s.tracker.waiting := by
  unfold State.lateFault
  try dsimp only
  repeat' split
  all_goals simp

/-- The frame packets waiting stay as they are. -/
@[simp] theorem State.handLine_waiting (s : State) (n : Nat) (k : LineKind) (p : List Pixel) :
    (s.handLine n k p).tracker.waiting = s.tracker.waiting := by
  unfold State.handLine
  try dsimp only
  all_goals simp

/-- The frame packets waiting stay as they are. -/
@[simp] theorem State.handSubstitute_waiting (s : State) (n : Nat) :
    (s.handSubstitute n).tracker.waiting = s.tracker.waiting := by
  unfold State.handSubstitute
  try dsimp only
  all_goals simp

/-- The frame packets waiting stay as they are. -/
@[simp] theorem State.handSubstitutes_waiting (s : State) (a b : Nat) :
    (s.handSubstitutes a b).tracker.waiting = s.tracker.waiting := by
  rw [State.handSubstitutes_eq]
  rfl

/-- The frame packets waiting stay as they are. -/
@[simp] theorem State.lastLineHanded_waiting (s : State) :
    (s.lastLineHanded).tracker.waiting = s.tracker.waiting := by
  unfold State.lastLineHanded
  try dsimp only
  all_goals simp

/-- The frame packets waiting stay as they are. -/
@[simp] theorem State.forwardLine_waiting (s : State) (n : Nat) (p : List Pixel) :
    (s.forwardLine n p).tracker.waiting = s.tracker.waiting := by
  unfold State.forwardLine
  try dsimp only
  repeat' split
  all_goals simp

/-- The frame packets waiting stay as they are. -/
@[simp] theorem State.substituteRest_waiting (s : State) (ph : FramePhase) :
    (s.substituteRest ph).tracker.waiting = s.tracker.waiting := by
  unfold State.substituteRest
  try dsimp only
  all_goals simp

/-- The frame packets waiting stay as they are. -/
@[simp] theorem State.breakLock_waiting (s : State) :
    (s.breakLock).tracker.waiting = s.tracker.waiting := by
  unfold State.breakLock
  try dsimp only
  all_goals simp

/-- The frame packets waiting stay as they are. -/
@[simp] theorem State.lock_waiting (s : State) :
    (s.lock).tracker.waiting = s.tracker.waiting := by
  unfold State.lock
  try dsimp only
  all_goals simp

/-- The frame packets waiting stay as they are. -/
@[simp] theorem State.conformingFrame_waiting (s : State) :
    (s.conformingFrame).tracker.waiting = s.tracker.waiting := by
  unfold State.conformingFrame
  try dsimp only
  repeat' split
  all_goals simp

/-- The frame packets waiting stay as they are. -/
@[simp] theorem State.lineInLocking_waiting (s : State) (n : Nat) (p : List Pixel) :
    (s.lineInLocking n p).tracker.waiting = s.tracker.waiting := by
  unfold State.lineInLocking
  try dsimp only
  repeat' split
  all_goals simp

/-- The frame packets waiting stay as they are. -/
@[simp] theorem State.switchToPass_waiting (s : State) :
    (s.switchToPass).tracker.waiting = s.tracker.waiting := by
  unfold State.switchToPass
  try dsimp only
  all_goals simp

/-- The frame packets waiting stay as they are. -/
@[simp] theorem State.askStart_waiting (s : State) :
    (s.askStart).tracker.waiting = s.tracker.waiting := by
  unfold State.askStart
  try dsimp only
  repeat' split
  all_goals simp

/-- The frame packets waiting stay as they are. -/
@[simp] theorem State.openUpstream_waiting (s : State) (n : Half) :
    (s.openUpstream n).tracker.waiting = s.tracker.waiting := by
  unfold State.openUpstream
  try dsimp only
  all_goals simp

/-- The frame packets waiting stay as they are. -/
@[simp] theorem State.lineReceiving_waiting (s : State) (n : Nat) (p : List Pixel) :
    (s.lineReceiving n p).tracker.waiting = s.tracker.waiting := by
  unfold State.lineReceiving
  try dsimp only
  repeat' split
  all_goals simp

/-- The frame packets waiting stay as they are. -/
@[simp] theorem State.lineInLocked_waiting (s : State) (n : Nat) (p : List Pixel) :
    (s.lineInLocked n p).tracker.waiting = s.tracker.waiting := by
  unfold State.lineInLocked
  try dsimp only
  repeat' split
  all_goals simp

/-- The frame packets waiting stay as they are. -/
@[simp] theorem State.endInLocked_waiting (s : State) (n : Nat) :
    (s.endInLocked n).tracker.waiting = s.tracker.waiting := by
  unfold State.endInLocked
  try dsimp only
  repeat' split
  all_goals simp

/-- The frame packets waiting stay as they are. -/
@[simp] theorem State.takeStartPacket_waiting (s : State) (n : Half) :
    (s.takeStartPacket n).tracker.waiting = s.tracker.waiting := by
  unfold State.takeStartPacket
  try dsimp only
  repeat' split
  all_goals simp

/-- The frame packets waiting stay as they are. -/
@[simp] theorem State.dealStart_waiting (s : State) (n : Half) :
    (s.dealStart n).tracker.waiting = s.tracker.waiting := by
  unfold State.dealStart
  try dsimp only
  repeat' split
  all_goals simp

/-- The frame packets waiting stay as they are. -/
@[simp] theorem State.dealLine_waiting (s : State) (n : Half) (p : List Pixel) :
    (s.dealLine n p).tracker.waiting = s.tracker.waiting := by
  unfold State.dealLine
  try dsimp only
  repeat' split
  all_goals simp

/-- The frame packets waiting stay as they are. -/
@[simp] theorem State.dealEnd_waiting (s : State) (n : Half) :
    (s.dealEnd n).tracker.waiting = s.tracker.waiting := by
  unfold State.dealEnd
  try dsimp only
  repeat' split
  all_goals simp

/-- The frame packets waiting stay as they are. -/
@[simp] theorem State.dealFrame_waiting (s : State) (p : FramePacket) :
    (s.dealFrame p).tracker.waiting = s.tracker.waiting := by
  unfold State.dealFrame
  try dsimp only
  repeat' split
  all_goals simp

/-! ## The end of a step -/

/-- Frame packets wait only while they must (assumption log 4). -/
def State.waitsRight (s : State) : Prop := (s.tracker.waiting.isEmpty || s.framesWait) = true

/-- Dealing with waiting packets leaves none that need not wait. -/
theorem dealWaiting_waitsRight (l : List FramePacket) (s : State) (h : s.tracker.waiting = []) :
    (dealWaiting l s).waitsRight := by
  induction l generalizing s with
  | nil => simp [dealWaiting, State.waitsRight, h]
  | cons p rest ih =>
    simp only [dealWaiting]
    split
    · rename_i hf
      exact Bool.or_eq_true _ _ |>.mpr (.inr hf)
    · exact ih _ (by simpa using h)

/-- Draining leaves no frame packet waiting that need not wait. -/
theorem State.drain_waitsRight (s : State) : s.drain.waitsRight := by
  unfold State.drain
  split
  · assumption
  · exact dealWaiting_waitsRight _ _ rfl

/-- The end of a step leaves no frame packet waiting that need not wait. -/
theorem State.conclude_waitsRight (s : State) : s.conclude.waitsRight := State.drain_waitsRight _

/-- Timeouts taken leave no frame packet waiting that need not wait. -/
theorem State.takeTimeouts_waitsRight (s : State) : s.takeTimeouts.waitsRight := State.drain_waitsRight _

/-- Waiting packets dealt with keep the lane. -/
theorem dealWaiting_laneKept (l : List FramePacket) (s : State) (h : s.rtq.laneKept) :
    (dealWaiting l s).rtq.laneKept := by
  induction l generalizing s with
  | nil => exact h
  | cons p rest ih =>
    simp only [dealWaiting]
    split
    · exact h
    · exact ih _ (Rtq.laneKept_arbitrate _)

/-- Draining keeps the lane. -/
theorem State.drain_laneKept (s : State) (h : s.rtq.laneKept) : s.drain.rtq.laneKept := by
  unfold State.drain
  split
  · exact h
  · exact dealWaiting_laneKept _ _ h

/-- Timeouts taken keep the lane. -/
theorem State.takeTimeouts_laneKept (s : State) (h : s.rtq.laneKept) : s.takeTimeouts.rtq.laneKept := by
  have fold : ∀ (l : List Channel) (u : State), u.rtq.laneKept →
      (l.foldl (fun s ch => (s.timeOut ch).arbitrate) u).rtq.laneKept := by
    intro l
    induction l with
    | nil => exact fun u hu => hu
    | cons c rest ih => exact fun u _ => ih _ (Rtq.laneKept_arbitrate _)
  exact State.drain_laneKept _ (fold _ (s.setTimeoutsDue []) h)

/-- The end of a step keeps the lane. -/
theorem State.conclude_laneKept (s : State) : s.conclude.rtq.laneKept :=
  State.drain_laneKept _ (Rtq.laneKept_arbitrate _)

/-- From one state to another, the lane stays kept, and frame packets wait only while they must. -/
structure Ends (s t : State) : Prop where
  lane : s.rtq.laneKept → t.rtq.laneKept
  waits : s.waitsRight → t.waitsRight

/-- Nothing changed. -/
theorem Ends.refl (s : State) : Ends s s := ⟨id, id⟩

/-- One change after another. -/
theorem Ends.trans {s t u : State} (h1 : Ends s t) (h2 : Ends t u) : Ends s u :=
  ⟨h2.lane ∘ h1.lane, h2.waits ∘ h1.waits⟩

/-- Whatever a step did, its end makes both right. -/
theorem Ends.conclude (s t : State) : Ends s t.conclude :=
  ⟨fun _ => State.conclude_laneKept t, fun _ => State.conclude_waitsRight t⟩

/-- Timeouts taken. -/
theorem Ends.takeTimeouts (s : State) : Ends s s.takeTimeouts :=
  ⟨State.takeTimeouts_laneKept s, fun _ => State.takeTimeouts_waitsRight s⟩

/-- A loss timer expiry due at once. -/
theorem Ends.takeExpiry (s : State) : Ends s s.takeExpiry := by
  unfold State.takeExpiry
  split
  · exact .conclude s _
  · exact .refl s

/-- What is due at once. -/
theorem Ends.takeUrgent (k : Nat) (s : State) : Ends s (takeUrgent k s) := by
  induction k generalizing s with
  | zero => exact .refl s
  | succ k ih =>
    simp only [Machine.takeUrgent]
    split
    · exact (Ends.takeExpiry s).trans (ih _)
    · split
      · exact .refl s
      · exact ((Ends.conclude s _).trans (.takeTimeouts _)).trans (ih _)

/-- Settling. -/
theorem Ends.settle (s : State) : Ends s s.settle := (Ends.takeTimeouts s).trans (.takeUrgent _ _)

/-- A step of the part. -/
theorem Ends.operate (s : State) (f : State → State) : Ends s (s.operate f) := by
  unfold State.operate
  split
  · exact .conclude s _
  · exact .refl s
  · exact .refl s

/-- The output frame start that is due. -/
theorem Ends.takeDueStart (s : State) (a b : List Channel) : Ends s (s.takeDueStart a b) := by
  unfold State.takeDueStart
  split
  · exact .conclude s _
  · exact .refl s

/-- A channel timeout that is due. -/
theorem Ends.takeTimeout (s : State) (ch : Channel) : Ends s (s.takeTimeout ch) := by
  unfold State.takeTimeout
  split
  · exact .conclude s _
  · exact .refl s

/-- The part leaves reset. -/
theorem Ends.leaveReset (s : State) : Ends s s.leaveReset := by
  unfold State.leaveReset
  split
  · exact .refl s
  · exact .conclude s _
  · exact .refl s

/-- Power-on reset. -/
theorem Ends.holdReset (s t : State) : Ends s t.holdReset := ⟨fun _ _ => rfl, fun _ => rfl⟩

/-- A tick: the lane's clock runs. -/
theorem Ends.tick (s : State) : Ends s s.tick := ⟨id, id⟩

/-- An idle moment. -/
theorem Ends.idle (s : State) : Ends s s.idle := by
  unfold State.idle
  split
  · unfold State.idleRunning
    repeat' split
    · exact .settle s
    · exact .operate s _
    · exact .operate s _
    · exact .operate s _
    · exact .operate s _
    · exact .tick s
  · exact .refl s
  · split
    · exact .leaveReset s
    · exact ⟨id, id⟩

/-- Every command ends well. -/
theorem exec_ends (c : Instr) (s t : State) (h : exec c s = .next t) : Ends s t := by
  cases c
  case outputFrameStart a b =>
    simp only [exec, execOutputFrameStart] at h
    split at h <;> cases h
    · exact ((Ends.takeTimeouts s).trans (.takeExpiry _)).trans (.takeDueStart _ a b)
    · exact .refl s
    · exact .refl s
  case lossTimerExpiry =>
    simp only [exec, execLossTimerExpiry] at h
    split at h <;> cases h
    · unfold State.expireLoss
      split
      · exact .takeExpiry s
      · exact .operate s _
    · exact .refl s
    · exact .refl s
  case channelTimeout ch =>
    simp only [exec, execChannelTimeout] at h
    split at h <;> cases h
    · exact .takeTimeout s ch
    · exact .refl s
    · exact .refl s
  case powerOnReset p =>
    simp only [exec, execPowerOnReset] at h
    cases h
    split
    · exact .holdReset s s
    · unfold State.shortPulse
      dsimp only
      split
      · exact .holdReset s _
      · exact ⟨id, id⟩
  case resetnRelease =>
    simp only [exec, execResetnRelease] at h
    cases h
    unfold State.releaseReset
    split
    · exact ⟨id, id⟩
    · exact .refl s
    · exact .refl s
  case leaveReset =>
    cases h
    exact .leaveReset s
  all_goals (cases h; exact .operate s _)

/-! ## A loss timer expiry due at once -/

@[simp] theorem Tracker.enterSearch_expiryDue (t : Tracker) : t.enterSearch.expiryDue = false := rfl
@[simp] theorem Tracker.beginAttempt_expiryDue (t : Tracker) (n : Half) : (t.beginAttempt n).expiryDue = false := rfl
@[simp] theorem Tracker.nextLockingFrame_expiryDue (t : Tracker) (n : Half) :
    (t.nextLockingFrame n).expiryDue = false := rfl

/-- The loss of the stream leaves no expiry due. -/
@[simp] theorem State.loseStream_expiryDue (s : State) (c : LostCause) :
    (s.loseStream c).tracker.expiryDue = false := by
  have lost : ∀ u : State, u.framerLosesLock.tracker = u.tracker := by
    intro u
    unfold State.framerLosesLock
    repeat' split
    all_goals simp
  unfold State.loseStream
  split
  · rw [lost]
    simp
  · rfl
  · rfl

/-- No expiry becomes due. -/
@[simp] theorem State.truncate_expiryDue (s : State) (h : s.tracker.expiryDue = false) :
    (s.truncate).tracker.expiryDue = false := by
  unfold State.truncate
  try dsimp only
  repeat' split
  all_goals simp (maxDischargeDepth := 20) [h]

/-- No expiry becomes due. -/
@[simp] theorem State.framerLosesLock_expiryDue (s : State) (h : s.tracker.expiryDue = false) :
    (s.framerLosesLock).tracker.expiryDue = false := by
  unfold State.framerLosesLock
  try dsimp only
  repeat' split
  all_goals simp (maxDischargeDepth := 20) [h]

/-- No expiry becomes due. -/
@[simp] theorem State.frameFault_expiryDue (s : State) (k : FaultKind) (h : s.tracker.expiryDue = false) :
    (s.frameFault k).tracker.expiryDue = false := by
  unfold State.frameFault
  try dsimp only
  all_goals simp (maxDischargeDepth := 20) [h]

/-- No expiry becomes due. -/
@[simp] theorem State.faultInFrame_expiryDue (s : State) (k : FaultKind) (h : s.tracker.expiryDue = false) :
    (s.faultInFrame k).tracker.expiryDue = false := by
  unfold State.faultInFrame
  try dsimp only
  all_goals simp (maxDischargeDepth := 20) [h]

/-- No expiry becomes due. -/
@[simp] theorem State.testFaultLimit_expiryDue (s : State) (h : s.tracker.expiryDue = false) :
    (s.testFaultLimit).tracker.expiryDue = false := by
  unfold State.testFaultLimit
  try dsimp only
  repeat' split
  all_goals simp (maxDischargeDepth := 20) [h]

/-- No expiry becomes due. -/
@[simp] theorem State.verdict_expiryDue (s : State) (h : s.tracker.expiryDue = false) :
    (s.verdict).tracker.expiryDue = false := by
  unfold State.verdict
  split
  · exact State.testFaultLimit_expiryDue _ h
  · exact h

/-- No expiry becomes due. -/
@[simp] theorem State.lateFault_expiryDue (s : State) (k : FaultKind) (h : s.tracker.expiryDue = false) :
    (s.lateFault k).tracker.expiryDue = false := by
  have f := State.frameFault_expiryDue s k h
  unfold State.lateFault
  dsimp only
  split
  · exact f
  · exact State.testFaultLimit_expiryDue _ f

/-- No expiry becomes due. -/
@[simp] theorem State.handLine_expiryDue (s : State) (n : Nat) (k : LineKind) (p : List Pixel) (h : s.tracker.expiryDue = false) :
    (s.handLine n k p).tracker.expiryDue = false := by
  unfold State.handLine
  try dsimp only
  all_goals simp (maxDischargeDepth := 20) [h]

/-- No expiry becomes due. -/
@[simp] theorem State.handSubstitute_expiryDue (s : State) (n : Nat) (h : s.tracker.expiryDue = false) :
    (s.handSubstitute n).tracker.expiryDue = false := by
  unfold State.handSubstitute
  try dsimp only
  all_goals simp (maxDischargeDepth := 20) [h]

/-- No expiry becomes due. -/
@[simp] theorem State.handSubstitutes_expiryDue (s : State) (a b : Nat) (h : s.tracker.expiryDue = false) :
    (s.handSubstitutes a b).tracker.expiryDue = false := by
  rw [State.handSubstitutes_eq]
  exact h

/-- No expiry becomes due. -/
@[simp] theorem State.lastLineHanded_expiryDue (s : State) (h : s.tracker.expiryDue = false) :
    (s.lastLineHanded).tracker.expiryDue = false := State.verdict_expiryDue _ h

/-- No expiry becomes due. -/
@[simp] theorem State.forwardLine_expiryDue (s : State) (n : Nat) (p : List Pixel) (h : s.tracker.expiryDue = false) :
    (s.forwardLine n p).tracker.expiryDue = false := by
  have f : (if p.length = s.format.width then s else s.faultInFrame .width).tracker.expiryDue = false := by
    split <;> simp [h]
  unfold State.forwardLine
  dsimp only
  split
  · exact State.lastLineHanded_expiryDue _ (State.handLine_expiryDue _ _ _ _ f)
  · exact State.handLine_expiryDue _ _ _ _ f

/-- No expiry becomes due. -/
@[simp] theorem State.substituteRest_expiryDue (s : State) (ph : FramePhase) (h : s.tracker.expiryDue = false) :
    (s.substituteRest ph).tracker.expiryDue = false := State.verdict_expiryDue _ (State.handSubstitutes_expiryDue _ _ _ h)

/-- No expiry becomes due. -/
@[simp] theorem State.breakLock_expiryDue (s : State) : s.breakLock.tracker.expiryDue = false := rfl

/-- No expiry becomes due. -/
@[simp] theorem State.lock_expiryDue (s : State) (h : s.tracker.expiryDue = false) :
    (s.lock).tracker.expiryDue = false := by
  unfold State.lock
  try dsimp only
  all_goals simp (maxDischargeDepth := 20) [h]

/-- No expiry becomes due. -/
@[simp] theorem State.conformingFrame_expiryDue (s : State) (h : s.tracker.expiryDue = false) :
    (s.conformingFrame).tracker.expiryDue = false := by
  unfold State.conformingFrame
  dsimp only
  split
  · exact State.lock_expiryDue _ h
  · exact h

/-- No expiry becomes due. -/
@[simp] theorem State.lineInLocking_expiryDue (s : State) (n : Nat) (p : List Pixel) (h : s.tracker.expiryDue = false) :
    (s.lineInLocking n p).tracker.expiryDue = false := by
  unfold State.lineInLocking
  dsimp only
  split
  · exact h
  · rfl

/-- No expiry becomes due. -/
@[simp] theorem State.switchToPass_expiryDue (s : State) (h : s.tracker.expiryDue = false) :
    (s.switchToPass).tracker.expiryDue = false := by
  unfold State.switchToPass
  try dsimp only
  all_goals simp (maxDischargeDepth := 20) [h]

/-- No expiry becomes due. -/
@[simp] theorem State.askStart_expiryDue (s : State) (h : s.tracker.expiryDue = false) :
    (s.askStart).tracker.expiryDue = false := by
  unfold State.askStart
  try dsimp only
  repeat' split
  all_goals simp (maxDischargeDepth := 20) [h]

/-- No expiry becomes due. -/
@[simp] theorem State.openUpstream_expiryDue (s : State) (n : Half) :
    (s.openUpstream n).tracker.expiryDue = false := by
  unfold State.openUpstream
  exact State.askStart_expiryDue _ rfl

/-- No expiry becomes due. -/
@[simp] theorem State.lineReceiving_expiryDue (s : State) (n : Nat) (p : List Pixel) (h : s.tracker.expiryDue = false) :
    (s.lineReceiving n p).tracker.expiryDue = false := by
  unfold State.lineReceiving
  try dsimp only
  repeat' split
  all_goals simp (maxDischargeDepth := 20) [h]

/-- No expiry becomes due. -/
@[simp] theorem State.lineInLocked_expiryDue (s : State) (n : Nat) (p : List Pixel) (h : s.tracker.expiryDue = false) :
    (s.lineInLocked n p).tracker.expiryDue = false := by
  unfold State.lineInLocked
  try dsimp only
  repeat' split
  all_goals simp (maxDischargeDepth := 20) [h]

/-- No expiry becomes due. -/
@[simp] theorem State.endInLocked_expiryDue (s : State) (n : Nat) (h : s.tracker.expiryDue = false) :
    (s.endInLocked n).tracker.expiryDue = false := by
  unfold State.endInLocked
  dsimp only
  split
  · exact State.frameFault_expiryDue _ _ h
  · exact State.substituteRest_expiryDue _ _ (State.faultInFrame_expiryDue _ _ h)
  · split
    · exact h
    · exact State.lateFault_expiryDue _ _ h

/-- No expiry becomes due. -/
@[simp] theorem State.takeStartPacket_expiryDue (s : State) (n : Half) :
    (s.takeStartPacket n).tracker.expiryDue = false := by
  unfold State.takeStartPacket
  try dsimp only
  repeat' split
  all_goals simp

/-- No expiry becomes due. -/
@[simp] theorem State.dealStart_expiryDue (s : State) (n : Half) :
    (s.dealStart n).tracker.expiryDue = false := by
  unfold State.dealStart
  try dsimp only
  repeat' split
  all_goals simp

/-- No expiry becomes due. -/
@[simp] theorem State.dealLine_expiryDue (s : State) (n : Half) (p : List Pixel) (h : s.tracker.expiryDue = false) :
    (s.dealLine n p).tracker.expiryDue = false := by
  unfold State.dealLine
  try dsimp only
  repeat' split
  all_goals simp (maxDischargeDepth := 20) [h]

/-- No expiry becomes due. -/
@[simp] theorem State.dealEnd_expiryDue (s : State) (n : Half) (h : s.tracker.expiryDue = false) :
    (s.dealEnd n).tracker.expiryDue = false := by
  unfold State.dealEnd
  try dsimp only
  repeat' split
  all_goals simp (maxDischargeDepth := 20) [h]

/-- No expiry becomes due. -/
@[simp] theorem State.dealFrame_expiryDue (s : State) (p : FramePacket) (h : s.tracker.expiryDue = false) :
    (s.dealFrame p).tracker.expiryDue = false := by
  unfold State.dealFrame
  try dsimp only
  repeat' split
  all_goals simp (maxDischargeDepth := 20) [h]

/-! ## Settling comes to an end -/

/-- How many starts a start due brings: its own, and one it may have behind it. -/
def dueRank : Option StartCause → Nat
  | none => 0
  | some .entryThenUpstream => 2
  | some .upstream => 1
  | some .entry => 1
  | some .timer => 1
  | some .leaveReset => 1

theorem dueRank_le (d : Option StartCause) : dueRank d ≤ 2 := by
  rcases d with _ | ⟨_ | _ | _ | _ | _⟩ <;> decide

/-- A start taken leaves one start fewer due. -/
theorem dueRank_behind (c : StartCause) : dueRank (dueBehind c) < dueRank (some c) := by
  cases c <;> decide

/-- What is left to be taken at once: the frame packets waiting, an expiry due, an armed commit (which may bring one), and
output frame starts due. -/
def State.urgency (s : State) : Nat :=
  3 * s.tracker.waiting.length + 3 * s.tracker.expiryDue.toNat + 3 * s.bank.record.isSome.toNat + dueRank s.framer.due

/-- A start that can be taken is one that is due. -/
theorem State.due_of_startNow {s : State} {c : StartCause} (h : s.startNow = some c) : s.framer.due = some c := by
  unfold State.startNow at h
  split at h
  · exact h
  · split at h
    · rename_i e
      cases h
      exact e.1
    · cases h

/-- With no start due none can be taken. -/
theorem State.startNow_of_rank {s : State} (h : dueRank s.framer.due = 0) : s.startNow = none := by
  cases hn : s.startNow with
  | none => rfl
  | some c =>
    rw [State.due_of_startNow hn] at h
    cases c <;> cases h

/-- Dealing with waiting packets: the starts due that come cost a packet. -/
theorem dealWaiting_measure (l : List FramePacket) (s : State) (h : s.tracker.waiting = []) :
    3 * (dealWaiting l s).tracker.waiting.length + dueRank (dealWaiting l s).framer.due ≤
      3 * l.length + dueRank s.framer.due := by
  induction l generalizing s with
  | nil => simp only [dealWaiting, h]; exact Nat.le_refl _
  | cons p rest ih =>
    simp only [dealWaiting]
    split
    · exact Nat.le_refl _
    · have := ih (s.dealFrame p).arbitrate (by simpa using h)
      have := dueRank_le (s.dealFrame p).arbitrate.framer.due
      simp only [List.length_cons]
      omega

/-- Dealing with waiting packets makes no expiry due. -/
theorem dealWaiting_expiryDue (l : List FramePacket) (s : State) (h : s.tracker.expiryDue = false) :
    (dealWaiting l s).tracker.expiryDue = false := by
  induction l generalizing s with
  | nil => exact h
  | cons p rest ih =>
    simp only [dealWaiting]
    split
    · exact h
    · exact ih _ (by simp [h])

/-- An expiry due means one was due before. -/
theorem dealWaiting_expiryDue_le (l : List FramePacket) (s : State) :
    (dealWaiting l s).tracker.expiryDue.toNat ≤ s.tracker.expiryDue.toNat := by
  cases h : s.tracker.expiryDue
  · rw [dealWaiting_expiryDue l s h]
  · exact Bool.toNat_le _

/-- The end of a load leaves the commit record. -/
@[simp] theorem State.timeOut_record (s : State) (ch : Channel) : (s.timeOut ch).bank.record = s.bank.record := by
  simp only [State.timeOut, State.raise_kept, State.endLoad_eq, State.setChannels_bank, State.setBank_bank]
  split <;> rfl

/-- Timeouts due leave the commit record. -/
@[simp] theorem State.timeOutDue_record (s : State) : s.timeOutDue.bank.record = s.bank.record := by
  have fold : ∀ (l : List Channel) (u : State),
      (l.foldl (fun s ch => (s.timeOut ch).arbitrate) u).bank.record = u.bank.record := by
    intro l
    induction l with
    | nil => exact fun _ => rfl
    | cons c rest ih => exact fun u => by rw [List.foldl_cons, ih]; simp
  exact fold _ (s.setTimeoutsDue [])

/-- Draining brings no urgency. -/
theorem State.drain_urgency (s : State) : s.drain.urgency ≤ s.urgency := by
  unfold State.drain
  split
  · exact Nat.le_refl _
  · have h1 := dealWaiting_measure s.tracker.waiting (s.setTracker { s.tracker with waiting := [] }) rfl
    have h2 := dealWaiting_expiryDue_le s.tracker.waiting (s.setTracker { s.tracker with waiting := [] })
    simp only [State.setTracker_tracker, State.setTracker_framer] at h1 h2
    simp only [State.urgency, dealWaiting_kept, State.setTracker_bank]
    omega

/-- The end of a step brings no urgency. -/
theorem State.conclude_urgency (s : State) : s.conclude.urgency ≤ s.urgency := by
  have h := State.drain_urgency s.arbitrate
  simpa [State.conclude, State.urgency] using h

/-- Timeouts taken bring no urgency. -/
theorem State.takeTimeouts_urgency (s : State) : s.takeTimeouts.urgency ≤ s.urgency := by
  have h := State.drain_urgency s.timeOutDue
  simpa [State.takeTimeouts, State.urgency] using h

/-- An expiry that is due at once costs some urgency. -/
theorem State.takeExpiry_urgency (s : State) (h : s.tracker.expiryDue = true) : s.takeExpiry.urgency < s.urgency := by
  have h1 := State.conclude_urgency (s.loseStream .timeout)
  have h2 := dueRank_le (s.loseStream .timeout).framer.due
  have h3 : (s.loseStream .timeout).urgency ≤ 3 * s.tracker.waiting.length + 3 * s.bank.record.isSome.toNat + 2 := by
    simp only [State.urgency, State.loseStream_waiting, State.loseStream_expiryDue, State.loseStream_kept,
      Bool.toNat_false]
    omega
  have h4 : s.takeExpiry = (s.loseStream .timeout).conclude := by simp only [State.takeExpiry, h, if_true]
  rw [h4]
  have h5 : 3 * s.tracker.waiting.length + 3 + 3 * s.bank.record.isSome.toNat ≤ s.urgency := by
    simp only [State.urgency, h, Bool.toNat_true]
    omega
  omega

/-- A start taken by channels leaves the commit record. -/
@[simp] theorem channelTakesStart_fold_record (l : List Channel) (s : State) :
    (l.foldl State.channelTakesStart s).bank.record = s.bank.record := by
  induction l generalizing s with
  | nil => rfl
  | cons c rest ih =>
    rw [List.foldl_cons, ih]
    unfold State.channelTakesStart
    dsimp only
    split <;> simp

/-- The resolution of the commit record: an expiry it makes due costs the record. -/
theorem State.resolveCommit_measure (s : State) :
    s.resolveCommit.tracker.waiting = s.tracker.waiting ∧
      3 * s.resolveCommit.tracker.expiryDue.toNat + 3 * s.resolveCommit.bank.record.isSome.toNat ≤
        3 * s.tracker.expiryDue.toNat + 3 * s.bank.record.isSome.toNat := by
  have loss : ∀ u : State, u.checkLoss.tracker.waiting = u.tracker.waiting := by
    intro u
    unfold State.checkLoss
    split <;> rfl
  unfold State.resolveCommit
  split
  · exact ⟨rfl, Nat.le_refl _⟩
  · rename_i c hc
    have b := Bool.toNat_le (s.applyCommit c).tracker.expiryDue
    split
    · refine ⟨?_, ?_⟩
      · unfold State.applyCommit
        dsimp only
        split <;> split <;> simp [loss]
      · have : (s.applyCommit c).bank.record = none := by
          unfold State.applyCommit
          dsimp only
          split <;> split <;> simp
        rw [this, hc]
        simp only [Option.isSome_none, Option.isSome_some, Bool.toNat_false, Bool.toNat_true]
        omega
    · refine ⟨by simp [State.missCommit], ?_⟩
      rw [hc]
      simp only [State.missCommit, State.raise_kept, State.setBank_tracker, State.setBank_bank, Option.isSome_none,
        Option.isSome_some, Bool.toNat_false, Bool.toNat_true]
      omega
    · exact ⟨rfl, Nat.le_refl _⟩

/-- A change of geometry told to the tracker makes no expiry due. -/
theorem State.signalGeometry_measure (s : State) :
    s.signalGeometry.tracker.waiting = s.tracker.waiting ∧
      s.signalGeometry.tracker.expiryDue.toNat ≤ s.tracker.expiryDue.toNat := by
  unfold State.signalGeometry
  split
  · simp
  · simp
  · simp

/-- A frame begun leaves no start due but what was due behind it. -/
theorem State.beginFrame_rank (s : State) (y : FrameType) (g : Bool) :
    dueRank (s.beginFrame y g).framer.due ≤ dueRank s.framer.due := by
  cases g
  · exact Nat.le_refl _
  · exact Nat.zero_le _

/-- An output frame start that is due costs some urgency. -/
theorem State.takeStart_urgency (s : State) (c : StartCause) (h : s.startNow = some c) (a b : List Channel) :
    (s.takeStart c a b).urgency < s.urgency := by
  have key : ∀ (first mid rest : List Channel),
      let u := first.foldl State.channelTakesStart ((s.switchBefore c).setNumbers c)
      let v := mid.foldl State.channelTakesStart u.resolveCommit
      let g := geometryChanged u u.resolveCommit
      let w := rest.foldl State.channelCountsStart (if g then v.signalGeometry else v)
      (w.beginFrame (startType c g) g).urgency < s.urgency := by
    intro first mid rest u v g w
    have hu : u.tracker = s.tracker ∧ u.bank.record = s.bank.record ∧ u.framer.due = dueBehind c := by
      simp [u, State.setNumbers]
    have hr := State.resolveCommit_measure u
    have hv : v.tracker = u.resolveCommit.tracker ∧ v.bank.record = u.resolveCommit.bank.record ∧
        v.framer.due = dueBehind c := by simp [v, hu.2.2]
    have hg := State.signalGeometry_measure v
    have hw : w.tracker.waiting = v.tracker.waiting ∧ w.tracker.expiryDue.toNat ≤ v.tracker.expiryDue.toNat ∧
        w.bank.record = v.bank.record ∧ w.framer.due = dueBehind c := by
      simp only [w, channelCountsStart_fold_kept]
      split
      · exact ⟨hg.1, hg.2, by simp, by simp [hv.2.2]⟩
      · exact ⟨rfl, Nat.le_refl _, rfl, hv.2.2⟩
    have hb := State.beginFrame_rank w (startType c g) g
    have hd := dueRank_behind c
    rw [hw.2.2.2] at hb
    rw [hu.1, hu.2.1] at hr
    rw [hv.1] at hw
    rw [hv.2.1] at hw
    simp only [State.urgency, State.beginFrame_kept, hw.1, hw.2.2.1, hr.1, State.due_of_startNow h]
    omega
  exact key _ _ _

/-- What is due at once comes to an end. -/
theorem takeUrgent_settles (k : Nat) (s : State) (h : s.urgency ≤ k) (ht : s.timeoutsDue = []) :
    (takeUrgent k s).settled = true := by
  induction k generalizing s with
  | zero =>
    simp only [takeUrgent]
    rw [State.settled_iff]
    simp only [State.urgency] at h
    refine ⟨ht, ?_, State.startNow_of_rank (by omega)⟩
    cases he : s.tracker.expiryDue
    · rfl
    · simp [he] at h
  | succ k ih =>
    simp only [takeUrgent]
    split
    · rename_i he
      have := State.takeExpiry_urgency s he
      refine ih _ (by omega) ?_
      simp [State.takeExpiry, he, ht]
    · rename_i he
      split
      · rename_i hn
        rw [State.settled_iff]
        exact ⟨ht, by simpa using he, hn⟩
      · rename_i c hn
        have h1 := State.takeStart_urgency s c hn [] []
        have h2 := State.conclude_urgency (s.takeStart c [] [])
        have h3 := State.takeTimeouts_urgency (s.takeStart c [] []).conclude
        exact ih _ (by omega) (by simp)

/-- Settling leaves nothing due at once. -/
theorem State.settle_leaves_none (s : State) : s.settle.settled = true := by
  have h0 := dueRank_le s.takeTimeouts.framer.due
  refine takeUrgent_settles _ _ ?_ (by simp)
  have h := State.takeTimeouts_urgency s
  have h1 := Bool.toNat_le s.tracker.expiryDue
  have h2 := Bool.toNat_le s.bank.record.isSome
  have h3 := dueRank_le s.framer.due
  simp only [State.urgency] at h ⊢
  omega

/-- Settling leaves no frame packet waiting that need not wait. -/
theorem State.settle_waitsRight (s : State) : s.settle.waitsRight :=
  (Ends.takeUrgent _ _).waits (State.takeTimeouts_waitsRight s)

end Sys2Proof.Machine
end

