-- ==== Sys2Proof/Laws/Holds.lean ====
section
/-! SUPPORT. Who holds what: channels, table states, commit record, write port and due timeouts, carried on by each operation. -/

namespace Sys2Proof.Machine

/-- The channel that holds the write port. -/
def Store.holder (st : Store) : Option Channel := st.fill.map FillRecord.channel

/-- Ownership rests on channels, table states, commit record and the holder of the port. -/
theorem State.ownership_congr {s t : State} (h : s.ownership) (h1 : t.channels = s.channels)
    (h2 : t.bank.states = s.bank.states) (h3 : t.bank.record = s.bank.record)
    (h4 : t.store.holder = s.store.holder) : t.ownership := by
  have h4' : t.store.fill.map FillRecord.channel = s.store.fill.map FillRecord.channel := h4
  simpa only [State.ownership, recordArmed, fillHeld, h1, h2, h3, h4'] using h

/-- Ownership, the port left out on one channel. -/
def State.ownedBut (s : State) (ch : Channel) : Prop :=
  channelsFit s.channels ∧ tablesHeld s.bank.states s.channels ∧ recordArmed s.bank ∧
    (∀ k : Channel, k ≠ ch → (s.channels[k].state = .filling ↔ s.store.holder = some k)) ∧ s.store.holder ≠ some ch

/-- The end of a load keeps who holds what. -/
theorem State.endLoad_ownership {s : State} {ch : Channel} (h : s.ownedBut ch) (st : ShadowState)
    (hst : st = .loaded ∨ st = .partialLoad) (next : ChannelState) (hn : next = .idle ∨ next = .abandoned) :
    (s.endLoad ch st next).ownership := by
  obtain ⟨h1, h2, h3, h4, h5⟩ := h
  have hl : ∀ k, st ≠ .loading k := by rcases hst with rfl | rfl <;> simp
  have ha : st ≠ .armed := by rcases hst with rfl | rfl <;> simp
  refine ⟨fun k => ?_, fun t k => ?_, fun t => ?_, fun k => ?_⟩
  · rw [State.endLoad_channels]
    have := h1 k
    split
    · rcases hn with rfl | rfl
      · exact ⟨this.1, this.2.1, rfl⟩
      · exact ⟨this.1, this.2.1, rfl⟩
    · exact this
  · rw [State.endLoad_states, State.endLoad_channels]
    by_cases hc : Target.tableOf s.channels[ch].target = some t
    · rw [if_pos hc]
      refine ⟨fun e => absurd e (hl k), fun e => ?_⟩
      by_cases hk : k = ch
      · rw [if_pos hk] at e
        cases e
      · rw [if_neg hk] at e
        have e1 := (h2 t k).mpr e
        rw [(h2 t ch).mpr hc] at e1
        exact absurd (ShadowState.loading.inj e1).symm hk
    · rw [if_neg hc]
      by_cases hk : k = ch
      · subst hk
        rw [if_pos rfl]
        exact ⟨fun e => absurd ((h2 t k).mp e) hc, fun e => by cases e⟩
      · rw [if_neg hk]
        exact h2 t k
  · rw [State.endLoad_states, (State.endLoad_bank s ch st next).2.2]
    by_cases hc : Target.tableOf s.channels[ch].target = some t
    · rw [if_pos hc]
      refine ⟨fun e => absurd e ha, fun e => ?_⟩
      have e1 := (h3 t).mpr e
      rw [(h2 t ch).mpr hc] at e1
      cases e1
    · rw [if_neg hc]
      exact h3 t
  · rw [State.endLoad_channels]
    have hf : (s.endLoad ch st next).store = s.store := by simp
    rw [hf]
    by_cases hk : k = ch
    · subst hk
      rw [if_pos rfl]
      refine ⟨fun e => ?_, fun e => absurd e h5⟩
      rcases hn with rfl | rfl <;> cases e
    · rw [if_neg hk]
      exact h4 k hk

/-- A load or fill that ends keeps who holds what. -/
theorem State.dropLoad_ownership {s : State} (h : s.ownership) (ch : Channel) (st : ShadowState)
    (hst : st = .loaded ∨ st = .partialLoad) (next : ChannelState) (hn : next = .idle ∨ next = .abandoned) :
    ((s.stopFillOf ch).endLoad ch st next).ownership := by
  apply State.endLoad_ownership _ st hst next hn
  unfold State.stopFillOf
  split
  · rename_i hf
    refine ⟨h.1, h.2.1, h.2.2.1, fun k hk => ?_, by simp [State.stopFill, Store.holder]⟩
    have e := (h.2.2.2 ch).mp hf
    refine ⟨fun g => ?_, fun g => by simp [State.stopFill, Store.holder] at g⟩
    have e2 := (h.2.2.2 k).mp g
    rw [e] at e2
    exact absurd (Option.some.inj e2).symm hk
  · rename_i hf
    exact ⟨h.1, h.2.1, h.2.2.1, fun k _ => h.2.2.2 k, fun e => hf ((h.2.2.2 ch).mpr e)⟩

/-- A load that ends on a channel that is not FILLING keeps who holds what. -/
theorem State.endLoad_ownership_of_open {s : State} (h : s.ownership) (ch : Channel)
    (hf : s.channels[ch].state ≠ .filling) (st : ShadowState) (hst : st = .loaded ∨ st = .partialLoad)
    (next : ChannelState) (hn : next = .idle ∨ next = .abandoned) : (s.endLoad ch st next).ownership := by
  have := State.dropLoad_ownership h ch st hst next hn
  rwa [State.stopFillOf, if_neg hf] at this

/-- A channel context changed in other fields than state and target keeps who holds what. -/
theorem State.updateChannel_ownership {s : State} (h : s.ownership) (ch : Channel)
    (f : ChannelContext → ChannelContext) (h1 : (f s.channels[ch]).state = s.channels[ch].state)
    (h2 : (f s.channels[ch]).target = s.channels[ch].target)
    (h3 : (f s.channels[ch]).remaining ≤ (f s.channels[ch]).declared ∧ (f s.channels[ch]).declared ≤ 65535) :
    (s.updateChannel ch f).ownership := by
  have at' : ∀ k : Channel, ((s.updateChannel ch f).channels[k]).state = s.channels[k].state ∧
      ((s.updateChannel ch f).channels[k]).target = s.channels[k].target := by
    intro k
    rw [State.updateChannel_at]
    split
    · rename_i e
      subst e
      exact ⟨h1, h2⟩
    · exact ⟨rfl, rfl⟩
  refine ⟨fun k => ?_, fun t k => ?_, ?_, fun k => ?_⟩
  · have e := at' k
    have := h.1 k
    simp only [ChannelContext.fits] at this ⊢
    rw [e.1, e.2]
    refine ⟨?_, ?_, this.2.2⟩
    · rw [State.updateChannel_at]
      split
      · exact h3.1
      · exact this.1
    · rw [State.updateChannel_at]
      split
      · exact h3.2
      · exact this.2.1
  · rw [(at' k).2]
    simpa using h.2.1 t k
  · simpa using h.2.2.1
  · rw [(at' k).1]
    simpa using h.2.2.2 k

/-! ## The envelope -/

/-- A delivery begun. -/
theorem State.touch_ownership {s : State} (h : s.ownership) (ch : Channel) : (s.touch ch).ownership :=
  State.updateChannel_ownership h ch _ rfl rfl ⟨(h.1 ch).1, (h.1 ch).2.1⟩

/-- A reply that may abandon its channel. -/
theorem State.finishTaken_ownership {s : State} (h : s.ownership) (ch : Channel) (q : Bool) (k : Byte) (a : Answer) :
    (s.finishTaken ch q k a).ownership := by
  have h1 : ((s.updateChannel ch (·.answered (a.reply q k))).handOver ch (a.reply q k)).ownership := by
    refine State.ownership_congr (State.updateChannel_ownership h ch (·.answered (a.reply q k)) rfl rfl
      ⟨(h.1 ch).1, (h.1 ch).2.1⟩) ?_ ?_ ?_ ?_ <;> simp
  unfold State.finishTaken
  dsimp only
  unfold State.abandonTest
  split
  · refine State.ownership_congr (State.dropLoad_ownership h1 ch .partialLoad (.inr rfl) .abandoned (.inr rfl)) ?_ ?_ ?_ ?_ <;>
      simp [State.abandon]
  · exact h1

/-- A request delivered, its owner keeping who holds what. -/
theorem State.deliver_ownership {s : State} (h : s.ownership) (ch : Channel) (q : Bool) (k : Byte)
    (act : State → Answer × State) (ha : ∀ u : State, u.ownership → (act u).2.ownership) :
    (s.deliver ch q k act).ownership := by
  have h0 := State.touch_ownership h ch
  unfold State.deliver
  dsimp only
  split
  · refine State.ownership_congr h0 ?_ ?_ ?_ ?_ <;> simp [State.refuseAbandoned]
  · split
    · exact State.finishTaken_ownership (ha _ h0) ch q k _
    · unfold State.replay
      split
      · exact h0
      · refine State.ownership_congr h0 ?_ ?_ ?_ ?_ <;> simp

/-- An ABORT. -/
theorem State.takeAbort_ownership {s : State} (h : s.ownership) (ch : Channel) (q : Bool) :
    (s.takeAbort ch q).ownership := by
  have h1 := State.dropLoad_ownership h ch .partialLoad (.inr rfl) .idle (.inl rfl)
  unfold State.takeAbort
  dsimp only
  refine State.ownership_congr (State.updateChannel_ownership h1 ch
    (fun c => { c with expected := !q, errors := 0, last := abortReply q s.channels[ch].state }) rfl rfl
    ⟨(h1.1 ch).1, (h1.1 ch).2.1⟩) ?_ ?_ ?_ ?_ <;> simp

/-! ## Loads -/

/-- A channel in IDLE takes up a load of a table that no one holds and no commit names. -/
theorem State.startTable_ownership {s : State} (h : s.ownership) (ch : Channel) (hi : s.channels[ch].state = .idle)
    (t : TableId) (ht : s.bank.openRefusal t = none) (offset length : Nat) (hl : length ≤ 65535) :
    ((s.startLoad ch .opened (.table t offset) length).setBank (s.bank.setState t (.loading ch))).ownership := by
  have hn : (∀ k, s.bank.states[t] ≠ .loading k) ∧ s.bank.states[t] ≠ .armed := by
    unfold Bank.openRefusal at ht
    constructor
    · intro k e
      rw [e] at ht
      cases ht
    · intro e
      rw [e] at ht
      cases ht
  have hnone : s.channels[ch].target = none := by
    have := (h.1 ch).2.2
    rwa [hi] at this
  refine ⟨fun k => ?_, fun u k => ?_, fun u => ?_, fun k => ?_⟩
  · simp only [State.setBank_channels, State.startLoad, State.updateChannel_at]
    split
    · exact ⟨Nat.le_refl _, hl, rfl, by simp⟩
    · exact h.1 k
  · simp only [State.setBank_channels, State.setBank_bank, State.startLoad, State.updateChannel_at, Bank.setState,
      getElem_set_table]
    by_cases hu : u = t
    · subst hu
      rw [if_pos rfl]
      by_cases hk : k = ch
      · subst hk
        simp [Target.tableOf]
      · rw [if_neg hk]
        refine ⟨fun e => absurd (ShadowState.loading.inj e).symm hk, fun e => ?_⟩
        exact absurd ((h.2.1 u k).mpr e) (hn.1 k)
    · rw [if_neg hu]
      by_cases hk : k = ch
      · subst hk
        rw [if_pos rfl]
        refine ⟨fun e => ?_, fun e => ?_⟩
        · have := (h.2.1 u k).mp e
          rw [hnone] at this
          cases this
        · exact absurd (Option.some.inj e).symm hu
      · rw [if_neg hk]
        exact h.2.1 u k
  · simp only [State.setBank_bank, Bank.setState, getElem_set_table]
    by_cases hu : u = t
    · subst hu
      rw [if_pos rfl]
      refine ⟨fun e => (by cases e), fun e => ?_⟩
      exact absurd ((h.2.2.1 u).mpr e) hn.2
    · rw [if_neg hu]
      exact h.2.2.1 u
  · simp only [State.setBank_channels, State.startLoad, State.updateChannel_at]
    by_cases hk : k = ch
    · subst hk
      rw [if_pos rfl]
      refine ⟨fun e => (by cases e), fun e => ?_⟩
      have := (h.2.2.2 k).mpr (by simpa using e)
      rw [hi] at this
      cases this
    · rw [if_neg hk]
      simpa using h.2.2.2 k

/-- A channel in IDLE takes up a load of the store, or a fill while the port is FREE. -/
theorem State.startStore_ownership {s : State} (h : s.ownership) (ch : Channel) (hi : s.channels[ch].state = .idle)
    (length : Nat) (hl : length ≤ 65535) :
    (∀ planes start mode, (s.startLoad ch .opened (.store planes start mode) length).ownership) ∧
    ∀ f : FillRecord, f.channel = ch → s.store.fill = none →
      ((s.startLoad ch .filling .fill length).setStore { s.store with fill := some f }).ownership := by
  have hnone : s.channels[ch].target = none := by
    have := (h.1 ch).2.2
    rwa [hi] at this
  have tables : ∀ (target : Target) (u : TableId) (k : Channel), Target.tableOf (some target) = none →
      (s.bank.states[u] = .loading k ↔
        Target.tableOf (if k = ch then some target else s.channels[k].target) = some u) := by
    intro target u k ht
    by_cases hk : k = ch
    · subst hk
      rw [if_pos rfl, ht, h.2.1 u k, hnone]
      simp [Target.tableOf]
    · rw [if_neg hk]
      exact h.2.1 u k
  have push : ∀ (k : Channel) (c : ChannelContext),
      (if k = ch then c else s.channels[k]).target = if k = ch then c.target else s.channels[k].target := by
    intro k c
    split <;> rfl
  refine ⟨fun planes start mode => ⟨fun k => ?_, fun u k => ?_, ?_, fun k => ?_⟩,
    fun f hf hfree => ⟨fun k => ?_, fun u k => ?_, ?_, fun k => ?_⟩⟩
  · simp only [State.startLoad, State.updateChannel_at]
    split
    · exact ⟨Nat.le_refl _, hl, rfl, by simp⟩
    · exact h.1 k
  · simp only [State.startLoad, State.updateChannel_at, State.updateChannel_kept, push]
    exact tables _ u k rfl
  · simpa [State.startLoad] using h.2.2.1
  · simp only [State.startLoad, State.updateChannel_at, State.updateChannel_kept]
    by_cases hk : k = ch
    · subst hk
      rw [if_pos rfl]
      refine ⟨fun e => (by cases e), fun e => ?_⟩
      have := (h.2.2.2 k).mpr e
      rw [hi] at this
      cases this
    · rw [if_neg hk]
      exact h.2.2.2 k
  · simp only [State.setStore_channels, State.startLoad, State.updateChannel_at]
    split
    · exact ⟨Nat.le_refl _, hl, rfl⟩
    · exact h.1 k
  · simp only [State.setStore_channels, State.setStore_bank, State.startLoad, State.updateChannel_at,
      State.updateChannel_kept, push]
    exact tables _ u k rfl
  · simpa [State.startLoad] using h.2.2.1
  · simp only [State.setStore_channels, State.setStore_store, State.startLoad, State.updateChannel_at]
    by_cases hk : k = ch
    · subst hk
      rw [if_pos rfl]
      simp [hf]
    · rw [if_neg hk]
      refine ⟨fun e => ?_, fun e => ?_⟩
      · have := (h.2.2.2 k).mp e
        rw [hfree] at this
        cases this
      · simp only [Option.map_some, Option.some.injEq, hf] at e
        exact absurd e.symm hk

/-- OPEN, in either row. -/
theorem actOpen_ownership (ch : Channel) (p : List Byte) (s : State) (h : s.ownership) :
    (actOpen ch p s).2.ownership := by
  unfold actOpen
  split
  · rename_i hi
    unfold withBlock
    split
    · exact h
    · rename_i b _
      unfold openBlockInIdle
      split
      · rename_i t _
        unfold openTable
        split
        · exact h
        · rename_i hr
          refine State.startTable_ownership h ch hi t ?_ _ _ (by omega)
          unfold tableOpenRefusal at hr
          split at hr
          · cases hr
          · exact hr
      · split
        · unfold openStore
          split
          · exact h
          · rename_i hr
            dsimp only
            split
            · rename_i hm
              refine (State.startStore_ownership h ch hi _ (by omega)).2 _ rfl ?_
              unfold storeOpenRefusal at hr
              split at hr
              · cases hr
              · split at hr
                · cases hr
                · exact Option.map_eq_none_iff.mp hr
            · exact (State.startStore_ownership h ch hi _ (by omega)).1 _ _ _
        · exact h
  · exact h
  · exact h
  · exact h

/-- DATA. -/
theorem actData_ownership (ch : Channel) (p : List Byte) (s : State) (h : s.ownership) :
    (actData ch p s).2.ownership := by
  unfold actData
  split
  · exact h
  · unfold dataInOpen
    dsimp only
    split
    · exact h
    · unfold acceptSegment
      dsimp only
      have hw : (s.writeSegment s.channels[ch] p).ownership := by
        unfold State.writeSegment
        split
        · exact State.ownership_congr h rfl rfl rfl rfl
        · exact State.ownership_congr h rfl rfl rfl rfl
        · exact h
        · exact h
      have hc : (s.writeSegment s.channels[ch] p).channels = s.channels := by
        unfold State.writeSegment
        split <;> rfl
      refine State.updateChannel_ownership hw ch _ rfl rfl ⟨?_, (hw.1 ch).2.1⟩
      have := (h.1 ch).1
      simp only [hc]
      omega
  · exact h
  · exact h

/-- CLOSE. -/
theorem actClose_ownership (ch : Channel) (p : List Byte) (s : State) (h : s.ownership) :
    (actClose ch p s).2.ownership := by
  unfold actClose
  split
  · exact h
  · rename_i ho
    have hf : s.channels[ch].state ≠ .filling := by rw [ho]; simp
    unfold closeInOpen
    split
    · exact h
    · split
      · exact State.endLoad_ownership_of_open h ch hf .loaded (.inl rfl) .idle (.inl rfl)
      · exact State.endLoad_ownership_of_open h ch hf .partialLoad (.inr rfl) .idle (.inl rfl)
  · exact h
  · exact h

/-! ## Commits -/

/-- Table states set where no channel holds a table, with a commit record that names the armed ones. -/
theorem State.setStates_ownership {s : State} (h : s.ownership) (ts : List TableId) (st : ShadowState) (b : Bank)
    (hs : ∀ t : TableId, b.states[t] = if t ∈ ts then st else s.bank.states[t])
    (hl : ∀ k, st ≠ .loading k) (hn : ∀ t ∈ ts, ∀ k, s.bank.states[t] ≠ .loading k) (hr : recordArmed b) :
    (s.setBank b).ownership := by
  refine ⟨h.1, fun t k => ?_, hr, h.2.2.2⟩
  simp only [State.setBank_bank, State.setBank_channels, hs]
  by_cases ht : t ∈ ts
  · rw [if_pos ht]
    exact ⟨fun e => absurd e (hl k), fun e => absurd ((h.2.1 t k).mpr e) (hn t ht k)⟩
  · rw [if_neg ht]
    exact h.2.1 t k

/-- An armed commit resolved: its tables take another state, the record is empty. -/
theorem State.resolve_ownership {s : State} (h : s.ownership) (c : Commit) (hc : s.bank.record = some c)
    (st : ShadowState) (b : Bank) (hs : ∀ t : TableId, b.states[t] = if t ∈ maskTables c.mask then st else s.bank.states[t])
    (hl : ∀ k, st ≠ .loading k) (ha : st ≠ .armed) (hb : b.record = none) : (s.setBank b).ownership := by
  have armed : ∀ t ∈ maskTables c.mask, s.bank.states[t] = .armed := fun t ht =>
    (h.2.2.1 t).mpr ⟨c, hc, (mem_maskTables c.mask t).mp ht⟩
  refine State.setStates_ownership h (maskTables c.mask) st b hs hl (fun t ht k e => ?_) (fun t => ?_)
  · rw [armed t ht] at e
    cases e
  · rw [hs, hb]
    by_cases ht : t ∈ maskTables c.mask
    · rw [if_pos ht]
      exact ⟨fun e => absurd e ha, fun e => by obtain ⟨_, e, _⟩ := e; cases e⟩
    · rw [if_neg ht]
      refine ⟨fun e => ?_, fun e => by obtain ⟨_, e, _⟩ := e; cases e⟩
      obtain ⟨d, hd, hm⟩ := (h.2.2.1 t).mp e
      rw [hc] at hd
      cases hd
      exact absurd ((mem_maskTables c.mask t).mpr hm) ht

/-- COMMIT. -/
theorem actCommit_ownership (p : List Byte) (s : State) (h : s.ownership) : (actCommit p s).2.ownership := by
  unfold actCommit withBlock
  split
  · exact h
  · rename_i b _
    unfold commitOf
    split
    · exact State.ownership_congr h rfl rfl rfl rfl
    · split
      · exact State.ownership_congr h rfl rfl rfl rfl
      · split
        · exact h
        · rename_i timing _ _ _ hr
          have hb : s.bank.commitRefusal (maskTables b.mask) = none := by
            unfold commitRefusal at hr
            split at hr
            · cases hr
            · assumption
          unfold Bank.commitRefusal at hb
          split at hb
          · cases hb
          · rename_i hrec
            split at hb
            · cases hb
            · rename_i hfind
              have hn : ∀ t ∈ maskTables b.mask, ∀ k, s.bank.states[t] ≠ .loading k := by
                intro t ht k e
                have := List.find?_eq_none.mp hfind t ht
                rw [e] at this
                exact this rfl
              refine State.setStates_ownership h (maskTables b.mask) .armed _
                (fun t => Bank.setStates_states s.bank (maskTables b.mask) .armed t) (by simp) hn (fun t => ?_)
              have hst : (s.bank.arm b.mask timing b.tag).states[t] =
                  if t ∈ maskTables b.mask then .armed else s.bank.states[t] :=
                Bank.setStates_states s.bank (maskTables b.mask) .armed t
              rw [hst]
              have hrecord : (s.bank.arm b.mask timing b.tag).record = some ⟨b.mask, timing, b.tag⟩ := rfl
              rw [hrecord]
              by_cases ht : t ∈ maskTables b.mask
              · rw [if_pos ht]
                exact ⟨fun _ => ⟨_, rfl, (mem_maskTables b.mask t).mp ht⟩, fun _ => rfl⟩
              · rw [if_neg ht]
                refine ⟨fun e => ?_, fun e => ?_⟩
                · obtain ⟨d, hd, _⟩ := (h.2.2.1 t).mp e
                  rw [hrec] at hd
                  cases hd
                · obtain ⟨d, hd, hm⟩ := e
                  cases hd
                  exact absurd ((mem_maskTables b.mask t).mpr hm) ht

/-- CANCEL. -/
theorem actCancel_ownership (p : List Byte) (s : State) (h : s.ownership) : (actCancel p s).2.ownership := by
  unfold actCancel
  split
  · exact h
  · dsimp only
    cases hc : s.bank.record with
    | none =>
      have : s.bank.cancel = s.bank := by simp [Bank.cancel, hc]
      rw [this]
      exact h
    | some c =>
      have : s.bank.cancel = { s.bank.setStates (maskTables c.mask) .loaded with record := none } := by
        simp [Bank.cancel, hc]
      rw [this]
      exact State.resolve_ownership h c hc .loaded _ (fun t => Bank.setStates_states s.bank _ .loaded t) (by simp) (by simp) rfl

/-- REVERT. -/
theorem actRevert_ownership (p : List Byte) (s : State) (h : s.ownership) : (actRevert p s).2.ownership := by
  unfold actRevert withBlock
  split
  · exact h
  · rename_i mask _
    unfold revertOf
    split
    · exact State.ownership_congr h rfl rfl rfl rfl
    · split
      · exact h
      · rename_i hr
        unfold Bank.revertRefusal at hr
        split at hr
        · cases hr
        · rename_i hfind
          have hfind2 := Option.map_eq_none_iff.mp hr
          have hn : ∀ t ∈ maskTables mask, ∀ k, s.bank.states[t] ≠ .loading k := by
            intro t ht k e
            have := List.find?_eq_none.mp hfind t ht
            rw [e] at this
            exact this rfl
          have ha : ∀ t ∈ maskTables mask, s.bank.states[t] ≠ .armed := by
            intro t ht e
            have := List.find?_eq_none.mp hfind2 t ht
            rw [e] at this
            exact this rfl
          have hst : ∀ t : TableId, (s.bank.revert (maskTables mask)).states[t] =
              if t ∈ maskTables mask then .clean else s.bank.states[t] := fun t => by
            unfold Bank.revert
            rw [Bank.setStates_states]
            simp
          refine State.setStates_ownership h (maskTables mask) .clean _ hst (by simp) hn (fun t => ?_)
          rw [hst]
          have hrecord : (s.bank.revert (maskTables mask)).record = s.bank.record := by simp [Bank.revert]
          rw [hrecord]
          by_cases ht : t ∈ maskTables mask
          · rw [if_pos ht]
            exact ⟨fun e => (by cases e), fun e => absurd ((h.2.2.1 t).mpr e) (ha t ht)⟩
          · rw [if_neg ht]
            exact h.2.2.1 t

/-! ## Resets -/

/-- Every channel reset: nothing is held. -/
theorem State.resetAllChannels_ownership {s : State} (h : s.ownership) : s.resetAllChannels.ownership := by
  have e := resetChannel_fold_at allChannels (by decide) s.stopFill
  have hk : (allChannels.foldl State.resetChannel s.stopFill).store = s.stopFill.store := by
    simp [allChannels]
  unfold State.resetAllChannels
  refine ⟨fun k => ?_, fun t k => ?_, fun t => ?_, fun k => ?_⟩
  · simp only [State.setRtq_channels, e.1 k, if_pos (mem_allChannels k)]
    exact ⟨(h.1 k).1, (h.1 k).2.1, rfl⟩
  · simp only [State.setRtq_channels, State.setRtq_bank, e.1 k, if_pos (mem_allChannels k), e.2.1 t]
    refine ⟨fun g => ?_, fun g => by cases g⟩
    split at g
    · cases g
    · rename_i hno
      exact absurd ⟨k, mem_allChannels k, (h.2.1 t k).mp g⟩ hno
  · have hrec : ((allChannels.foldl State.resetChannel s.stopFill).setRtq
        (allChannels.foldl State.resetChannel s.stopFill).rtq.removeReplies).bank.record = s.bank.record := e.2.2.2.2.1
    rw [hrec]
    simp only [State.setRtq_bank, e.2.1 t]
    split
    · rename_i hyes
      obtain ⟨k, _, hk⟩ := hyes
      refine ⟨fun g => (by cases g), fun g => ?_⟩
      have g1 := (h.2.2.1 t).mpr g
      rw [(h.2.1 t k).mpr hk] at g1
      cases g1
    · exact h.2.2.1 t
  · simp only [State.setRtq_channels, State.setRtq_store, e.1 k, if_pos (mem_allChannels k), hk]
    exact ⟨fun g => (by cases g), fun g => (by cases g)⟩

/-- RESET. -/
theorem actReset_ownership (p : List Byte) (s : State) (h : s.ownership) : (actReset p s).2.ownership := by
  have h1 := State.resetAllChannels_ownership h
  unfold actReset withBlock
  split
  · exact h
  · unfold resetOf
    split
    · exact h1
    · split
      · have hst : ∀ t : TableId, s.resetAllChannels.bank.resetState.states[t] = .clean := by
          intro t
          have := Bank.setStates_states (s.resetAllChannels.bank.restore allTables) allTables .clean t
          rw [if_pos (mem_allTables t)] at this
          exact this
        have h2 : (s.resetAllChannels.setBank s.resetAllChannels.bank.resetState).ownership := by
          refine ⟨h1.1, fun t k => ?_, fun t => ?_, h1.2.2.2⟩
          · simp only [State.setBank_bank, State.setBank_channels, hst]
            refine ⟨fun g => (by cases g), fun g => ?_⟩
            have e := resetChannel_fold_at allChannels (by decide) s.stopFill
            have : s.resetAllChannels.channels[k].target = none := by
              simp only [State.resetAllChannels, State.setRtq_channels, e.1 k, if_pos (mem_allChannels k)]
            rw [this] at g
            cases g
          · simp only [State.setBank_bank, hst]
            exact ⟨fun g => (by cases g), fun ⟨_, g, _⟩ => (by cases g)⟩
        unfold State.resetManagement
        dsimp only
        refine State.ownership_congr h2 ?_ ?_ ?_ ?_
        · simp
        · simp
        · simp
        · simp
      · exact h

/-! ## The output frame start -/

/-- Who holds what, with the timeouts due (R96). -/
def State.owns (s : State) : Prop := s.ownership ∧ s.timeoutsHeld

/-- The running part with no timeout due. -/
def State.calm (s : State) : Prop := s.ownership ∧ s.timeoutsDue = [] ∧ s.power = .running

/-- A running part with no timeout due holds the timeouts due. -/
theorem State.calm.owns {s : State} (h : s.calm) : s.owns := by
  refine ⟨h.1, ?_, ?_, fun e => absurd h.2.2 e⟩
  · rw [h.2.1]
    exact List.nodup_nil
  · rw [h.2.1]
    exact fun _ e => by cases e

/-- A running part with no timeout due, other fields aside. -/
theorem State.calm_congr {s t : State} (h : s.calm) (h1 : t.channels = s.channels) (h2 : t.bank = s.bank)
    (h3 : t.store = s.store) (h4 : t.timeoutsDue = s.timeoutsDue) (h5 : t.power = s.power) : t.calm :=
  ⟨State.ownership_congr h.1 h1 (by rw [h2]) (by rw [h2]) (by rw [h3]), h4.trans h.2.1, h5.trans h.2.2⟩

/-- A channel times out. -/
theorem State.timeOut_ownership {s : State} (h : s.ownership) (ch : Channel) (ho : s.channels[ch].state = .opened) :
    (s.timeOut ch).ownership := by
  have h1 := State.endLoad_ownership_of_open h ch (by rw [ho]; simp) .partialLoad (.inr rfl) .idle (.inl rfl)
  unfold State.timeOut
  refine State.ownership_congr h1 ?_ ?_ ?_ ?_ <;> simp

/-- Timeouts taken one after another, each channel OPEN. -/
theorem timeOut_fold_ownership (l : List Channel) (hl : l.Nodup) (s : State) (h : s.ownership)
    (ho : ∀ ch ∈ l, s.channels[ch].state = .opened) :
    (l.foldl (fun s ch => (s.timeOut ch).arbitrate) s).ownership := by
  induction l generalizing s with
  | nil => exact h
  | cons c rest ih =>
    have hd := List.nodup_cons.mp hl
    rw [List.foldl_cons]
    refine ih hd.2 _ ?_ ?_
    · refine State.ownership_congr (State.timeOut_ownership h c (ho c List.mem_cons_self)) ?_ ?_ ?_ ?_ <;> simp
    · intro k hk
      have hne : k ≠ c := fun e => hd.1 (e ▸ hk)
      have : (s.timeOut c).arbitrate.channels[k] = s.channels[k] := by
        simp only [State.arbitrate_kept, State.timeOut, State.raise_kept, State.endLoad_channels, if_neg hne]
      rw [this]
      exact ho k (List.mem_cons_of_mem _ hk)

/-- The timeouts due are taken. -/
theorem State.takeTimeouts_calm {s : State} (h : s.owns) (hp : s.power = .running) : s.takeTimeouts.calm := by
  refine ⟨?_, by simp, by simpa using hp⟩
  have h1 : s.timeOutDue.ownership :=
    timeOut_fold_ownership _ h.2.1 (s.setTimeoutsDue []) (State.ownership_congr h.1 rfl rfl rfl rfl) h.2.2.1
  refine State.ownership_congr h1 ?_ ?_ ?_ ?_ <;> simp [State.takeTimeouts]

/-- The end of a step with no timeout due. -/
theorem State.conclude_calm {s : State} (h : s.calm) : s.conclude.calm :=
  State.calm_congr h (by simp) (by simp) (by simp) (by simp) (by simp)

/-- Who holds what, other fields aside. -/
theorem State.owns_congr {s t : State} (h : s.owns) (h1 : t.channels = s.channels) (h2 : t.bank = s.bank)
    (h3 : t.store = s.store) (h4 : t.timeoutsDue = s.timeoutsDue) (h5 : t.power = s.power) : t.owns :=
  ⟨State.ownership_congr h.1 h1 (by rw [h2]) (by rw [h2]) (by rw [h3]), by
    simpa only [State.timeoutsHeld, h1, h4, h5] using h.2⟩

/-- The end of a step. -/
theorem State.conclude_owns {s : State} (h : s.owns) : s.conclude.owns :=
  State.owns_congr h (by simp) (by simp) (by simp) (by simp) (by simp)

/-- Raised idle frames. -/
theorem State.raiseIdle_ownership {s : State} (h : s.ownership) (ch : Channel) : (s.raiseIdle ch).ownership := by
  unfold State.raiseIdle
  apply State.updateChannel_ownership h
  · split <;> rfl
  · split <;> rfl
  · have := h.1 ch
    split
    · exact ⟨this.1, this.2.1⟩
    · exact ⟨this.1, this.2.1⟩

/-- Channels that take a start, timeouts included. -/
theorem channelTakesStart_fold_ownership (l : List Channel) {s : State} (h : s.ownership) :
    (l.foldl State.channelTakesStart s).ownership := by
  induction l generalizing s with
  | nil => exact h
  | cons c rest ih =>
    refine ih ?_
    have h1 := State.raiseIdle_ownership h c
    unfold State.channelTakesStart
    dsimp only
    split
    · rename_i ht
      refine State.timeOut_ownership h1 c ?_
      unfold State.timeoutReached at ht
      simp only [Bool.and_eq_true, beq_iff_eq] at ht
      exact ht.1
    · exact h1

/-- Channels that take a start, their timeouts to come. -/
theorem channelCountsStart_fold_ownership (l : List Channel) {s : State} (h : s.ownership) :
    (l.foldl State.channelCountsStart s).ownership := by
  induction l generalizing s with
  | nil => exact h
  | cons c rest ih =>
    refine ih ?_
    have h1 := State.raiseIdle_ownership h c
    unfold State.channelCountsStart
    dsimp only
    split
    · exact State.ownership_congr h1 rfl rfl rfl rfl
    · exact h1

/-- The commit record resolved. -/
theorem State.resolveCommit_ownership {s : State} (h : s.ownership) : s.resolveCommit.ownership := by
  unfold State.resolveCommit
  split
  · exact h
  · rename_i c hc
    split
    · have h1 := State.resolve_ownership h c hc .clean
        { (s.bank.activate (maskTables c.mask)).setStates (maskTables c.mask) .clean with record := none }
        (fun t => Bank.setStates_states (s.bank.activate (maskTables c.mask)) (maskTables c.mask) .clean t)
        (by simp) (by simp) rfl
      unfold State.applyCommit
      dsimp only
      split <;> split <;> (refine State.ownership_congr h1 ?_ ?_ ?_ ?_ <;> simp)
    · have h1 := State.resolve_ownership h c hc .loaded
        { s.bank.setStates (maskTables c.mask) .loaded with record := none }
        (fun t => Bank.setStates_states s.bank (maskTables c.mask) .loaded t) (by simp) (by simp) rfl
      unfold State.missCommit
      refine State.ownership_congr h1 ?_ ?_ ?_ ?_ <;> simp
    · exact h

/-- A change of geometry told to the tracker. -/
theorem State.signalGeometry_ownership {s : State} (h : s.ownership) : s.signalGeometry.ownership := by
  unfold State.signalGeometry
  split
  · refine State.ownership_congr h ?_ ?_ ?_ ?_ <;> simp
  · exact State.ownership_congr h rfl rfl rfl rfl
  · exact h

/-- The output frame start. -/
theorem State.takeStart_owns {s : State} (h : s.calm) (c : StartCause) (a b : List Channel) :
    (s.takeStart c a b).owns ∧ (s.takeStart c a b).power = .running := by
  refine ⟨?_, by simpa using h.2.2⟩
  have key : ∀ (first mid rest : List Channel), rest.Nodup →
      let u := first.foldl State.channelTakesStart ((s.switchBefore c).setNumbers c)
      let v := mid.foldl State.channelTakesStart u.resolveCommit
      let g := geometryChanged u u.resolveCommit
      let w := rest.foldl State.channelCountsStart (if g then v.signalGeometry else v)
      (w.beginFrame (startType c g) g).owns := by
    intro first mid rest hn u v g w
    have h0 : ((s.switchBefore c).setNumbers c).ownership :=
      State.ownership_congr h.1 (by simp) (by simp) (by simp) (by simp)
    have hu : u.ownership := channelTakesStart_fold_ownership first h0
    have hv : v.ownership := channelTakesStart_fold_ownership mid (State.resolveCommit_ownership hu)
    have hx : (if g then v.signalGeometry else v).ownership := by
      split
      · exact State.signalGeometry_ownership hv
      · exact hv
    have hdue : (if g then v.signalGeometry else v).timeoutsDue = [] ∧
        (if g then v.signalGeometry else v).power = .running := by
      split <;> simp [v, u, State.setNumbers, h.2.1, h.2.2]
    have hat := channelCountsStart_fold_at rest hn (if g then v.signalGeometry else v)
    have hw : w.ownership := channelCountsStart_fold_ownership rest hx
    refine ⟨State.ownership_congr hw (by simp) (by simp) (by simp) (by simp), ?_⟩
    have d : (w.beginFrame (startType c g) g).timeoutsDue = w.timeoutsDue := by simp
    have e : (w.beginFrame (startType c g) g).channels = w.channels := by simp
    have p : (w.beginFrame (startType c g) g).power = .running := by simp [w, hdue.2]
    unfold State.timeoutsHeld
    rw [d, e, p]
    have hd : w.timeoutsDue = _ := hat.2
    rw [hdue.1, List.nil_append] at hd
    rw [hd]
    refine ⟨List.Nodup.filter _ hn, fun k hk => ?_, fun e => absurd rfl e⟩
    have hk2 := List.mem_filter.mp hk
    have ho := of_decide_eq_true hk2.2
    have hc : w.channels[k] = _ := hat.1 k
    rw [if_pos ⟨hk2.1, ho.1⟩] at hc
    rw [hc]
    exact ho.1
  exact key _ _ _ (List.Nodup.filter _ (by decide))

/-! ## Steps -/

/-- A loss timer expiry due at once. -/
theorem State.takeExpiry_owns {s : State} (h : s.owns) : s.takeExpiry.owns := by
  unfold State.takeExpiry
  split
  · exact State.conclude_owns (State.owns_congr h (by simp) (by simp) (by simp) (by simp) (by simp))
  · exact h

/-- A loss timer expiry due at once, with no timeout due. -/
theorem State.takeExpiry_calm {s : State} (h : s.calm) : s.takeExpiry.calm := by
  unfold State.takeExpiry
  split
  · exact State.conclude_calm (State.calm_congr h (by simp) (by simp) (by simp) (by simp) (by simp))
  · exact h

/-- What is due at once. -/
theorem takeUrgent_calm (k : Nat) {s : State} (h : s.calm) : (takeUrgent k s).calm := by
  induction k generalizing s with
  | zero => exact h
  | succ k ih =>
    simp only [takeUrgent]
    split
    · exact ih (State.takeExpiry_calm h)
    · split
      · exact h
      · rename_i c _
        have h1 := State.takeStart_owns h c [] []
        exact ih (State.takeTimeouts_calm (State.conclude_owns h1.1) (by simpa using h1.2))

/-- Settling. -/
theorem State.settle_calm {s : State} (h : s.owns) (hp : s.power = .running) : s.settle.calm :=
  takeUrgent_calm _ (State.takeTimeouts_calm h hp)

/-- A step of the part. -/
theorem State.operate_owns {s : State} (h : s.owns) (f : State → State) (hf : ∀ u : State, u.calm → (f u).calm) :
    (s.operate f).owns := by
  unfold State.operate
  split
  · rename_i hp
    exact (State.conclude_calm (hf _ (State.settle_calm h hp))).owns
  · exact h
  · exact h

/-- An effect on other blocks alone. -/
theorem State.operate_owns_of_kept {s : State} (h : s.owns) (f : State → State)
    (hf : ∀ u : State, (f u).channels = u.channels ∧ (f u).bank = u.bank ∧ (f u).store = u.store ∧
      (f u).timeoutsDue = u.timeoutsDue ∧ (f u).power = u.power) : (s.operate f).owns :=
  State.operate_owns h f (fun u hu => State.calm_congr hu (hf u).1 (hf u).2.1 (hf u).2.2.1 (hf u).2.2.2.1 (hf u).2.2.2.2)

/-- A fill step. -/
theorem State.stepFill_calm {s : State} (h : s.calm) : s.stepFill.calm := by
  unfold State.stepFill
  split
  · rename_i f hf
    split
    · refine ⟨State.ownership_congr h.1 rfl rfl rfl ?_, h.2.1, h.2.2⟩
      simp [State.fillOnce, Store.holder, hf]
    · exact h
  · exact h

/-- The completion of a fill. -/
theorem State.endFill_calm {s : State} (h : s.calm) : s.endFill.calm := by
  unfold State.endFill
  split
  · rename_i f hf
    split
    · have hs : s.channels[f.channel].state = .filling := (h.1.2.2.2 f.channel).mpr (by rw [hf]; rfl)
      have hc : (s.completeFill f).channels = s.channels.set f.channel
          { s.channels[f.channel] with state := .idle, target := none } := by
        simp [State.completeFill, State.updateChannel, State.stopFill]
      have hb : (s.completeFill f).bank = s.bank := by simp [State.completeFill, State.stopFill]
      have hst : (s.completeFill f).store.fill = none := by simp [State.completeFill, State.stopFill]
      have at' : ∀ k : Channel, (s.completeFill f).channels[k] =
          if k = f.channel then { s.channels[f.channel] with state := .idle, target := none } else s.channels[k] := by
        intro k
        rw [hc]
        exact getElem_set_channel _ _ _ _
      have hno : Target.tableOf s.channels[f.channel].target = none := by
        have := (h.1.1 f.channel).2.2
        rw [hs] at this
        rw [this]
        rfl
      refine ⟨⟨fun k => ?_, fun t k => ?_, ?_, fun k => ?_⟩, ?_, ?_⟩
      · rw [at']
        split
        · exact ⟨(h.1.1 f.channel).1, (h.1.1 f.channel).2.1, rfl⟩
        · exact h.1.1 k
      · rw [at', hb]
        by_cases hk : k = f.channel
        · subst hk
          rw [if_pos rfl]
          refine ⟨fun e => ?_, fun e => by cases e⟩
          have := (h.1.2.1 t f.channel).mp e
          rw [hno] at this
          cases this
        · rw [if_neg hk]
          exact h.1.2.1 t k
      · rw [hb]
        exact h.1.2.2.1
      · rw [at', hst]
        by_cases hk : k = f.channel
        · rw [if_pos hk]
          exact ⟨fun e => (by cases e), fun e => (by cases e)⟩
        · rw [if_neg hk]
          refine ⟨fun e => ?_, fun e => by cases e⟩
          have := (h.1.2.2.2 k).mp e
          rw [hf] at this
          exact absurd (Option.some.inj this).symm hk
      · simpa [State.completeFill, State.stopFill] using h.2.1
      · simpa [State.completeFill, State.stopFill] using h.2.2
    · exact h
  · exact h

/-- A fill finished. -/
theorem State.finishFill_calm {s : State} (h : s.calm) : s.finishFill.calm := by
  have steps : ∀ (k : Nat) (u : State), u.calm → (fillSteps k u).calm := by
    intro k
    induction k with
    | zero => exact fun u hu => hu
    | succ k ih => exact fun u hu => ih _ (State.stepFill_calm hu)
  unfold State.finishFill
  split
  · exact State.endFill_calm (steps _ _ h)
  · exact h

/-- A channel timeout that is due is taken. -/
theorem State.takeTimeout_owns {s : State} (h : s.owns) (hp : s.power = .running) (ch : Channel) :
    (s.takeTimeout ch).owns := by
  unfold State.takeTimeout
  split
  · rename_i hc
    have hm : ch ∈ s.timeoutsDue := by simpa using hc
    have ho := h.2.2.1 ch hm
    have h1 : (s.setTimeoutsDue (s.timeoutsDue.erase ch)).ownership := State.ownership_congr h.1 rfl rfl rfl rfl
    refine State.conclude_owns ⟨State.timeOut_ownership h1 ch ho, ?_⟩
    · have hd : ((s.setTimeoutsDue (s.timeoutsDue.erase ch)).timeOut ch).timeoutsDue = s.timeoutsDue.erase ch := by
        simp
      have hpw : ((s.setTimeoutsDue (s.timeoutsDue.erase ch)).timeOut ch).power = .running := by simpa using hp
      refine ⟨?_, fun k hk => ?_, fun e => absurd hpw e⟩
      · rw [hd]
        exact h.2.1.erase ch
      · rw [hd] at hk
        have hk2 := (List.Nodup.mem_erase_iff h.2.1).mp hk
        have : ((s.setTimeoutsDue (s.timeoutsDue.erase ch)).timeOut ch).channels[k] = s.channels[k] := by
          simp only [State.timeOut, State.raise_kept, State.endLoad_channels, if_neg hk2.1]
          rfl
        rw [this]
        exact h.2.2.1 k hk2.2
  · exact h

/-- The output frame start that is due. -/
theorem State.takeDueStart_owns {s : State} (h : s.calm) (a b : List Channel) : (s.takeDueStart a b).owns := by
  unfold State.takeDueStart
  split
  · rename_i c _
    have h1 := State.takeStart_owns h c a b
    exact State.conclude_owns h1.1
  · exact h.owns

/-- Power-on values hold nothing. -/
theorem State.holdReset_owns (s : State) : s.holdReset.owns := by
  have e : s.holdReset.channels = #v[.powerOn, .powerOn, .powerOn, .powerOn] := rfl
  have idle : ∀ k : Channel, s.holdReset.channels[k] = .powerOn := by
    intro k
    rw [e]
    revert k
    decide
  have clean : ∀ t : TableId, s.holdReset.bank.states[t] = .clean := by
    intro t
    have : s.holdReset.bank.states = #v[.clean, .clean, .clean, .clean, .clean, .clean, .clean, .clean] := rfl
    rw [this]
    revert t
    decide
  refine ⟨⟨fun k => ?_, fun t k => ?_, fun t => ?_, fun k => ?_⟩, List.nodup_nil, fun k hk => (by cases hk),
    fun _ => ⟨rfl, fun k => ?_⟩⟩
  · rw [idle]
    exact ⟨Nat.le_refl _, by decide, rfl⟩
  · rw [idle, clean]
    exact ⟨fun g => (by cases g), fun g => (by cases g)⟩
  · rw [clean]
    exact ⟨fun g => (by cases g), fun ⟨_, g, _⟩ => (by cases g)⟩
  · rw [idle]
    exact ⟨fun g => (by cases g), fun g => (by cases g)⟩
  · rw [idle]
    exact ⟨rfl, rfl⟩

/-- RESETN released: every channel is IDLE already. -/
theorem State.releaseReset_owns {s : State} (h : s.owns) : s.releaseReset.owns := by
  unfold State.releaseReset
  split
  · rename_i hp
    have hc := h.2.2.2 (by rw [hp]; simp)
    have clean : ∀ t : TableId, Bank.powerOn.states[t] = .clean := by decide
    refine ⟨⟨h.1.1, fun t k => ?_, fun t => ?_, fun k => ?_⟩, h.2.1, h.2.2.1, fun _ => hc⟩
    · have e1 : (((s.setStore .powerOn).setBank .powerOn).setPower (.clearing 0)).bank.states[t] = .clean := clean t
      rw [e1]
      refine ⟨fun g => (by cases g), fun g => ?_⟩
      have e2 : (((s.setStore .powerOn).setBank .powerOn).setPower (.clearing 0)).channels[k].target = none :=
        (hc.2 k).2
      rw [e2] at g
      cases g
    · have e1 : (((s.setStore .powerOn).setBank .powerOn).setPower (.clearing 0)).bank.states[t] = .clean := clean t
      rw [e1]
      exact ⟨fun g => (by cases g), fun ⟨_, g, _⟩ => (by cases g)⟩
    · have e2 : (((s.setStore .powerOn).setBank .powerOn).setPower (.clearing 0)).channels[k].state = .idle :=
        (hc.2 k).1
      rw [e2]
      exact ⟨fun g => (by cases g), fun g => (by cases g)⟩
  · exact h
  · exact h

/-- The part leaves reset. -/
theorem State.leaveReset_owns {s : State} (h : s.owns) : s.leaveReset.owns := by
  unfold State.leaveReset
  split
  · exact h
  · rename_i hp
    have hc := h.2.2.2 (by rw [hp]; simp)
    have h0 : (s.setPower .running).calm := ⟨State.ownership_congr h.1 rfl rfl rfl rfl, hc.1, rfl⟩
    have h1 := State.takeStart_owns h0 .leaveReset [] []
    exact State.conclude_owns h1.1
  · exact h

/-- A request delivered to a running part. -/
theorem State.deliver_calm {s : State} (h : s.calm) (ch : Channel) (q : Bool) (k : Byte) (act : State → Answer × State)
    (ha : ∀ u : State, u.ownership → (act u).2.ownership)
    (h1 : (s.deliver ch q k act).timeoutsDue = s.timeoutsDue) (h2 : (s.deliver ch q k act).power = s.power) :
    (s.deliver ch q k act).calm :=
  ⟨State.deliver_ownership h.1 ch q k act ha, h1.trans h.2.1, h2.trans h.2.2⟩

/-- An idle moment. -/
theorem State.idle_owns {s : State} (h : s.owns) : s.idle.owns := by
  unfold State.idle
  split
  · rename_i hp
    unfold State.idleRunning
    repeat' split
    · exact (State.settle_calm h hp).owns
    · exact State.operate_owns_of_kept h _ (fun u => by simp)
    · exact State.operate_owns_of_kept h _ (fun u => by simp)
    · exact State.operate_owns_of_kept h _ (fun u => by simp)
    · exact State.operate_owns h _ (fun u hu => State.finishFill_calm hu)
    · refine ⟨State.ownership_congr h.1 rfl rfl rfl ?_, h.2⟩
      simp [State.tick, Store.holder, Option.map_map, Function.comp_def]
  · exact h
  · rename_i k hp
    split
    · exact State.leaveReset_owns h
    · have hc := h.2.2.2 (by rw [hp]; simp)
      exact ⟨State.ownership_congr h.1 rfl rfl rfl rfl, h.2.1, h.2.2.1, fun _ => hc⟩

/-- Every command keeps who holds what. -/
theorem exec_owns {c : Instr} {s t : State} (h : exec c s = .next t) (ho : s.owns) : t.owns := by
  cases c with
  | outputFrameStart first mid =>
    simp only [exec, execOutputFrameStart] at h
    split at h <;> cases h
    · rename_i hp
      exact State.takeDueStart_owns (State.takeExpiry_calm (State.takeTimeouts_calm ho hp)) first mid
    · exact ho
    · exact ho
  | channelTimeout ch =>
    simp only [exec, execChannelTimeout] at h
    split at h <;> cases h
    · rename_i hp
      exact State.takeTimeout_owns ho hp ch
    · exact ho
    · exact ho
  | openReq ch q p =>
    cases h
    exact State.operate_owns ho _ (fun u hu => State.deliver_calm hu _ _ _ _ (actOpen_ownership ch p) (by simp) (by simp))
  | openFill ch q p =>
    cases h
    exact State.operate_owns ho _ (fun u hu => State.deliver_calm hu _ _ _ _ (actOpen_ownership ch p) (by simp) (by simp))
  | data ch q p =>
    cases h
    exact State.operate_owns ho _ (fun u hu => State.deliver_calm hu _ _ _ _ (actData_ownership ch p) (by simp) (by simp))
  | close ch q p =>
    cases h
    exact State.operate_owns ho _ (fun u hu => State.deliver_calm hu _ _ _ _ (actClose_ownership ch p) (by simp) (by simp))
  | abort ch q p =>
    cases h
    exact State.operate_owns ho _ (fun u hu => ⟨State.takeAbort_ownership hu.1 ch q, by simpa using hu.2.1, by simpa using hu.2.2⟩)
  | commit ch q p =>
    cases h
    exact State.operate_owns ho _ (fun u hu => State.deliver_calm hu _ _ _ _ (actCommit_ownership p) (by simp) (by simp))
  | cancel ch q p =>
    cases h
    exact State.operate_owns ho _ (fun u hu => State.deliver_calm hu _ _ _ _ (actCancel_ownership p) (by simp) (by simp))
  | revert ch q p =>
    cases h
    exact State.operate_owns ho _ (fun u hu => State.deliver_calm hu _ _ _ _ (actRevert_ownership p) (by simp) (by simp))
  | read ch q p =>
    cases h
    refine State.operate_owns ho _ (fun u hu => State.deliver_calm hu _ _ _ _ (fun v hv => ?_) (by simp) (by simp))
    unfold actRead withBlock
    split <;> exact hv
  | status ch q p =>
    cases h
    refine State.operate_owns ho _ (fun u hu => State.deliver_calm hu _ _ _ _ (fun v hv => ?_) (by simp) (by simp))
    unfold actStatus
    split <;> exact hv
  | setParam ch q p =>
    cases h
    refine State.operate_owns ho _ (fun u hu => State.deliver_calm hu _ _ _ _ (fun v hv => ?_) (by simp) (by simp))
    refine State.ownership_congr hv ?_ ?_ ?_ ?_ <;>
      (unfold actSetParam withBlock setParamOf State.setParam; dsimp only; repeat' split) <;> simp
  | resetChannels ch q p =>
    cases h
    exact State.operate_owns ho _ (fun u hu => State.deliver_calm hu _ _ _ _ (actReset_ownership p) (by simp) (by simp))
  | resetState ch q p =>
    cases h
    exact State.operate_owns ho _ (fun u hu => State.deliver_calm hu _ _ _ _ (actReset_ownership p) (by simp) (by simp))
  | unknownRequest ch q k p =>
    cases h
    exact State.operate_owns ho _ (fun u hu => State.deliver_calm hu _ _ _ _ (fun v hv => hv) (by simp) (by simp))
  | fillStep =>
    cases h
    exact State.operate_owns ho _ (fun u hu => State.stepFill_calm hu)
  | fillCompletion =>
    cases h
    exact State.operate_owns ho _ (fun u hu => State.endFill_calm hu)
  | powerOnReset pulse =>
    simp only [exec, execPowerOnReset] at h
    cases h
    split
    · exact State.holdReset_owns s
    · unfold State.shortPulse
      dsimp only
      split
      · exact State.holdReset_owns _
      · exact ho
  | resetnRelease =>
    cases h
    exact State.releaseReset_owns ho
  | leaveReset =>
    cases h
    exact State.leaveReset_owns ho
  | idle =>
    cases h
    exact State.operate_owns ho _ (fun u hu => hu)
  | packetDiscard code =>
    cases h
    exact State.operate_owns_of_kept ho _ (fun u => by simp)
  | frameStart n =>
    cases h
    exact State.operate_owns_of_kept ho _ (fun u => by simp)
  | line number pixels =>
    cases h
    exact State.operate_owns_of_kept ho _ (fun u => by simp)
  | frameEnd n count flags =>
    cases h
    exact State.operate_owns_of_kept ho _ (fun u => by simp)
  | lossTimerExpiry =>
    simp only [exec, execLossTimerExpiry] at h
    split at h <;> cases h
    · unfold State.expireLoss
      split
      · exact State.takeExpiry_owns ho
      · exact State.operate_owns_of_kept ho _ (fun u => by simp)
    · exact ho
    · exact ho
  | fallbackTimerExpiry =>
    cases h
    exact State.operate_owns_of_kept ho _ (fun u => by simp)
  | emitLine =>
    cases h
    exact State.operate_owns_of_kept ho _ (fun u => by simp)
  | messageCompletion =>
    cases h
    exact State.operate_owns_of_kept ho _ (fun u => by simp)

end Sys2Proof.Machine
end

