-- ==== Sys2Proof/Laws/Packets.lean ====
section
/-! SUPPORT. Link-in in bytes: the fields of a packet read back from the bytes they are written as. -/

namespace Sys2Proof

/-- A 16-bit field read back from its two bytes. -/
theorem half_halfBytes (h : Half) : half (h.extractLsb' 0 8) (h.extractLsb' 8 8) = h := by
  unfold half
  apply BitVec.eq_of_getLsbD_eq
  intro i hi
  simp only [BitVec.getLsbD_append, BitVec.getLsbD_extractLsb']
  by_cases h8 : i < 8
  · simp [h8]
  · have : i - 8 < 8 := by omega
    have e : 8 + (i - 8) = i := by omega
    simp [h8, this, e]

/-- The pixels read back from their bytes. -/
theorem pixelsOf_pixelBytes (ps : List Pixel) : pixelsOf (pixelBytes ps) = some ps := by
  induction ps with
  | nil => rfl
  | cons p rest ih =>
    have : pixelBytes (p :: rest) = p.r :: p.g :: p.b :: pixelBytes rest := rfl
    simp [this, pixelsOf, ih]

/-- A packet sealed with its CRC-16 passes the check, and is the command its body is. -/
theorem receive_sealPacket (body : List Byte) (c : Instr) (h : commandOfBody body = some c) :
    receive (sealPacket body) = c := by
  have hl : (halfBytes (crc16 body)).length = 2 := rfl
  have h1 : (sealPacket body).take ((sealPacket body).length - 2) = body := by
    unfold sealPacket
    rw [List.length_append, hl, Nat.add_sub_cancel]
    exact List.take_left ..
  have h2 : (sealPacket body).drop ((sealPacket body).length - 2) = halfBytes (crc16 body) := by
    unfold sealPacket
    rw [List.length_append, hl, Nat.add_sub_cancel]
    exact List.drop_left ..
  unfold receive
  dsimp only
  rw [h1, h2, if_pos rfl, h]
  rfl

/-- Channel and sequence bit read back from their byte (R184, R186). -/
theorem channelSeqByte_read : ∀ (ch : Channel) (seq : Bool),
    channelOf (channelSeqByte ch seq) = ch ∧ seqOf (channelSeqByte ch seq) = seq := by decide

/-- A CONTROL body with a payload that fits is the command of its kind. -/
theorem commandOfBody_controlBody (ch : Channel) (seq : Bool) (kind : Byte) (payload : List Byte)
    (h : payload.length ≤ 256) :
    commandOfBody (controlBody ch seq kind payload) = some (controlCommand ch seq kind payload) := by
  have e : commandOfBody (controlBody ch seq kind payload) =
      if payload.length = (half ((BitVec.ofNat 16 payload.length).extractLsb' 0 8)
          ((BitVec.ofNat 16 payload.length).extractLsb' 8 8)).toNat ∧ payload.length ≤ 256
      then some (controlCommand (channelOf (channelSeqByte ch seq)) (seqOf (channelSeqByte ch seq)) kind payload)
      else none := rfl
  rw [e, half_halfBytes, (channelSeqByte_read ch seq).1, (channelSeqByte_read ch seq).2, if_pos]
  refine ⟨?_, h⟩
  simp
  omega

end Sys2Proof
end

