-- ==== Sys2Proof/Tests/Slice0.lean ====
section
/-! SUPPORT. The model's own tests: ill-formed commands refused, link-in bytes written out from the spec, one effect per command on a small state, and for every statement with hypotheses states and operands that meet them. -/

namespace Sys2Proof.Tests

set_option Elab.async false

open Sys2Proof Sys2Proof.Machine

/-! ## Well-formedness: one ill-formed command for each check -/

/-- A payload of 257 bytes. -/
def tooLong : List Byte := List.replicate 257 0

theorem test_wf_line_too_long : (Instr.line 0 (List.replicate 65536 ⟨0, 0, 0⟩)).wf = false := by
  simp only [Instr.wf, List.length_replicate]
  rfl

theorem test_wf_payload_too_long :
    (Instr.data 0 false tooLong).wf = false ∧ (Instr.close 0 false tooLong).wf = false ∧
      (Instr.abort 0 false tooLong).wf = false ∧ (Instr.commit 0 false tooLong).wf = false ∧
      (Instr.cancel 0 false tooLong).wf = false ∧ (Instr.revert 0 false tooLong).wf = false ∧
      (Instr.read 0 false tooLong).wf = false ∧ (Instr.status 0 false tooLong).wf = false ∧
      (Instr.setParam 0 false tooLong).wf = false ∧ (Instr.resetChannels 0 false tooLong).wf = false ∧
      (Instr.openReq 0 false tooLong).wf = false ∧ (Instr.unknownRequest 0 false 0 tooLong).wf = false := by
  decide +kernel

theorem test_wf_rows_of_open_and_reset :
    (Instr.openReq 0 false [8, 0, 0, 0, 0, 2, 1, 0, 0, 0]).wf = false ∧
      (Instr.openFill 0 false [8, 0, 0, 0, 0, 0, 1, 0, 0, 0]).wf = false ∧
      (Instr.openFill 0 false [7, 0, 0, 0, 0, 2, 1, 0, 0, 0]).wf = false ∧
      (Instr.resetChannels 0 false [1]).wf = false ∧ (Instr.resetState 0 false [0]).wf = false := by decide +kernel

theorem test_wf_known_kind : (Instr.unknownRequest 0 false 1 []).wf = false ∧
    (Instr.unknownRequest 0 false 0x0B []).wf = false ∧ (Instr.unknownRequest 0 false 0x0C []).wf = true := by decide +kernel

theorem test_wf_start_order : (Instr.outputFrameStart [1] [1]).wf = false ∧ (Instr.outputFrameStart [1] [2]).wf = true := by
  decide +kernel

/-! ## Check codes and bytes -/

/-- The check bytes "123456789". -/
def digits : List Byte := [0x31, 0x32, 0x33, 0x34, 0x35, 0x36, 0x37, 0x38, 0x39]

theorem test_crc16_check_value : crc16 digits = 0x29B1 := by decide +kernel

theorem test_crc32_check_value : crc32Final (crc32Run crc32Init digits) = 0xCBF43926 := by decide +kernel

/-- Packets written out byte by byte from R184 and R185, their CRC-16 sealed behind them. -/
theorem test_receive_packets :
    receive (sealPacket [0x00]) = .idle ∧
    receive (sealPacket [0x01, 0x34, 0x12]) = .frameStart 0x1234 ∧
    receive (sealPacket [0x02, 0x05, 0x00, 0x01, 0x00, 0x0A, 0x0B, 0x0C]) = .line 5 [⟨0x0A, 0x0B, 0x0C⟩] ∧
    receive (sealPacket [0x03, 0x34, 0x12, 0xE0, 0x01, 0x07]) = .frameEnd 0x1234 480 7 ∧
    receive (sealPacket [0x04, 0x05, 0x02, 0x02, 0x00, 0xAA, 0xBB]) = .data 1 true [0xAA, 0xBB] ∧
    receive (sealPacket [0x04, 0xFB, 0x09, 0x00, 0x00]) = .status 3 false [] ∧
    receive (sealPacket [0x04, 0x02, 0x0B, 0x01, 0x00, 0x01]) = .resetState 2 false [1] ∧
    receive (sealPacket [0x04, 0x00, 0x01, 0x0A, 0x00, 8, 0, 0, 0, 0, 2, 1, 0, 0, 3]) =
      .openFill 0 false [8, 0, 0, 0, 0, 2, 1, 0, 0, 3] ∧
    receive (sealPacket [0x04, 0x00, 0x7F, 0x00, 0x00]) = .unknownRequest 0 false 0x7F [] := by decide +kernel

/-- Packets that fail a check (R116): the CRC-16, the kind, the length. -/
theorem test_receive_discards :
    receive [0x01, 0x34, 0x12, 0x00, 0x00] = .packetDiscard 1 ∧
    receive (sealPacket [0x05]) = .packetDiscard 5 ∧
    receive (sealPacket [0x01, 0x34]) = .packetDiscard 1 ∧
    receive (sealPacket [0x02, 0x05, 0x00, 0x02, 0x00, 0x0A, 0x0B, 0x0C]) = .packetDiscard 2 ∧
    receive (sealPacket [0x04, 0x00, 0x09, 0x01, 0x00]) = .packetDiscard 4 ∧ receive [] = .packetDiscard 0xFF := by
  decide +kernel

/-- The bounds of the length check (R116, R184): a CONTROL payload of 256 bytes is good, one of 257 is not, and a packet of two
bytes holds no CRC-16 beside its kind. -/
theorem test_receive_bounds :
    (commandOfBody (controlBody 1 false 0x02 (List.replicate 256 0)) = some (.data 1 false (List.replicate 256 0)) ∧
      commandOfBody (controlBody 1 false 0x02 tooLong) = none) ∧
    receive (sealPacket [0x04, 0x00, 0x09]) = .packetDiscard 4 ∧ receive (sealPacket [0x00, 0x00]) = .packetDiscard 0 ∧
    receive [0x03, 0x00] = .packetDiscard 3 := by decide +kernel

theorem test_table_gives_no_words : decodeTableWord 16 0 = none ∧ State.reset.withFetchWord 16 0 = State.reset :=
  ⟨rfl, rfl⟩

/-! ## Small states -/

/-- The state a command leaves. -/
def after (c : Instr) (s : State) : State :=
  match exec c s with
  | .next t => t
  | .fault _ => s
  | .refused _ => s

/-- Running, at power-on values, no output frame start due. -/
def calm : State := State.powerOn .running

/-- `calm` with one channel context. -/
def on (ch : Channel) (c : ChannelContext) : State := calm.setChannels (calm.channels.set ch c)

/-- `calm` with a return queue in which a message is in flight. -/
def busyLane : State := calm.setRtq { calm.rtq with inFlight := some (.reply 3 .powerOn) }

/-- A channel with the FORMAT table open, `left` of its 12 bytes to come. -/
def openFormat (left : Nat) : ChannelContext :=
  { ChannelContext.powerOn with state := .opened, target := some (.table 7 0), declared := 12, remaining := left }

/-- A channel with two bytes open on planes 0 and 2 of the last store address. -/
def openPlanes : ChannelContext :=
  { ChannelContext.powerOn with state := .opened, target := some (.store 0b0101 65535 .planar), declared := 2, remaining := 2 }

/-- A channel that is FILLING. -/
def fillingContext : ChannelContext :=
  { ChannelContext.powerOn with state := .filling, target := some .fill, declared := 1, remaining := 1 }

/-- A fill of channel 3 of the last store address, on planes 0 and 3, with bit 0 of the colour set. -/
def fillOf (progress : Nat) : FillRecord := ⟨3, 0b1001, 65535, 1, 0b0001, progress, 0⟩

/-- The part with that fill in flight. -/
def filling (progress : Nat) : State := (on 3 fillingContext).setStore { cells := [], fill := some (fillOf progress) }

/-- The part with the shadow states `t := st`, and a commit record. -/
def banked (t : TableId) (st : ShadowState) (record : Option Commit) : State :=
  calm.setBank { calm.bank with states := calm.bank.states.set t st, record := record }

/-- A state whose active format is W columns by H lines. -/
def sized (w h : Byte) (s : State) : State :=
  s.setBank { s.bank with active := tableWriteRun s.bank.active 7 0 [w, 0, h, 0] }

/-- The tracker LOCKED in a phase, next line `e`, with a count of faulty frames, frames 2 columns by 2 lines. -/
def lockedAt (phase : FramePhase) (e faulty : Nat) (flag : Bool) : State :=
  sized 2 2 (calm.setTracker
    { calm.tracker with
      state := .locked, phase := phase, expected := e, faultyFrames := faulty, frameFaulty := flag, lossTimer := some 0 })

/-- A PASS frame in progress with some lines emitted and some in hand. -/
def passFrame (lines : Nat) (handed : List HandedLine) (s : State) : State :=
  s.setFramer { s.framer with mode := .pass, frame := some ⟨.pass, 7, 1, 2, lines⟩, handed := handed }

/-- A line in hand. -/
def handed0 : HandedLine := ⟨0, .forwarded, [⟨1, 2, 3⟩, ⟨4, 5, 6⟩], [[]]⟩

/-- A frame packet that waits for the output frame start of an upstream frame in PASS mode. -/
def waits : State :=
  (passFrame 1 [handed0] (lockedAt .receiving 0 0 false)).setFramer
    { (passFrame 1 [handed0] (lockedAt .receiving 0 0 false)).framer with due := some .upstream }

/-- `lockedAt` with the framer in FALLBACK and the switch back pending. -/
def switching (frame : Option OutputFrame) : State :=
  (lockedAt .noFrame 0 0 false).setFramer
    { (lockedAt .noFrame 0 0 false).framer with switchBack := true, frame := frame }

/-- RECEIVING in PASS mode, one line of two forwarded and in hand, with a count of faulty frames. -/
def receivingPass (faulty : Nat) : State := passFrame 0 [handed0] (lockedAt .receiving 1 faulty false)

theorem calm_steady : calm.steady := ⟨rfl, rfl, rfl⟩

/-! ## One effect per command -/

theorem test_idle_and_discard :
    (after .idle calm).rtq = calm.rtq ∧
    (after (.packetDiscard 9) calm).rtq.inFlight = some (.event ⟨.packetIntegrity, 0xFF, 1, 0, 0⟩ 0) := by decide +kernel

theorem test_frame_start_in_search :
    (after (.frameStart 9) calm).tracker.state = .locking ∧ (after (.frameStart 9) calm).tracker.upstreamN = 9 := by
  decide +kernel

theorem test_line_forwarded_short :
    (after (.line 0 [⟨9, 9, 9⟩]) (lockedAt .receiving 0 0 false)).framer.handed =
      [⟨0, .forwarded, [⟨9, 9, 9⟩, ⟨0, 0, 0⟩], [[]]⟩] ∧
    (after (.line 0 [⟨9, 9, 9⟩]) (lockedAt .receiving 0 0 false)).rtq.inFlight =
      some (.event ⟨.frameFault, 3, 1, 0, 0⟩ 0) := by decide +kernel

theorem test_frame_end_early :
    (after (.frameEnd 0 2 0) (lockedAt .receiving 1 0 false)).tracker.faultyFrames = 1 ∧
    ((after (.frameEnd 0 2 0) (lockedAt .receiving 1 0 false)).framer.handed.map HandedLine.number) = [1] := by
  decide +kernel

theorem test_loss_timer_expiry :
    (after .lossTimerExpiry (lockedAt .receiving 0 0 false)).tracker.state = .search ∧
    (after .lossTimerExpiry (lockedAt .receiving 0 0 false)).rtq.inFlight =
      some (.event ⟨.streamLost, 0, 1, 0, 0⟩ 0) := by decide +kernel

theorem test_fallback_timer_expiry :
    (after .fallbackTimerExpiry (calm.setFramer { calm.framer with timer := some ⟨0, 16667⟩ })).framer.due = some .timer := by
  decide +kernel

theorem test_output_frame_start :
    (after (.outputFrameStart [] []) State.reset).framer.linkOut = [.frameStart 0] ∧
    (after (.outputFrameStart [] []) State.reset).framer.timer = some ⟨0, 16667⟩ := by decide +kernel

/-- A start with the FORMAT commit armed at which channel 1 times out: the order of the two events is the command's. -/
theorem test_output_frame_start_order :
    (let s := (on 1 { openPlanes with idleFrames := 15 }).setBank (banked 7 .armed (some ⟨0x80, .next, 5⟩)).bank
     let u := s.setFramer { s.framer with due := some .leaveReset }
     (after (.outputFrameStart [1] []) u).rtq.entries = [.event ⟨.committed, 5, 1, 0, 0⟩] ∧
       (after (.outputFrameStart [] [1]) u).rtq.entries = [.event ⟨.channelTimeout, 1, 1, 0, 0⟩] ∧
       (after (.outputFrameStart [] []) u).timeoutsDue = [1]) := by decide +kernel

theorem test_channel_timeout :
    (after (.channelTimeout 1) ((on 1 (openFormat 5)).setTimeoutsDue [1])).channels[(1 : Channel)].state = .idle ∧
    (after (.channelTimeout 1) ((on 1 (openFormat 5)).setTimeoutsDue [1])).bank.states[(7 : TableId)] = .partialLoad := by
  decide +kernel

/-- A line that shows a write is followed by no line in hand that misses it (R10), and with no line to emit link-out carries
IDLE (R139). -/
theorem test_emit_line_in_turn :
    (∀ n : Nat, (HandedLine.composedFrom ⟨n, .forwarded, [], [[], [(1, 1)], [(2, 2)]]⟩ 2).moments = [[(1, 1)], [(2, 2)]]) ∧
    (after .emitLine calm).framer.linkOut = [.idle] := ⟨fun _ => rfl, by decide +kernel⟩

theorem test_emit_line :
    (after .emitLine (sized 2 1 ((State.reset.setFramer
      { State.reset.framer with frame := some ⟨.fallback, 0, 0, 1, 0⟩, due := none, building := [[]] }).setPlan
        (some ⟨.fallback, 0, 2, 1, ⟨1, 2, 3⟩, []⟩)))).framer.linkOut =
      [.line 0 [⟨1, 2, 3⟩, ⟨1, 2, 3⟩], .frameEnd 0 1 false] := by decide +kernel

theorem test_open :
    (after (.openReq 0 false [7, 0, 0, 12, 0, 0, 0, 0, 0, 0]) calm).bank.states[(7 : TableId)] = .loading 0 ∧
    (after (.openReq 0 false [7, 1, 0, 12, 0, 0, 0, 0, 0, 0]) calm).rtq.inFlight =
      some (.reply 0 ⟨false, 1, .range, 0, []⟩) := by decide +kernel

theorem test_open_fill :
    (after (.openFill 3 false [8, 0, 0, 0, 0, 2, 9, 0, 0, 1]) calm).store.fill =
      some ⟨3, 0b1001, 0, 65536, 0b0001, 0, 0⟩ := by decide +kernel

theorem test_data :
    (after (.data 2 false [0x11, 0x22]) (on 2 openPlanes)).store.cells = [(65535, 0x11), (196607, 0x22)] ∧
    (after (.data 2 false [0x40]) (on 2 (openFormat 12))).bank.shadow[(7 : TableId)] = [(0, 0x40)] := by decide +kernel

theorem test_close :
    (after (.close 2 false []) (on 2 (openFormat 0))).bank.states[(7 : TableId)] = .loaded ∧
    (after (.close 2 false []) (on 2 (openFormat 1))).rtq.inFlight = some (.reply 2 ⟨false, 3, .underrun, 1, []⟩) := by
  decide +kernel

theorem test_abort :
    (after (.abort 3 true []) (filling 0)).store.fill = none ∧
    (after (.abort 3 true []) (filling 0)).rtq.inFlight = some (.reply 3 ⟨true, 4, .ok, 2, []⟩) := by decide +kernel

theorem test_commit :
    (after (.commit 0 false [0x80, 1, 5, 0, 0x33]) calm).bank.record = some ⟨0x80, .atFrame 5, 0x33⟩ ∧
    (after (.commit 0 false [0x80, 1, 0, 0, 0x33]) calm).rtq.inFlight = some (.reply 0 ⟨false, 5, .late, 0, []⟩) := by
  decide +kernel

theorem test_cancel :
    (after (.cancel 0 false []) (banked 7 .armed (some ⟨0x80, .next, 1⟩))).bank.states[(7 : TableId)] = .loaded ∧
    (after (.cancel 0 false []) calm).rtq.inFlight = some (.reply 0 ⟨false, 6, .ok, 0, []⟩) := by decide +kernel

theorem test_revert :
    (after (.revert 0 false [0x80]) (banked 7 .partialLoad none)).bank.states[(7 : TableId)] = .clean ∧
    (after (.revert 0 false [0x80]) (banked 7 (.loading 2) none)).rtq.inFlight =
      some (.reply 0 ⟨false, 7, .busy, 7, []⟩) := by decide +kernel

theorem test_read :
    (after (.read 0 false [7, 1, 0, 0, 0, 6]) calm).rtq.inFlight =
      some (.reply 0 ⟨false, 8, .ok, 6, [0x20, 0x03, 0xE0, 0x01, 0x1B, 0x41]⟩) ∧
    (after (.read 0 false [8, 0, 3, 0xFF, 0xFF, 2]) calm).rtq.inFlight =
      some (.reply 0 ⟨false, 8, .range, 0, []⟩) := by decide +kernel

theorem test_status :
    (after (.status 0 false []) (filling 0)).rtq.inFlight =
      some (.reply 0 ⟨false, 9, .ok, 0,
        [0, 1, 0, 0, 0, 0, 0, 0, 0, 0, 0, 0, 0, 0, 0, 0, 0, 0, 0, 0, 0, 0, 0, 2, 0, 0, 0, 7]⟩) := by decide +kernel

theorem test_set_param :
    (after (.setParam 0 false [2, 15, 0]) calm).params.lossMultiple = 15 ∧
    (after (.setParam 0 false [2, 16, 0]) calm).rtq.inFlight = some (.reply 0 ⟨false, 10, .range, 3, []⟩) := by
  decide +kernel

theorem test_reset_channels :
    (after (.resetChannels 0 false [0]) (filling 0)).channels[(3 : Channel)].state = .idle ∧
    (after (.resetChannels 0 false [2]) calm).rtq.inFlight = some (.reply 0 ⟨false, 11, .invalid, 0, []⟩) := by
  decide +kernel

theorem test_reset_state :
    (after (.resetState 0 false [1]) (lockedAt .receiving 0 0 false)).tracker.state = .search ∧
    (after (.resetState 0 false [1]) (lockedAt .receiving 0 0 false)).rtq.entries =
      [.event ⟨.streamLost, 3, 1, 0, 0⟩] := by decide +kernel

theorem test_unknown_request :
    (after (.unknownRequest 1 false 0x7F [1, 2]) calm).rtq.inFlight = some (.reply 1 ⟨false, 0x7F, .invalid, 0, []⟩) := by
  decide +kernel

theorem test_fill_step :
    (after .fillStep (filling 0)).store.cells = [(65535, 0xFF)] ∧
    (after .fillStep (filling 0)).store.fill = some (fillOf 1) := by decide +kernel

theorem test_fill_completion :
    (after .fillCompletion (filling 1)).channels[(3 : Channel)].state = .idle ∧
    (after .fillCompletion (filling 1)).rtq.inFlight = some (.event ⟨.fillDone, 3, 1, 0, 0⟩ 0) := by decide +kernel

theorem test_message_completion :
    (after .messageCompletion busyLane).rtq.inFlight = none ∧
    (after .messageCompletion busyLane).rtq.sent = [.reply 3 .powerOn] := by decide +kernel

theorem test_power_on_reset :
    (after (.powerOnReset 10) (filling 0)).power = .held ∧ (after (.powerOnReset 10) (filling 0)).store.fill = none := by
  decide +kernel

theorem test_release_and_leave_reset :
    (after .resetnRelease (calm.setPower .held)).power = .clearing 0 ∧
    (after .leaveReset (calm.setPower (.clearing 0))).framer.linkOut = [.frameStart 0] := by decide +kernel

theorem test_free_lane_and_time : (match step busyLane with
    | .next t => t.rtq.laneTicks
    | .fault _ => 0
    | .refused _ => 0) = 1 := by decide +kernel

/-! ## Hypotheses that are met -/

/-- A channel takes a packet. -/
theorem takes_on (ch : Channel) (c : ChannelContext) (h1 : c.state ≠ .abandoned) (h2 : c.expected = false) :
    (on ch c).takes ch false := by
  have : (on ch c).channels[ch] = c := by
    show (calm.channels.set ch c)[ch] = c
    simp
  exact ⟨by rw [this]; exact h1, by rw [this]; exact h2.symm⟩

theorem on_steady (ch : Channel) (c : ChannelContext) : (on ch c).steady := ⟨rfl, rfl, rfl⟩

theorem calm_takes : calm.takes 0 false := ⟨by decide +kernel, rfl⟩

/-- The part is steady and channel `ch` takes a packet with bit 0: the premises of every request's statement. -/
def ready (s : State) (ch : Channel) : Prop := s.steady ∧ s.takes ch false

theorem ready_calm : ready calm 0 := ⟨calm_steady, calm_takes⟩

theorem ready_on (ch : Channel) (c : ChannelContext) (h1 : c.state ≠ .abandoned) (h2 : c.expected = false) :
    ready (on ch c) ch := ⟨on_steady ch c, takes_on ch c h1 h2⟩

theorem ready_banked (t : TableId) (st : ShadowState) (record : Option Commit) : ready (banked t st record) 0 :=
  ⟨⟨rfl, rfl, rfl⟩, calm_takes⟩

theorem ready_filling : ready (filling 0) 3 ∧ ready (filling 0) 0 :=
  ⟨⟨⟨rfl, rfl, rfl⟩, by decide +kernel, rfl⟩, ⟨⟨rfl, rfl, rfl⟩, by decide +kernel, rfl⟩⟩

theorem met_StepRunsFrontCommand : (calm.setPending [.idle, .emitLine]).pending = .idle :: [.emitLine] := rfl

/-- A loss timer, a fallback frame timer, a fill of one address and a message, with the ticks each has run. -/
def clocked (loss timer fill lane : Nat) : State :=
  (((filling 0).setTracker { calm.tracker with state := .locking, lossTimer := some loss }).setFramer
    { calm.framer with timer := some ⟨timer, 4000⟩ }).setStore { cells := [], fill := some { fillOf 0 with ticks := fill } }
    |>.setRtq { calm.rtq with inFlight := some (.reply 3 .powerOn), laneTicks := lane }

theorem met_EmptyQueueIdles :
    (calm.pending = [] ∧ calm.power = .running ∧ calm.settled = true ∧
      calm.messageTimeUp = false ∧ calm.lossTimeUp = false ∧ calm.fallbackTimeUp = false ∧ calm.fillTimeUp = false) ∧
    (State.reset.power = .running ∧ State.reset.settled = false) ∧
    ((clocked 0 0 0 1000).settled = true ∧ (clocked 0 0 0 1000).messageTimeUp = true) ∧
    ((clocked 250005 0 0 0).messageTimeUp = false ∧ (clocked 250005 0 0 0).lossTimeUp = true ∧
      (clocked 250004 0 0 0).lossTimeUp = false) ∧
    ((clocked 0 20000 0 0).lossTimeUp = false ∧ (clocked 0 20000 0 0).fallbackTimeUp = true ∧
      (clocked 0 19999 0 0).fallbackTimeUp = false) ∧
    ((clocked 0 0 0 0).fillTimeUp = true ∧ (clocked 0 0 0 0).store.fill = some (fillOf 0) ∧
      (fillOf 0).progress < (fillOf 0).span ∧ (fillOf 1).progress = (fillOf 1).span) ∧
    (calm.setPower .held).power = .held ∧ (calm.setPower (.clearing 5000)).power = .clearing 5000 := by decide +kernel

theorem met_EmptyQueueIdles_fill : (clocked 0 0 0 0).steady ∧ (clocked 0 0 0 0).rtq.laneKept :=
  ⟨⟨rfl, rfl, rfl⟩, fun h => by cases h⟩

theorem met_CommandsSettleFirst : State.reset.power = .running ∧ State.reset.settled = false ∧
    ∀ c ∈ [Instr.idle, Instr.lossTimerExpiry], (∀ first mid, c ≠ .outputFrameStart first mid) ∧
      (∀ ch, c ≠ .channelTimeout ch) ∧ (c = .lossTimerExpiry → State.reset.tracker.expiryDue = false) ∧
      (∀ pulse, c ≠ .powerOnReset pulse) ∧ c ≠ .resetnRelease ∧ c ≠ .leaveReset := by
  refine ⟨rfl, by decide +kernel, fun c hc => ?_⟩
  rcases List.mem_pair.mp hc with rfl | rfl <;> refine ⟨?_, ?_, fun _ => rfl, ?_, ?_, ?_⟩ <;> (intros; simp)

theorem met_FramePacketsWaitOnlyForStarts :
    (((waits.setTracker { waits.tracker with waiting := [.start 1] }).tracker.waiting.isEmpty ||
      (waits.setTracker { waits.tracker with waiting := [.start 1] }).framesWait) = true) ∧
    ∃ t, step (waits.setTracker { waits.tracker with waiting := [.start 1] }) = .next t := ⟨rfl, _, rfl⟩

theorem met_UntakenPacketsAnswered :
    (calm.steady ∧ (on 0 { ChannelContext.powerOn with state := .abandoned }).steady) ∧
    (controlOf (.status 0 true []) = some (0, true, 9) ∧ calm.channels[(0 : Channel)].state ≠ .abandoned ∧
      true ≠ calm.channels[(0 : Channel)].expected) ∧
    (on 0 { ChannelContext.powerOn with state := .abandoned }).channels[(0 : Channel)].state = .abandoned :=
  ⟨⟨calm_steady, on_steady _ _⟩, by decide +kernel, by decide +kernel⟩

theorem met_MalformedRequestRefused :
    (ready calm 0 ∧ ready (on 0 { ChannelContext.powerOn with errors := 2 }) 0 ∧ ready (on 0 (openFormat 1)) 0) ∧
    (controlOf (.unknownRequest 0 false 0x7F []) = some (0, false, 0x7F) ∧
      calm.malformed (.unknownRequest 0 false 0x7F []) = true ∧
      (on 0 { ChannelContext.powerOn with errors := 2 }).channels[(0 : Channel)].errors + 1 < calm.params.abandonLimit) ∧
    calm.malformed (.openReq 0 false []) = true ∧ (on 0 (openFormat 1)).malformed (.close 0 false [0]) = true ∧
    calm.malformed (.commit 0 false []) = true ∧ calm.malformed (.cancel 0 false [0]) = true ∧
    calm.malformed (.revert 0 false []) = true ∧ calm.malformed (.read 0 false []) = true ∧
    calm.malformed (.status 0 false [0]) = true ∧ calm.malformed (.setParam 0 false []) = true ∧
    calm.malformed (.resetChannels 0 false []) = true :=
  ⟨⟨ready_calm, ready_on _ _ (by decide) rfl, ready_on _ _ (by decide) rfl⟩, by decide +kernel⟩

/-- Channel 0 IDLE, one error below the abandon limit. -/
def idleAtLimit : State := on 0 { ChannelContext.powerOn with errors := 3 }

/-- Channel 0 with the FORMAT table open, one byte to come, one error below the abandon limit. -/
def openAtLimit : State :=
  (on 0 { openFormat 1 with errors := 3 }).setBank (banked 7 (.loading 0) none).bank

/-- Channel 0 FILLING, one error below the abandon limit. -/
def fillingAtLimit : State :=
  (on 0 { fillingContext with errors := 3 }).setStore { cells := [], fill := some { fillOf 0 with channel := 0 } }

theorem test_abandonment :
    (after (.data 0 false [1, 2]) openAtLimit).bank.states[(7 : TableId)] = .partialLoad ∧
    (after (.read 0 false []) fillingAtLimit).store.fill = none ∧
    (after (.setParam 0 false [6, 0, 0]) idleAtLimit).rtq.entries = [.event ⟨.channelAbandoned, 0, 1, 0, 0⟩] := by decide +kernel

theorem met_CountedErrorAbandons :
    (ready idleAtLimit 0 ∧ ready openAtLimit 0 ∧ ready fillingAtLimit 0) ∧
    (idleAtLimit.params.abandonLimit ≤ idleAtLimit.channels[(0 : Channel)].errors + 1 ∧
      openAtLimit.params.abandonLimit ≤ openAtLimit.channels[(0 : Channel)].errors + 1 ∧
      fillingAtLimit.params.abandonLimit ≤ fillingAtLimit.channels[(0 : Channel)].errors + 1) ∧
    (controlOf (.unknownRequest 0 false 0x7F []) = some (0, false, 0x7F) ∧
      idleAtLimit.malformed (.unknownRequest 0 false 0x7F []) = true ∧ fillingAtLimit.malformed (.read 0 false []) = true ∧
      openAtLimit.malformed (.close 0 false [0]) = true) ∧
    (openAtLimit.openError 0 [] .state 1 ∧ idleAtLimit.openError 0 [9, 0, 0, 1, 0, 0, 1, 0, 0, 0] .invalid 0) ∧
    (idleAtLimit.dataError 0 [1] .state 0 ∧ openAtLimit.dataError 0 [] .invalid 1 ∧
      openAtLimit.dataError 0 [1, 2] .overrun 1) ∧
    (idleAtLimit.closeError 0 [] .state 0 ∧ openAtLimit.closeError 0 [] .underrun 1) ∧
    (readBlock [10, 0, 0, 0, 0, 1] = some ⟨10, 0, 0, 0, 1⟩ ∧ readError ⟨10, 0, 0, 0, 1⟩ .invalid) ∧
    (paramBlock [6, 0, 0] = some (6, 0) ∧ idleAtLimit.paramError 6 0 0) ∧ 2 ≤ (0x02#8).toNat ∧
    (commitBlock [0, 0, 0, 0, 0] = some ⟨0, 0, 0, 0⟩ ∧ commitBlock [1, 2, 0, 0, 0] = some ⟨1, 2, 0, 0⟩) :=
  ⟨⟨ready_on _ _ (by decide) rfl, ⟨⟨rfl, rfl, rfl⟩, by decide +kernel, rfl⟩, ⟨⟨rfl, rfl, rfl⟩, by decide +kernel, rfl⟩⟩,
    by decide +kernel, by decide +kernel,
    ⟨.inl (by decide +kernel), .inr ⟨⟨9, 0, 1, 0, 1, 0, 0, 0⟩, by decide +kernel, rfl, rfl, .inl (by decide)⟩⟩,
    ⟨.inl (by decide +kernel), .inr (by decide +kernel), .inr (by decide +kernel)⟩,
    ⟨.inl (by decide +kernel), .inr (by decide +kernel)⟩, ⟨rfl, .inl (by decide)⟩, ⟨rfl, .inl (by decide)⟩, by decide, rfl, rfl⟩

theorem met_OpenTableAccepted :
    (ready calm 0 ∧ ready (banked 7 .loaded none) 0 ∧ ready (banked 7 .partialLoad none) 0) ∧
    (∃ b, openBlock [7, 0, 0, 12, 0, 0, 0, 0, 0, 0] = some b ∧ b.target.toNat = (7 : TableId).val ∧ 1 ≤ b.length.toNat ∧
      b.offset.toNat + b.length.toNat ≤ tableSize 7) ∧
    (∃ b, openBlock [0, 0x3F, 1, 1, 0, 0, 0, 0, 0, 0] = some b ∧ b.target.toNat = (0 : TableId).val ∧ 1 ≤ b.length.toNat ∧
      b.offset.toNat + b.length.toNat ≤ tableSize 0) ∧
    calm.channels[(0 : Channel)].state = .idle ∧ calm.bank.states[(7 : TableId)] = .clean ∧
    (banked 7 .loaded none).bank.states[(7 : TableId)] = .loaded ∧
    (banked 7 .partialLoad none).bank.states[(7 : TableId)] = .partialLoad :=
  ⟨⟨ready_calm, ready_banked _ _ _, ready_banked _ _ _⟩, ⟨_, rfl, by decide⟩, ⟨_, rfl, by decide⟩, by decide +kernel⟩

theorem met_OpenStoreAccepted :
    (ready calm 0 ∧ calm.channels[(0 : Channel)].state = .idle) ∧
    (∃ b, openBlock [8, 0xFF, 0xFF, 4, 0, 0, 15, 0, 0, 0] = some b ∧ b.target = 8 ∧ b.mode = 0 ∧ 1 ≤ b.planes.toNat ∧
      b.planes.toNat ≤ 15 ∧ 1 ≤ b.length.toNat ∧ b.length.toNat % planeCount b.planes = 0 ∧
      b.offset.toNat + b.length.toNat / planeCount b.planes ≤ 65536) ∧
    ∀ op : Fin 3, ∃ b, openBlock [8, 0xFF, 0xFF, 1, 0, 1, 1, BitVec.ofNat 8 op.val, 0x0F, 0] = some b ∧ b.mode = 1 ∧
      b.mergeOp = BitVec.ofNat 8 op.val ∧ b.offset.toNat + b.length.toNat / planeCount b.planes ≤ 65536 :=
  ⟨⟨ready_calm, by decide +kernel⟩, ⟨_, rfl, by decide⟩, fun op => ⟨_, rfl, rfl, rfl, by revert op; decide⟩⟩

theorem met_OpenFillStarts :
    (ready calm 0 ∧ calm.channels[(0 : Channel)].state = .idle) ∧
    (∃ b, openBlock [8, 0, 0, 0, 0, 2, 15, 0, 0, 15] = some b ∧ b.target = 8 ∧ b.mode = 2 ∧ b.planes.toNat ≤ 15 ∧
      b.colour.toNat ≤ 15 ∧ b.length = 0 ∧ b.offset = 0) ∧
    (∃ b, openBlock [8, 0xFF, 0xFF, 1, 0, 2, 1, 0, 0, 0] = some b ∧ b.length ≠ 0 ∧
      b.offset.toNat + b.length.toNat ≤ 65536) ∧ calm.store.fill = none :=
  ⟨⟨ready_calm, by decide +kernel⟩, ⟨_, rfl, by decide⟩, ⟨_, rfl, by decide⟩, rfl⟩

theorem met_OpenRefused :
    (ready calm 0 ∧ ready (on 0 (openFormat 1)) 0 ∧ ready (filling 0) 3 ∧ ready (filling 0) 0 ∧
      ready (banked 7 (.loading 2) none) 0 ∧ ready (banked 7 .armed (some ⟨0x80, .next, 1⟩)) 0) ∧
    ((on 0 (openFormat 1)).channels[(0 : Channel)].state = .opened ∧ (filling 0).channels[(3 : Channel)].state = .filling ∧
      (banked 7 (.loading 2) none).bank.states[(7 : TableId)] = .loading 2 ∧
      (banked 7 .armed (some ⟨0x80, .next, 1⟩)).bank.record = some ⟨0x80, .next, 1⟩ ∧
      (filling 0).store.fill = some (fillOf 0) ∧ (filling 0).channels[(0 : Channel)].state = .idle) ∧
    ((on 0 (openFormat 1)).openError 0 [] .state 1 ∧ calm.channels[(0 : Channel)].errors + 1 < calm.params.abandonLimit) ∧
    (∃ b, openBlock [8, 0, 0, 0, 0, 2, 1, 0, 0, 0] = some b ∧ storeParamsValid b = true ∧ storeAddressesValid b = true) ∧
    (∃ b, openBlock [9, 0, 0, 1, 0, 0, 1, 0, 0, 0] = some b ∧ 9 ≤ b.target.toNat) ∧
    (∃ b, openBlock [7, 0, 0, 13, 0, 0, 0, 0, 0, 0] = some b ∧ tableSize 7 < b.offset.toNat + b.length.toNat) ∧
    (∃ b, openBlock [7, 0, 0, 0, 0, 0, 0, 0, 0, 0] = some b ∧ b.length = 0) ∧
    (∃ b, openBlock [8, 0, 0, 1, 0, 3, 1, 0, 0, 0] = some b ∧ 3 ≤ b.mode.toNat) ∧
    (∃ b, openBlock [8, 0, 0, 1, 0, 0, 0, 0, 0, 0] = some b ∧ b.planes = 0) ∧
    (∃ b, openBlock [8, 0, 0, 1, 0, 0, 16, 0, 0, 0] = some b ∧ 16 ≤ b.planes.toNat) ∧
    (∃ b, openBlock [8, 0, 0, 1, 0, 1, 1, 3, 0, 0] = some b ∧ b.mode = 1 ∧ 3 ≤ b.mergeOp.toNat) ∧
    (∃ b, openBlock [8, 0, 0, 1, 0, 2, 1, 0, 0, 16] = some b ∧ b.mode = 2 ∧ 16 ≤ b.colour.toNat) ∧
    (∃ b, openBlock [8, 0, 0, 1, 0, 0, 3, 0, 0, 0] = some b ∧ b.mode ≠ 2 ∧ b.length.toNat % planeCount b.planes ≠ 0) ∧
    (∃ b, openBlock [8, 0, 0, 0, 0, 0, 1, 0, 0, 0] = some b ∧ storeParamsValid b = true ∧ b.mode ≠ 2 ∧ b.length = 0) ∧
    (∃ b, openBlock [8, 0xFF, 0xFF, 2, 0, 0, 1, 0, 0, 0] = some b ∧ storeParamsValid b = true ∧ b.mode ≠ 2 ∧
      65536 < b.offset.toNat + b.length.toNat / planeCount b.planes) ∧
    (∃ b, openBlock [8, 1, 0, 0, 0, 2, 1, 0, 0, 0] = some b ∧ storeParamsValid b = true ∧ b.length = 0 ∧ b.offset ≠ 0) ∧
    (∃ b, openBlock [8, 0xFF, 0xFF, 2, 0, 2, 1, 0, 0, 0] = some b ∧ storeParamsValid b = true ∧ b.length ≠ 0 ∧
      65536 < b.offset.toNat + b.length.toNat) := by
  refine ⟨⟨ready_calm, ready_on _ _ (by decide) rfl, ready_filling.1, ready_filling.2, ready_banked _ _ _, ready_banked _ _ _⟩,
    by decide +kernel, ⟨.inl (by decide +kernel), by decide +kernel⟩,
    ?_, ?_, ?_, ?_, ?_, ?_, ?_, ?_, ?_, ?_, ?_, ?_, ?_, ?_⟩ <;> exact ⟨_, rfl, by decide⟩

theorem met_Data :
    ((on 2 (openFormat 12)).steady ∧ (on 2 (openFormat 12)).takes 2 false ∧
      (on 2 (openFormat 12)).channels[(2 : Channel)].target = some (.table 7 0) ∧
      (on 2 (openFormat 12)).channels[(2 : Channel)].remaining = 12) ∧
    ((on 2 openPlanes).steady ∧ (on 2 openPlanes).takes 2 false ∧
      (on 2 openPlanes).channels[(2 : Channel)].target = some (.store 0b0101 65535 .planar) ∧
      (on 2 openPlanes).store.fill = none ∧ (on 2 openPlanes).channels[(2 : Channel)].remaining = 2) :=
  ⟨⟨on_steady _ _, takes_on _ _ (by simp [openFormat]) rfl, by decide +kernel, by decide +kernel⟩,
    ⟨on_steady _ _, takes_on _ _ (by simp [openPlanes]) rfl, by decide +kernel, rfl, by decide +kernel⟩⟩

theorem met_DataRefused :
    (ready calm 0 ∧ calm.dataError 0 [1] .state 0 ∧ calm.channels[(0 : Channel)].errors + 1 < calm.params.abandonLimit) ∧
    (ready (filling 0) 3 ∧ (filling 0).channels[(3 : Channel)].state = .filling) ∧
    (ready (on 2 (openFormat 1)) 2 ∧ (on 2 (openFormat 1)).dataError 2 [] .invalid 1 ∧
      (on 2 (openFormat 1)).dataError 2 [0, 0] .overrun 1) ∧
    (ready ((on 2 openPlanes).setStore (filling 0).store) 2 ∧
      ((on 2 openPlanes).setStore (filling 0).store).store.fill ≠ none) :=
  ⟨⟨ready_calm, .inl (by decide +kernel), by decide +kernel⟩, ⟨ready_filling.1, by decide +kernel⟩,
    ⟨ready_on _ _ (by decide) rfl, .inr (by decide +kernel), .inr (by decide +kernel)⟩,
    ⟨⟨⟨rfl, rfl, rfl⟩, by decide +kernel, rfl⟩, by decide +kernel⟩⟩

theorem met_CloseTaken :
    (ready (on 2 (openFormat 0)) 2 ∧ ready (on 2 (openFormat 1)) 2 ∧ ready (on 2 { openFormat 1 with errors := 3 }) 2 ∧
      ready calm 0 ∧ ready (filling 0) 3) ∧
    (on 2 (openFormat 0)).channels[(2 : Channel)].remaining = 0 ∧ (on 2 (openFormat 1)).channels[(2 : Channel)].remaining ≠ 0 ∧
    (on 2 { openFormat 1 with errors := 3 }).params.abandonLimit ≤
      (on 2 { openFormat 1 with errors := 3 }).channels[(2 : Channel)].errors + 1 :=
  ⟨⟨ready_on _ _ (by decide) rfl, ready_on _ _ (by decide) rfl, ready_on _ _ (by decide) rfl, ready_calm, ready_filling.1⟩,
    by decide +kernel⟩

theorem met_LoadedBytes :
    (copyWf Bank.powerOn.shadow ∧ 11 + [0x05#8].length ≤ tableSize 7) ∧
    (Memory.wf storeDefault [] = true ∧ (0b0101#4 : BitVec 4) ≠ 0 ∧
      65535 + (0 + [0x00#8, 0x00#8].length - 1) / (selectedPlanes 0b0101).length < 65536) := by
  refine ⟨⟨?_, by decide⟩, by decide⟩
  unfold copyWf
  decide +kernel

theorem met_CommitArmsTables : ready calm 0 ∧
    (∃ b, commitBlock [0xFF, 1, 0xFF, 0x7F, 9] = some b ∧ b.mask ≠ 0 ∧ b.timing = 1 ∧
      1 ≤ (b.target - calm.framer.n).toNat ∧ (b.target - calm.framer.n).toNat ≤ 32767) ∧
    (∃ b, commitBlock [0x01, 0, 0, 0, 9] = some b ∧ b.mask ≠ 0 ∧ b.timing = 0) ∧ calm.bank.record = none ∧
    (∀ t : TableId, calm.bank.states[t] = .clean ∨ calm.bank.states[t] = .loaded) ∧
    firstRejected calm.bank.shadow (maskTables 0xFF) = none :=
  ⟨ready_calm, ⟨_, rfl, by decide +kernel⟩, ⟨_, rfl, by decide⟩, rfl, by decide +kernel, by decide +kernel⟩

/-- A bank whose FORMAT shadow breaks validation: W 0. -/
def badFormat : State := calm.setBank { calm.bank with shadow := tableWriteRun calm.bank.shadow 7 0 [0, 0] }

theorem met_CommitRefused :
    (ready (banked 7 .armed (some ⟨0x80, .next, 1⟩)) 0 ∧ ready (banked 7 (.loading 2) none) 0 ∧
      ready (banked 7 .partialLoad none) 0 ∧ ready badFormat 0 ∧
      commitBlock [0x80, 1, 0, 0x80, 1] = some ⟨0x80, 1, 0x8000, 1⟩) ∧
    (banked 7 .armed (some ⟨0x80, .next, 1⟩)).bank.record = some ⟨0x80, .next, 1⟩ ∧
    ((banked 7 (.loading 2) none).bank.record = none ∧ (banked 7 (.loading 2) none).bank.states[(7 : TableId)] = .loading 2) ∧
    ((banked 7 .partialLoad none).bank.states[(7 : TableId)] = .partialLoad ∧
      ∀ (u : TableId) (h : Channel), (banked 7 .partialLoad none).bank.states[u] ≠ .loading h) ∧
    ((0x8000#16 - calm.framer.n).toNat = 32768 ∧ (0#16 - calm.framer.n).toNat = 0) ∧
    firstRejected badFormat.bank.shadow (maskTables 0x80) = some (7, 0) :=
  ⟨⟨ready_banked _ _ _, ready_banked _ _ _, ready_banked _ _ _, ⟨⟨rfl, rfl, rfl⟩, calm_takes⟩, rfl⟩, by decide +kernel⟩

theorem met_InvalidMaskRefused : ready calm 0 ∧
    (∃ b, commitBlock [0, 0, 0, 0, 0] = some b ∧ b.mask = 0) ∧ (∃ b, commitBlock [1, 2, 0, 0, 0] = some b ∧ 2 ≤ b.timing.toNat) ∧
    calm.channels[(0 : Channel)].errors + 1 < calm.params.abandonLimit :=
  ⟨ready_calm, ⟨_, rfl, rfl⟩, ⟨_, rfl, by decide⟩, by decide +kernel⟩

theorem met_CommitValidation : maskTables 0xC1 = [0, 6, 7] ∧ firstRejected badFormat.bank.shadow [0, 6, 7] = some (7, 0) ∧
    firstRejected (tableWriteRun calm.bank.shadow 0 300 [0x51]) [0, 7] = some (0, 15) ∧
    firstRejected (tableWriteRun calm.bank.shadow 6 126 [0x01]) [6] = some (6, 7) := by decide +kernel

theorem met_CancelAndRevert :
    (ready (banked 7 .armed (some ⟨0x80, .next, 1⟩)) 0 ∧ ready (banked 7 .loaded none) 0 ∧
      ready (banked 7 (.loading 2) none) 0 ∧ ready calm 0) ∧
    (∀ t : TableId, (0x80#8).getLsbD t.val = true → (banked 7 .loaded none).bank.states[t] = .loaded) ∧
    (banked 7 (.loading 2) none).bank.states[(7 : TableId)] = .loading 2 ∧
    (banked 7 .armed (some ⟨0x80, .next, 1⟩)).bank.states[(7 : TableId)] = .armed :=
  ⟨⟨ready_banked _ _ _, ready_banked _ _ _, ready_banked _ _ _, ready_calm⟩, by decide +kernel⟩

theorem met_ActiveCopiesChangeOnlyAtStarts :
    (calm.settled = true ∧ (calm.tracker.waiting.isEmpty || calm.framesWait) = true ∧
      ∃ t, exec (.data 0 false [1]) calm = .next t) ∧
    (waits.settled = true ∧ waits.framesWait = true) ∧
    ((∃ t, step calm = .next t) ∧ calm.pending = [] ∧ ∃ t, step (calm.setPending [.emitLine]) = .next t) :=
  ⟨⟨rfl, rfl, _, rfl⟩, ⟨rfl, rfl⟩, ⟨_, rfl⟩, rfl, _, rfl⟩

/-- The FORMAT table armed, with the first output frame start due. -/
def armedAtStart (timing : Timing) : State :=
  (banked 7 .armed (some ⟨0x80, timing, 1⟩)).setFramer { calm.framer with due := some .leaveReset }

theorem met_CommitResolvedAtStart (timing : Timing) :
    (armedAtStart timing).power = .running ∧ (armedAtStart timing).timeoutsDue = [] ∧
    (armedAtStart timing).tracker.expiryDue = false ∧ (armedAtStart timing).startNow = some .leaveReset ∧
    (armedAtStart timing).ownership ∧ (armedAtStart timing).bank.record = some ⟨0x80, timing, 1⟩ := by
  have idle : ∀ k : Channel, (armedAtStart timing).channels[k] = .powerOn := by
    show ∀ k : Channel, calm.channels[k] = .powerOn
    decide +kernel
  have states : ∀ t : TableId, (armedAtStart timing).bank.states[t] = if t = 7 then .armed else .clean := by
    show ∀ t : TableId, (calm.bank.states.set (7 : TableId) .armed)[t] = if t = 7 then .armed else .clean
    decide +kernel
  have mask : ∀ t : TableId, (0x80#8).getLsbD t.val = true ↔ t = 7 := by decide +kernel
  refine ⟨rfl, rfl, rfl, rfl, ⟨fun k => ?_, fun t k => ?_, fun t => ?_, fun k => ?_⟩, rfl⟩
  · rw [idle]
    exact ⟨Nat.le_refl _, by decide, rfl⟩
  · rw [idle, states]
    refine ⟨fun e => ?_, fun e => by cases e⟩
    split at e <;> cases e
  · rw [states]
    refine ⟨fun e => ⟨_, rfl, (mask t).mpr ?_⟩, fun e => ?_⟩
    · by_contra h
      rw [if_neg h] at e
      cases e
    · obtain ⟨c, hc, hm⟩ := e
      cases hc
      rw [if_pos ((mask t).mp hm)]
  · rw [idle]
    exact ⟨fun e => (by cases e), fun e => (by cases e)⟩

/-- A start with an empty commit record (R42); `met_Ownership` says who holds what there. -/
theorem met_CommitResolvedAtStart_empty :
    State.reset.power = .running ∧ State.reset.timeoutsDue = [] ∧ State.reset.tracker.expiryDue = false ∧
    State.reset.startNow = some .leaveReset ∧ State.reset.bank.record = none ∧
    ∀ (ch : Channel) (u : TableId), Target.tableOf State.reset.channels[ch].target ≠ some u := by decide +kernel

theorem met_ReadTaken : (ready calm 0 ∧ calm.channels[(0 : Channel)].errors + 1 < calm.params.abandonLimit ∧
      readError ⟨9, 0, 0, 57, 64⟩ .range) ∧
    (∃ b, readBlock [7, 1, 0, 0, 0, 12] = some b ∧ b.length.toNat ≤ 64 ∧ b.selector.toNat ≤ 1 ∧
      b.offset.toNat + b.length.toNat ≤ tableSize 7) ∧
    (∃ b, readBlock [8, 0, 3, 0xFF, 0xFF, 1] = some b ∧ b.target = 8 ∧ b.plane.toNat = (3 : Fin 4).val ∧
      b.offset.toNat + b.length.toNat ≤ 65536) ∧
    (∃ b, readBlock [9, 0, 0, 56, 0, 64] = some b ∧ b.target = 9 ∧ b.offset.toNat + b.length.toNat ≤ 120) ∧
    (∃ b, readBlock [10, 0, 0, 0, 0, 1] = some b ∧ 10 ≤ b.target.toNat) ∧
    (∃ b, readBlock [0, 2, 0, 0, 0, 1] = some b ∧ b.target.toNat ≤ 7 ∧ 2 ≤ b.selector.toNat) ∧
    (∃ b, readBlock [9, 0, 0, 0, 0, 0] = some b ∧ b.target.toNat ≤ 9 ∧ b.length = 0) ∧
    (∃ b, readBlock [9, 0, 0, 0, 0, 65] = some b ∧ 65 ≤ b.length.toNat) ∧
    (∃ b, readBlock [7, 0, 0, 0, 0, 13] = some b ∧ tableSize 7 < b.offset.toNat + b.length.toNat) ∧
    (∃ b, readBlock [8, 0, 4, 0, 0, 1] = some b ∧ 4 ≤ b.plane.toNat) ∧
    (∃ b, readBlock [8, 0, 0, 0xFF, 0xFF, 2] = some b ∧ 65536 < b.offset.toNat + b.length.toNat) ∧
    (∃ b, readBlock [9, 0, 0, 57, 0, 64] = some b ∧ 120 < b.offset.toNat + b.length.toNat) := by
  refine ⟨⟨ready_calm, by decide +kernel, .inr ⟨by decide, by decide, rfl, by decide⟩⟩,
    ?_, ?_, ?_, ?_, ?_, ?_, ?_, ?_, ?_, ?_, ?_⟩ <;> exact ⟨_, rfl, by decide⟩

theorem met_SetParamTaken : (ready calm 0 ∧ calm.channels[(0 : Channel)].errors + 1 < calm.params.abandonLimit) ∧
    (calm.paramError 6 0 0 ∧ calm.paramError 0 256 16 ∧ calm.paramError 1 8 4 ∧ calm.paramError 2 1 3 ∧
      calm.paramError 3 0 2 ∧ calm.paramError 4 16 3 ∧ calm.paramError 5 2048 0x7FF) ∧
    paramBlock [0, 255, 0] = some (0, 255) ∧ paramBlock [1, 7, 0] = some (1, 7) ∧ paramBlock [2, 2, 0] = some (2, 2) ∧
    paramBlock [3, 1, 0] = some (3, 1) ∧ paramBlock [4, 15, 0] = some (4, 15) ∧ paramBlock [5, 0xFF, 7] = some (5, 2047) ∧
    paramBlock [6, 0, 0] = some (6, 0) ∧ paramBlock [0, 0, 1] = some (0, 256) ∧ paramBlock [1, 8, 0] = some (1, 8) ∧
    paramBlock [2, 1, 0] = some (2, 1) ∧ paramBlock [3, 0, 0] = some (3, 0) ∧ paramBlock [4, 16, 0] = some (4, 16) ∧
    paramBlock [5, 0, 8] = some (5, 2048) ∧
    ((lockedAt .receiving 0 0 false).setTracker
      { (lockedAt .receiving 0 0 false).tracker with lossTimer := some 200000 }).lossTimeUp = false ∧
    (((lockedAt .receiving 0 0 false).setTracker
      { (lockedAt .receiving 0 0 false).tracker with lossTimer := some 200000 }).setParams
        { Params.default with lossMultiple := 2 }).lossTimeUp = true := by
  refine ⟨⟨ready_calm, by decide +kernel⟩, ⟨.inl ?_, .inr (.inl ?_), .inr (.inr (.inl ?_)), .inr (.inr (.inr (.inl ?_))),
    .inr (.inr (.inr (.inr (.inl ?_)))), .inr (.inr (.inr (.inr (.inr (.inl ?_))))),
    .inr (.inr (.inr (.inr (.inr (.inr ?_)))))⟩, by decide +kernel⟩ <;> decide +kernel

theorem met_Resets :
    (ready calm 0 ∧ ready (receivingPass 0) 0 ∧ ready (passFrame 1 [handed0] (lockedAt .complete 2 0 false)) 0 ∧
      ready (switching none) 0 ∧ ready (waits.setTracker { waits.tracker with waiting := [.start 1] }) 0) ∧
    ((receivingPass 0).tracker.state = .locked ∧ (receivingPass 0).framer.mode = .pass ∧
      0 + (receivingPass 0).framer.handed.length < 2 ∧ (switching none).framer.switchBack = true) ∧ 2 ≤ (0x02#8).toNat ∧
    calm.channels[(0 : Channel)].errors + 1 < calm.params.abandonLimit ∧
    (calm.setPower .held).power = .held ∧ (calm.setPower (.clearing 5)).power = .clearing 5 ∧
    (calm.setPower (.clearing 5)).framer.firstFrame = true ∧ (∀ ch : Channel, calm.channels[ch].state = .idle) :=
  ⟨⟨ready_calm, ⟨⟨rfl, rfl, rfl⟩, calm_takes⟩, ⟨⟨rfl, rfl, rfl⟩, calm_takes⟩, ⟨⟨rfl, rfl, rfl⟩, calm_takes⟩,
    ⟨rfl, rfl, rfl⟩, calm_takes⟩, ⟨rfl, rfl, by decide, rfl⟩, by decide, by decide +kernel, rfl, rfl, rfl, by decide +kernel⟩

theorem met_DamagedAndIdlePackets : calm.steady ∧ calm.rtq.laneKept := ⟨calm_steady, fun _ => rfl⟩

theorem met_FramePacketsInSearchOrWaiting :
    (waits.steady ∧ waits.framesWait = true) ∧ calm.framesWait = false ∧ calm.tracker.state = .search :=
  ⟨⟨⟨rfl, rfl, rfl⟩, rfl⟩, rfl, rfl⟩

/-- A lock attempt in a phase, next line `e`, `k` conforming frames so far. -/
def locking (phase : FramePhase) (e k : Nat) : State :=
  sized 2 2 (calm.setTracker { calm.tracker with state := .locking, phase := phase, expected := e, conforming := k, lossTimer := some 0 })

theorem met_LockingMeasuresFrames :
    ((locking .complete 2 1).steady ∧ (locking .complete 2 1).framesWait = false ∧
      (locking .complete 2 1).tracker.state = .locking) ∧
    ((locking .complete 2 0).tracker.conforming + 1 < (locking .complete 2 0).params.lockCount ∧
      (locking .complete 2 1).params.lockCount ≤ (locking .complete 2 1).tracker.conforming + 1 ∧
      (2#16).toNat = (locking .complete 2 1).format.height) ∧
    ((locking .receiving 0 0).tracker.phase ≠ .complete ∧ (locking .noFrame 0 0).tracker.phase = .noFrame) := by
  refine ⟨⟨⟨rfl, rfl, rfl⟩, rfl, rfl⟩, by decide +kernel, by decide +kernel⟩

/-- A relock while a PASS frame is still being finished: its last line in hand, the first fallback frame due behind it. -/
def finishing (phase : FramePhase) : State :=
  (passFrame 1 [handed0] (lockedAt phase 0 0 false)).setFramer
    { (passFrame 1 [handed0] (lockedAt phase 0 0 false)).framer with due := some .entry }

/-- `finishing` with that last line emitted, and an upstream frame opened meanwhile. -/
def behindEntry : State :=
  after .emitLine ((after (.frameStart 9) (finishing .noFrame)).setPlan (some ⟨.pass, 1, 2, 2, ⟨0, 0, 0⟩, []⟩))

/-- STRAY does not wait (R131), nor does the FRAME_START; its start follows the first fallback frame's and truncates that
frame (R147, R149; assumption log 14). -/
theorem test_relock_while_finishing :
    (after (.line 0 []) (finishing .noFrame)).rtq.inFlight = some (.event ⟨.frameFault, 6, 1, 0, 0⟩ 0) ∧
    (after (.frameStart 9) (finishing .noFrame)).tracker.upstreamN = 9 ∧
    (after (.outputFrameStart [] []) (after (.outputFrameStart [] []) behindEntry)).framer.linkOut =
      [.line 0 [⟨1, 2, 3⟩, ⟨4, 5, 6⟩], .frameEnd 7 2 false, .frameStart 0, .frameEnd 0 0 true, .frameStart 9] := by
  decide +kernel

theorem met_FrameStartUnderLock :
    ((finishing .noFrame).steady ∧ (finishing .noFrame).framesWait = false ∧ (finishing .noFrame).framer.due = some .entry) ∧
    ((passFrame 0 [] (lockedAt .noFrame 0 0 false)).steady ∧ (passFrame 0 [] (lockedAt .noFrame 0 0 false)).framesWait = false ∧
      (passFrame 0 [] (lockedAt .noFrame 0 0 false)).framer.mode = .pass ∧
      (passFrame 0 [] (lockedAt .complete 2 0 false)).tracker.phase ≠ .receiving) ∧
    ((lockedAt .noFrame 0 0 false).steady ∧ (lockedAt .noFrame 0 0 false).framer.mode = .fallback ∧
      (lockedAt .noFrame 0 0 false).framer.switchBack = false) ∧
    ((switching none).steady ∧ (switching none).framer.switchBack = true ∧ (switching none).framer.frame = none) ∧
    ((switching (some ⟨.fallback, 1, 1, 2, 1⟩)).steady ∧
      (switching (some ⟨.fallback, 1, 1, 2, 1⟩)).framer.frame = some ⟨.fallback, 1, 1, 2, 1⟩) :=
  ⟨⟨⟨rfl, rfl, rfl⟩, rfl, rfl⟩, ⟨⟨rfl, rfl, rfl⟩, rfl, rfl, by decide +kernel⟩, ⟨⟨rfl, rfl, rfl⟩, rfl, rfl⟩,
    ⟨⟨rfl, rfl, rfl⟩, rfl, rfl⟩, ⟨⟨rfl, rfl, rfl⟩, rfl⟩⟩

theorem met_Receiving :
    ((finishing .receiving).steady ∧ (finishing .receiving).framesWait = false ∧
      (finishing .receiving).framer.due = some .entry) ∧
    ((receivingPass 0).steady ∧ (receivingPass 0).framesWait = false ∧ (receivingPass 0).tracker.state = .locked ∧
      (receivingPass 0).tracker.phase = .receiving ∧ (receivingPass 0).framer.mode = .pass) ∧
    ((receivingPass 1).tracker.faultyFrames + 1 < (receivingPass 1).params.faultLimit ∧
      (receivingPass 2).params.faultLimit ≤ (receivingPass 2).tracker.faultyFrames + 1) ∧
    ((receivingPass 2).framer.frame = some ⟨.pass, 7, 1, 2, 0⟩ ∧
      2 ≤ 0 + (receivingPass 2).framer.handed.length + ((receivingPass 2).format.height - (receivingPass 2).tracker.expected)) ∧
    ((receivingPass 0).format.height ≤ (2#16).toNat ∧ (0#16).toNat < (receivingPass 0).tracker.expected ∧
      (receivingPass 0).tracker.expected ≤ (1#16).toNat ∧ (1#16).toNat + 1 = (receivingPass 0).format.height ∧
      (0#16).toNat + 1 < (receivingPass 0).format.height) ∧
    ([] : List Pixel).length ≠ (receivingPass 2).format.width :=
  ⟨⟨⟨rfl, rfl, rfl⟩, rfl, rfl⟩, ⟨⟨rfl, rfl, rfl⟩, rfl, rfl, rfl, rfl⟩, by decide +kernel, by decide +kernel, by decide +kernel, by decide +kernel⟩

theorem met_FrameEndAndLateLines :
    ((receivingPass 2).steady ∧ (receivingPass 2).tracker.phase = .receiving ∧
      (receivingPass 2).params.faultLimit ≤ (receivingPass 2).tracker.faultyFrames + 1 ∧
      (receivingPass 2).framer.frame = some ⟨.pass, 7, 1, 2, 0⟩ ∧
      2 ≤ 0 + (receivingPass 2).framer.handed.length + ((receivingPass 2).format.height - (receivingPass 2).tracker.expected)) ∧
    (((lockedAt .complete 2 2 false).setFramer { calm.framer with mode := .pass }).steady ∧
      ((lockedAt .complete 2 2 false).setFramer { calm.framer with mode := .pass }).framer.frame = none ∧
      (lockedAt .complete 2 2 false).params.faultLimit ≤ (lockedAt .complete 2 2 false).tracker.faultyFrames + 1) ∧
    ((lockedAt .noFrame 0 0 false).steady ∧ (lockedAt .noFrame 0 0 false).tracker.phase = .noFrame) ∧
    ((lockedAt .complete 2 0 false).steady ∧ (2#16).toNat = (lockedAt .complete 2 0 false).format.height ∧
      (3#16).toNat ≠ (lockedAt .complete 2 0 false).format.height ∧
      (lockedAt .complete 2 0 false).tracker.faultyFrames + 1 < (lockedAt .complete 2 0 false).params.faultLimit) ∧
    ((lockedAt .receiving 1 1 false).tracker.faultyFrames + 1 < (lockedAt .receiving 1 1 false).params.faultLimit) ∧
    ((passFrame 1 [handed0] (lockedAt .complete 2 2 false)).params.faultLimit ≤
        (passFrame 1 [handed0] (lockedAt .complete 2 2 false)).tracker.faultyFrames + 1 ∧
      (passFrame 1 [handed0] (lockedAt .complete 2 2 false)).framer.mode = .pass ∧
      2 ≤ 1 + (passFrame 1 [handed0] (lockedAt .complete 2 2 false)).framer.handed.length) :=
  ⟨⟨⟨rfl, rfl, rfl⟩, rfl, by decide +kernel, rfl, by decide +kernel⟩, ⟨⟨rfl, rfl, rfl⟩, rfl, by decide +kernel⟩,
    ⟨⟨rfl, rfl, rfl⟩, rfl⟩, ⟨⟨rfl, rfl, rfl⟩, by decide +kernel, by decide +kernel, by decide +kernel⟩, by decide +kernel,
    by decide +kernel⟩

/-- A LINE waits for an output frame start just taken, which has brought a loss timer expiry and a channel timeout. -/
def expiring : State :=
  ((receivingPass 0).setTracker
    { (receivingPass 0).tracker with expiryDue := true, waiting := [.line 1 [⟨0, 0, 0⟩, ⟨0, 0, 0⟩]] }).setTimeoutsDue [2]

/-- The expiry comes before the waiting line and, where its command says so, before the timeout (assumption log 2, 3). -/
theorem test_expiry_first :
    ((after .lossTimerExpiry expiring).framer.linkOut = [.frameEnd 7 0 true] ∧
      (after .lossTimerExpiry expiring).tracker.waiting.length = 1 ∧ (after .lossTimerExpiry expiring).timeoutsDue = [2]) ∧
    ((after .idle expiring).framer.linkOut = [.frameEnd 7 0 true, .frameStart 0] ∧
      (after .idle expiring).tracker.waiting = []) := by decide +kernel

theorem met_TimersExpire :
    (expiring.power = .running ∧ expiring.tracker.expiryDue = true ∧ expiring.tracker.state = .locked) ∧
    ((locking .noFrame 0 0).steady ∧ (locking .noFrame 0 0).tracker.lossTimer = some 0) ∧
    ((lockedAt .noFrame 0 0 false).tracker.waiting = [] ∧ (lockedAt .noFrame 0 0 false).framer.mode = .fallback) ∧
    (((lockedAt .noFrame 0 0 false).setFramer { calm.framer with mode := .pass }).framer.frame = none ∧
      ((lockedAt .noFrame 0 0 false).setFramer { calm.framer with mode := .pass }).steady) ∧
    (passFrame 1 [handed0] (lockedAt .complete 2 0 false)).frameHanded ⟨.pass, 7, 1, 2, 1⟩ ∧
    ¬(passFrame 0 [handed0] (lockedAt .receiving 1 0 false)).frameHanded ⟨.pass, 7, 1, 2, 0⟩ ∧
    ((calm.setFramer { calm.framer with timer := some ⟨0, 16667⟩ }).steady ∧ calm.framer.due = none) := by
  refine ⟨⟨rfl, rfl, rfl⟩, ⟨⟨rfl, rfl, rfl⟩, rfl⟩, ⟨rfl, rfl⟩, ⟨rfl, rfl, rfl, rfl⟩, ?_, ?_, ⟨rfl, rfl, rfl⟩, rfl⟩ <;>
    (unfold State.frameHanded; decide +kernel)

theorem met_OutputFrameStarts :
    (State.reset.power = .running ∧ State.reset.timeoutsDue = [] ∧ State.reset.tracker.expiryDue = false ∧
      State.reset.startNow = some .leaveReset) ∧
    (behindEntry.power = .running ∧ behindEntry.timeoutsDue = [] ∧ behindEntry.tracker.expiryDue = false ∧
      behindEntry.startNow = some .entryThenUpstream) ∧
    ((after (.outputFrameStart [] []) behindEntry).startNow = some .upstream ∧
      (after (.outputFrameStart [] []) behindEntry).framer.frame = some ⟨.fallback, 0, 0, 2, 0⟩) ∧
    ([3] ++ [1, 0] : List Channel).Nodup ∧
    (geometryChanged (sized 2 2 calm) calm = true ∧ (lockedAt .receiving 0 0 false).tracker.state ≠ .search) := by
  decide +kernel

theorem met_CombineOps : (255 : Nat) ≤ 255 ∧ (⟨⟨255, 255, 255⟩, 128⟩ : PaletteEntry).alpha = 128 ∧
    (keyRule calm.bank.active 7).care = ⟨0, 0, 0⟩ := by decide +kernel

/-- A frame in progress with a plan of one layer-free frame, 2 columns by 2 lines. -/
def emitting (type : FrameType) (lines : Nat) (handed : List HandedLine) : State :=
  (calm.setFramer
    { calm.framer with mode := type, frame := some ⟨type, 7, 1, 2, lines⟩, handed := handed, building := [[]] }).setPlan
    (some ⟨type, 1, 2, 2, ⟨0, 0, 0⟩, []⟩)

theorem met_LineEmitted :
    ((emitting .pass 0 [{ handed0 with moments := [[], [(1, 1)]] }, handed0]).steady ∧
      (emitting .pass 1 [handed0]).framer.handed.length = 1 ∧ (finishing .noFrame).framer.due = some .entry ∧
      behindEntry.framer.mode = .fallback ∧ behindEntry.framer.switchBack = true) ∧
    (calm.steady ∧ calm.framer.frame = none ∧ (emitting .pass 0 []).steady ∧ (emitting .pass 0 []).framer.handed = []) ∧
    ((emitting .pass 0 [handed0]).steady ∧ (emitting .pass 0 [handed0]).framer.frame = some ⟨.pass, 7, 1, 2, 0⟩ ∧
      (∃ kind, (emitting .pass 0 [handed0]).framer.handed = ⟨0, kind, [⟨1, 2, 3⟩, ⟨4, 5, 6⟩], [[]]⟩ :: []) ∧ 0 + 1 < 2) ∧
    ((emitting .fallback 1 []).steady ∧ (emitting .fallback 1 []).framer.building = [[]] ∧
      (emitting .fallback 1 []).plan = some ⟨.fallback, 1, 2, 2, ⟨0, 0, 0⟩, []⟩ ∧ 2 ≤ 1 + 1) :=
  ⟨⟨⟨rfl, rfl, rfl⟩, rfl, rfl, by decide +kernel, by decide +kernel⟩, ⟨calm_steady, rfl, ⟨rfl, rfl, rfl⟩, rfl⟩,
    ⟨⟨rfl, rfl, rfl⟩, rfl, ⟨_, rfl⟩, by decide⟩, ⟨rfl, rfl, rfl⟩, rfl, rfl, by decide⟩

/-- The first output frame start due, channel 1 about to time out with the FORMAT table open. -/
def timingOut : State :=
  (((on 1 { openFormat 5 with idleFrames := 15 }).setBank (banked 7 (.loading 1) none).bank).setFramer
    { calm.framer with due := some .leaveReset })

theorem met_ChannelTimesOut_start :
    timingOut.power = .running ∧ timingOut.timeoutsDue = [] ∧ timingOut.tracker.expiryDue = false ∧
    timingOut.startNow = some .leaveReset ∧ timingOut.ownership ∧ timingOut.timesOut 1 = true ∧
    Target.tableOf timingOut.channels[(1 : Channel)].target = some 7 := by
  have states : ∀ t : TableId, timingOut.bank.states[t] = if t = 7 then .loading 1 else .clean := by decide +kernel
  have channels : ∀ ch : Channel, timingOut.channels[ch] =
      if ch = 1 then { openFormat 5 with idleFrames := 15 } else .powerOn := by decide +kernel
  refine ⟨rfl, rfl, rfl, rfl, ⟨fun ch => ?_, ?_, fun t => ?_, ?_⟩, by decide +kernel, by decide +kernel⟩
  · rw [channels]
    split
    · exact ⟨by decide, by decide, rfl, by decide⟩
    · exact ⟨by decide, by decide, rfl⟩
  · show ∀ (t : TableId) (ch : Channel), _
    decide +kernel
  · rw [states]
    refine ⟨fun e => ?_, fun ⟨_, e, _⟩ => (by cases e)⟩
    split at e <;> cases e
  · show ∀ ch : Channel, _
    decide +kernel

theorem met_ChannelTimesOut :
    ((on 1 { openFormat 5 with idleFrames := 15 }).channels[(1 : Channel)].state = .opened ∧
      calm.params.channelTimeout ≤ (on 1 { openFormat 5 with idleFrames := 15 }).channels[(1 : Channel)].idleFrames + 1) ∧
    (1 : Channel) ∈ ((on 1 (openFormat 5)).setTimeoutsDue [1]).timeoutsDue := by decide +kernel

theorem met_FillStepsAndCompletes :
    ((filling 0).steady ∧ (filling 0).store.fill = some (fillOf 0) ∧ (fillOf 0).progress < (fillOf 0).span ∧
      (filling 0).store.cells.wf storeDefault = true ∧ (fillOf 0).start + (fillOf 0).progress < 65536) ∧
    ((filling 1).steady ∧ (filling 1).store.fill = some (fillOf 1) ∧ (fillOf 1).progress = (fillOf 1).span) :=
  ⟨⟨⟨rfl, rfl, rfl⟩, rfl, by decide, rfl, by decide⟩, ⟨rfl, rfl, rfl⟩, rfl, rfl⟩

/-- A planned check over one pixel. -/
def onePixelCheck : CheckPlan := ⟨⟨0, 1, 0, 1⟩, .a, crc32Init⟩

/-- An enabled check 0 with threshold 1 and the given A flags byte. -/
def checkState : State :=
  (calm.setBank { calm.bank with active := tableWriteRun calm.bank.active 6 0 [0x13, 0x00] }).setChecker
    { calm.checker with plans := calm.checker.plans.set 0 (some onePixelCheck) }

theorem met_CheckEvaluated :
    checkState.checker.plans[(0 : Fin 8)] = some onePixelCheck ∧
    (expectedValue ⟨true, none, none, none, 1, 0, 0, 0, 0⟩ CheckRecord.powerOn .a = none ∧
      expectedValue ⟨true, some 5, none, none, 1, 0, 0, 0, 0⟩ CheckRecord.powerOn .a = some 5 ∧
      expectedValue ⟨true, none, none, none, 1, 0, 0, 0, 0⟩ { CheckRecord.powerOn with learnedBFlag := true } .b = some 0) := by
  decide +kernel

theorem met_MessagesFollowOnLane :
    (busyLane.steady ∧ busyLane.rtq.inFlight = some (.reply 3 .powerOn)) ∧
    (∀ e ∈ [Entry.event ⟨.fillDone, 0, 1, 0, 0⟩], e.isEvent = true) ∧ calm.rtq.inFlight = none :=
  ⟨⟨⟨rfl, rfl, rfl⟩, rfl⟩, by decide, rfl⟩

/-- Twelve distinct events waiting. -/
def twelve : List Entry := (List.range 12).map (fun i => .event ⟨.committed, BitVec.ofNat 8 i, 255, 0, 0⟩)

theorem met_EntriesJoinQueue :
    (∀ e ∈ [Entry.event ⟨.fillDone, 0, 1, 0, 0⟩], e.isReplyOf 0 = false) ∧
    (12 ≤ twelve.countP Entry.isEvent ∧ ∀ x ∈ twelve, x.isEventOf .committed 12 = false) ∧
    ((twelve.take 11).countP Entry.isEvent < 12 ∧ ∀ x ∈ twelve.take 11, x.isEventOf .committed 11 = false) := by
  decide +kernel

/-- The invariants and a step from the state after reset. -/
theorem met_Invariants :
    (State.reset.rtq.bounded ∧ State.reset.rtq.laneKept ∧ State.reset.rtq.countsFit) ∧ State.reset.memoriesCanonical ∧
    (State.reset.checker.pinFollows ∧ State.reset.tracker.memoryWhole ∧ State.reset.params.inRange ∧
      State.reset.tracker.countsFit) ∧ ∃ t, step State.reset = .next t := by
  refine ⟨⟨⟨by decide, by decide, by decide⟩, fun _ => rfl, by decide, by decide, fun e he => by cases he⟩,
    ⟨rfl, ?_, ?_⟩, ⟨rfl, List.length_replicate, ?_, by decide, by decide, fun h => by cases h⟩, _, rfl⟩
  · show ∀ t : TableId, _
    decide
  · show ∀ t : TableId, _
    decide
  · intro p
    cases p <;> exact ⟨by decide, by decide⟩

theorem met_Ownership : State.reset.ownership ∧ State.reset.timeoutsHeld := by
  have idle : ∀ k : Channel, State.reset.channels[k] = .powerOn := by decide +kernel
  have clean : ∀ t : TableId, State.reset.bank.states[t] = .clean := by decide +kernel
  refine ⟨⟨fun k => ?_, fun t k => ?_, fun t => ?_, fun k => ?_⟩, List.nodup_nil, fun k hk => (by cases hk), fun h => absurd rfl h⟩
  · rw [idle]
    exact ⟨Nat.le_refl _, by decide, rfl⟩
  · rw [idle, clean]
    exact ⟨fun e => (by cases e), fun e => (by cases e)⟩
  · rw [clean]
    exact ⟨fun e => (by cases e), fun ⟨_, e, _⟩ => (by cases e)⟩
  · rw [idle]
    exact ⟨fun e => (by cases e), fun e => (by cases e)⟩

theorem met_ReceiveReadsPackets : (Instr.status 3 true []).wf = true ∧
    packetOf (.status 3 true []) = some [0x04, 0x07, 0x09, 0x00, 0x00, 0xB6, 0x57] := by decide +kernel

end Sys2Proof.Tests
end

section
/-! SUPPORT. The pixel arithmetic of the compositor: the combine ops (R17 to R19) and the match of a key rule (R13). -/

namespace Sys2Proof.Machine

/-! ## BLEND: the effective alpha and one channel -/

/-- The effective alpha of byte alphas fits a byte (R18). -/
theorem effectiveAlpha_le {alpha g : Nat} (ha : alpha ≤ 255) (hg : g ≤ 255) : effectiveAlpha alpha g ≤ 255 := by
  have hprod : alpha * g ≤ 255 * 255 := Nat.mul_le_mul ha hg
  unfold effectiveAlpha
  omega

/-- An alpha of 0 on either side leaves no effective alpha. -/
theorem effectiveAlpha_eq_zero {alpha g : Nat} (h : alpha = 0 ∨ g = 0) : effectiveAlpha alpha g = 0 := by
  have hprod : alpha * g = 0 := Nat.mul_eq_zero.2 h
  simp [effectiveAlpha, hprod]

/-- The rounded mean of x and y with weights a and 255 - a lies between them: as the weights add up to 255, the weighted
sum lies between 255 times the smaller and 255 times the larger. -/
theorem weightedMean_mem_between {a : Nat} (x y : Nat) (ha : a ≤ 255) :
    min x y ≤ (x * a + y * (255 - a) + 127) / 255 ∧ (x * a + y * (255 - a) + 127) / 255 ≤ max x y := by
  have weights (m : Nat) : m * a + m * (255 - a) = m * 255 := by rw [← Nat.mul_add, Nat.add_sub_cancel' ha]
  have lower : min x y * 255 ≤ x * a + y * (255 - a) := by
    rw [← weights]
    gcongr
    exacts [min_le_left x y, min_le_right x y]
  have upper : x * a + y * (255 - a) ≤ max x y * 255 := by
    rw [← weights]
    gcongr
    exacts [le_max_left x y, le_max_right x y]
  omega

/-- The rounded mean of two bytes is a byte, so a blended channel holds it whole (R18). -/
theorem blendChannel_toNat {a : Nat} (src dst : Byte) (ha : a ≤ 255) :
    (blendChannel a src dst).toNat = (src.toNat * a + dst.toNat * (255 - a) + 127) / 255 := by
  have hmean := (weightedMean_mem_between src.toNat dst.toNat ha).2
  have hsrc := src.isLt
  have hdst := dst.isLt
  unfold blendChannel
  rw [BitVec.toNat_ofNat, Nat.mod_eq_of_lt]
  omega

/-- A blended channel lies between source and destination (R18). -/
theorem blendChannel_mem_between {a : Nat} (src dst : Byte) (ha : a ≤ 255) :
    min src.toNat dst.toNat ≤ (blendChannel a src dst).toNat ∧
      (blendChannel a src dst).toNat ≤ max src.toNat dst.toNat := by
  rw [blendChannel_toNat src dst ha]
  exact weightedMean_mem_between _ _ ha

/-- At effective alpha 255 a blended channel is the source. -/
@[simp] theorem blendChannel_full (src dst : Byte) : blendChannel 255 src dst = src := by
  apply BitVec.eq_of_toNat_eq
  rw [blendChannel_toNat src dst (Nat.le_refl _)]
  omega

/-- At effective alpha 0 a blended channel is the destination. -/
@[simp] theorem blendChannel_zero (src dst : Byte) : blendChannel 0 src dst = dst := by
  apply BitVec.eq_of_toNat_eq
  rw [blendChannel_toNat src dst (Nat.zero_le _)]
  omega

/-! ## The combine ops on a pixel -/

/-- REPLACE (R17). -/
@[simp] theorem combine_replace (g : Nat) (e : PaletteEntry) (dst : Pixel) : combine 0 g e dst = e.colour := rfl

/-- BLEND (R18): all channels are mixed by the same effective alpha. -/
theorem combine_blend (g : Nat) (e : PaletteEntry) (dst : Pixel) :
    combine 1 g e dst = Pixel.zipWith (blendChannel (effectiveAlpha e.alpha g)) e.colour dst := rfl

/-- AND (R19). -/
@[simp] theorem combine_and (g : Nat) (e : PaletteEntry) (dst : Pixel) :
    combine 2 g e dst = ⟨dst.r &&& e.colour.r, dst.g &&& e.colour.g, dst.b &&& e.colour.b⟩ := rfl

/-- OR (R19). -/
@[simp] theorem combine_or (g : Nat) (e : PaletteEntry) (dst : Pixel) :
    combine 3 g e dst = ⟨dst.r ||| e.colour.r, dst.g ||| e.colour.g, dst.b ||| e.colour.b⟩ := rfl

/-- XOR (R19). -/
@[simp] theorem combine_xor (g : Nat) (e : PaletteEntry) (dst : Pixel) :
    combine 4 g e dst = ⟨dst.r ^^^ e.colour.r, dst.g ^^^ e.colour.g, dst.b ^^^ e.colour.b⟩ := rfl

/-- BLEND with both alphas 255 gives the source colour. -/
theorem combine_blend_opaque {g : Nat} {e : PaletteEntry} (dst : Pixel) (h : e.alpha = 255 ∧ g = 255) :
    combine 1 g e dst = e.colour := by
  obtain ⟨halpha, rfl⟩ := h
  have full : effectiveAlpha e.alpha 255 = 255 := by rw [halpha]; rfl
  simp [combine_blend, full, Pixel.zipWith]

/-- BLEND with either alpha 0 keeps the pixel. -/
theorem combine_blend_transparent {g : Nat} {e : PaletteEntry} (dst : Pixel) (h : e.alpha = 0 ∨ g = 0) :
    combine 1 g e dst = dst := by
  simp [combine_blend, effectiveAlpha_eq_zero h, Pixel.zipWith]

/-- The ops with white: XOR inverts the pixel, AND keeps it (R19). -/
theorem combine_white (g : Nat) {e : PaletteEntry} (dst : Pixel) (h : e.colour = ⟨255, 255, 255⟩) :
    combine 4 g e dst = ⟨~~~dst.r, ~~~dst.g, ~~~dst.b⟩ ∧ combine 2 g e dst = dst := by
  have white : (255 : Byte) = BitVec.allOnes 8 := rfl
  simp only [combine_xor, combine_and, h, white, BitVec.xor_allOnes, BitVec.and_allOnes, and_self]

/-- The ops with black: OR and XOR keep the pixel (R19). -/
theorem combine_black (g : Nat) {e : PaletteEntry} (dst : Pixel) (h : e.colour = ⟨0, 0, 0⟩) :
    combine 3 g e dst = dst ∧ combine 4 g e dst = dst := by
  simp [h]

/-- Two XORs with one source colour cancel (R19). -/
theorem combine_xor_cancel (g : Nat) (e : PaletteEntry) (dst : Pixel) : combine 4 g e (combine 4 g e dst) = dst := by
  simp

/-- Settles O47, op by op: BLEND by the bounds of its effective alpha and of the weighted mean, and its value at
alphas 128 and 255 by evaluation. -/
theorem combineOps : Obligations.CombineOps := by
  intro g e dst
  refine ⟨combine_replace g e dst, combine_and g e dst, combine_or g e dst, combine_xor g e dst, combine_white g dst,
    combine_black g dst, combine_xor_cancel g e dst, fun hg he => ?_⟩
  have hle : effectiveAlpha e.alpha g ≤ 255 := effectiveAlpha_le he hg
  refine ⟨hle, ⟨combine_blend g e dst, fun src d => ?_⟩, combine_blend_opaque dst, combine_blend_transparent dst, ?_⟩
  · exact ⟨blendChannel_toNat src d hle, blendChannel_mem_between src d hle⟩
  · rintro ⟨halpha, rfl, hcolour, rfl⟩
    rw [combine_blend, halpha, hcolour]
    rfl

/-! ## The match of a key rule -/

/-- A key rule matches when each channel agrees with its reference under its care mask (R13). -/
theorem KeyRule.matches_iff (k : KeyRule) (t : Pixel) : k.matches t = true ↔
    (t.r ^^^ k.reference.r) &&& k.care.r = 0 ∧ (t.g ^^^ k.reference.g) &&& k.care.g = 0 ∧
      (t.b ^^^ k.reference.b) &&& k.care.b = 0 := by
  simp [KeyRule.matches, and_assoc]

/-- A rule that cares for no bit matches every colour (R13). -/
theorem KeyRule.matches_of_care_zero {k : KeyRule} (t : Pixel) (h : k.care = ⟨0, 0, 0⟩) : k.matches t = true := by
  simp [KeyRule.matches_iff, h]

/-- A care mask FFh demands the exact value (R13). -/
theorem agree_under_full_care (a b : Byte) : (a ^^^ b) &&& 0xFF = 0 ↔ a = b := by
  have full : (0xFF : Byte) = BitVec.allOnes 8 := rfl
  rw [full, BitVec.and_allOnes]
  exact BitVec.xor_eq_zero_iff

/-- A care mask F0h with reference F0h takes the values from F0h on (R13), as the 256 bytes show one by one. -/
theorem agree_with_F0_iff : ∀ a : Byte, (a ^^^ 0xF0) &&& 0xF0 = 0 ↔ 0xF0 ≤ a := by decide

/-- Each key rule of the reset state is zero in all fields (R13, R28). -/
theorem keyRule_reset (k : Nat) : keyRule State.reset.bank.active k =
    { reference := ⟨0, 0, 0⟩, care := ⟨0, 0, 0⟩, showOnMismatch := false, composed := false } := by
  have zero (o : Nat) : tableRead State.reset.bank.active 5 o = 0 := rfl
  simp [keyRule, zero]

/-- Settles O46: the match is unfolded once, and the masks and the power-on rules are cases of it. -/
theorem keyRuleMatch : Obligations.KeyRuleMatch := by
  refine ⟨KeyRule.matches_iff, agree_under_full_care, fun _ _ => BitVec.and_zero, agree_with_F0_iff,
    fun _ t h => KeyRule.matches_of_care_zero t h, fun i t => ⟨?_, keyRule_reset i⟩⟩
  exact KeyRule.matches_of_care_zero t (by rw [keyRule_reset])

end Sys2Proof.Machine
end

section
/-! SUPPORT. Steps and the queue of commands: what a step runs, and the invariants that every step keeps. -/

namespace Sys2Proof.Machine

/-! ## What a step runs -/

/-- A step is an idle moment on an empty queue, and otherwise the front command on the state with the queue's rest. -/
theorem step_cases {s t : State} (h : step s = .next t) :
    (s.pending = [] ∧ t = s.idle) ∨ ∃ c rest, s.pending = c :: rest ∧ exec c (s.setPending rest) = .next t := by
  unfold step at h
  split at h
  next hp => exact .inl ⟨hp, (Host.Outcome.next.inj h).symm⟩
  next c rest hp => exact .inr ⟨c, rest, hp, h⟩

/-- With a command in the queue, a step runs the front one. -/
theorem step_of_pending {s : State} {c : Instr} {rest : List Instr} (h : s.pending = c :: rest) :
    step s = exec c (s.setPending rest) := by
  simp only [step, h]

/-- With none, an idle moment passes. -/
theorem step_of_empty {s : State} (h : s.pending = []) : step s = .next s.idle := by
  simp only [step, h]

/-- Settles O1. -/
theorem stepRunsFrontCommand : Obligations.StepRunsFrontCommand :=
  fun _ _ _ => step_of_pending

/-! ## What every step keeps -/

/-- Every step carries on what every command and an idle moment carry on. -/
theorem step_carries {s t : State} (h : step s = .next t) : Carries s t := by
  obtain ⟨-, rfl⟩ | ⟨c, rest, -, he⟩ := step_cases h
  · exact State.idle_carries (.refl s)
  · exact ((Carries.refl s).setPending rest).trans (exec_carries he)

/-- Every step ends with the lane kept, and with no frame packet waiting that need not wait. -/
theorem step_ends {s t : State} (h : step s = .next t) : Ends s t := by
  obtain ⟨-, rfl⟩ | ⟨c, rest, -, he⟩ := step_cases h
  · exact Ends.idle s
  · obtain ⟨lane, waits⟩ := exec_ends c _ t he
    exact ⟨lane, waits⟩

/-- Every step keeps the agreement of owners: the queue of commands is no part of it. -/
theorem step_owns {s t : State} (h : step s = .next t) (ho : s.owns) : t.owns := by
  obtain ⟨-, rfl⟩ | ⟨c, rest, -, he⟩ := step_cases h
  · exact State.idle_owns ho
  · exact exec_owns he (State.owns_congr ho rfl rfl rfl rfl rfl)

/-- Settles O5: the end of every step deals with the frame packets that need wait no longer. -/
theorem framePacketsWaitOnlyForStarts : Obligations.FramePacketsWaitOnlyForStarts :=
  fun _ _ hw h => (step_ends h).waits hw

/-- Settles O55: bounds and counts are carried on by every operation, the lane is kept by the arbiter that ends a step. -/
theorem queueKeptByEveryStep : Obligations.QueueKeptByEveryStep := by
  intro s t hbounded hlane hcounts h
  obtain ⟨bounded, counts⟩ := (step_carries h).queue ⟨hbounded, hcounts⟩
  exact ⟨bounded, (step_ends h).lane hlane, counts⟩

/-- Settles O56. -/
theorem memoriesKeptByEveryStep : Obligations.MemoriesKeptByEveryStep :=
  fun _ _ hm h => (step_carries h).memories hm

/-- Settles O57. -/
theorem ownershipKeptByEveryStep : Obligations.OwnershipKeptByEveryStep :=
  fun _ _ ho ht h => step_owns h ⟨ho, ht⟩

/-- Settles O58, block by block. -/
theorem blocksKeptByEveryStep : Obligations.BlocksKeptByEveryStep := by
  intro s t hpin hwhole hrange hcounts h
  have c := step_carries h
  exact ⟨c.pin hpin, c.whole hwhole, c.range hrange, c.counts hrange hcounts⟩

end Sys2Proof.Machine
end

section
/-! SUPPORT. The commands that run on the settled part, idle moments, and the reset values. -/

namespace Sys2Proof.Machine

/-! ## Commands that run on the settled part -/

/-- The effect of a command that runs on the settled part (assumption log 2). The others are the loss timer expiry, the
output frame start and the channel timeout, which may themselves be due at once, and the commands of the reset pin. -/
def effectOf : Instr → Option (State → State)
  | .idle => some id
  | .packetDiscard code => some (·.discardPacket code)
  | .frameStart n => some (·.arrive (.start n))
  | .line number pixels => some (·.arrive (.line number pixels))
  | .frameEnd n count flags => some (·.arrive (.ending n count flags))
  | .fallbackTimerExpiry => some State.expireFallback
  | .emitLine => some State.emitNext
  | .openReq ch seq payload => some (·.deliver ch seq 0x01 (actOpen ch payload))
  | .openFill ch seq payload => some (·.deliver ch seq 0x01 (actOpen ch payload))
  | .data ch seq payload => some (·.deliver ch seq 0x02 (actData ch payload))
  | .close ch seq payload => some (·.deliver ch seq 0x03 (actClose ch payload))
  | .abort ch seq _ => some (·.takeAbort ch seq)
  | .commit ch seq payload => some (·.deliver ch seq 0x05 (actCommit payload))
  | .cancel ch seq payload => some (·.deliver ch seq 0x06 (actCancel payload))
  | .revert ch seq payload => some (·.deliver ch seq 0x07 (actRevert payload))
  | .read ch seq payload => some (·.deliver ch seq 0x08 (actRead payload))
  | .status ch seq payload => some (·.deliver ch seq 0x09 (actStatus payload))
  | .setParam ch seq payload => some (·.deliver ch seq 0x0A (actSetParam payload))
  | .resetChannels ch seq payload => some (·.deliver ch seq 0x0B (actReset payload))
  | .resetState ch seq payload => some (·.deliver ch seq 0x0B (actReset payload))
  | .unknownRequest ch seq kind _ => some (·.deliver ch seq kind (fun s => (.malformed, s)))
  | .fillStep => some State.stepFill
  | .fillCompletion => some State.endFill
  | .messageCompletion => some State.completeMessage
  | .lossTimerExpiry => none
  | .outputFrameStart _ _ => none
  | .channelTimeout _ => none
  | .powerOnReset _ => none
  | .resetnRelease => none
  | .leaveReset => none

/-- Such a command is its effect on the settled part, and the end of the step. -/
theorem exec_of_effectOf {c : Instr} {f : State → State} (h : effectOf c = some f) (s : State) :
    exec c s = .next (s.operate f) := by
  cases c <;> cases h <;> rfl

/-- The commands that do not run so, one by one. -/
theorem effectOf_cases (c : Instr) : (∃ f, effectOf c = some f) ∨ c = .lossTimerExpiry ∨
    (∃ first mid, c = .outputFrameStart first mid) ∨ (∃ ch, c = .channelTimeout ch) ∨
    (∃ pulse, c = .powerOnReset pulse) ∨ c = .resetnRelease ∨ c = .leaveReset := by
  cases c <;> simp [effectOf]

/-- Such an effect leaves the queue of commands. -/
theorem effectOf_pending {c : Instr} {f : State → State} (h : effectOf c = some f) (s : State) :
    (f s).pending = s.pending := by
  cases c <;> cases h <;> simp

/-- A step keeps the queue of commands when its effect does. -/
theorem State.operate_pending (s : State) {f : State → State} (hf : ∀ u : State, (f u).pending = u.pending) :
    (s.operate f).pending = s.pending := by
  unfold State.operate
  split <;> simp [hf]

/-- Settles O3: settling, the effects, the events that may be due and the resets all leave the queue. -/
theorem everyCommandAnswersNext : Obligations.EveryCommandAnswersNext := by
  intro c s
  obtain ⟨f, hc⟩ | rfl | ⟨first, mid, rfl⟩ | ⟨ch, rfl⟩ | ⟨pulse, rfl⟩ | rfl | rfl := effectOf_cases c
  · exact ⟨_, exec_of_effectOf hc s, s.operate_pending (effectOf_pending hc)⟩
  · cases hp : s.power <;> simp only [exec, execLossTimerExpiry, hp]
    case running =>
      refine ⟨_, rfl, ?_⟩
      unfold State.expireLoss
      split
      · simp
      · exact s.operate_pending (by simp)
    all_goals exact ⟨s, rfl, rfl⟩
  · cases hp : s.power <;> simp only [exec, execOutputFrameStart, hp]
    case running =>
      refine ⟨_, rfl, ?_⟩
      unfold State.takeDueStart
      split <;> simp
    all_goals exact ⟨s, rfl, rfl⟩
  · cases hp : s.power <;> simp only [exec, execChannelTimeout, hp]
    case running =>
      refine ⟨_, rfl, ?_⟩
      unfold State.takeTimeout
      split <;> simp
    all_goals exact ⟨s, rfl, rfl⟩
  · refine ⟨_, rfl, ?_⟩
    unfold State.shortPulse
    split_ifs <;> rfl
  · refine ⟨_, rfl, ?_⟩
    unfold State.releaseReset
    split <;> rfl
  · refine ⟨_, rfl, ?_⟩
    unfold State.leaveReset
    split <;> simp

/-- A step of a running part runs as on the settled part. -/
theorem State.operate_settle {s : State} (hp : s.power = .running) (f : State → State) :
    s.settle.operate f = s.operate f := by
  have again : s.settle.settle = s.settle := State.settle_of_settled s.settle_leaves_none s.settle_waitsRight
  simp only [State.operate, State.settle_kept, hp, again]

/-- Settles O4: settling comes to an end, and settling twice is settling once. -/
theorem commandsSettleFirst : Obligations.CommandsSettleFirst := by
  refine ⟨fun s => ⟨s.settle_leaves_none, s.settle_waitsRight⟩, ?_⟩
  intro c s hp hstart htimeout hexpiry hreset hrelease hleave
  obtain ⟨f, hc⟩ | rfl | ⟨first, mid, rfl⟩ | ⟨ch, rfl⟩ | ⟨pulse, rfl⟩ | rfl | rfl := effectOf_cases c
  · rw [exec_of_effectOf hc, exec_of_effectOf hc, State.operate_settle hp]
  · have notDue : s.tracker.expiryDue = false := hexpiry rfl
    have notDueSettled : s.settle.tracker.expiryDue = false := (s.settle.settled_iff.1 s.settle_leaves_none).2.1
    simp [exec, execLossTimerExpiry, hp, State.expireLoss, notDue, notDueSettled, State.operate_settle]
  · exact absurd rfl (hstart first mid)
  · exact absurd rfl (htimeout ch)
  · exact absurd rfl (hreset pulse)
  · exact absurd rfl hrelease
  · exact absurd rfl hleave

end Sys2Proof.Machine
end

section
/-! SUPPORT. The active table copies between output frame starts (R44). -/

namespace Sys2Proof.Machine

/-- A load dropped changes shadow states alone. -/
@[simp] theorem State.loadDropped_active (s : State) (ch : Channel) :
    (s.loadDropped ch).bank.active = s.bank.active := by
  unfold State.loadDropped
  rcases s.channels[ch].target with _ | ⟨_ | _ | _⟩ <;> rfl

/-- A load that ends changes shadow states alone. -/
@[simp] theorem State.endLoad_active (s : State) (ch : Channel) (st : ShadowState) (n : ChannelState) :
    (s.endLoad ch st n).bank.active = s.bank.active := (s.endLoad_bank ch st n).2.1

/-- A reply to a taken packet, and the abandonment it may bring, leave the active copies. -/
@[simp] theorem State.finishTaken_active (s : State) (ch : Channel) (seq : Bool) (kind : Byte) (a : Answer) :
    (s.finishTaken ch seq kind a).bank.active = s.bank.active := by
  unfold State.finishTaken State.abandonTest State.abandon
  dsimp only
  split <;> simp

/-- A delivery leaves the active copies when the owner of the request does. -/
theorem State.deliver_active (s : State) (ch : Channel) (seq : Bool) (kind : Byte) {act : State → Answer × State}
    (ha : ∀ u : State, (act u).2.bank.active = u.bank.active) :
    (s.deliver ch seq kind act).bank.active = s.bank.active := by
  unfold State.deliver
  dsimp only
  split_ifs <;> simp [ha]

/-! ## The owners of the requests -/

theorem actOpen_active (ch : Channel) (payload : List Byte) (s : State) :
    (actOpen ch payload s).2.bank.active = s.bank.active := by
  unfold actOpen withBlock openBlockInIdle openTable openStore
  repeat' split
  all_goals simp [Bank.setState, State.startLoad]

theorem actData_active (ch : Channel) (payload : List Byte) (s : State) :
    (actData ch payload s).2.bank.active = s.bank.active := by
  unfold actData dataInOpen acceptSegment State.writeSegment
  dsimp only
  repeat' split
  all_goals simp

theorem actClose_active (ch : Channel) (payload : List Byte) (s : State) :
    (actClose ch payload s).2.bank.active = s.bank.active := by
  unfold actClose closeInOpen
  repeat' split
  all_goals simp

theorem actCommit_active (payload : List Byte) (s : State) :
    (actCommit payload s).2.bank.active = s.bank.active := by
  unfold actCommit withBlock commitOf
  repeat' split
  all_goals simp [unstatedAnswer, Bank.arm]

theorem actCancel_active (payload : List Byte) (s : State) :
    (actCancel payload s).2.bank.active = s.bank.active := by
  unfold actCancel Bank.cancel
  repeat' split
  all_goals simp

theorem actRevert_active (payload : List Byte) (s : State) :
    (actRevert payload s).2.bank.active = s.bank.active := by
  unfold actRevert withBlock revertOf
  repeat' split
  all_goals simp [unstatedAnswer, Bank.revert]

theorem actSetParam_active (payload : List Byte) (s : State) :
    (actSetParam payload s).2.bank.active = s.bank.active := by
  unfold actSetParam withBlock setParamOf
  dsimp only
  repeat' split
  all_goals simp

theorem actRead_active (payload : List Byte) (s : State) :
    (actRead payload s).2.bank.active = s.bank.active := by
  unfold actRead withBlock
  split <;> rfl

theorem actStatus_active (payload : List Byte) (s : State) :
    (actStatus payload s).2.bank.active = s.bank.active := by
  unfold actStatus
  split <;> rfl

/-- The resets of channels leave the active copies. -/
@[simp] theorem State.resetAllChannels_active (s : State) :
    s.resetAllChannels.bank.active = s.bank.active := by
  simp [State.resetAllChannels, allChannels, State.resetChannel]

theorem actReset_active (payload : List Byte) (s : State) :
    (actReset payload s).2.bank.active = s.bank.active := by
  unfold actReset withBlock resetOf State.resetManagement
  dsimp only
  repeat' split
  all_goals simp [Bank.resetState]

/-! ## Steps -/

/-- A fill leaves the table bank. -/
theorem fillSteps_bank (k : Nat) (s : State) : (fillSteps k s).bank = s.bank := by
  induction k generalizing s with
  | zero => rfl
  | succ k ih => simp [fillSteps, ih]

/-- No effect of a command that runs on the settled part changes an active copy (R44). -/
theorem effectOf_active {c : Instr} {f : State → State} (h : effectOf c = some f) (s : State) :
    (f s).bank.active = s.bank.active := by
  cases c <;> cases h
  case openReq.refl ch seq payload => exact State.deliver_active _ _ _ _ (actOpen_active _ _)
  case openFill.refl ch seq payload => exact State.deliver_active _ _ _ _ (actOpen_active _ _)
  case data.refl ch seq payload => exact State.deliver_active _ _ _ _ (actData_active _ _)
  case close.refl ch seq payload => exact State.deliver_active _ _ _ _ (actClose_active _ _)
  case abort.refl ch seq payload => simp [State.takeAbort]
  case commit.refl ch seq payload => exact State.deliver_active _ _ _ _ (actCommit_active _)
  case cancel.refl ch seq payload => exact State.deliver_active _ _ _ _ (actCancel_active _)
  case revert.refl ch seq payload => exact State.deliver_active _ _ _ _ (actRevert_active _)
  case read.refl ch seq payload => exact State.deliver_active _ _ _ _ (actRead_active _)
  case status.refl ch seq payload => exact State.deliver_active _ _ _ _ (actStatus_active _)
  case setParam.refl ch seq payload => exact State.deliver_active _ _ _ _ (actSetParam_active _)
  case resetChannels.refl ch seq payload => exact State.deliver_active _ _ _ _ (actReset_active _)
  case resetState.refl ch seq payload => exact State.deliver_active _ _ _ _ (actReset_active _)
  case unknownRequest.refl ch seq kind payload => exact State.deliver_active _ _ _ _ (fun _ => rfl)
  all_goals simp

/-- On a settled part a step changes no active copy when its effect does not. -/
theorem State.operate_active {s : State} (hs : s.settled = true)
    (hw : (s.tracker.waiting.isEmpty || s.framesWait) = true) {f : State → State}
    (hf : ∀ u : State, (f u).bank.active = u.bank.active) : (s.operate f).bank.active = s.bank.active := by
  unfold State.operate
  split
  · simp [State.settle_of_settled hs hw, hf]
  · rfl
  · rfl

/-- Commands but output frame starts and resets change no active copy of a settled part (R44). -/
theorem exec_active {c : Instr} {s t : State} (hs : s.settled = true)
    (hw : (s.tracker.waiting.isEmpty || s.framesWait) = true) (h : exec c s = .next t)
    (hstart : ∀ first mid, c ≠ .outputFrameStart first mid) (hreset : ∀ pulse, c ≠ .powerOnReset pulse)
    (hrelease : c ≠ .resetnRelease) (hleave : c ≠ .leaveReset) : t.bank.active = s.bank.active := by
  obtain ⟨f, hc⟩ | rfl | ⟨first, mid, rfl⟩ | ⟨ch, rfl⟩ | ⟨pulse, rfl⟩ | rfl | rfl := effectOf_cases c
  · rw [exec_of_effectOf hc] at h
    cases h
    exact State.operate_active hs hw (effectOf_active hc)
  · simp only [exec, execLossTimerExpiry, State.expireLoss, (s.settled_iff.1 hs).2.1] at h
    split at h <;> cases h
    · exact State.operate_active hs hw (by simp)
    · rfl
    · rfl
  · exact absurd rfl (hstart first mid)
  · simp only [exec, execChannelTimeout, State.takeTimeout, (s.settled_iff.1 hs).1] at h
    split at h <;> cases h <;> rfl
  · exact absurd rfl (hreset pulse)
  · exact absurd rfl hrelease
  · exact absurd rfl hleave

/-- An idle moment of the running settled part changes no active copy. -/
theorem State.idleRunning_active {s : State} (hs : s.settled = true)
    (hw : (s.tracker.waiting.isEmpty || s.framesWait) = true) : s.idleRunning.bank.active = s.bank.active := by
  unfold State.idleRunning
  split_ifs with h
  · simp [hs] at h
  · exact State.operate_active hs hw (by simp)
  · exact State.operate_active hs hw (by simp)
  · exact State.operate_active hs hw (by simp)
  · refine State.operate_active hs hw (fun u => ?_)
    unfold State.finishFill
    split <;> simp [fillSteps_bank]
  · rfl

/-- Settles O25: effects and idle moments leave the active copies, and a settled part takes no output frame start. -/
theorem activeCopiesChangeOnlyAtStarts : Obligations.ActiveCopiesChangeOnlyAtStarts := by
  intro s t hs hw
  refine ⟨fun c h ⟨hstart, hreset, hrelease, hleave⟩ => exec_active hs hw h hstart hreset hrelease hleave, ?_⟩
  intro h hquiet hclearing
  obtain ⟨hp, rfl⟩ | ⟨c, rest, hp, he⟩ := step_cases h
  · unfold State.idle
    split
    · exact State.idleRunning_active hs hw
    · rfl
    · next k hk =>
      have : k < 5 * 1000 := hclearing hp k hk
      rw [if_neg (by simp only [Config.ticksPerMicrosecond, Config.leaveResetBound]; omega)]
      rfl
  · obtain ⟨hstart, hreset, hrelease, hleave⟩ := hquiet c rest hp
    exact exec_active (s := s.setPending rest) hs hw he hstart hreset hrelease hleave

end Sys2Proof.Machine
end

section
/-! SUPPORT. Idle moments (assumption log 7). -/

namespace Sys2Proof.Machine

/-! ## When a time has come -/

theorem State.messageTimeUp_iff (s : State) :
    s.messageTimeUp = true ↔ ∃ m, s.rtq.inFlight = some m ∧ 4 * m.bytes.length ≤ s.rtq.laneTicks := by
  unfold State.messageTimeUp
  split <;> simp_all
  rfl

theorem State.lossTimeUp_iff (s : State) : s.lossTimeUp = true ↔
    ∃ k, s.tracker.lossTimer = some k ∧ 5 * (s.params.lossMultiple * s.format.period) ≤ k := by
  unfold State.lossTimeUp
  split <;> simp_all
  rfl

theorem State.fallbackTimeUp_iff (s : State) : s.fallbackTimeUp = true ↔
    s.framer.mode = .fallback ∧ s.framer.due = none ∧ ∃ t, s.framer.timer = some t ∧ 5 * t.period ≤ t.ticks := by
  unfold State.fallbackTimeUp
  split <;> simp_all [and_assoc]
  exact fun _ _ => Iff.rfl

theorem State.fillTimeUp_iff (s : State) :
    s.fillTimeUp = true ↔ ∃ f, s.store.fill = some f ∧ 10 * f.span < 256 * (f.ticks + 1) := by
  unfold State.fillTimeUp
  split <;> simp_all
  rfl

/-! ## Idle moments -/

/-- An idle moment of the running part. -/
theorem State.idle_of_running {s : State} (h : s.power = .running) : s.idle = s.idleRunning := by
  simp only [State.idle, h]

/-- An idle moment in which the fill's time has come: the fill is finished. -/
theorem State.idle_of_fillTimeUp {s : State} (hp : s.power = .running) (hs : s.settled = true)
    (hm : s.messageTimeUp = false) (hl : s.lossTimeUp = false) (hf : s.fallbackTimeUp = false)
    (h : s.fillTimeUp = true) : s.idle = s.operate State.finishFill := by
  simp [State.idle_of_running hp, State.idleRunning, hs, hm, hl, hf, h]

/-- A fill step on a steady part whose lane is kept is the step's write alone. -/
theorem exec_fillStep_of_laneKept {s : State} {f : FillRecord} (hs : s.steady) (hf : s.store.fill = some f)
    (hlt : f.progress < f.span) (hlane : s.rtq.laneKept) : exec .fillStep s = .next (s.fillOnce f) := by
  have step : s.stepFill = s.fillOnce f := by simp only [State.stepFill, hf, if_pos hlt]
  have lane : (s.fillOnce f).rtq.laneKept := by simpa using hlane
  rw [exec_of_effectOf (f := State.stepFill) rfl, State.operate_of_kept hs _ (by simp) (by rw [step]; rfl), step,
    State.arbitrate_of_laneKept _ lane]

/-- A fill step leaves the fill to finish as it was. -/
theorem State.finishFill_fillOnce {s : State} {f : FillRecord} (hf : s.store.fill = some f)
    (hlt : f.progress < f.span) : (s.fillOnce f).finishFill = s.finishFill := by
  have left : f.span - f.progress = (f.span - (f.progress + 1)) + 1 := by omega
  have fill : (s.fillOnce f).store.fill = some { f with progress := f.progress + 1 } := rfl
  have step : s.stepFill = s.fillOnce f := by simp only [State.stepFill, hf, if_pos hlt]
  simp only [State.finishFill, hf, fill, left, fillSteps, step]

/-- A fill step leaves a steady part steady: the start due and the packets waiting are as they were. -/
theorem State.fillOnce_steady {s : State} (hs : s.steady) (f : FillRecord) : (s.fillOnce f).steady := hs

/-- After a fill step whose time has come, the next idle moment is the one that would have passed without it. -/
theorem State.idle_fillOnce {s : State} {f : FillRecord} (hs : s.steady) (hf : s.store.fill = some f)
    (hlt : f.progress < f.span) (hm : s.messageTimeUp = false) (hl : s.lossTimeUp = false)
    (hfb : s.fallbackTimeUp = false) (h : s.fillTimeUp = true) : (s.fillOnce f).idle = s.idle := by
  have hu := State.fillOnce_steady hs f
  have time : (s.fillOnce f).fillTimeUp = true := by
    rw [State.fillTimeUp_iff] at h ⊢
    obtain ⟨g, hg, hlate⟩ := h
    cases hf.symm.trans hg
    exact ⟨_, rfl, hlate⟩
  rw [State.idle_of_fillTimeUp hs.1 hs.2.1 hm hl hfb h, State.idle_of_fillTimeUp hu.1 hu.2.1 hm hl hfb time,
    State.operate_of_steady hs, State.operate_of_steady hu, State.finishFill_fillOnce hf hlt]

/-- Settles O2, clause by clause: the times, the events as their commands, the fill by its steps. -/
theorem emptyQueueIdles : Obligations.EmptyQueueIdles := by
  refine ⟨fun s => step_of_empty, fun s hp hs => ?_, fun s hp hs => ⟨fun hm => ?_, fun hm hl => ?_,
    fun hm hl hfb => ?_, fun hm hl hfb h f hsteady hf => ⟨fun hlt hlane => ?_, fun heq => ?_⟩, fun hm hl hfb h => ?_⟩,
    fun s => ⟨s.messageTimeUp_iff, s.lossTimeUp_iff, s.fallbackTimeUp_iff, s.fillTimeUp_iff⟩, fun s hp => ?_,
    fun s k hp => ⟨fun hk => ?_, fun hk => ?_⟩⟩
  · simp [State.idle_of_running hp, State.idleRunning, hs]
  · simp [exec, execMessageCompletion, State.idle_of_running hp, State.idleRunning, hs, hm]
  · have notDue := (s.settled_iff.1 hs).2.1
    simp [exec, execLossTimerExpiry, hp, State.expireLoss, notDue, State.idle_of_running hp, State.idleRunning, hs, hm,
      hl]
  · simp [exec, execFallbackTimerExpiry, State.idle_of_running hp, State.idleRunning, hs, hm, hl, hfb]
  · exact ⟨_, exec_fillStep_of_laneKept hsteady hf hlt hlane, State.idle_fillOnce hsteady hf hlt hm hl hfb h⟩
  · have done : s.finishFill = s.endFill := by simp [State.finishFill, hf, heq, fillSteps]
    rw [State.idle_of_fillTimeUp hp hs hm hl hfb h, exec_of_effectOf (f := State.endFill) rfl,
      State.operate_of_steady hsteady, State.operate_of_steady hsteady, done]
  · have tick : s.idle = s.tick := by simp [State.idle_of_running hp, State.idleRunning, hs, hm, hl, hfb, h]
    rw [tick]
    rfl
  · simp only [State.idle, hp]
  · simp only [State.idle, hp]
    exact if_neg (Nat.not_le.2 hk)
  · simp only [State.idle, hp]
    exact congrArg Host.Outcome.next (if_pos hk).symm

end Sys2Proof.Machine
end

section
/-! SUPPORT. Power-on reset: the reset values, the invariants at reset, the pin RESETN and leaving reset. -/

namespace Sys2Proof.Machine

/-! ## The reset values -/

/-- A channel at reset (R72). -/
theorem reset_channels (ch : Channel) : State.reset.channels[ch] = .powerOn := by
  revert ch
  decide

/-- A shadow state at reset (R29). -/
theorem reset_states (t : TableId) : State.reset.bank.states[t] = .clean := by
  revert t
  decide

/-- A table byte at reset is its power-on content (R28). -/
theorem tableRead_reset (t : TableId) (offset : Nat) :
    tableRead State.reset.bank.active t offset = tableDefault t offset := by
  fin_cases t <;> rfl

/-- A palette entry at reset: R = G = B = e and A = 255 (R28). -/
theorem paletteEntry_reset (p : Fin 4) (e : Nat) : paletteEntry State.reset.bank.active p.val e =
    ⟨⟨BitVec.ofNat 8 e, BitVec.ofNat 8 e, BitVec.ofNat 8 e⟩, 255⟩ := by
  have palette (offset : Nat) : tableDefault (paletteTable p.val) offset = paletteDefault offset := by
    fin_cases p <;> rfl
  have r : paletteDefault (4 * e) = BitVec.ofNat 8 e := by
    simp [paletteDefault]
  have g : paletteDefault (4 * e + 1) = BitVec.ofNat 8 e := by
    rw [paletteDefault, if_neg (by omega), show (4 * e + 1) / 4 = e by omega]
  have b : paletteDefault (4 * e + 2) = BitVec.ofNat 8 e := by
    rw [paletteDefault, if_neg (by omega), show (4 * e + 2) / 4 = e by omega]
  have a : paletteDefault (4 * e + 3) = 255 := if_pos (by omega)
  simp [paletteEntry, tableRead_reset, palette, r, g, b, a]

/-- A check at reset (R155, R166). -/
theorem reset_checks (k : Fin 8) :
    State.reset.checker.records[k] = .powerOn ∧ State.reset.checker.plans[k] = none := by
  revert k
  decide

/-- Settles O34, block by block. -/
theorem resetValues : Obligations.ResetValues := by
  refine ⟨rfl, rfl, rfl, rfl, ⟨rfl, rfl, rfl, rfl, rfl, rfl, rfl, rfl, rfl, rfl, rfl⟩, ⟨rfl, rfl, rfl, rfl, rfl, rfl⟩,
    reset_channels, ⟨fun t => ⟨reset_states t, rfl⟩, rfl, by decide, fun p e => paletteEntry_reset p e.val, ?_,
      by decide, by decide⟩, ⟨rfl, fun _ _ => rfl⟩, ⟨rfl, rfl, rfl, rfl, rfl, rfl, rfl, rfl⟩, rfl,
    ⟨reset_checks, rfl⟩, rfl, rfl, rfl, rfl⟩
  rintro t offset (rfl | rfl | rfl) <;> rfl

/-! ## The invariants at reset -/

/-- Nothing is held at reset, as nothing is held while RESETN is low. -/
theorem reset_owns : State.reset.owns := by
  obtain ⟨ho, hnodup, hopen, -⟩ := State.reset.holdReset_owns
  exact ⟨State.ownership_congr ho rfl rfl rfl rfl, hnodup, hopen, fun h => absurd rfl h⟩

/-- Settles O59: each invariant by the power-on value of its block. -/
theorem invariantsHoldAtReset : Obligations.InvariantsHoldAtReset := by
  obtain ⟨bounded, counts⟩ := State.powerOn_held
  exact ⟨⟨bounded, fun _ => rfl, counts⟩, ⟨rfl, copyWf_empty, copyWf_empty⟩, reset_owns,
    ⟨rfl, List.length_replicate, Params.default_inRange, Nat.zero_le _, Nat.zero_le _, fun _ => Nat.zero_le _⟩, rfl⟩

/-! ## The pin RESETN -/

/-- A power-on channel (R72), by its place among the four. -/
theorem State.holdReset_channels (s : State) (ch : Channel) : s.holdReset.channels[ch] = .powerOn := by
  fin_cases ch <;> rfl

/-- Settles O32: a long pulse holds the part in reset; a short one does so or is ignored, as the free value says. -/
theorem powerOnResetHolds : Obligations.PowerOnResetHolds := by
  intro s pulse
  refine ⟨_, rfl, fun long => ?_, fun short => ?_⟩
  · rw [if_pos (show Config.resetPulse ≤ pulse from long)]
    exact ⟨rfl, rfl, rfl, s.holdReset_channels, rfl, rfl, rfl, rfl, rfl, rfl, rfl, rfl, rfl, rfl⟩
  · rw [if_neg (show ¬Config.resetPulse ≤ pulse from Nat.not_le.2 short), State.shortPulse]
    dsimp only
    split
    · exact .inl ⟨rfl, rfl, rfl, (s.setFree (s.free + 1)).holdReset_channels, rfl, rfl, rfl, rfl, rfl, rfl, rfl, rfl, rfl,
        rfl⟩
    · exact .inr rfl

/-! ## Leaving reset -/

/-- With an empty commit record and no channel in OPEN, a start that brings no switch back leaves table bank, tracker and
channels, and begins its frame. -/
theorem State.takeStart_of_quiet {s : State} (hr : s.bank.record = none)
    (hc : ∀ ch : Channel, s.channels[ch].state = .idle) :
    ∃ u : State, s.takeStart .leaveReset [] [] = u.beginFrame .fallback false ∧
      u.framer = (s.setNumbers .leaveReset).framer ∧ u.store = s.store ∧ u.params = s.params ∧ u.power = s.power ∧
      u.tracker = s.tracker ∧ u.channels = s.channels ∧ u.bank = s.bank := by
  obtain ⟨u, g, hu, hg, hframer, hstore, hparams, hpower, -, htracker, -, -, hchannels, -, hshadow, hactive, hrecord, -,
    hstates⟩ := s.takeStart_eq .leaveReset [] []
  have hv : s.switchBefore .leaveReset = s := rfl
  simp only [hv, State.setNumbers_kept] at hg hframer hstore hparams hpower htracker hchannels hshadow hactive hrecord hstates
  have idle : ∀ ch : Channel, (s.setNumbers .leaveReset).timesOut ch = false := by
    intro ch
    simp only [State.timesOut, State.setNumbers_kept, hc ch]
    rfl
  have resolved : (s.setNumbers .leaveReset).resolveCommit.bank = s.bank := by
    simp [State.resolveCommit_bank, hr]
  rw [resolved] at hshadow hactive hrecord
  have same : g = false := by
    rw [hg, geometryChanged, State.format_congr (t := s.setNumbers .leaveReset) hactive]
    simp
  subst same
  refine ⟨u, hu, hframer, hstore, hparams, hpower, ?_, ?_, ?_⟩
  · simpa [hr] using htracker
  · refine Vector.ext fun k hk => ?_
    have hk' := hchannels ⟨k, hk⟩
    rw [idle, hc] at hk'
    simpa using hk'
  · have states : u.bank.states = s.bank.states := by
      refine Vector.ext fun k hk => ?_
      simpa [idle] using hstates ⟨k, hk⟩ (by simp [hr])
    rw [Bank.mk.injEq]
    exact ⟨hshadow, hactive, states, hrecord⟩

/-- Settles O33: leaving reset is a start of a part with no channel in OPEN and nothing armed. -/
theorem resetReleasedAndLeft : Obligations.ResetReleasedAndLeft := by
  refine ⟨fun s hp => by simp only [exec, execResetnRelease, State.releaseReset, hp], ?_⟩
  intro s k hp hr hfirst hf hw hc
  obtain ⟨u, hu, hframer, hstore, hparams, hpower, htracker, hchannels, hbank⟩ :=
    State.takeStart_of_quiet (s := s.setPower .running) hr hc
  have waits : ((u.beginFrame .fallback false).tracker.waiting.isEmpty || (u.beginFrame .fallback false).framesWait) = true := by
    simp [htracker, hw]
  refine ⟨(u.beginFrame .fallback false).arbitrate, ?_, ?_, ?_, ?_, ?_⟩
  · simp only [exec, execLeaveReset, State.leaveReset, hp, hu, State.conclude_of_waits waits]
  · simp [hpower]
  · have format : u.format = s.format := State.format_congr (by rw [hbank]; rfl)
    simp [State.beginFrame, hframer, State.setNumbers, Framer.emit, hfirst, hf, format, hstore, dueBehind]
  · simp [State.beginFrame, hframer, State.setNumbers, hfirst, hf, hbank]
  · simp [htracker, hchannels, hbank, hstore, hparams]

end Sys2Proof.Machine
end

section
/-! SUPPORT. The envelope of a CONTROL packet on a steady part (R74 to R83): duplicates, ABANDONED channels, ABORT, and the refusals below and at the abandon limit. -/

namespace Sys2Proof.Machine

/-! ## CONTROL packets as deliveries -/

/-- Every CONTROL packet but ABORT is delivered to its channel (R74). -/
theorem effectOf_of_control {i : Instr} {ch : Channel} {seq : Bool} {kind : Byte}
    (h : controlOf i = some (ch, seq, kind)) : ∃ act, effectOf i = some (·.deliver ch seq kind act) := by
  cases i <;> cases h <;> exact ⟨_, rfl⟩

/-- A delivery changes its channel's idle frames alone, until the packet is taken (R74). -/
theorem State.touch_eq (s : State) (ch : Channel) :
    s.touch ch = s.setChannels (s.channels.set ch { s.channels[ch] with idleFrames := 0 }) := rfl

/-- A duplicate is answered from the last reply, unless that reply is waiting (R76). -/
theorem State.replay_touch (s : State) (ch : Channel) :
    (s.touch ch).replay ch = (s.touch ch).setRtq
      (if s.rtq.entries.contains (.reply ch s.channels[ch].last) then s.rtq
       else s.rtq.handOver ch s.channels[ch].last) := by
  have last : (s.touch ch).channels[ch].last = s.channels[ch].last := by rw [State.touch_self]
  by_cases waits : s.rtq.entries.contains (.reply ch s.channels[ch].last) = true
  · have waits' : (s.touch ch).rtq.entries.contains (.reply ch (s.touch ch).channels[ch].last) = true := last ▸ waits
    rw [State.replay, if_pos waits', if_pos waits]
    rfl
  · have waits' : ¬(s.touch ch).rtq.entries.contains (.reply ch (s.touch ch).channels[ch].last) = true := last ▸ waits
    rw [State.replay, if_neg waits', if_neg waits, last]
    rfl

/-- Settles O6: on a steady part a packet that is not taken comes to the queue's entry alone. -/
theorem untakenPacketsAnswered : Obligations.UntakenPacketsAnswered := by
  refine ⟨fun s i ch seq kind hs hi hstate hseq => ?_, fun s i ch seq kind hs hi hstate => ?_⟩
  · obtain ⟨act, hact⟩ := effectOf_of_control hi
    have duplicate := State.deliver_of_duplicate s ch seq kind act hstate hseq
    rw [exec_of_effectOf hact, State.operate_of_kept hs _ (by simp [duplicate]) (by simp [duplicate]), duplicate,
      State.replay_touch]
    rfl
  · obtain ⟨act, hact⟩ := effectOf_of_control hi
    have abandoned := State.deliver_of_abandoned s ch seq kind act hstate
    rw [exec_of_effectOf hact, State.operate_of_kept hs _ (by simp [abandoned]) (by simp [abandoned]), abandoned]
    rfl

/-- The reply to an ABORT, by the state found (R93). -/
theorem abortReply_eq (seq : Bool) (found : ChannelState) :
    abortReply seq found = ⟨seq, 0x04, .ok,
      match found with
      | .idle => 0
      | .opened => 1
      | .filling => 2
      | .abandoned => 3, []⟩ := by
  cases found <;> rfl

/-- An ABORT taken, written out (R93). -/
theorem State.takeAbort_eq (s : State) (ch : Channel) (seq : Bool) :
    s.takeAbort ch seq =
      ((s.loadDropped ch).setChannels (s.channels.set ch
        { s.channels[ch] with
          state := .idle, expected := !seq, target := none, errors := 0, idleFrames := 0
          last := abortReply seq s.channels[ch].state })).setRtq
        (s.rtq.handOver ch (abortReply seq s.channels[ch].state)) := by
  unfold State.takeAbort
  simp only [State.dropLoad_eq, State.updateChannel_eq, State.setChannels_channels, Fin.getElem_fin,
    Vector.getElem_set_self, State.handOver]
  simp only [State.setChannels, Vector.set_set]
  rfl

/-- Settles O7. -/
theorem abortFreesChannel : Obligations.AbortFreesChannel := by
  intro s ch seq payload hs
  rw [exec_of_effectOf (f := (·.takeAbort ch seq)) rfl, State.operate_of_kept hs _ (by simp) (by simp),
    State.takeAbort_eq, abortReply_eq]
  cases s.channels[ch].state <;> rfl

/-! ## Requests taken -/

/-- A packet taken and kept by the channel: the owner may mark an expiry as due, and leaves the waiting frame packets and
the starts that are due. -/
theorem State.operate_deliver_of_waiting {s u : State} (hs : s.steady) (ch : Channel) (seq : Bool) (kind : Byte)
    (act : State → Answer × State) (ht : s.takes ch seq) (a : Answer) (ha : act (s.touch ch) = (a, u))
    (h1 : u.tracker.waiting = s.tracker.waiting) (h2 : u.framer.due = s.framer.due)
    (h : a.code.counted = true → errorsAfter a.code u.channels[ch].errors < u.params.abandonLimit) :
    s.operate (·.deliver ch seq kind act) =
      u.answered ch (u.channels[ch].answered (a.reply seq kind)) (a.reply seq kind) := by
  have taken := State.deliver_of_takes s ch seq kind act ht
  rw [ha] at taken
  simp only at taken
  rw [State.finishTaken_of_kept _ _ _ _ _ h] at taken
  rw [State.operate_of_steady_waits hs _ (by rw [taken]; exact State.waits_of_due hs h1 h2), taken]
  rfl

/-- A request whose owner leaves `w` with the channel context `c`, and whose reply does not abandon the channel: the reply
is written into that context and handed over. -/
theorem exec_of_acted {s w : State} {i : Instr} {ch : Channel} {seq : Bool} {kind : Byte} {act : State → Answer × State}
    {a : Answer} {c : ChannelContext} (hs : s.steady) (ht : s.takes ch seq)
    (hi : effectOf i = some (·.deliver ch seq kind act))
    (ha : act (s.touch ch) = (a, w.setChannels (w.channels.set ch c)))
    (h1 : w.tracker.waiting = s.tracker.waiting) (h2 : w.framer.due = s.framer.due)
    (hl : a.code.counted = true → errorsAfter a.code c.errors < w.params.abandonLimit) :
    exec i s = .next (w.answered ch (c.answered (a.reply seq kind)) (a.reply seq kind)) := by
  have channel : (w.setChannels (w.channels.set ch c)).channels[ch] = c := by simp
  rw [exec_of_effectOf hi, State.operate_deliver_of_waiting hs ch seq kind act ht a ha h1 h2 (by rw [channel]; exact hl),
    channel]
  simp only [State.answered, State.setChannels_channels, Vector.set_set]
  rfl

/-! ## Refusals -/

/-- The owner of the request refuses the packet, and leaves the part as it is. -/
def State.refuses (s : State) (i : Instr) (ch : Channel) (seq : Bool) (kind : Byte) (code : ReplyCode) (extra : Half) :
    Prop :=
  ∃ act, effectOf i = some (·.deliver ch seq kind act) ∧ act (s.touch ch) = (.plain code extra, s.touch ch)

/-- A refusal that does not abandon its channel: the reply, and nothing else. -/
theorem exec_of_refuses {s : State} {i : Instr} {ch : Channel} {seq : Bool} {kind : Byte} {code : ReplyCode}
    {extra : Half} (hs : s.steady) (ht : s.takes ch seq) (h : s.refuses i ch seq kind code extra)
    (hl : code.counted = true → s.channels[ch].errors + 1 < s.params.abandonLimit) :
    exec i s = .next
      (s.answered ch (s.channels[ch].replied ⟨seq, kind, code, extra, []⟩) ⟨seq, kind, code, extra, []⟩) := by
  obtain ⟨act, heffect, hact⟩ := h
  rw [exec_of_effectOf heffect, State.operate_deliver_of_refused hs ch seq kind act ht code extra hact hl]

/-- The state that a counted refusal at the abandon limit leaves (R81). -/
def State.abandonedBy (s u : State) (ch : Channel) (seq : Bool) (kind : Byte) (code : ReplyCode) (extra : Half) : State :=
  ((u.loadDropped ch).setChannels (s.channels.set ch
    { s.channels[ch] with
      state := .abandoned, expected := !s.channels[ch].expected, target := none
      errors := s.channels[ch].errors + 1, idleFrames := 0, last := ⟨seq, kind, code, extra, []⟩ })).setRtq
    (s.reported (s.rtq.handOver ch ⟨seq, kind, code, extra, []⟩) .channelAbandoned (BitVec.ofNat 8 ch.val)).arbitrate

/-- A counted refusal at the abandon limit abandons its channel (R81). -/
theorem exec_of_refuses_abandons {s : State} {i : Instr} {ch : Channel} {seq : Bool} {kind : Byte} {code : ReplyCode}
    {extra : Half} (hs : s.steady) (ht : s.takes ch seq) (h : s.refuses i ch seq kind code extra)
    (hc : code.counted = true) (hl : s.params.abandonLimit ≤ s.channels[ch].errors + 1) :
    exec i s = .next (s.abandonedBy s ch seq kind code extra) := by
  obtain ⟨act, heffect, hact⟩ := h
  rw [exec_of_effectOf heffect, State.operate_deliver_of_abandons hs ch seq kind act ht code extra s.free hact hc hl]
  rfl

end Sys2Proof.Machine
end

section
/-! SUPPORT. The checks of an OPEN (R59, R84, R85), and what the requests refuse. -/

namespace Sys2Proof.Machine

/-! ## Parameter blocks of another length (R98) -/

theorem openBlock_none {payload : List Byte} (h : payload.length ≠ 10) : openBlock payload = none := by
  unfold openBlock
  split <;> simp_all

theorem commitBlock_none {payload : List Byte} (h : payload.length ≠ 5) : commitBlock payload = none := by
  unfold commitBlock
  split <;> simp_all

theorem readBlock_none {payload : List Byte} (h : payload.length ≠ 6) : readBlock payload = none := by
  unfold readBlock
  split <;> simp_all

theorem paramBlock_none {payload : List Byte} (h : payload.length ≠ 3) : paramBlock payload = none := by
  unfold paramBlock
  split <;> simp_all

theorem byteBlock_none {payload : List Byte} (h : payload.length ≠ 1) : byteBlock payload = none := by
  unfold byteBlock
  split <;> simp_all

/-- The channel's state and target are the same once its idle frames are 0. -/
theorem State.touch_state (s : State) (ch : Channel) : (s.touch ch).channels[ch].state = s.channels[ch].state := by
  rw [State.touch_self]

/-- A malformed request is refused with INVALID, extra 0 (R98). -/
theorem State.refuses_of_malformed {s : State} {i : Instr} {ch : Channel} {seq : Bool} {kind : Byte}
    (hi : controlOf i = some (ch, seq, kind)) (h : s.malformed i = true) : s.refuses i ch seq kind .invalid 0 := by
  cases i <;> cases hi
  case openReq.refl payload =>
    obtain ⟨idle, length⟩ : s.channels[ch].state = .idle ∧ payload.length ≠ 10 := by simpa [State.malformed] using h
    exact ⟨_, rfl, by simp only [actOpen, State.touch_state, idle, openBlock_none length]; rfl⟩
  case openFill.refl payload =>
    obtain ⟨idle, length⟩ : s.channels[ch].state = .idle ∧ payload.length ≠ 10 := by simpa [State.malformed] using h
    exact ⟨_, rfl, by simp only [actOpen, State.touch_state, idle, openBlock_none length]; rfl⟩
  case data.refl payload => cases h
  case close.refl payload =>
    obtain ⟨opened, length⟩ : s.channels[ch].state = .opened ∧ payload ≠ [] := by simpa [State.malformed] using h
    exact ⟨_, rfl, by simp only [actClose, State.touch_state, opened, closeInOpen, if_pos length]; rfl⟩
  case commit.refl payload =>
    have length : payload.length ≠ 5 := by simpa [State.malformed] using h
    exact ⟨_, rfl, by rw [actCommit, commitBlock_none length]; rfl⟩
  case cancel.refl payload =>
    have length : payload ≠ [] := by simpa [State.malformed] using h
    exact ⟨_, rfl, by rw [actCancel, if_pos length]; rfl⟩
  case revert.refl payload =>
    have length : payload.length ≠ 1 := by simpa [State.malformed] using h
    exact ⟨_, rfl, by rw [actRevert, byteBlock_none length]; rfl⟩
  case read.refl payload =>
    have length : payload.length ≠ 6 := by simpa [State.malformed] using h
    exact ⟨_, rfl, by rw [actRead, readBlock_none length]; rfl⟩
  case status.refl payload =>
    have length : payload ≠ [] := by simpa [State.malformed] using h
    exact ⟨_, rfl, by rw [actStatus, if_pos length]; rfl⟩
  case setParam.refl payload =>
    have length : payload.length ≠ 3 := by simpa [State.malformed] using h
    exact ⟨_, rfl, by rw [actSetParam, paramBlock_none length]; rfl⟩
  case resetChannels.refl payload =>
    have length : payload.length ≠ 1 := by simpa [State.malformed] using h
    exact ⟨_, rfl, by rw [actReset, byteBlock_none length]; rfl⟩
  case resetState.refl payload =>
    have length : payload.length ≠ 1 := by simpa [State.malformed] using h
    exact ⟨_, rfl, by rw [actReset, byteBlock_none length]; rfl⟩
  case unknownRequest.refl payload => exact ⟨_, rfl, rfl⟩

/-- Settles O8. -/
theorem malformedRequestRefused : Obligations.MalformedRequestRefused := by
  intro s i ch seq kind hs hi ht hm hl
  exact exec_of_refuses hs ht (State.refuses_of_malformed hi hm) (fun _ => hl)

/-! ## The checks of an OPEN -/

theorem tableTarget_of_table {target : Byte} {t : TableId} (h : target.toNat = t.val) : tableTarget target = some t := by
  simp only [tableTarget, h, t.isLt, dif_pos]

theorem tableTarget_none {target : Byte} (h : 8 ≤ target.toNat) : tableTarget target = none := by
  rw [tableTarget, dif_neg (by omega)]

/-- Offset and length lie inside a table (R85). -/
theorem tableRangeValid_iff {t : TableId} {offset length : Nat} :
    tableRangeValid t offset length = true ↔ 1 ≤ length ∧ offset + length ≤ tableSize t := by
  simp only [tableRangeValid, Bool.and_eq_true, decide_eq_true_eq]
  omega

/-- The merge op codes (R185). -/
theorem mergeOpOf_isSome {code : Byte} : (mergeOpOf code).isSome = true ↔ code.toNat ≤ 2 := by
  unfold mergeOpOf
  split_ifs with h0 h1 h2
  · simp [h0]
  · simp [h1]
  · simp [h2]
  · simp only [Option.isSome_none, Bool.false_eq_true, false_iff]
    bv_omega

/-- The parameters of a store load pass (R59, step 1). -/
theorem storeParamsValid_iff {b : OpenBlock} : storeParamsValid b = true ↔
    b.mode.toNat ≤ 2 ∧ b.planes ≠ 0 ∧ b.planes.toNat ≤ 15 ∧ (b.mode = 1 → b.mergeOp.toNat ≤ 2) ∧
      (b.mode = 2 → b.colour.toNat ≤ 15) ∧ (b.mode ≠ 2 → b.length.toNat % planeCount b.planes = 0) := by
  have mode : b.mode ≤ 2 ↔ b.mode.toNat ≤ 2 := BitVec.le_def
  have planes : b.planes ≤ 15 ↔ b.planes.toNat ≤ 15 := BitVec.le_def
  have colour : b.colour ≤ 15 ↔ b.colour.toNat ≤ 15 := BitVec.le_def
  have merge : b.mode ≠ 1 ∨ b.mergeOp.toNat ≤ 2 ↔ (b.mode = 1 → b.mergeOp.toNat ≤ 2) := imp_iff_not_or.symm
  have fillOrLoad :
      (if b.mode = 2 then decide (b.colour ≤ 15) else b.length.toNat % planeCount b.planes == 0) = true ↔
        (b.mode = 2 → b.colour.toNat ≤ 15) ∧ (b.mode ≠ 2 → b.length.toNat % planeCount b.planes = 0) := by
    split_ifs with h <;> simp only [decide_eq_true_eq, beq_iff_eq, colour] <;> tauto
  simp only [storeParamsValid, Bool.and_eq_true, Bool.or_eq_true, decide_eq_true_eq, bne_iff_ne, mode, planes, merge,
    mergeOpOf_isSome, fillOrLoad, and_assoc]

/-- The addresses of a store load pass (R59, step 2). -/
theorem storeAddressesValid_iff {b : OpenBlock} : storeAddressesValid b = true ↔
    (b.mode ≠ 2 → b.length ≠ 0 ∧ b.offset.toNat + b.length.toNat / planeCount b.planes ≤ 65536) ∧
      (b.mode = 2 → b.length = 0 → b.offset = 0) ∧
      (b.mode = 2 → b.length ≠ 0 → b.offset.toNat + b.length.toNat ≤ 65536) := by
  unfold storeAddressesValid
  split_ifs with h h0 <;> simp only [Bool.and_eq_true, bne_iff_ne, decide_eq_true_eq, beq_iff_eq] <;> tauto

/-- An OPEN of the store whose parameters or addresses fail is refused before the write port is looked at (R59). -/
theorem openStore_refused {u : State} {ch : Channel} {b : OpenBlock} {code : ReplyCode}
    (h : (storeParamsValid b = false ∧ code = .invalid) ∨
      (storeParamsValid b = true ∧ storeAddressesValid b = false ∧ code = .range)) :
    openStore u ch b = (.plain code 0, u) := by
  obtain ⟨params, rfl⟩ | ⟨params, addresses, rfl⟩ := h
  · simp [openStore, storeOpenRefusal, params]
  · simp [openStore, storeOpenRefusal, params, addresses]

/-- An OPEN in IDLE of the store. -/
theorem openBlockInIdle_store (u : State) (ch : Channel) {b : OpenBlock} (h : b.target = 8) :
    openBlockInIdle u ch b = openStore u ch b := by
  simp [openBlockInIdle, h, tableTarget]

/-- An OPEN in IDLE of a table. -/
theorem openBlockInIdle_table (u : State) (ch : Channel) {b : OpenBlock} {t : TableId} (h : b.target.toNat = t.val) :
    openBlockInIdle u ch b = openTable u ch t b := by
  simp only [openBlockInIdle, tableTarget_of_table h]

/-- An OPEN taken in IDLE comes to the checks of its block (R85). -/
theorem actOpen_of_idle {s : State} {ch : Channel} {payload : List Byte} {b : OpenBlock}
    (hi : s.channels[ch].state = .idle) (hb : openBlock payload = some b) :
    actOpen ch payload s = openBlockInIdle s ch b := by
  simp only [actOpen, hi, hb, withBlock]

/-- A counted refusal of an OPEN (R59, R84, R85). -/
theorem actOpen_of_openError {s : State} {ch : Channel} {payload : List Byte} {code : ReplyCode} {extra : Half}
    (h : s.openError ch payload code extra) : actOpen ch payload s = (.plain code extra, s) ∧ code.counted = true := by
  obtain ⟨opened, rfl, rfl⟩ | ⟨b, idle, hb, rfl, h⟩ := h
  · exact ⟨by simp only [actOpen, opened], rfl⟩
  rw [actOpen_of_idle idle hb]
  obtain ⟨target, rfl⟩ | ⟨t, target, rfl, range⟩ | ⟨target, rfl, params⟩ | ⟨target, rfl, params, addresses⟩ := h
  · have notStore : b.target ≠ 8 := by rintro h8; simp [h8] at target
    exact ⟨by simp only [openBlockInIdle, tableTarget_none (by omega : 8 ≤ b.target.toNat), if_neg notStore], rfl⟩
  · have outside : tableRangeValid t b.offset.toNat b.length.toNat = false := by
      rw [← Bool.not_eq_true, tableRangeValid_iff]
      rintro ⟨some, inside⟩
      obtain rfl' | beyond := range
      · simp [rfl'] at some
      · omega
    exact ⟨by simp [openBlockInIdle_table s ch target, openTable, tableOpenRefusal, outside], rfl⟩
  · have fails : storeParamsValid b = false := by
      rw [← Bool.not_eq_true, storeParamsValid_iff]
      rintro ⟨mode, planes, planes15, op, colour, length⟩
      obtain h | h | h | ⟨h1, h⟩ | ⟨h2, h⟩ | ⟨h2, h⟩ := params
      · omega
      · exact planes h
      · omega
      · have := op h1; omega
      · have := colour h2; omega
      · exact h (length h2)
    exact ⟨by rw [openBlockInIdle_store s ch target, openStore_refused (.inl ⟨fails, rfl⟩)], rfl⟩
  · have fails : storeAddressesValid b = false := by
      rw [← Bool.not_eq_true, storeAddressesValid_iff]
      rintro ⟨load, whole, part⟩
      obtain ⟨h2, h | h⟩ | ⟨h2, h0, h⟩ | ⟨h2, h0, h⟩ := addresses
      · exact (load h2).1 h
      · have := (load h2).2; omega
      · exact h (whole h2 h0)
      · have := part h2 h0; omega
    exact ⟨by rw [openBlockInIdle_store s ch target, openStore_refused (.inr ⟨params, fails, rfl⟩)], rfl⟩

/-- The counted refusals of an OPEN look at the channel's state alone. -/
theorem State.openError_touch {s : State} {ch : Channel} {payload : List Byte} {code : ReplyCode} {extra : Half} :
    (s.touch ch).openError ch payload code extra ↔ s.openError ch payload code extra := by
  simp only [State.openError, State.touch_state]

end Sys2Proof.Machine
end

section
/-! SUPPORT. The counted refusals of the requests (R80), and what they do at the abandon limit (R81). -/

namespace Sys2Proof.Machine

/-! ## What the owners refuse -/

/-- A counted refusal of a DATA packet (R87, R88). -/
theorem actData_of_dataError {s : State} {ch : Channel} {payload : List Byte} {code : ReplyCode} {extra : Half}
    (h : s.dataError ch payload code extra) : actData ch payload s = (.plain code extra, s) ∧ code.counted = true := by
  obtain ⟨idle, rfl, rfl⟩ | ⟨opened, rfl, ⟨empty, rfl⟩ | ⟨some, more, rfl⟩⟩ := h
  · exact ⟨by simp only [actData, idle], rfl⟩
  · refine ⟨?_, rfl⟩
    simp only [actData, opened, dataInOpen, dataRefusal, if_pos empty]
    rfl
  · refine ⟨?_, rfl⟩
    simp only [actData, opened, dataInOpen, dataRefusal, if_neg (Nat.one_le_iff_ne_zero.1 some), if_pos more]
    rfl

/-- A counted refusal of a CLOSE, the end of an incomplete load among them, which is no refusal but an UNDERRUN (R91,
R92). -/
theorem actClose_of_idle {s : State} {ch : Channel} {payload : List Byte} (h : s.channels[ch].state = .idle) :
    actClose ch payload s = (.plain .state 0, s) := by
  simp only [actClose, h]

/-- The target and, for a table, the selector pass (R102, steps 1 and 2). -/
theorem readTargetValid_iff {b : ReadBlock} :
    readTargetValid b = true ↔ b.target.toNat ≤ 9 ∧ (b.target.toNat ≤ 7 → b.selector.toNat ≤ 1) := by
  have target : b.target ≤ 9 ↔ b.target.toNat ≤ 9 := BitVec.le_def
  have store : 8 ≤ b.target ↔ 8 ≤ b.target.toNat := BitVec.le_def
  have selector : b.selector ≤ 1 ↔ b.selector.toNat ≤ 1 := BitVec.le_def
  simp only [readTargetValid, Bool.and_eq_true, Bool.or_eq_true, decide_eq_true_eq, target, store, selector]
  omega

/-- The length of a READ passes (R102, step 3). -/
theorem readLength_iff {b : ReadBlock} : (b.length = 0 ∨ 64 < b.length) ↔ (b.length.toNat = 0 ∨ 65 ≤ b.length.toNat) := by
  have zero : b.length = 0 ↔ b.length.toNat = 0 := BitVec.toNat_inj.symm
  have long : 64 < b.length ↔ 64 < b.length.toNat := BitVec.lt_def
  rw [zero, long]
  omega

/-- The bytes of a READ of a table (R102, R103). -/
theorem readBytes_table (s : State) {b : ReadBlock} {t : TableId} (h : b.target.toNat = t.val) :
    readBytes s b =
      if b.offset.toNat + b.length.toNat ≤ tableSize t then
        some (tableBytes (if b.selector = 0 then s.bank.shadow else s.bank.active) t b.offset.toNat b.length.toNat)
      else none := by
  simp only [readBytes, tableTarget_of_table h]

/-- The bytes of a READ of the store (R70). -/
theorem readBytes_store (s : State) {b : ReadBlock} (h : b.target = 8) :
    readBytes s b =
      (planeOf b.plane).bind (fun plane =>
        if b.offset.toNat + b.length.toNat ≤ 65536 then
          some (storeBytes s.store.cells plane b.offset.toNat b.length.toNat)
        else none) := by
  have notTable : tableTarget b.target = none := tableTarget_none (by simp [h])
  simp only [readBytes, notTable, if_pos h]
  cases planeOf b.plane <;> rfl

/-- The bytes of a READ of the check runtime area (R104). -/
theorem readBytes_runtime (s : State) {b : ReadBlock} (h : b.target = 9) :
    readBytes s b =
      if b.offset.toNat + b.length.toNat ≤ 120 then
        some (((runtimeArea s.checker.records).drop b.offset.toNat).take b.length.toNat)
      else none := by
  have notTable : tableTarget b.target = none := tableTarget_none (by simp [h])
  have notStore : ¬b.target = 8 := by simp [h]
  simp only [readBytes, notTable, if_neg notStore]

/-- A plane field of 4 or above names no plane. -/
theorem planeOf_none {plane : Byte} (h : 4 ≤ plane.toNat) : planeOf plane = none := by
  rw [planeOf, dif_neg (by omega)]

/-- A refusal of a READ (R102). -/
theorem actRead_of_readError {s : State} {payload : List Byte} {b : ReadBlock} {code : ReplyCode}
    (hb : readBlock payload = some b) (h : readError b code) :
    actRead payload s = (.plain code 0, s) ∧ code.counted = true := by
  have answer : actRead payload s = (readAnswer s b, s) := by rw [actRead, hb]; rfl
  rw [answer]
  obtain ⟨target, rfl⟩ | ⟨target, selector, rfl, range⟩ := h
  · have invalid : readTargetValid b = false := by
      rw [← Bool.not_eq_true, readTargetValid_iff]
      omega
    exact ⟨by simp [readAnswer, invalid], rfl⟩
  · have valid : readTargetValid b = true := readTargetValid_iff.2 ⟨target, selector⟩
    have bytes (hlength : ¬(b.length = 0 ∨ 64 < b.length)) : readBytes s b = none := by
      rw [readLength_iff] at hlength
      obtain h | h | ⟨t, ht, h⟩ | ⟨ht, h | h⟩ | ⟨ht, h⟩ := range
      · exact absurd (.inl (by simp [h])) hlength
      · exact absurd (.inr h) hlength
      · rw [readBytes_table s ht, if_neg (by omega)]
      · rw [readBytes_store s ht, planeOf_none h]
        rfl
      · rw [readBytes_store s ht]
        cases planeOf b.plane
        · rfl
        · exact if_neg (by omega)
      · rw [readBytes_runtime s ht, if_neg (by omega)]
    refine ⟨?_, rfl⟩
    by_cases hlength : b.length = 0 ∨ 64 < b.length
    · simp only [readAnswer, valid, if_pos hlength, Bool.not_true, Bool.false_eq_true, if_false]
    · simp only [readAnswer, valid, if_neg hlength, bytes hlength, Bool.not_true, Bool.false_eq_true, if_false]

/-- An id above 5 names no parameter (R108). -/
theorem paramOf_none {id : Byte} (h : 6 ≤ id.toNat) : paramOf id = none := by
  unfold paramOf
  split
  case h_7 => rfl
  all_goals omega

/-- A value outside a parameter's range is refused with the value held (R108). -/
theorem setParamOf_outside {s : State} {id : Byte} {v : Half} {p : ParamId} (hp : paramOf id = some p)
    (h : ¬(p.least ≤ v.toNat ∧ v.toNat ≤ p.greatest)) :
    setParamOf s (id, v) = (.plain .range (BitVec.ofNat 16 (s.params.get p)), s) := by
  simp only [setParamOf, hp, if_neg h]

/-- A refusal of a SET_PARAM (R108). -/
theorem actSetParam_of_paramError {s : State} {payload : List Byte} {id : Byte} {v extra : Half}
    (hb : paramBlock payload = some (id, v)) (h : s.paramError id v extra) :
    actSetParam payload s = (.plain .range extra, s) := by
  have act : actSetParam payload s = setParamOf s (id, v) := by rw [actSetParam, hb]; rfl
  have zero : v = 0 → v.toNat = 0 := by rintro rfl; rfl
  rw [act]
  obtain ⟨hid, rfl⟩ | ⟨rfl, hv, rfl⟩ | ⟨rfl, hv, rfl⟩ | ⟨rfl, hv, rfl⟩ | ⟨rfl, hv, rfl⟩ | ⟨rfl, hv, rfl⟩ |
    ⟨rfl, hv, rfl⟩ := h
  · simp only [setParamOf, paramOf_none hid]
  · have outside := hv.imp_left zero
    exact setParamOf_outside (p := .channelTimeout) rfl (by simp only [ParamId.least, ParamId.greatest]; omega)
  · have outside := hv.imp_left zero
    exact setParamOf_outside (p := .abandonLimit) rfl (by simp only [ParamId.least, ParamId.greatest]; omega)
  · exact setParamOf_outside (p := .lossMultiple) rfl (by simp only [ParamId.least, ParamId.greatest]; omega)
  · have outside := hv.imp_left zero
    exact setParamOf_outside (p := .lockCount) rfl (by simp only [ParamId.least, ParamId.greatest]; omega)
  · have outside := hv.imp_left zero
    exact setParamOf_outside (p := .faultLimit) rfl (by simp only [ParamId.least, ParamId.greatest]; omega)
  · rw [← BitVec.ofNat_toNat]
    exact setParamOf_outside (p := .eventMask) rfl (by simp only [ParamId.least, ParamId.greatest]; omega)

/-- A RESET of an unknown scope is refused (R111). -/
theorem actReset_of_unknown {s : State} {scope : Byte} (h : 2 ≤ scope.toNat) :
    actReset [scope] s = (.plain .invalid 0, s) := by
  have zero : scope ≠ 0 := by rintro rfl; simp at h
  have one : scope ≠ 1 := by rintro rfl; simp at h
  simp only [actReset, byteBlock, withBlock, resetOf, if_neg zero, if_neg one]

/-- A COMMIT with mask 0 or an unknown timing: INVALID with a free extra field (R35; assumption log 10). -/
theorem actCommit_unstated {s : State} {payload : List Byte} {b : CommitBlock} (hb : commitBlock payload = some b)
    (h : b.mask = 0 ∨ 2 ≤ b.timing.toNat) : actCommit payload s = unstatedAnswer .invalid s := by
  rw [actCommit, hb]
  simp only [withBlock, commitOf]
  obtain mask | timing := h
  · cases b.timingOf <;> simp only [if_pos mask]
  · have next : b.timing ≠ 0 := by intro h; simp [h] at timing
    have atFrame : b.timing ≠ 1 := by intro h; simp [h] at timing
    simp only [CommitBlock.timingOf, if_neg next, if_neg atFrame]

/-- A REVERT with mask 0: INVALID with a free extra field (R50; assumption log 10). -/
theorem actRevert_unstated (s : State) : actRevert [0] s = unstatedAnswer .invalid s := rfl

/-! ## At the abandon limit -/

/-- The counted refusals of a DATA packet look at the channel alone, and not at its idle frames. -/
theorem State.dataError_touch {s : State} {ch : Channel} {payload : List Byte} {code : ReplyCode} {extra : Half} :
    (s.touch ch).dataError ch payload code extra ↔ s.dataError ch payload code extra := by
  simp only [State.dataError, State.touch_self]

/-- A refusal of a SET_PARAM looks at the parameters alone. -/
theorem State.paramError_touch {s : State} {ch : Channel} {id : Byte} {v extra : Half} :
    (s.touch ch).paramError id v extra ↔ s.paramError id v extra := Iff.rfl

/-- An INVALID with a free extra field, at the abandon limit (R35, R50, R81; assumption log 10). -/
theorem exec_of_unstated_abandons {s : State} {i : Instr} {ch : Channel} {seq : Bool} {kind : Byte}
    {act : State → Answer × State} (hs : s.steady) (ht : s.takes ch seq)
    (hi : effectOf i = some (·.deliver ch seq kind act))
    (ha : act (s.touch ch) = unstatedAnswer .invalid (s.touch ch)) (hl : s.params.abandonLimit ≤ s.channels[ch].errors + 1) :
    ∃ extra : Half, exec i s = .next (s.abandonedBy (s.setFree (s.free + 1)) ch seq kind .invalid extra) := by
  refine ⟨Config.unstatedExtra s.free, ?_⟩
  rw [exec_of_effectOf hi, State.operate_deliver_of_abandons hs ch seq kind act ht .invalid (Config.unstatedExtra s.free)
    (s.free + 1) (by rw [ha]; rfl) rfl hl]
  rfl

end Sys2Proof.Machine
end

section
/-! SUPPORT. The loads (chapter 4): OPEN, DATA and CLOSE, taken and refused, and every counted error at the abandon limit. -/

namespace Sys2Proof.Machine

/-! ## CLOSE -/

/-- The end of a load on a channel just delivered to, written out (R94). -/
theorem State.endLoad_touch (s : State) (ch : Channel) (st : ShadowState) (n : ChannelState) :
    (s.touch ch).endLoad ch st n =
      (s.setBank (s.bank.loadEnded s.channels[ch].target st)).setChannels
        (s.channels.set ch { s.channels[ch] with target := none, idleFrames := 0, state := n }) := by
  simp only [State.endLoad, State.touch_eq, State.updateChannel_eq, State.setBank_channels,
    State.setChannels_bank, State.setChannels_channels, Fin.getElem_fin, Vector.getElem_set_self]
  simp only [State.setChannels, State.setBank, Vector.set_set]

/-- A load dropped from a channel that is not FILLING concerns the table bank alone. -/
theorem State.loadDropped_of_notFilling {s : State} {ch : Channel} (h : s.channels[ch].state ≠ .filling) :
    s.loadDropped ch = s.setBank (s.bank.loadEnded s.channels[ch].target .partialLoad) := by
  simp only [State.loadDropped, if_neg h]
  rcases s.channels[ch].target with _ | ⟨_ | _ | _⟩ <;> rfl

/-- A channel with no target and no fill has no load to drop. -/
theorem State.loadDropped_of_none {s : State} {ch : Channel} (h : s.channels[ch].state ≠ .filling)
    (ht : s.channels[ch].target = none) : s.loadDropped ch = s := by
  rw [State.loadDropped_of_notFilling h, ht]
  rfl

/-- A CLOSE taken in OPEN (R91). -/
theorem actClose_of_opened {s : State} {ch : Channel} (h : s.channels[ch].state = .opened) :
    actClose ch [] (s.touch ch) =
      if s.channels[ch].remaining = 0 then (.plain .ok 0, (s.touch ch).endLoad ch .loaded .idle)
      else (.plain .underrun (BitVec.ofNat 16 s.channels[ch].remaining), (s.touch ch).endLoad ch .partialLoad .idle) := by
  simp only [actClose, h, closeInOpen, ne_eq, not_true_eq_false, if_false, State.touch_self,
    ChannelContext.remainingExtra]

/-- An UNDERRUN at the abandon limit abandons its channel (R81, R91). -/
theorem exec_close_abandons {s : State} {ch : Channel} {seq : Bool} (hs : s.steady) (ht : s.takes ch seq)
    (ho : s.channels[ch].state = .opened) (hr : s.channels[ch].remaining ≠ 0)
    (hl : s.params.abandonLimit ≤ s.channels[ch].errors + 1) :
    exec (.close ch seq []) s = .next
      (s.abandonedBy s ch seq 0x03 .underrun (BitVec.ofNat 16 s.channels[ch].remaining)) := by
  generalize hu : (s.touch ch).endLoad ch .partialLoad .idle = u
  have written := s.endLoad_touch ch .partialLoad .idle
  rw [hu, ← State.loadDropped_of_notFilling (by rw [ho]; decide)] at written
  have channel : u.channels[ch] = { s.channels[ch] with target := none, idleFrames := 0, state := .idle } := by
    simp [written]
  have act : actClose ch [] (s.touch ch) = (.plain .underrun (BitVec.ofNat 16 s.channels[ch].remaining), u) := by
    rw [actClose_of_opened ho, if_neg hr, hu]
  have delivered := State.deliver_of_takes s ch seq 0x03 (actClose ch []) ht
  have dropped : u.loadDropped ch = u := State.loadDropped_of_none (by rw [channel]; exact nofun) (by rw [channel])
  have params : u.params = s.params := by simp [written, State.loadDropped]
  rw [act, State.finishTaken_of_abandons _ _ _ _ _ rfl (by rw [channel, params]; exact hl), dropped, channel] at delivered
  rw [exec_of_effectOf (f := (·.deliver ch seq 0x03 (actClose ch []))) rfl,
    State.operate_of_kept hs _ (by simp) (by simp), delivered, written]
  simp only [State.setChannels_channels, Vector.set_set]
  rfl

/-- A table, store or fill target at the end of its load (R94), as the statements write it. -/
theorem Bank.loadEnded_eq (b : Bank) (target : Option Target) (st : ShadowState) :
    b.loadEnded target st =
      match target with
      | some (.table t _) => { b with states := b.states.set t st }
      | some (.store _ _ _) => b
      | some .fill => b
      | none => b := by
  rcases target with _ | ⟨_ | _ | _⟩ <;> rfl

/-- A CLOSE that does not abandon its channel ends the load (R91). -/
theorem exec_close_ends {s : State} {ch : Channel} {seq : Bool} {code : ReplyCode} {extra : Half} {st : ShadowState}
    (hs : s.steady) (ht : s.takes ch seq)
    (ha : actClose ch [] (s.touch ch) = (.plain code extra, (s.touch ch).endLoad ch st .idle))
    (hl : code.counted = true → s.channels[ch].errors + 1 < s.params.abandonLimit) :
    exec (.close ch seq []) s = .next
      ((s.setBank (s.bank.loadEnded s.channels[ch].target st)).answered ch
        { s.channels[ch].replied ⟨seq, 0x03, code, extra, []⟩ with state := .idle, target := none }
        ⟨seq, 0x03, code, extra, []⟩) := by
  rw [State.endLoad_touch] at ha
  refine exec_of_acted hs ht rfl (w := s.setBank _) ha rfl rfl (fun hc => ?_)
  have rise : errorsAfter code s.channels[ch].errors ≤ s.channels[ch].errors + 1 := by
    cases code <;> simp [errorsAfter, ReplyCode.counted]
  exact Nat.lt_of_le_of_lt rise (hl hc)

/-- Settles O16: the end of a load by its remaining count, below and at the abandon limit, and the refusals. -/
theorem closeTaken : Obligations.CloseTaken := by
  refine ⟨fun s ch seq code st hs ht ho hc => ?_, fun s ch seq hs ht ho hr hl => ?_,
    fun s ch seq payload code extra hs ht hc => ?_⟩
  · obtain ⟨complete, rfl, rfl⟩ | ⟨short, rfl, rfl, hl⟩ := hc
    · have act := actClose_of_opened ho
      rw [if_pos complete] at act
      rw [exec_close_ends hs ht act (fun h => by cases h), Bank.loadEnded_eq, complete] <;> rfl
    · have act := actClose_of_opened ho
      rw [if_neg short] at act
      rw [exec_close_ends hs ht act (fun _ => hl), Bank.loadEnded_eq] <;> rfl
  · exact exec_close_abandons hs ht ho hr hl
  · obtain ⟨idle, hl, rfl, rfl⟩ | ⟨filling, rfl, rfl⟩ := hc
    · have idle' : (s.touch ch).channels[ch].state = .idle := by rw [State.touch_state, idle]
      exact exec_of_refuses hs ht ⟨_, rfl, actClose_of_idle idle'⟩ (fun _ => hl)
    · refine exec_of_refuses hs ht ⟨_, rfl, ?_⟩ (fun h => by cases h)
      simp only [actClose, State.touch_state, filling]

/-! ## Every counted error at the abandon limit -/

/-- Settles O9, request by request: each counted refusal is a refusal of its owner, but the UNDERRUN, which ends its load
first, and the INVALID whose extra field is a free value. -/
theorem countedErrorAbandons : Obligations.CountedErrorAbandons := by
  intro s i ch seq kind hs hi ht hl
  refine ⟨fun code extra h => ?_, fun h => ?_⟩
  · obtain ⟨malformed, rfl, rfl⟩ | ⟨payload, ho, h⟩ | ⟨payload, rfl, h⟩ | ⟨payload, rfl, h⟩ |
      ⟨payload, b, rfl, hb, h, rfl⟩ | ⟨payload, id, v, rfl, hb, h, rfl⟩ | ⟨scope, ho, h, rfl, rfl⟩ := h
    · exact exec_of_refuses_abandons hs ht (State.refuses_of_malformed hi malformed) rfl hl
    · obtain ⟨act, counted⟩ := actOpen_of_openError (State.openError_touch.2 h)
      obtain rfl | rfl := ho <;> cases hi <;> exact exec_of_refuses_abandons hs ht ⟨_, rfl, act⟩ counted hl
    · obtain ⟨act, counted⟩ := actData_of_dataError (State.dataError_touch.2 h)
      cases hi
      exact exec_of_refuses_abandons hs ht ⟨_, rfl, act⟩ counted hl
    · cases hi
      obtain ⟨idle, rfl, rfl⟩ | ⟨opened, rfl, short, rfl, rfl⟩ := h
      · have idle' : (s.touch ch).channels[ch].state = .idle := by rw [State.touch_state, idle]
        exact exec_of_refuses_abandons hs ht ⟨_, rfl, actClose_of_idle idle'⟩ rfl hl
      · exact exec_close_abandons hs ht opened short hl
    · obtain ⟨act, counted⟩ := actRead_of_readError (s := s.touch ch) hb h
      cases hi
      exact exec_of_refuses_abandons hs ht ⟨_, rfl, act⟩ counted hl
    · have act := actSetParam_of_paramError (s := s.touch ch) hb (State.paramError_touch.2 h)
      cases hi
      exact exec_of_refuses_abandons hs ht ⟨_, rfl, act⟩ rfl hl
    · have act := actReset_of_unknown (s := s.touch ch) h
      obtain rfl | rfl := ho <;> cases hi <;> exact exec_of_refuses_abandons hs ht ⟨_, rfl, act⟩ rfl hl
  · obtain ⟨payload, b, rfl, hb, h⟩ | rfl := h <;> cases hi
    · exact exec_of_unstated_abandons hs ht rfl (actCommit_unstated hb h) hl
    · exact exec_of_unstated_abandons hs ht rfl (actRevert_unstated _) hl

/-- Settles O21: below the abandon limit such an INVALID is a reply alone, its extra field a free value. -/
theorem invalidMaskRefused : Obligations.InvalidMaskRefused := by
  intro s ch seq payload hs ht hl
  refine ⟨fun b hb h => ⟨Config.unstatedExtra s.free, ?_⟩, fun h => ⟨Config.unstatedExtra s.free, ?_⟩⟩
  · exact exec_of_acted hs ht rfl (w := s.setFree (s.free + 1)) (actCommit_unstated hb h) rfl rfl (fun _ => hl)
  · subst h
    exact exec_of_acted hs ht rfl (w := s.setFree (s.free + 1)) (actRevert_unstated _) rfl rfl (fun _ => hl)

end Sys2Proof.Machine
end

section
/-! SUPPORT. OPEN and DATA, accepted and refused (R30, R57, R59, R84 to R90). -/

namespace Sys2Proof.Machine

/-! ## OPEN -/

/-- A load taken up by a channel just delivered to, written out (R86). -/
theorem State.startLoad_touch (s : State) (ch : Channel) (st : ChannelState) (target : Target) (length : Nat) :
    (s.touch ch).startLoad ch st target length =
      s.setChannels (s.channels.set ch
        { s.channels[ch] with
          idleFrames := 0, state := st, target := some target, declared := length, remaining := length }) := by
  simp only [State.startLoad, State.touch_eq, State.updateChannel_eq, State.setChannels_channels, Fin.getElem_fin,
    Vector.getElem_set_self]
  simp only [State.setChannels, Vector.set_set]

/-- An OPEN of a table whose block passes, in the table's state (R30, R85). -/
theorem actOpen_table {s : State} {ch : Channel} {payload : List Byte} {b : OpenBlock} {t : TableId}
    (hi : s.channels[ch].state = .idle) (hb : openBlock payload = some b) (ht : b.target.toNat = t.val)
    (h1 : 1 ≤ b.length.toNat) (h2 : b.offset.toNat + b.length.toNat ≤ tableSize t) :
    actOpen ch payload s =
      match s.bank.openRefusal t with
      | some a => (a, s)
      | none =>
        (openAccepted b,
          (s.startLoad ch .opened (.table t b.offset.toNat) b.length.toNat).setBank
            (s.bank.setState t (.loading ch))) := by
  have inside : tableRangeValid t b.offset.toNat b.length.toNat = true := tableRangeValid_iff.2 ⟨h1, h2⟩
  rw [actOpen_of_idle hi hb, openBlockInIdle_table s ch ht]
  simp only [openTable, tableOpenRefusal, inside, Bool.not_true, Bool.false_eq_true, if_false] <;> rfl

/-- A table that is neither LOADING nor ARMED takes an OPEN (R30). -/
theorem Bank.openRefusal_none {b : Bank} {t : TableId}
    (h : b.states[t] = .clean ∨ b.states[t] = .loaded ∨ b.states[t] = .partialLoad) : b.openRefusal t = none := by
  unfold Bank.openRefusal
  obtain h | h | h := h <;> simp only [h]

/-- Settles O10. -/
theorem openTableAccepted : Obligations.OpenTableAccepted := by
  intro s ch seq payload b t hs ht hi hb htarget h1 h2 hstate r
  have act := actOpen_table (s := s.touch ch) (by rw [State.touch_state, hi]) hb htarget h1 h2
  rw [show (s.touch ch).bank.openRefusal t = none from Bank.openRefusal_none hstate, State.startLoad_touch] at act
  exact exec_of_acted (i := .openReq ch seq payload) hs ht rfl (w := s.setBank (s.bank.setState t (.loading ch))) act
    rfl rfl nofun

/-- The write mode of a PLANAR or MERGE block (R59). -/
theorem storeModeOf_eq {b : OpenBlock} {mode : StoreMode}
    (h : (b.mode = 0 ∧ mode = .planar) ∨ (b.mode = 1 ∧ b.mergeOp = 0 ∧ mode = .merge .and b.mask) ∨
      (b.mode = 1 ∧ b.mergeOp = 1 ∧ mode = .merge .or b.mask) ∨
      (b.mode = 1 ∧ b.mergeOp = 2 ∧ mode = .merge .xor b.mask)) : storeModeOf b = mode := by
  obtain ⟨hm, rfl⟩ | ⟨hm, ho, rfl⟩ | ⟨hm, ho, rfl⟩ | ⟨hm, ho, rfl⟩ := h
  · have notMerge : b.mode ≠ 1 := by rw [hm]; decide
    unfold storeModeOf
    split
    · rw [if_neg notMerge]
    · rfl
  all_goals simp [storeModeOf, mergeOpOf, hm, ho]

/-- An OPEN of the store in IDLE (R59). -/
theorem actOpen_store {s : State} {ch : Channel} {payload : List Byte} {b : OpenBlock}
    (hi : s.channels[ch].state = .idle) (hb : openBlock payload = some b) (ht : b.target = 8) :
    actOpen ch payload s = openStore s ch b := by
  rw [actOpen_of_idle hi hb, openBlockInIdle_store s ch ht]

/-- Settles O11. -/
theorem openStoreAccepted : Obligations.OpenStoreAccepted := by
  intro s ch seq payload b mode hs ht hi hb htarget hmode hp1 hp15 hl1 hrem haddr r
  have act := actOpen_store (s := s.touch ch) (by rw [State.touch_state, hi]) hb htarget
  have notFill : b.mode ≠ 2 := by
    obtain ⟨h, -⟩ | ⟨h, -⟩ | ⟨h, -⟩ | ⟨h, -⟩ := hmode <;> rw [h] <;> decide
  have op : b.mode = 1 → b.mergeOp.toNat ≤ 2 := by
    intro h1
    obtain ⟨h, -⟩ | ⟨-, h, -⟩ | ⟨-, h, -⟩ | ⟨-, h, -⟩ := hmode
    · rw [h] at h1
      cases h1
    all_goals rw [h]; decide
  have mode2 : b.mode.toNat ≤ 2 := by
    obtain ⟨h, -⟩ | ⟨h, -⟩ | ⟨h, -⟩ | ⟨h, -⟩ := hmode <;> rw [h] <;> decide
  have planes : b.planes ≠ 0 := by rintro h; simp [h] at hp1
  have length : b.length ≠ 0 := by rintro h; simp [h] at hl1
  have params : storeParamsValid b = true :=
    storeParamsValid_iff.2 ⟨mode2, planes, hp15, op, fun h => absurd h notFill, fun _ => hrem⟩
  have addresses : storeAddressesValid b = true :=
    storeAddressesValid_iff.2 ⟨fun _ => ⟨length, haddr⟩, fun h => absurd h notFill, fun h => absurd h notFill⟩
  simp only [openStore, storeOpenRefusal, params, addresses, if_neg notFill, storeModeOf_eq hmode, Bool.not_true,
    Bool.false_eq_true, if_false, State.startLoad_touch] at act
  exact exec_of_acted hs ht rfl act rfl rfl (fun h => by cases h)

/-- Settles O12. -/
theorem openFillStarts : Obligations.OpenFillStarts := by
  intro s ch seq payload b hs ht hi hb htarget hmode hp1 hp15 hcolour haddr hfree r
  have act := actOpen_store (s := s.touch ch) (by rw [State.touch_state, hi]) hb htarget
  have notMerge : b.mode ≠ 1 := by rw [hmode]; decide
  have planes : b.planes ≠ 0 := by rintro h; simp [h] at hp1
  have params : storeParamsValid b = true :=
    storeParamsValid_iff.2 ⟨by rw [hmode]; decide, planes, hp15, fun h => absurd h notMerge, fun _ => hcolour,
      fun h => absurd hmode h⟩
  have addresses : storeAddressesValid b = true := by
    refine storeAddressesValid_iff.2 ⟨fun h => absurd hmode h, fun _ h => ?_, fun _ h => ?_⟩
    · obtain ⟨-, ho⟩ | ⟨hl, -⟩ := haddr
      · exact ho
      · exact absurd h hl
    · obtain ⟨hl, -⟩ | ⟨-, ho⟩ := haddr
      · exact absurd hl h
      · exact ho
  have port : (s.touch ch).store.fill = none := hfree
  simp only [openStore, storeOpenRefusal, params, addresses, if_pos hmode, port, Option.map_none, Bool.not_true,
    Bool.false_eq_true, if_false, State.startLoad_touch] at act
  exact exec_of_acted (i := .openFill ch seq payload) hs ht rfl
    (w := s.setStore { s.store with fill := some (fillOf ch b) }) act rfl rfl nofun

/-- The uncounted refusals of an OPEN: by the channel's state, the table's state or the write port (R30, R57, R84). -/
theorem actOpen_of_held {s : State} {ch : Channel} {payload : List Byte} {code : ReplyCode} {extra : Half}
    (h : (s.channels[ch].state = .filling ∧ code = .busy ∧ extra = BitVec.ofNat 16 ch.val) ∨
     (∃ (b : OpenBlock) (t : TableId), s.channels[ch].state = .idle ∧ openBlock payload = some b ∧
        b.target.toNat = t.val ∧ 1 ≤ b.length.toNat ∧ b.offset.toNat + b.length.toNat ≤ tableSize t ∧
        ((∃ h : Channel, s.bank.states[t] = .loading h ∧ code = .busy ∧ extra = BitVec.ofNat 16 h.val) ∨
         (∃ c : Commit, s.bank.states[t] = .armed ∧ s.bank.record = some c ∧ code = .pending ∧
            extra = c.tag.setWidth 16))) ∨
     (∃ (b : OpenBlock) (f : FillRecord), s.channels[ch].state = .idle ∧ openBlock payload = some b ∧
        b.target = 8 ∧ b.mode = 2 ∧ storeParamsValid b = true ∧ storeAddressesValid b = true ∧
        s.store.fill = some f ∧ code = .busy ∧ extra = BitVec.ofNat 16 f.channel.val)) :
    actOpen ch payload s = (.plain code extra, s) ∧ code.counted = false := by
  obtain ⟨filling, rfl, rfl⟩ | ⟨b, t, hi, hb, ht, h1, h2, ⟨holder, loading, rfl, rfl⟩ | ⟨c, armed, hr, rfl, rfl⟩⟩ |
    ⟨b, f, hi, hb, ht, hm, params, addresses, hf, rfl, rfl⟩ := h
  · exact ⟨by simp only [actOpen, filling], rfl⟩
  · exact ⟨by simp only [actOpen_table hi hb ht h1 h2, Bank.openRefusal, loading], rfl⟩
  · exact ⟨by simp only [actOpen_table hi hb ht h1 h2, Bank.openRefusal, armed, Bank.tag, hr], rfl⟩
  · refine ⟨?_, rfl⟩
    simp only [actOpen_store hi hb ht, openStore, storeOpenRefusal, params, addresses, if_pos hm, hf, Option.map_some,
      Bool.not_true, Bool.false_eq_true, if_false]

/-- Settles O13. -/
theorem openRefused : Obligations.OpenRefused := by
  refine ⟨fun s i ch seq payload code extra hs hi ht h => ?_, fun s i ch seq payload code extra hs hi ht hl h => ?_⟩
  · obtain ⟨act, uncounted⟩ := actOpen_of_held (s := s.touch ch) (payload := payload) (code := code) (extra := extra)
      (by rw [State.touch_state]; exact h)
    obtain rfl | rfl := hi <;>
      exact exec_of_refuses hs ht ⟨_, rfl, act⟩ (fun counted => by rw [uncounted] at counted; cases counted)
  · obtain ⟨act, -⟩ := actOpen_of_openError (State.openError_touch.2 h)
    obtain rfl | rfl := hi <;> exact exec_of_refuses hs ht ⟨_, rfl, act⟩ (fun _ => hl)

/-! ## DATA -/

/-- A segment that passes every check is taken up (R88 to R90). -/
theorem actData_accepts {s : State} {ch : Channel} {payload : List Byte} (ho : s.channels[ch].state = .opened)
    (h1 : 1 ≤ payload.length) (h2 : payload.length ≤ s.channels[ch].remaining)
    (h3 : Target.isStoreLoad s.channels[ch].target = true → s.store.fill = none) :
    actData ch payload s = acceptSegment s ch s.channels[ch] payload := by
  have notEmpty : ¬payload.length = 0 := Nat.one_le_iff_ne_zero.1 h1
  have fits : ¬s.channels[ch].remaining < payload.length := Nat.not_lt.2 h2
  have free : ¬(Target.isStoreLoad s.channels[ch].target = true ∧ s.store.held = true) := by
    rintro ⟨store, held⟩
    simp [Store.held, h3 store] at held
  simp only [actData, ho, dataInOpen, dataRefusal, if_neg notEmpty, if_neg fits, if_neg free]

/-- A segment taken up by a channel just delivered to, written out (R89, R90). -/
theorem acceptSegment_touch (s : State) (ch : Channel) (payload : List Byte) :
    acceptSegment (s.touch ch) ch (s.touch ch).channels[ch] payload =
      (.plain .ok (BitVec.ofNat 16 (s.channels[ch].remaining - payload.length)),
        (s.writeSegment s.channels[ch] payload).setChannels ((s.writeSegment s.channels[ch] payload).channels.set ch
          { s.channels[ch] with idleFrames := 0, remaining := s.channels[ch].remaining - payload.length })) := by
  have write : (s.touch ch).writeSegment { s.channels[ch] with idleFrames := 0 } payload =
      (s.writeSegment s.channels[ch] payload).setChannels (s.touch ch).channels := by
    simp only [State.writeSegment]
    rcases s.channels[ch].target with _ | ⟨_ | _ | _⟩ <;> rfl
  have written (f : ChannelContext → ChannelContext) :
      ((s.writeSegment s.channels[ch] payload).setChannels (s.touch ch).channels).updateChannel ch f =
        (s.writeSegment s.channels[ch] payload).setChannels
          (s.channels.set ch (f { s.channels[ch] with idleFrames := 0 })) := by
    rw [State.updateChannel_eq, State.setChannels_channels, State.touch_self, State.touch_eq, State.setChannels_channels,
      Vector.set_set]
    rfl
  have channels : (s.writeSegment s.channels[ch] payload).channels = s.channels := by simp
  rw [State.touch_self, acceptSegment, write, written, channels]

/-- A DATA packet that passes every check: its segment written, the remaining count lowered, OK with the new count. -/
theorem exec_data_accepts {s : State} {ch : Channel} {seq : Bool} {payload : List Byte} (hs : s.steady)
    (ht : s.takes ch seq) (ho : s.channels[ch].state = .opened) (h1 : 1 ≤ payload.length)
    (h2 : payload.length ≤ s.channels[ch].remaining)
    (h3 : Target.isStoreLoad s.channels[ch].target = true → s.store.fill = none) :
    let r : Reply := ⟨seq, 0x02, .ok, BitVec.ofNat 16 (s.channels[ch].remaining - payload.length), []⟩
    exec (.data ch seq payload) s = .next
      ((s.writeSegment s.channels[ch] payload).answered ch
        { s.channels[ch] with
          expected := !s.channels[ch].expected, remaining := s.channels[ch].remaining - payload.length
          errors := 0, idleFrames := 0, last := r } r) := by
  have channel := s.touch_self ch
  have due : (s.writeSegment s.channels[ch] payload).framer.due = s.framer.due := by
    unfold State.writeSegment
    split <;> rfl
  have act := actData_accepts (s := s.touch ch) (payload := payload) (by rw [channel, ho]) h1 (by rw [channel]; exact h2)
    (by rw [channel]; exact h3)
  rw [acceptSegment_touch] at act
  exact exec_of_acted (i := .data ch seq payload) hs ht rfl act (by simp) due nofun

/-- Settles O14: a segment of a table load, and one of a store load while the port is FREE. -/
theorem dataAccepted : Obligations.DataAccepted := by
  refine ⟨fun s ch seq payload t offset hs ht ho htarget h1 h2 => ?_,
    fun s ch seq payload planes start mode hs ht ho htarget hfree h1 h2 => ?_⟩
  · have written : s.writeSegment s.channels[ch] payload =
        s.setBank { s.bank with
          shadow := tableWriteRun s.bank.shadow t (offset + (s.channels[ch].declared - s.channels[ch].remaining)) payload } := by
      simp only [State.writeSegment, htarget]
    rw [← written]
    exact exec_data_accepts hs ht ho h1 h2 (by rw [htarget]; exact nofun)
  · have written : s.writeSegment s.channels[ch] payload =
        s.writeStore (storeSegment (selectedPlanes planes) start mode (s.channels[ch].declared - s.channels[ch].remaining)
          s.store.cells payload) := by
      simp only [State.writeSegment, htarget]
    rw [← written]
    exact exec_data_accepts hs ht ho h1 h2 (fun _ => hfree)

/-- Settles O15. -/
theorem dataRefused : Obligations.DataRefused := by
  intro s ch seq payload code extra hs ht hl h
  have channel := s.touch_self ch
  obtain h | ⟨filling, rfl, rfl⟩ | ⟨planes, start, mode, opened, h1, h2, htarget, hport, rfl, rfl⟩ := h
  · obtain ⟨act, -⟩ := actData_of_dataError (State.dataError_touch.2 h)
    exact exec_of_refuses hs ht ⟨_, rfl, act⟩ hl
  · refine exec_of_refuses hs ht ⟨_, rfl, ?_⟩ hl
    simp only [actData, channel, filling, ChannelContext.remainingExtra]
  · refine exec_of_refuses hs ht ⟨_, rfl, ?_⟩ hl
    have held : (s.touch ch).store.held = true := Option.isSome_iff_ne_none.2 hport
    have store : Target.isStoreLoad s.channels[ch].target = true := by rw [htarget]; rfl
    simp only [actData, channel, opened, dataInOpen, dataRefusal, if_neg (Nat.one_le_iff_ne_zero.1 h1),
      if_neg (Nat.not_lt.2 h2), if_pos (And.intro store held), ChannelContext.remainingExtra]

end Sys2Proof.Machine
end

section
/-! SUPPORT. The bytes a load writes (R31, R60 to R62): stream order, and what a run or a segment leaves. -/

namespace Sys2Proof.Machine

/-! ## Stream order -/

/-- The selected planes are those of the mask (R59). -/
theorem mem_selectedPlanes {mask : BitVec 4} {k : Fin 4} : k ∈ selectedPlanes mask ↔ mask.getLsbD k.val = true := by
  have all : k ∈ ([0, 1, 2, 3] : List (Fin 4)) := by
    revert k
    decide
  simp [selectedPlanes, all]

/-- The selected planes ascend (R60). -/
theorem selectedPlanes_sorted (mask : BitVec 4) : (selectedPlanes mask).Pairwise (· < ·) :=
  List.Pairwise.filter _ (by decide)

/-- A mask other than 0 selects a plane. -/
theorem selectedPlanes_pos : ∀ {mask : BitVec 4}, mask ≠ 0 → 0 < (selectedPlanes mask).length := by decide

/-- In an ascending list, as many entries lie below an entry as stand before it. -/
theorem length_filter_lt_getElem {l : List (Fin 4)} (hl : l.Pairwise (· < ·)) (r : Nat) (hr : r < l.length) :
    (l.filter (· < l[r])).length = r := by
  induction l generalizing r with
  | nil => cases hr
  | cons a rest ih =>
    obtain ⟨above, sorted⟩ := List.pairwise_cons.1 hl
    cases r with
    | zero => simpa using fun b hb => (above b hb).le
    | succ r =>
      have below : a < rest[r]'(Nat.lt_of_succ_lt_succ hr) := above _ (List.getElem_mem _)
      simpa [below] using ih sorted r (Nat.lt_of_succ_lt_succ hr)

/-- The plane of stream position q is the selected plane of rank q mod p (R60). -/
theorem streamPlace_plane {planes : List (Fin 4)} (hp : 0 < planes.length) (start q : Nat) :
    (streamPlace planes start q).1 = planes[q % planes.length]'(Nat.mod_lt _ hp) :=
  List.getD_eq_getElem _ _ _

/-- The address of stream position q is A + floor(q / p), without wrap inside the plane (R60). -/
theorem streamPlace_address {planes : List (Fin 4)} {start q : Nat} (h : start + q / planes.length < 65536) :
    (streamPlace planes start q).2.toNat = start + q / planes.length :=
  Nat.mod_eq_of_lt h

/-- Settles O18. -/
theorem streamOrderAndMerge : Obligations.StreamOrderAndMerge := by
  refine ⟨fun mask start q hmask h => ⟨streamPlace_address h, ?_, ?_⟩, fun start q => ⟨?_, ?_⟩, fun _ _ => rfl,
    fun op m old data => ?_⟩
  · rw [← mem_selectedPlanes, streamPlace_plane (selectedPlanes_pos hmask)]
    exact List.getElem_mem _
  · rw [streamPlace_plane (selectedPlanes_pos hmask)]
    exact length_filter_lt_getElem (selectedPlanes_sorted mask) _ _
  · have rank : 2 * q % 2 = 0 := by omega
    exact (congrArg (fun r => ([0, 2] : List (Fin 4)).getD r 0) rank)
  · have rank : (2 * q + 1) % 2 = 1 := by omega
    exact (congrArg (fun r => ([0, 2] : List (Fin 4)).getD r 0) rank)
  · cases op <;> rfl

/-- Inside a plane, two stream positions stand at two places (R60). -/
theorem streamPlace_inj {planes : List (Fin 4)} (hn : planes.Nodup) (hp : 0 < planes.length) {start i j : Nat}
    (hi : start + i / planes.length < 65536) (hj : start + j / planes.length < 65536)
    (h : streamPlace planes start i = streamPlace planes start j) : i = j := by
  have rank : i % planes.length = j % planes.length := by
    have plane := congrArg Prod.fst h
    rw [streamPlace_plane hp, streamPlace_plane hp] at plane
    exact (List.Nodup.getElem_inj_iff hn).1 plane
  have row : i / planes.length = j / planes.length := by
    have address := congrArg (fun place => place.2.toNat) h
    simp only [streamPlace_address hi, streamPlace_address hj] at address
    omega
  rw [← Nat.div_add_mod i planes.length, ← Nat.div_add_mod j planes.length, rank, row]

/-! ## What a load leaves -/

/-- A run writes its bytes in order, and no other byte of any table (R31). -/
theorem tableRead_tableWriteRun {copy : Vector Memory 8} {t : TableId} {offset : Nat} {bytes : List Byte}
    (hw : copyWf copy) (hs : offset + bytes.length ≤ tableSize t) (u : TableId) (p : Nat) :
    tableRead (tableWriteRun copy t offset bytes) u p =
      if u = t ∧ offset ≤ p ∧ p < offset + bytes.length then bytes.getD (p - offset) 0 else tableRead copy u p := by
  induction bytes generalizing copy offset with
  | nil =>
    rw [if_neg (by simp)]
    rfl
  | cons b rest ih =>
    have size : offset + 1 + rest.length ≤ tableSize t := by simpa [Nat.add_assoc, Nat.add_comm] using hs
    rw [tableWriteRun, ih (tableWrite_wf copy t offset b hw) size, tableRead_tableWrite copy t u offset p b hw (by omega)]
    by_cases hu : u = t
    · obtain before | here | after := Nat.lt_trichotomy p offset
      · rw [if_neg (by omega), if_neg (by omega), if_neg (by omega)]
      · subst here
        rw [if_neg (by omega), if_pos ⟨hu, rfl⟩, if_pos ⟨hu, by simp⟩]
        simp
      · obtain ⟨k, rfl⟩ : ∃ k, p = offset + 1 + k := ⟨p - (offset + 1), by omega⟩
        rw [if_neg (c := u = t ∧ offset + 1 + k = offset) (by omega)]
        have rest' : offset + 1 + k - (offset + 1) = k := by omega
        have whole : offset + 1 + k - offset = k + 1 := by omega
        by_cases inside : k < rest.length
        · rw [if_pos ⟨hu, by omega, by omega⟩, if_pos ⟨hu, by omega, by rw [List.length_cons]; omega⟩, rest', whole]
          rfl
        · rw [if_neg (by rintro ⟨-, -, below⟩; omega), if_neg (by rintro ⟨-, -, below⟩; rw [List.length_cons] at below; omega)]
    · rw [if_neg (by tauto), if_neg (by tauto), if_neg (by tauto)]

/-- One byte of a store load keeps the canonical form. -/
theorem storeByte_wf {cells : Memory} (planes : List (Fin 4)) (start : Nat) (mode : StoreMode) (q : Nat) (b : Byte)
    (h : cells.wf storeDefault = true) : (storeByte planes start mode q cells b).wf storeDefault = true :=
  storeWrite_wf _ _ _ _ h

/-- One byte of a store load: its place becomes what the mode makes of it, every other byte is as before (R60 to R62). -/
theorem storeRead_storeByte {cells : Memory} (planes : List (Fin 4)) (start : Nat) (mode : StoreMode) (q : Nat) (b : Byte)
    (h : cells.wf storeDefault = true) (plane : Fin 4) (address : Half) :
    storeRead (storeByte planes start mode q cells b) plane address =
      if (plane, address) = streamPlace planes start q then mode.apply (storeRead cells plane address) b
      else storeRead cells plane address := by
  rw [storeByte, storeRead_storeWrite _ _ _ _ _ _ h]
  by_cases here : (plane, address) = streamPlace planes start q
  · rw [if_pos here, ← here, if_pos ⟨rfl, rfl⟩]
  · rw [if_neg here, if_neg (fun ⟨h1, h2⟩ => here (Prod.ext h1 h2))]

/-- A segment leaves every byte at whose place none of its bytes stands. -/
theorem storeRead_storeSegment_frame {cells : Memory} (planes : List (Fin 4)) (start : Nat) (mode : StoreMode) (q : Nat)
    (payload : List Byte) (h : cells.wf storeDefault = true) (plane : Fin 4) (address : Half)
    (hk : ∀ k, k < payload.length → streamPlace planes start (q + k) ≠ (plane, address)) :
    storeRead (storeSegment planes start mode q cells payload) plane address = storeRead cells plane address := by
  induction payload generalizing q cells with
  | nil => rfl
  | cons b rest ih =>
    have first : streamPlace planes start q ≠ (plane, address) := hk 0 (by simp)
    have later : ∀ k, k < rest.length → streamPlace planes start (q + 1 + k) ≠ (plane, address) := by
      intro k hlt
      have := hk (k + 1) (by simpa using hlt)
      rwa [show q + (k + 1) = q + 1 + k by omega] at this
    rw [storeSegment, ih (q + 1) (storeByte_wf _ _ _ _ _ h) later, storeRead_storeByte _ _ _ _ _ h, if_neg first.symm]

/-- A segment whose bytes stand at places of their own makes of each what its mode and its payload byte say. -/
theorem storeRead_storeSegment_at {cells : Memory} {planes : List (Fin 4)} {start : Nat} (mode : StoreMode) {q : Nat}
    {payload : List Byte} (h : cells.wf storeDefault = true)
    (hinj : ∀ i j, i < payload.length → j < payload.length →
      streamPlace planes start (q + i) = streamPlace planes start (q + j) → i = j)
    (k : Nat) (hk : k < payload.length) :
    storeRead (storeSegment planes start mode q cells payload) (streamPlace planes start (q + k)).1
        (streamPlace planes start (q + k)).2 =
      mode.apply (storeRead cells (streamPlace planes start (q + k)).1 (streamPlace planes start (q + k)).2)
        (payload.getD k 0) := by
  induction payload generalizing q cells k with
  | nil => cases hk
  | cons b rest ih =>
    have wf := storeByte_wf planes start mode q b h
    have shift (i : Nat) : q + 1 + i = q + (i + 1) := by omega
    cases k with
    | zero =>
      rw [storeSegment, storeRead_storeSegment_frame _ _ _ _ _ wf, storeRead_storeByte _ _ _ _ _ h]
      · exact if_pos rfl
      · intro k hlt same
        rw [shift] at same
        exact absurd (hinj (k + 1) 0 (by simpa using hlt) (by simp) same) (by omega)
    | succ k =>
      have other : ¬((streamPlace planes start (q + (k + 1))).1, (streamPlace planes start (q + (k + 1))).2) =
          streamPlace planes start q := fun same =>
        absurd (hinj (k + 1) 0 hk (by simp) same) (by omega)
      have later := ih (q := q + 1) wf (fun i j hi hj same => by
        rw [shift, shift] at same
        have := hinj (i + 1) (j + 1) (by simpa using hi) (by simpa using hj) same
        omega) k (by simpa using hk)
      rw [shift, storeRead_storeByte _ _ _ _ _ h, if_neg other] at later
      rw [storeSegment, later]
      rfl

/-- Settles O17: the run by its bytes, the segment by the places of its stream positions, which differ inside a plane. -/
theorem loadedBytes : Obligations.LoadedBytes := by
  refine ⟨fun copy t u offset p bytes hw hs => tableRead_tableWriteRun hw hs u p, ?_⟩
  intro cells mask start q mode payload hw hmask hlen hspan
  refine ⟨storeRead_storeSegment_at mode hw (fun i j hi hj same => ?_),
    storeRead_storeSegment_frame _ start mode q payload hw⟩
  have inside (i : Nat) (hi : i < payload.length) : start + (q + i) / (selectedPlanes mask).length < 65536 := by
    have := Nat.div_le_div_right (c := (selectedPlanes mask).length) (show q + i ≤ q + payload.length - 1 by omega)
    omega
  have := streamPlace_inj ((selectedPlanes_sorted mask).imp ne_of_lt) (selectedPlanes_pos hmask) (inside i hi)
    (inside j hj) same
  omega

end Sys2Proof.Machine
end

section
/-! SUPPORT. COMMIT, CANCEL and REVERT (R35 to R41, R49, R50): what the table bank answers, and what it becomes. -/

namespace Sys2Proof.Machine

/-! ## Requests that change the bank alone -/

/-- A request after which only the bank differs: the uncounted reply, and the new bank. -/
theorem exec_of_bank {s : State} {i : Instr} {ch : Channel} {seq : Bool} {kind : Byte} {act : State → Answer × State}
    {a : Answer} {bank : Bank} (hs : s.steady) (ht : s.takes ch seq) (hi : effectOf i = some (·.deliver ch seq kind act))
    (ha : act (s.touch ch) = (a, (s.touch ch).setBank bank)) (hok : a.code = .ok) :
    exec i s = .next
      ((s.setBank bank).answered ch (s.channels[ch].replied (a.reply seq kind)) (a.reply seq kind)) := by
  have touched : (s.touch ch).setBank bank =
      (s.setBank bank).setChannels ((s.setBank bank).channels.set ch { s.channels[ch] with idleFrames := 0 }) := by
    rw [State.touch_eq]
    rfl
  rw [touched] at ha
  rw [exec_of_acted hs ht hi ha rfl rfl (fun h => by rw [hok] at h; cases h)]
  obtain ⟨code, extra, data⟩ := a
  obtain rfl : code = .ok := hok
  rfl

/-! ## COMMIT -/

/-- The timing a COMMIT block states (R35). -/
theorem timingOf_eq {b : CommitBlock} {timing : Timing}
    (h : (b.timing = 0 ∧ timing = .next) ∨ (b.timing = 1 ∧ timing = .atFrame b.target)) :
    b.timingOf = some timing := by
  obtain ⟨ht, rfl⟩ | ⟨ht, rfl⟩ := h
  · rw [CommitBlock.timingOf, if_pos ht]
  · rw [CommitBlock.timingOf, if_neg (by rw [ht]; decide), if_pos ht]

/-- A COMMIT of a known timing and of some table comes to the tests of R36 to R38. -/
theorem actCommit_of_timing {s : State} {payload : List Byte} {b : CommitBlock} {timing : Timing}
    (hb : commitBlock payload = some b) (ht : b.timingOf = some timing) (hm : b.mask ≠ 0) :
    actCommit payload s =
      match commitRefusal s b timing with
      | some a => (a, s)
      | none => (.plain .ok s.framer.n, s.setBank (s.bank.arm b.mask timing b.tag)) := by
  rw [actCommit, hb]
  simp only [withBlock, commitOf, ht, if_neg hm] <;> rfl

/-- A target N is LATE when it is the current one or lies behind it (R37). -/
theorem targetLate_atFrame {target n : Half} :
    targetLate (.atFrame target) n = true ↔ (target - n).toNat = 0 ∨ 32768 ≤ (target - n).toNat := by
  have zero : target - n = 0 ↔ (target - n).toNat = 0 := BitVec.toNat_inj.symm
  simp only [targetLate, Bool.or_eq_true, decide_eq_true_eq, zero]

/-- A table LOADING. -/
theorem ShadowState.isLoading_iff {st : ShadowState} : st.isLoading = true ↔ ∃ h, st = .loading h := by
  cases st <;> simp [ShadowState.isLoading]

/-- None of the named tables is LOADING. -/
theorem find_loading_none {bank : Bank} {mask : Byte}
    (h : ∀ u : TableId, mask.getLsbD u.val = true → ∀ h, bank.states[u] ≠ .loading h) :
    (maskTables mask).find? (fun t => bank.states[t].isLoading) = none :=
  find_maskTables_none (fun u hu => by
    rw [← Bool.not_eq_true, ShadowState.isLoading_iff]
    exact fun ⟨holder, hu'⟩ => h u hu holder hu')

/-- The lowest named table that is LOADING. -/
theorem find_loading_some {bank : Bank} {mask : Byte} {t : TableId} (hm : mask.getLsbD t.val = true)
    (ht : ∃ h, bank.states[t] = .loading h)
    (hl : ∀ u : TableId, u < t → mask.getLsbD u.val = true → ∀ h, bank.states[u] ≠ .loading h) :
    (maskTables mask).find? (fun t => bank.states[t].isLoading) = some t :=
  find_maskTables hm (ShadowState.isLoading_iff.2 ht) (fun u hu hmu => by
    rw [← Bool.not_eq_true, ShadowState.isLoading_iff]
    exact fun ⟨holder, hu'⟩ => hl u hu hmu holder hu')

/-- With no commit armed and every named table CLEAN or LOADED, neither the bank nor its tables refuse (R36). -/
theorem Bank.commitRefusal_none {bank : Bank} {mask : Byte} (hr : bank.record = none)
    (h : ∀ u : TableId, mask.getLsbD u.val = true → bank.states[u] = .clean ∨ bank.states[u] = .loaded) :
    bank.commitRefusal (maskTables mask) = none := by
  have notLoading : (maskTables mask).find? (fun t => bank.states[t].isLoading) = none :=
    find_loading_none (fun u hu holder => by obtain h | h := h u hu <;> rw [h] <;> exact nofun)
  have notPartial : (maskTables mask).find? (fun t => bank.states[t] == .partialLoad) = none :=
    find_maskTables_none (fun u hu => by obtain h | h := h u hu <;> rw [h] <;> rfl)
  simp only [Bank.commitRefusal, hr, notLoading, notPartial, Option.map_none]

/-- With no commit armed, the lowest named table LOADING refuses (R36). -/
theorem Bank.commitRefusal_loading {bank : Bank} {mask : Byte} {t : TableId} (hr : bank.record = none)
    (hm : mask.getLsbD t.val = true) (ht : ∃ h, bank.states[t] = .loading h)
    (hl : ∀ u : TableId, u < t → mask.getLsbD u.val = true → ∀ h, bank.states[u] ≠ .loading h) :
    bank.commitRefusal (maskTables mask) = some (.plain .busy (tableExtra t)) := by
  simp only [Bank.commitRefusal, hr, find_loading_some hm ht hl]

/-- With no commit armed and no named table LOADING, the lowest named table PARTIAL refuses (R36). -/
theorem Bank.commitRefusal_partial {bank : Bank} {mask : Byte} {t : TableId} (hr : bank.record = none)
    (hl : ∀ u : TableId, mask.getLsbD u.val = true → ∀ h, bank.states[u] ≠ .loading h)
    (hm : mask.getLsbD t.val = true) (ht : bank.states[t] = .partialLoad)
    (hp : ∀ u : TableId, u < t → mask.getLsbD u.val = true → bank.states[u] ≠ .partialLoad) :
    bank.commitRefusal (maskTables mask) = some (.plain .incomplete (tableExtra t)) := by
  have first : (maskTables mask).find? (fun t => bank.states[t] == .partialLoad) = some t :=
    find_maskTables hm (beq_iff_eq.2 ht) (fun u hu hmu => beq_eq_false_iff_ne.2 (hp u hu hmu))
  simp only [Bank.commitRefusal, hr, find_loading_none hl, first, Option.map_some]

/-- The bank after a COMMIT is armed: the state of each table (R41). -/
theorem Bank.arm_states (bank : Bank) (mask : Byte) (timing : Timing) (tag : Byte) (t : TableId) :
    (bank.arm mask timing tag).states[t] = if mask.getLsbD t.val then .armed else bank.states[t] := by
  rw [Bank.arm]
  simp only [Bank.setStates_states, mem_maskTables]

/-- Settles O19. -/
theorem commitArmsTables : Obligations.CommitArmsTables := by
  intro s ch seq payload b timing hs ht hb hm htiming hr hstates hvalid r
  have known : b.timingOf = some timing :=
    timingOf_eq (htiming.imp id (fun ⟨h, h', _⟩ => ⟨h, h'⟩))
  have onTime : ¬targetLate timing s.framer.n = true := by
    obtain ⟨-, rfl⟩ | ⟨-, rfl, h1, h2⟩ := htiming
    · exact nofun
    · rw [targetLate_atFrame]
      omega
  have passes : commitRefusal (s.touch ch) b timing = none := by
    have bank : (s.touch ch).bank = s.bank := rfl
    have framer : (s.touch ch).framer = s.framer := rfl
    simp only [commitRefusal, bank, framer, Bank.commitRefusal_none hr hstates, if_neg onTime, hvalid, Option.map_none]
  have act : actCommit payload (s.touch ch) =
      (.plain .ok s.framer.n, (s.touch ch).setBank (s.bank.arm b.mask timing b.tag)) := by
    rw [actCommit_of_timing hb known hm, passes] <;> rfl
  exact ⟨_, exec_of_bank (i := .commit ch seq payload) hs ht rfl act rfl, (Bank.setStates_kept _ _ _).1,
    (Bank.setStates_kept _ _ _).2.1, rfl, Bank.arm_states _ _ _ _⟩

/-- A COMMIT of a known timing that a test refuses is answered with that test's refusal (R36 to R38). -/
theorem actCommit_of_refusal {s : State} {payload : List Byte} {b : CommitBlock} {timing : Timing} {a : Answer}
    (hb : commitBlock payload = some b) (ht : b.timingOf = some timing) (hm : b.mask ≠ 0)
    (h : commitRefusal s b timing = some a) : actCommit payload s = (a, s) := by
  rw [actCommit_of_timing hb ht hm, h]

/-- A COMMIT the bank and its tables let pass is refused by its target N, or by the first record that breaks a rule
(R37, R38). -/
theorem commitRefusal_of_bank {s : State} {b : CommitBlock} {timing : Timing}
    (h : s.bank.commitRefusal (maskTables b.mask) = none) :
    commitRefusal s b timing =
      if targetLate timing s.framer.n = true then some (.plain .late s.framer.n)
      else (firstRejected s.bank.shadow (maskTables b.mask)).map (fun r => .plain .rejected (recordExtra r.1 r.2)) := by
  simp only [commitRefusal, h]

/-- A refusal by the bank or its tables comes first (R36). -/
theorem commitRefusal_of_bank_refusal {s : State} {b : CommitBlock} {timing : Timing} {a : Answer}
    (h : s.bank.commitRefusal (maskTables b.mask) = some a) : commitRefusal s b timing = some a := by
  simp only [commitRefusal, h]

/-- Settles O20, by the first test that fails. -/
theorem commitRefused : Obligations.CommitRefused := by
  intro s ch seq payload b code extra hs ht hb hm htiming h
  obtain ⟨timing, known, hat⟩ : ∃ timing, b.timingOf = some timing ∧
      ((b.timing = 0 ∧ timing = .next) ∨ (b.timing = 1 ∧ timing = .atFrame b.target)) := by
    obtain h0 | h1 : b.timing = 0 ∨ b.timing = 1 := by bv_omega
    · exact ⟨_, timingOf_eq (.inl ⟨h0, rfl⟩), .inl ⟨h0, rfl⟩⟩
    · exact ⟨_, timingOf_eq (.inr ⟨h1, rfl⟩), .inr ⟨h1, rfl⟩⟩
  have refusal : commitRefusal (s.touch ch) b timing = some (.plain code extra) ∧ code.counted = false := by
    obtain ⟨c, hr, rfl, rfl⟩ | ⟨t, hr, hmt, hload, hlow, rfl, rfl⟩ | ⟨t, hr, hload, hmt, hpart, hlow, rfl, rfl⟩ |
      ⟨hr, hstates, h1, hlate, rfl, rfl⟩ | ⟨t, k, hr, hstates, hdue, hfirst, rfl, rfl⟩ := h
    · refine ⟨commitRefusal_of_bank_refusal ?_, rfl⟩
      have record : (s.touch ch).bank.record = some c := hr
      simp only [Bank.commitRefusal, record]
    · exact ⟨commitRefusal_of_bank_refusal (Bank.commitRefusal_loading hr hmt hload hlow), rfl⟩
    · exact ⟨commitRefusal_of_bank_refusal (Bank.commitRefusal_partial hr hload hmt hpart hlow), rfl⟩
    · refine ⟨?_, rfl⟩
      obtain ⟨h0, -⟩ | ⟨-, rfl⟩ := hat
      · rw [h1] at h0
        cases h0
      · rw [commitRefusal_of_bank (s := s.touch ch) (Bank.commitRefusal_none hr hstates)]
        exact if_pos (targetLate_atFrame.2 hlate)
    · refine ⟨?_, rfl⟩
      have onTime : ¬targetLate timing s.framer.n = true := by
        obtain ⟨-, rfl⟩ | ⟨h1, rfl⟩ := hat
        · exact nofun
        · have := hdue h1
          rw [targetLate_atFrame]
          omega
      rw [commitRefusal_of_bank (s := s.touch ch) (Bank.commitRefusal_none hr hstates)]
      refine (if_neg onTime).trans ?_
      exact congrArg (Option.map _) hfirst
  exact exec_of_refuses hs ht ⟨_, rfl, actCommit_of_refusal hb known hm refusal.1⟩
    (fun hc => by rw [refusal.2] at hc; cases hc)

/-! ## Validation -/

/-- Each record rule as the specification states it (R39, R40). -/
theorem layerValid_iff (l : Layer) : layerValid l = true ↔
    (l.enable = true →
      l.op ≤ 4 ∧ 1 ≤ l.depth ∧ l.depth ≤ 4 ∧ l.x ≤ 2047 ∧ l.y ≤ 1535 ∧ l.width ≤ 2048 ∧ l.height ≤ 1536 ∧
        1 ≤ l.stride ∧ l.stride ≤ 8192 ∧ (∀ i, l.transparent = some i → i ≤ 15) ∧ ∀ k, l.key = some k → k ≤ 7) := by
  simp only [layerValid, Bool.or_eq_true, Bool.not_eq_true', Bool.and_eq_true, decide_eq_true_eq, Option.all_eq_true,
    and_assoc]
  cases l.enable <;> simp

theorem checkValid_iff (c : CheckConfig) : checkValid c = true ↔
    (c.enable = true → 1 ≤ c.threshold ∧ c.threshold ≤ 15 ∧ ∀ j, c.phaseLink = some j → j ≤ 15) := by
  simp only [checkValid, Bool.or_eq_true, Bool.not_eq_true', Bool.and_eq_true, decide_eq_true_eq, Option.all_eq_true,
    and_assoc]
  cases c.enable <;> simp

theorem formatValid_iff (f : Format) : formatValid f = true ↔
    64 ≤ f.width ∧ f.width ≤ 2048 ∧ 32 ≤ f.height ∧ f.height ≤ 1536 ∧ 4000 ≤ f.period ∧ f.period ≤ 100000 ∧
      f.policy ≤ 1 := by
  simp only [formatValid, Bool.and_eq_true, decide_eq_true_eq, and_assoc]

/-- The first index below n that a test fails. -/
theorem find_range_not_some {n k : Nat} {p : Nat → Bool} (h : (List.range n).find? (fun k => !p k) = some k) :
    k < n ∧ p k = false ∧ ∀ j, j < k → p j = true := by
  rw [List.find?_range_eq_some] at h
  obtain ⟨fails, inside, before⟩ := h
  exact ⟨List.mem_range.1 inside, by simpa using fails, fun j hj => by simpa using before j hj⟩

/-- No record of a table breaks a rule (R38 to R40). -/
theorem firstInvalid_none (copy : Vector Memory 8) (t : TableId) : firstInvalid copy t = none ↔
    (t = 0 → ∀ k, k < 16 → layerValid (layerRecord copy k) = true) ∧
    (t = 6 → ∀ k, k < 8 → checkValid (checkConfig copy k) = true) ∧
    (t = 7 → formatValid (formatRecord copy) = true) := by
  fin_cases t <;> simp [firstInvalid]

/-- The first record of a table that breaks a rule (R38 to R40). -/
theorem firstInvalid_some {copy : Vector Memory 8} {t : TableId} {k : Nat} (h : firstInvalid copy t = some k) :
    (t = 0 ∧ k < 16 ∧ layerValid (layerRecord copy k) = false ∧
        ∀ j, j < k → layerValid (layerRecord copy j) = true) ∨
     (t = 6 ∧ k < 8 ∧ checkValid (checkConfig copy k) = false ∧
        ∀ j, j < k → checkValid (checkConfig copy j) = true) ∨
     (t = 7 ∧ k = 0 ∧ formatValid (formatRecord copy) = false) := by
  unfold firstInvalid at h
  split at h
  case h_1 => exact .inl ⟨rfl, find_range_not_some h⟩
  case h_7 => exact .inr (.inl ⟨rfl, find_range_not_some h⟩)
  case h_8 =>
    split_ifs at h with valid
    cases h
    exact .inr (.inr ⟨rfl, rfl, by simpa using valid⟩)
  all_goals cases h

/-- No table of a list has a record that breaks a rule (R38). -/
theorem firstRejected_none (copy : Vector Memory 8) (ts : List TableId) :
    firstRejected copy ts = none ↔ ∀ t ∈ ts, firstInvalid copy t = none := by
  induction ts with
  | nil => simp [firstRejected]
  | cons t rest ih =>
    rw [firstRejected, List.forall_mem_cons, ← ih]
    cases firstInvalid copy t <;> simp

/-- The first table of a list with a record that breaks a rule, and the first such record (R38). -/
theorem firstRejected_some {copy : Vector Memory 8} {ts : List TableId} {t : TableId} {k : Nat}
    (h : firstRejected copy ts = some (t, k)) :
    (∃ before after : List TableId, ts = before ++ t :: after ∧ firstRejected copy before = none) ∧
      firstInvalid copy t = some k := by
  induction ts with
  | nil => cases h
  | cons u rest ih =>
    cases hu : firstInvalid copy u with
    | some j =>
      simp only [firstRejected, hu, Option.some.injEq, Prod.mk.injEq] at h
      obtain ⟨rfl, rfl⟩ := h
      exact ⟨⟨[], rest, rfl, rfl⟩, hu⟩
    | none =>
      simp only [firstRejected, hu] at h
      obtain ⟨⟨before, after, rfl, passes⟩, invalid⟩ := ih h
      exact ⟨⟨u :: before, after, rfl, by simp only [firstRejected, hu, passes]⟩, invalid⟩

/-- Settles O22. -/
theorem commitValidation : Obligations.CommitValidation := by
  refine ⟨fun mask => ⟨mem_maskTables mask, maskTables_sorted mask⟩, layerValid_iff, checkValid_iff, formatValid_iff,
    fun copy ts => ?_, fun copy ts t k h => ?_⟩
  · simp only [firstRejected_none, firstInvalid_none]
    constructor
    · intro h
      exact ⟨fun h0 => (h 0 h0).1 rfl, fun h6 => (h 6 h6).2.1 rfl, fun h7 => (h 7 h7).2.2 rfl⟩
    · rintro ⟨layers, checks, format⟩ t ht
      exact ⟨fun h => layers (h ▸ ht), fun h => checks (h ▸ ht), fun h => format (h ▸ ht)⟩
  · obtain ⟨first, invalid⟩ := firstRejected_some h
    exact ⟨first, firstInvalid_some invalid⟩

/-! ## CANCEL and REVERT -/

/-- A CANCEL is answered with what was armed (R49). -/
theorem actCancel_eq (s : State) :
    actCancel [] s = (.plain .ok (if s.bank.record.isSome then 1 else 0), s.setBank s.bank.cancel) := rfl

/-- Settles O23. -/
theorem cancelWithdrawsCommit : Obligations.CancelWithdrawsCommit := by
  refine fun s ch seq hs ht => ⟨fun c hr => ?_, fun hr => ?_⟩
  · have act := actCancel_eq (s.touch ch)
    have bank : (s.touch ch).bank = s.bank := rfl
    simp only [bank, hr, Option.isSome_some, if_true] at act
    refine ⟨_, exec_of_bank (i := .cancel ch seq []) hs ht rfl act rfl, ?_⟩
    simp only [Bank.cancel, hr, Bank.setStates_kept, Bank.setStates_states, mem_maskTables, implies_true, and_self]
  · have act := actCancel_eq (s.touch ch)
    have bank : (s.touch ch).bank = s.bank := rfl
    have kept : s.bank.cancel = s.bank := by simp only [Bank.cancel, hr]
    simp only [bank, hr, kept, Option.isSome_none, Bool.false_eq_true, if_false] at act
    exact exec_of_bank (i := .cancel ch seq []) hs ht rfl act rfl

/-- A REVERT of some table comes to the states of the named tables (R50). -/
theorem actRevert_of_mask {s : State} {mask : Byte} (hm : mask ≠ 0) :
    actRevert [mask] s =
      match s.bank.revertRefusal (maskTables mask) with
      | some a => (a, s)
      | none => (.plain .ok (mask.setWidth 16), s.setBank (s.bank.revert (maskTables mask))) := by
  simp only [actRevert, byteBlock, withBlock, revertOf, if_neg hm] <;> rfl

/-- Settles O24. -/
theorem revertTaken : Obligations.RevertTaken := by
  refine ⟨fun s ch seq mask hs ht hm hstates => ?_, fun s ch seq mask t code hs ht hmt h => ?_⟩
  · have notLoading : (maskTables mask).find? (fun t => s.bank.states[t].isLoading) = none :=
      find_loading_none (fun u hu h => by obtain hst | hst | hst := hstates u hu <;> rw [hst] <;> exact nofun)
    have notArmed : (maskTables mask).find? (fun t => s.bank.states[t] == .armed) = none :=
      find_maskTables_none (fun u hu => by obtain hst | hst | hst := hstates u hu <;> rw [hst] <;> rfl)
    have act : actRevert [mask] (s.touch ch) =
        (.plain .ok (mask.setWidth 16), (s.touch ch).setBank (s.bank.revert (maskTables mask))) := by
      have passes : (s.touch ch).bank.revertRefusal (maskTables mask) = none := by
        rw [show (s.touch ch).bank = s.bank from rfl, Bank.revertRefusal, notLoading, notArmed]
        rfl
      rw [actRevert_of_mask hm, passes] <;> rfl
    refine ⟨_, exec_of_bank (i := .revert ch seq [mask]) hs ht rfl act rfl, ?_⟩
    simp only [Bank.revert, Bank.setStates_kept, Bank.setStates_states, Bank.restore_kept, Bank.restore_shadow,
      mem_maskTables, implies_true, and_self]
  · have hm : mask ≠ 0 := by
      rintro rfl
      simp at hmt
    have refusal : (s.touch ch).bank.revertRefusal (maskTables mask) = some (.plain code (tableExtra t)) ∧
        code.counted = false := by
      rw [show (s.touch ch).bank = s.bank from rfl, Bank.revertRefusal]
      obtain ⟨hload, hlow, rfl⟩ | ⟨hload, harmed, hlow, rfl⟩ := h
      · rw [find_loading_some hmt hload hlow]
        exact ⟨rfl, rfl⟩
      · have first : (maskTables mask).find? (fun t => s.bank.states[t] == .armed) = some t :=
          find_maskTables hmt (beq_iff_eq.2 harmed) (fun u hu hmu => beq_eq_false_iff_ne.2 (hlow u hu hmu))
        rw [find_loading_none hload, first]
        exact ⟨rfl, rfl⟩
    have act : actRevert [mask] (s.touch ch) = (.plain code (tableExtra t), s.touch ch) := by
      rw [actRevert_of_mask hm, refusal.1]
    exact exec_of_refuses (i := .revert ch seq [mask]) hs ht ⟨_, rfl, act⟩
      (fun hc => by rw [refusal.2] at hc; cases hc)

end Sys2Proof.Machine
end

section
/-! SUPPORT. READ, STATUS and SET_PARAM (R70, R102 to R108, R122, R188). -/

namespace Sys2Proof.Machine

/-! ## READ -/

/-- A request after which nothing differs but its channel and the return queue. -/
theorem exec_of_answer {s : State} {i : Instr} {ch : Channel} {seq : Bool} {kind : Byte} {act : State → Answer × State}
    {extra : Half} {data : List Byte} (hs : s.steady) (ht : s.takes ch seq)
    (hi : effectOf i = some (·.deliver ch seq kind act)) (ha : act (s.touch ch) = (⟨.ok, extra, data⟩, s.touch ch)) :
    exec i s = .next
      (s.answered ch (s.channels[ch].replied ⟨seq, kind, .ok, extra, data⟩) ⟨seq, kind, .ok, extra, data⟩) :=
  exec_of_bank (bank := s.bank) hs ht hi ha rfl

/-- A plane field names its plane (R59). -/
theorem planeOf_of_plane {field : Byte} {plane : Fin 4} (h : field.toNat = plane.val) : planeOf field = some plane := by
  simp only [planeOf, h, plane.isLt, dif_pos, Fin.eta]

/-- A READ whose target, selector, length and range pass is answered with the bytes it names (R102). -/
theorem actRead_of_bytes {s : State} {payload : List Byte} {b : ReadBlock} {bytes : List Byte}
    (hb : readBlock payload = some b) (ht : readTargetValid b = true) (hl : ¬(b.length = 0 ∨ 64 < b.length))
    (hr : readBytes s b = some bytes) : actRead payload s = (⟨.ok, b.length.setWidth 16, bytes⟩, s) := by
  simp only [actRead, hb, withBlock, readAnswer, ht, if_neg hl, hr, Bool.not_true, Bool.false_eq_true, if_false]

/-- Settles O27: the bytes by the target, and the refusals by the first check that fails. -/
theorem readTaken : Obligations.ReadTaken := by
  refine ⟨fun s ch seq payload b bytes hs ht hb h1 h64 h => ?_, fun s ch seq payload b code hs ht hb hl h => ?_⟩
  · have length : ¬(b.length = 0 ∨ 64 < b.length) := by
      rw [readLength_iff]
      omega
    have named : readTargetValid b = true ∧ readBytes (s.touch ch) b = some bytes := by
      obtain ⟨t, target, selector, inside, rfl⟩ | ⟨plane, target, field, inside, rfl⟩ | ⟨target, inside, rfl⟩ := h
      · refine ⟨readTargetValid_iff.2 ⟨by omega, fun _ => selector⟩, ?_⟩
        rw [readBytes_table _ target, if_pos inside]
        rfl
      · refine ⟨readTargetValid_iff.2 ⟨by simp [target], by simp [target]⟩, ?_⟩
        rw [readBytes_store _ target, planeOf_of_plane field]
        exact if_pos inside
      · refine ⟨readTargetValid_iff.2 ⟨by simp [target], by simp [target]⟩, ?_⟩
        rw [readBytes_runtime _ target]
        exact if_pos inside
    exact exec_of_answer (i := .read ch seq payload) hs ht rfl (actRead_of_bytes hb named.1 length named.2)
  · exact exec_of_refuses hs ht ⟨_, rfl, (actRead_of_readError hb h).1⟩ (fun _ => hl)

/-! ## The status summary and the runtime area -/

/-- The entries of a vector of eight, in order. -/
theorem toList_eight {α : Type} (v : Vector α 8) :
    v.toList = [v[0], v[1], v[2], v[3], v[4], v[5], v[6], v[7]] := by
  obtain ⟨⟨l⟩, size⟩ := v
  match l, size with
  | [_, _, _, _, _, _, _, _], _ => rfl

/-- The entries of a vector of four, in order. -/
theorem toList_four {α : Type} (v : Vector α 4) : v.toList = [v[0], v[1], v[2], v[3]] := by
  obtain ⟨⟨l⟩, size⟩ := v
  match l, size with
  | [_, _, _, _], _ => rfl

/-- The commit record takes four bytes of the summary. -/
theorem recordSummary_eq (r : Option Commit) :
    recordSummary r = [(recordSummary r).getD 0 0, (recordSummary r).getD 1 0, (recordSummary r).getD 2 0,
      (recordSummary r).getD 3 0] := by
  obtain _ | ⟨_, _ | _, _⟩ := r <;> rfl

/-- The 28 bytes of the summary, each at its place (R188). -/
theorem statusSummary_eq (s : State) :
    statusSummary s =
      [BitVec.ofNat 8 s.tracker.state.code, BitVec.ofNat 8 s.framer.mode.code] ++ halfBytes s.framer.n ++
      wordBytes s.framer.f ++
      [BitVec.ofNat 8 s.bank.states[0].code, BitVec.ofNat 8 s.bank.states[1].code, BitVec.ofNat 8 s.bank.states[2].code,
       BitVec.ofNat 8 s.bank.states[3].code, BitVec.ofNat 8 s.bank.states[4].code, BitVec.ofNat 8 s.bank.states[5].code,
       BitVec.ofNat 8 s.bank.states[6].code, BitVec.ofNat 8 s.bank.states[7].code] ++
      [(recordSummary s.bank.record).getD 0 0, (recordSummary s.bank.record).getD 1 0,
       (recordSummary s.bank.record).getD 2 0, (recordSummary s.bank.record).getD 3 0] ++
      [BitVec.ofNat 8 s.channels[0].state.code, BitVec.ofNat 8 s.channels[1].state.code,
       BitVec.ofNat 8 s.channels[2].state.code, BitVec.ofNat 8 s.channels[3].state.code] ++
      [BitVec.ofNat 8 s.rtq.lost, BitVec.ofNat 8 s.tracker.faultyFrames, failingMask s.checker.records,
       fillSummary s.store.fill] := by
  rw [← recordSummary_eq, statusSummary, toList_eight, toList_four]
  rfl

/-- A sum of the powers of two of the indices below n that pass a test has their bits, and no others. -/
theorem testBit_sum_powers (p : Nat → Bool) (n : Nat) :
    (List.range n).foldl (fun m i => if p i then m + 2 ^ i else m) 0 < 2 ^ n ∧
      ∀ k, ((List.range n).foldl (fun m i => if p i then m + 2 ^ i else m) 0).testBit k = (decide (k < n) && p k) := by
  induction n with
  | zero => simp
  | succ n ih =>
    obtain ⟨small, bits⟩ := ih
    rw [List.range_succ, List.foldl_append, List.foldl_cons, List.foldl_nil]
    generalize (List.range n).foldl (fun m i => if p i then m + 2 ^ i else m) 0 = m at small bits
    cases hp : p n with
    | false =>
      rw [if_neg (by simp)]
      refine ⟨by omega, fun k => ?_⟩
      rw [bits]
      obtain below | rfl | above := Nat.lt_trichotomy k n
      · simp [below, Nat.lt_succ_of_lt below]
      · simp [hp]
      · simp [show ¬k < n by omega, show ¬k < n + 1 by omega]
    | true =>
      rw [if_pos rfl]
      refine ⟨by omega, fun k => ?_⟩
      have split : m + 2 ^ n = 2 ^ n * 1 + m := by omega
      rw [split, Nat.testBit_two_pow_mul_add 1 small, bits]
      obtain below | rfl | above := Nat.lt_trichotomy k n
      · simp [below, Nat.lt_succ_of_lt below]
      · simp [hp]
      · have one : Nat.testBit 1 (k - n) = false := Nat.testBit_lt_two_pow (Nat.one_lt_two_pow (by omega))
        simp [show ¬k < n by omega, show ¬k < n + 1 by omega, one]

/-- Bit i of the failing-checks mask says whether check i is FAILING (R105). -/
theorem failingMask_getLsbD (records : Vector CheckRecord 8) (k : Fin 8) :
    (failingMask records).getLsbD k.val = (records[k].status == .failing) := by
  have indexed : (List.finRange 8).foldl (fun m i => if records[i].failing then m + 2 ^ i.val else m) 0 =
      (List.range 8).foldl (fun m i => if (records[i]?.any CheckRecord.failing) then m + 2 ^ i else m) 0 := rfl
  rw [failingMask, indexed, BitVec.getLsbD_ofNat, (testBit_sum_powers _ 8).2]
  simp [CheckRecord.failing]

/-- A delivery to a channel clears its idle frames, and changes no other field of any channel (R95). -/
theorem State.touch_channels (s : State) (ch k : Channel) :
    (s.touch ch).channels[k] =
      { s.channels[k] with idleFrames := if k = ch then 0 else s.channels[k].idleFrames } := by
  rw [State.touch_eq, State.setChannels_channels, getElem_set_channel]
  split_ifs with h
  · rw [h]
  · rfl

/-- The bytes of a 32-bit field, low byte first, are read back as the field. -/
theorem word_wordBytes (w : Word) :
    word (w.extractLsb' 0 8) (w.extractLsb' 8 8) (w.extractLsb' 16 8) (w.extractLsb' 24 8) = w := by
  unfold word
  apply BitVec.eq_of_getLsbD_eq
  intro i hi
  simp only [BitVec.getLsbD_append, BitVec.getLsbD_extractLsb']
  by_cases h8 : i < 8
  · simp [h8]
  by_cases h16 : i < 16
  · simp [h8, show i - 8 < 8 by omega, show 8 + (i - 8) = i by omega]
  by_cases h24 : i < 24
  · simp [h8, show ¬i - 8 < 8 by omega, show i - 8 - 8 < 8 by omega, show 16 + (i - 8 - 8) = i by omega]
  · simp [h8, show ¬i - 8 < 8 by omega, show ¬i - 8 - 8 < 8 by omega, show i - 8 - 8 - 8 < 8 by omega,
      show 24 + (i - 8 - 8 - 8) = i by omega]

/-- A STATUS is answered with the summary of the part as the packet finds it (R105). -/
theorem exec_status {s : State} {ch : Channel} {seq : Bool} (hs : s.steady) (ht : s.takes ch seq) :
    exec (.status ch seq []) s = .next
      (s.answered ch (s.channels[ch].replied ⟨seq, 0x09, .ok, 0, statusSummary s⟩) ⟨seq, 0x09, .ok, 0, statusSummary s⟩) := by
  have states : (s.touch ch).channels.toList.map (fun c => BitVec.ofNat 8 c.state.code) =
      s.channels.toList.map (fun c => BitVec.ofNat 8 c.state.code) := by
    rw [← Vector.toList_map, ← Vector.toList_map]
    refine congrArg Vector.toList (Vector.ext fun i hi => ?_)
    rw [Vector.getElem_map, Vector.getElem_map]
    have same : (s.touch ch).channels[(⟨i, hi⟩ : Channel)].state = s.channels[(⟨i, hi⟩ : Channel)].state := by
      rw [State.touch_channels]
    exact congrArg (fun st : ChannelState => BitVec.ofNat 8 st.code) same
  have summary : statusSummary (s.touch ch) = statusSummary s := by
    simp only [statusSummary, states]
    rfl
  exact exec_of_answer (i := .status ch seq []) hs ht rfl (act := actStatus [])
    (by rw [← summary]; rfl)

/-- The 15 bytes of a runtime record, its codes and flags written out (R188). -/
theorem CheckRecord.bytes_eq (r : CheckRecord) :
    r.bytes =
      [(match r.status with
        | .off => 0
        | .learning => 1
        | .passing => 2
        | .failing => 3),
       BitVec.ofNat 8 r.mismatches,
       (if r.learnedAFlag then 1 else 0) + (if r.learnedBFlag then 2 else 0)] ++
        wordBytes r.observed ++ wordBytes r.learnedA ++ wordBytes r.learnedB := by
  obtain ⟨status, _, a, b, _, _, _⟩ := r
  cases status <;> cases a <;> cases b <;> rfl

/-- Record k of the runtime area stands at 15 k (R104, R188). -/
theorem runtimeArea_record (records : Vector CheckRecord 8) (k : Fin 8) :
    ((runtimeArea records).drop (15 * k.val)).take 15 = records[k].bytes := by
  rw [runtimeArea, toList_eight]
  fin_cases k <;> rfl

/-- Settles O28. -/
theorem statusAnswered : Obligations.StatusAnswered := by
  refine ⟨fun s ch seq hs ht => ⟨statusSummary s, exec_status hs ht, ?_⟩, fun records k => ⟨?_, ?_⟩⟩
  · rw [statusSummary_eq]
    refine ⟨rfl, ?_, ?_, half_halfBytes _, ?_, fun t => ?_, ?_, fun k => ?_, rfl, rfl, fun k => failingMask_getLsbD _ k, ?_⟩
    · cases s.tracker.state <;> rfl
    · cases s.framer.mode <;> rfl
    · exact word_wordBytes _
    · refine Eq.trans (b := BitVec.ofNat 8 s.bank.states[t].code) (by fin_cases t <;> rfl) ?_
      cases s.bank.states[t] <;> rfl
    · obtain _ | ⟨_, _ | target, tag⟩ := s.bank.record
      · exact ⟨rfl, rfl, rfl, rfl⟩
      · exact ⟨rfl, rfl, rfl, rfl⟩
      · exact ⟨rfl, half_halfBytes target, rfl⟩
    · refine Eq.trans (b := BitVec.ofNat 8 s.channels[k].state.code) (by fin_cases k <;> rfl) ?_
      cases s.channels[k].state <;> rfl
    · cases s.store.fill <;> rfl
  · rw [runtimeArea, toList_eight]
    rfl
  · exact (runtimeArea_record records k).trans (CheckRecord.bytes_eq _)

/-! ## SET_PARAM -/

/-- A parameter holds what it is set to, and the others what they held (R107). -/
theorem Params.get_set (q : Params) (p p' : ParamId) (v : Nat) (h : v ≤ p.greatest) :
    (q.set p v).get p' = if p' = p then v else q.get p' := by
  have mask : p = .eventMask → v % 2 ^ 11 = v := by
    rintro rfl
    exact Nat.mod_eq_of_lt (Nat.lt_succ_of_le h)
  cases p <;> cases p' <;> simp_all [Params.set, Params.get]

/-- A value in its parameter's range is taken (R107, R108). -/
theorem setParamOf_inside {s : State} {id : Byte} {v : Half} {p : ParamId} (hp : paramOf id = some p)
    (h1 : p.least ≤ v.toNat) (h2 : v.toNat ≤ p.greatest) :
    setParamOf s (id, v) = (.plain .ok (BitVec.ofNat 16 (s.params.get p)), s.setParam p v.toNat) := by
  simp only [setParamOf, hp, if_pos (And.intro h1 h2)]

/-- The parameter set, with the expiry of the loss timer marked as due when the loss time is now up (R122). -/
theorem State.setParam_eq (s : State) (p : ParamId) (v : Nat) :
    s.setParam p v =
      if p = .lossMultiple ∧ (s.setParams (s.params.set p v)).lossTimeUp = true then
        (s.setParams (s.params.set p v)).setTracker { s.tracker with expiryDue := true }
      else s.setParams (s.params.set p v) := by
  unfold State.setParam State.checkLoss
  by_cases hp : p = .lossMultiple
  · by_cases hl : (s.setParams (s.params.set p v)).lossTimeUp = true
    · simp only [if_pos hp, if_pos hl, if_pos (And.intro hp hl)]
      rfl
    · simp only [if_pos hp, if_neg hl, if_neg (fun h : _ ∧ _ => hl h.2)]
  · simp only [if_neg hp, if_neg (fun h : _ ∧ _ => hp h.1)]

/-- Settles O29. -/
theorem setParamTaken : Obligations.SetParamTaken := by
  refine ⟨⟨fun s ch seq payload id v p hs ht hb h => ?_, Params.get_set⟩,
    fun s ch seq payload id v extra hs ht hb hl h => ?_⟩
  · intro r u
    have named : paramOf id = some p ∧ p.least ≤ v.toNat ∧ v.toNat ≤ p.greatest := by
      obtain ⟨rfl, rfl, h1, h2⟩ | ⟨rfl, rfl, h1, h2⟩ | ⟨rfl, rfl, h1, h2⟩ | ⟨rfl, rfl, h1, h2⟩ | ⟨rfl, rfl, h1, h2⟩ |
        ⟨rfl, rfl, h2⟩ := h
      case inr.inr.inr.inr.inr => exact ⟨rfl, Nat.zero_le _, h2⟩
      all_goals exact ⟨rfl, h1, h2⟩
    obtain ⟨hp, h1, h2⟩ := named
    have act : actSetParam payload (s.touch ch) =
        (.plain .ok (BitVec.ofNat 16 (s.params.get p)), (s.touch ch).setParam p v.toNat) := by
      rw [actSetParam, hb]
      exact setParamOf_inside hp h1 h2
    rw [State.setParam_eq] at act
    have loss : ((s.touch ch).setParams ((s.touch ch).params.set p v.toNat)).lossTimeUp = u.lossTimeUp := rfl
    rw [loss] at act
    by_cases due : p = .lossMultiple ∧ u.lossTimeUp = true
    · rw [if_pos due] at act ⊢
      exact exec_of_acted (i := .setParam ch seq payload) hs ht rfl (w := u.setTracker { s.tracker with expiryDue := true })
        act rfl rfl nofun
    · rw [if_neg due] at act ⊢
      exact exec_of_acted (i := .setParam ch seq payload) hs ht rfl (w := u) act rfl rfl nofun
  · exact exec_of_refuses hs ht ⟨_, rfl, actSetParam_of_paramError hb (State.paramError_touch.2 h)⟩ (fun _ => hl)

end Sys2Proof.Machine
end

section
/-! SUPPORT. The management RESET (R99, R111 to R114): what both scopes leave. -/

namespace Sys2Proof.Machine

/-! ## Scope CHANNELS -/

/-- A channel as a management RESET leaves it (R99): IDLE, without a load, its counts 0. -/
def ChannelContext.reset (c : ChannelContext) : ChannelContext :=
  { c with state := .idle, target := none, errors := 0, idleFrames := 0 }

/-- Scope CHANNELS on a delivery to channel ch (R112): the channels, the bank, the store and the queue. -/
theorem State.resetAllChannels_at (s : State) (ch : Channel) :
    (∀ k : Channel, (s.touch ch).resetAllChannels.channels[k] = s.channels[k].reset) ∧
    (∀ u : TableId, (s.touch ch).resetAllChannels.bank.states[u] =
      if ∃ k : Channel, Target.tableOf s.channels[k].target = some u then .partialLoad else s.bank.states[u]) ∧
    (s.touch ch).resetAllChannels.bank.shadow = s.bank.shadow ∧
    (s.touch ch).resetAllChannels.bank.active = s.bank.active ∧
    (s.touch ch).resetAllChannels.bank.record = s.bank.record ∧
    (s.touch ch).resetAllChannels.rtq = s.rtq.removeReplies ∧
    (s.touch ch).resetAllChannels.store = { s.store with fill := none } := by
  obtain ⟨channels, states, shadow, active, record, rtq⟩ :=
    resetChannel_fold_at allChannels (by decide) (s.touch ch).stopFill
  have stopped : (s.touch ch).stopFill.channels = (s.touch ch).channels := by simp
  rw [stopped] at channels states
  refine ⟨fun k => ?_, fun u => ?_, shadow, active, record, ?_, ?_⟩
  · refine (channels k).trans ?_
    rw [if_pos (mem_allChannels k), State.touch_channels]
    rfl
  · refine (states u).trans ?_
    simp only [mem_allChannels, true_and, State.touch_channels]
    rfl
  · exact congrArg Rtq.removeReplies rtq
  · simp [State.resetAllChannels, allChannels, State.stopFill]

/-- A reply joins the list as its newest entry, where none of its channel waits (R171). -/
theorem Rtq.handOver_joins {q : Rtq} {ch : Channel} (h : ∀ e ∈ q.entries, e.isReplyOf ch = false) (r : Reply) :
    q.handOver ch r = { q with entries := q.entries ++ [.reply ch r] } := by
  have none : ¬q.entries.any (Entry.isReplyOf ch) = true := by
    rw [Bool.not_eq_true, List.any_eq_false]
    exact fun e he => Bool.eq_false_iff.1 (h e he)
  rw [Rtq.handOver, if_neg none]

/-- A reply handed over by a queue in which no reply waits (R114). -/
theorem Rtq.handOver_of_noReply {q : Rtq} (h : q.entries.any Entry.isReply = false) (ch : Channel) (r : Reply) :
    q.handOver ch r = { q with entries := q.entries ++ [.reply ch r] } := by
  refine Rtq.handOver_joins (fun e he => ?_) r
  have event := List.any_eq_false.1 h e he
  cases e with
  | reply c r => exact absurd rfl event
  | event e => rfl

/-- No reply waits once the waiting replies are removed (R112). -/
theorem Rtq.removeReplies_noReply (q : Rtq) : q.removeReplies.entries.any Entry.isReply = false := by
  rw [List.any_eq_false]
  intro e he
  have := (List.mem_filter.1 he).2
  simpa [Entry.isEvent] using this

/-- The reply to a RESET leaves its own channel in IDLE, with the sequence bit toggled. -/
theorem State.answered_reset {u s : State} {ch : Channel} {r : Reply} (hr : r.code = .ok)
    (h : ∀ k : Channel, u.channels[k] = s.channels[k].reset) (k : Channel) :
    (u.answered ch (u.channels[ch].answered r) r).channels[k] =
      if k = ch then
        { s.channels[k] with
          state := .idle, target := none, errors := 0, idleFrames := 0, expected := !s.channels[k].expected, last := r }
      else { s.channels[k] with state := .idle, target := none, errors := 0, idleFrames := 0 } := by
  have set : (u.answered ch (u.channels[ch].answered r) r).channels[k] =
      if k = ch then u.channels[ch].answered r else u.channels[k] := getElem_set_channel ..
  rw [set, h, h]
  split_ifs with hk
  · rw [hk, ChannelContext.answered, hr]
    rfl
  · rfl

/-- Settles O30. -/
theorem resetChannelsEffect : Obligations.ResetChannelsEffect := by
  intro s ch seq hs ht
  refine ⟨?_, fun scope h2 hl => exec_of_refuses hs ht ⟨_, rfl, actReset_of_unknown h2⟩ (fun _ => hl)⟩
  intro r
  obtain ⟨channels, states, shadow, active, record, rtq, store⟩ := s.resetAllChannels_at ch
  obtain ⟨-, power, tracker, params, timeouts, framer, plan, checker, free⟩ := (s.touch ch).resetAllChannels_kept
  generalize hu : (s.touch ch).resetAllChannels = u at *
  have act : actReset [0] (s.touch ch) = (.plain .ok 0, u) := by rw [← hu]; rfl
  refine ⟨u.answered ch (u.channels[ch].answered r) r, ?_, State.answered_reset rfl channels, shadow, active, record,
    fun t => ⟨fun h => ?_, fun h => ?_⟩, store, ?_, tracker, params, framer, plan, checker, power, timeouts, free⟩
  · rw [exec_of_effectOf (c := .resetChannels ch seq [0]) rfl,
      State.operate_deliver_of_waiting hs ch seq 0x0B _ ht _ act (by rw [tracker]; rfl) (by rw [framer]; rfl) nofun]
    rfl
  · exact (states t).trans (if_pos h)
  · exact (states t).trans (if_neg (by simpa using h))
  · refine congrArg Rtq.arbitrate ?_
    rw [rtq, Rtq.handOver_of_noReply s.rtq.removeReplies_noReply]
    rfl

/-! ## Scope STATE -/

/-- Scope STATE before the tracker goes to SEARCH (R113): scope CHANNELS, then bank, checks, events and parameters. -/
def State.resetBlocks (s : State) : State :=
  (((s.resetAllChannels.setBank s.resetAllChannels.bank.resetState).setChecker
    (s.resetAllChannels.checker.runtimeReset s.resetAllChannels.bank.resetState.active)).setRtq
    s.resetAllChannels.rtq.removeEvents).setParams .default

/-- Scope STATE ends with the tracker's entry into SEARCH (R113). -/
theorem State.resetManagement_eq (s : State) : s.resetManagement = s.resetBlocks.loseStream .reset := rfl

/-- The table bank after scope STATE (R52, R113). -/
theorem Bank.resetState_at (b : Bank) :
    b.resetState.active = b.active ∧ b.resetState.record = none ∧
      ∀ u : TableId, b.resetState.shadow[u] = b.active[u] ∧ b.resetState.states[u] = .clean := by
  obtain ⟨shadow, active, -⟩ := Bank.setStates_kept (b.restore allTables) allTables .clean
  have states := Bank.setStates_states (b.restore allTables) allTables .clean
  unfold Bank.resetState
  generalize (b.restore allTables).setStates allTables .clean = cleaned at *
  refine ⟨active, rfl, fun u => ⟨?_, ?_⟩⟩
  · dsimp only
    rw [shadow, Bank.restore_shadow, if_pos (mem_allTables u)]
  · dsimp only
    rw [states, if_pos (mem_allTables u)]

/-- No entry waits once replies and events are removed (R112, R181). -/
theorem Rtq.removeReplies_removeEvents (q : Rtq) :
    q.removeReplies.removeEvents = { q with entries := [], lost := 0, lostInFlight := 0 } := by
  have none : (q.entries.filter Entry.isEvent).filter Entry.isReply = [] := by
    rw [List.filter_filter, List.filter_eq_nil_iff]
    intro e _
    simp [Entry.isEvent]
  simp only [Rtq.removeReplies, Rtq.removeEvents, none]

/-- What the tracker's way to SEARCH does to tracker, queue, framer and check plans (R119, R136, R147, R148), while no start
of an upstream frame is due in FALLBACK mode. -/
theorem State.loseStream_effect (s : State) (cause : LostCause)
    (h : s.framer.mode = .fallback → s.framer.due ≠ some .upstream) :
    (s.loseStream cause).tracker = s.tracker.cleared ∧
    (s.loseStream cause).rtq =
      (if s.tracker.state = .locked then s.reported s.rtq .streamLost cause.byte else s.rtq) ∧
    (s.loseStream cause).framer =
      (if s.tracker.state = .locked then
        match s.framer.mode, s.framer.frame with
        | .fallback, _ => { s.framer with switchBack := false }
        | .pass, none => { s.framer with mode := .fallback, switchBack := false, due := some .entry }
        | .pass, some f =>
          if f.height ≤ f.lines + s.framer.handed.length then { s.framer with due := some .entry }
          else
            { s.framer with
              mode := .fallback, switchBack := false, due := some .entry, frame := none, handed := []
              linkOut := s.framer.linkOut ++ [.frameEnd f.n f.lines true] }
       else s.framer) ∧
    (s.loseStream cause).checker.records = s.checker.records ∧ (s.loseStream cause).checker.pin = s.checker.pin ∧
    (s.loseStream cause).checker.plans =
      (if s.tracker.state = .locked ∧ s.framer.mode = .pass ∧
          s.framer.frame.any (fun f => decide (f.lines + s.framer.handed.length < f.height)) = true then
        #v[none, none, none, none, none, none, none, none]
       else s.checker.plans) := by
  by_cases hl : s.tracker.state = .locked
  case neg =>
    have calm : s.loseStream cause = s.setTracker s.tracker.cleared := by
      unfold State.loseStream
      split
      · contradiction
      · rfl
      · rfl
    rw [calm, if_neg hl, if_neg hl, if_neg (fun h => hl h.1)]
    exact ⟨rfl, rfl, rfl, rfl, rfl, rfl⟩
  rw [if_pos hl, if_pos hl]
  cases hm : s.framer.mode with
  | fallback =>
    rw [State.loseStream_fallback s cause hl hm, if_neg (h hm), if_neg (fun h => by cases h.2.1)]
    exact ⟨rfl, rfl, rfl, rfl, rfl, rfl⟩
  | pass =>
    cases hf : s.framer.frame with
    | none =>
      rw [State.loseStream_between s cause hl hm hf, if_neg (fun h => by cases h.2.2)]
      exact ⟨rfl, rfl, rfl, rfl, rfl, rfl⟩
    | some f =>
      by_cases handed : f.height ≤ f.lines + s.framer.handed.length
      · rw [State.loseStream_handed s cause f hl hm hf handed,
          if_neg (fun h => by simp at h; omega)]
        exact ⟨rfl, rfl, (if_pos handed).symm, rfl, rfl, rfl⟩
      · rw [State.loseStream_cut s cause f hl hm hf handed, if_pos ⟨hl, rfl, by simp; omega⟩]
        exact ⟨rfl, rfl, (if_neg handed).symm, rfl, rfl, rfl⟩

/-- The blocks but the tracker, after scope STATE on a delivery to channel ch (R113, R181). -/
theorem State.resetBlocks_at (s : State) (ch : Channel) :
    (∀ k : Channel, (s.touch ch).resetBlocks.channels[k] = s.channels[k].reset) ∧
    (s.touch ch).resetBlocks.bank.active = s.bank.active ∧ (s.touch ch).resetBlocks.bank.record = none ∧
    (∀ u : TableId, (s.touch ch).resetBlocks.bank.shadow[u] = s.bank.active[u] ∧
      (s.touch ch).resetBlocks.bank.states[u] = .clean) ∧
    (s.touch ch).resetBlocks.checker = s.checker.runtimeReset s.bank.active ∧
    (s.touch ch).resetBlocks.rtq = { s.rtq with entries := [], lost := 0, lostInFlight := 0 } ∧
    (s.touch ch).resetBlocks.store = { s.store with fill := none } ∧
    (s.touch ch).resetBlocks.params = .default ∧ (s.touch ch).resetBlocks.tracker = s.tracker ∧
    (s.touch ch).resetBlocks.framer = s.framer := by
  obtain ⟨channels, -, -, active, -, rtq, store⟩ := s.resetAllChannels_at ch
  obtain ⟨-, -, tracker, -, -, framer, -, checker, -⟩ := (s.touch ch).resetAllChannels_kept
  obtain ⟨resetActive, record, tables⟩ := (s.touch ch).resetAllChannels.bank.resetState_at
  unfold State.resetBlocks
  generalize (s.touch ch).resetAllChannels = u at *
  generalize u.bank.resetState = bank at *
  rw [active] at resetActive tables
  refine ⟨channels, resetActive, record, tables, ?_, ?_, store, rfl, tracker, framer⟩
  · exact congr (congrArg Checker.runtimeReset checker) resetActive
  · exact (congrArg Rtq.removeEvents rtq).trans s.rtq.removeReplies_removeEvents

/-- The queue after a reported STREAM_LOST, with an empty list and every event enabled (R110, R173). -/
theorem State.reported_streamLost {s : State} (q : Rtq) (hp : s.params = .default) (he : q.entries = []) :
    s.reported q .streamLost LostCause.reset.byte =
      { q with entries := [.event ⟨.streamLost, 3, 1, s.framer.n, s.framer.n⟩] } := by
  have enabled : s.params.eventMask.getLsbD EventKind.streamLost.bit = true := by
    rw [hp]
    rfl
  rw [State.reported, if_pos enabled]
  simp [Rtq.raise, he, eventPlaces, LostCause.byte]

/-- Settles O31. -/
theorem resetStateEffect : Obligations.ResetStateEffect := by
  intro s ch seq hs ht r
  obtain ⟨channels, active, record, tables, checker, rtq, store, params, tracker, framer⟩ := s.resetBlocks_at ch
  obtain ⟨-, power, timeouts, plan, free⟩ := (s.touch ch).resetManagement_kept
  have calm : (s.touch ch).resetBlocks.framer.mode = .fallback → (s.touch ch).resetBlocks.framer.due ≠ some .upstream := by
    rw [framer]
    exact State.due_of_settled_fallback hs.2.1
  obtain ⟨lostTracker, lostRtq, lostFramer, lostRecords, lostPin, lostPlans⟩ :=
    (s.touch ch).resetBlocks.loseStream_effect .reset calm
  obtain ⟨-, -, lostParams, lostChannels, -, lostBank, lostStore, -, -⟩ := (s.touch ch).resetBlocks.loseStream_kept .reset
  obtain ⟨records, pin, plans⟩ := s.checker.runtimeReset_at s.bank.active
  rw [tracker, framer] at lostFramer lostPlans
  rw [tracker] at lostTracker lostRtq
  rw [checker] at lostRecords lostPin lostPlans
  rw [← State.resetManagement_eq] at *
  generalize hu : (s.touch ch).resetManagement = u at *
  have act : actReset [1] (s.touch ch) = (.plain .ok 1, u) := by rw [← hu]; rfl
  have taken : (s.deliver ch seq 0x0B (actReset [1])).arbitrate = u.answered ch (u.channels[ch].answered r) r := by
    rw [State.deliver_of_takes s ch seq 0x0B (actReset [1]) ht, act, State.finishTaken_of_kept _ _ _ _ _ (fun h => by cases h)]
    rfl
  refine ⟨u.answered ch (u.channels[ch].answered r) r, ?_, State.answered_reset rfl ?_, ?_, ?_, ?_, ?_, ?_, ?_, ?_, ?_,
    lostTracker, lostFramer, ?_, plan, power, timeouts, free⟩
  · rw [exec_of_effectOf (c := .resetState ch seq [1]) rfl, State.operate_of_steady hs, ← taken]
    rfl
  · rw [lostChannels]
    exact channels
  · exact (congrArg Bank.active lostBank).trans active
  · exact (congrArg Bank.record lostBank).trans record
  · intro t
    have bank : (u.answered ch (u.channels[ch].answered r) r).bank = (s.touch ch).resetBlocks.bank := lostBank
    rw [bank]
    exact tables t
  · exact lostStore.trans store
  · intro k
    have kept : (u.answered ch (u.channels[ch].answered r) r).checker.records = _ := lostRecords
    rw [kept]
    exact records k
  · exact lostPin.trans pin
  · refine congrArg Rtq.arbitrate ?_
    have reported := State.reported_streamLost (s := (s.touch ch).resetBlocks) (s.touch ch).resetBlocks.rtq params
      (by rw [rtq])
    have queue : u.rtq =
        { s.rtq with
          entries :=
            if s.tracker.state = .locked then [.event ⟨.streamLost, 3, 1, s.framer.n, s.framer.n⟩] else []
          lost := 0, lostInFlight := 0 } := by
      rw [lostRtq, reported, rtq, framer]
      split_ifs <;> rfl
    rw [Rtq.handOver_of_noReply, queue]
    rw [queue]
    split_ifs <;> rfl
  · exact lostParams.trans params
  · rw [plans] at lostPlans
    exact lostPlans

end Sys2Proof.Machine
end

section
/-! SUPPORT. Damaged packets, and the frame packets in SEARCH, in LOCKING and at the opening of an upstream frame (R116, R120, R121, R123). -/

namespace Sys2Proof.Machine

/-! ## Damaged and waiting packets -/

/-- A damaged packet discarded (R116): the event, and an open lock attempt broken. -/
theorem State.discardPacket_eq (s : State) (code : Byte) :
    s.discardPacket code =
      (s.setTracker
        (if s.tracker.state = .locking ∧ s.tracker.phase ≠ .noFrame then s.tracker.cleared else s.tracker)).setRtq
        (s.reported s.rtq .packetIntegrity (if code.toNat ≤ 4 then code else 0xFF)) := by
  have arg : integrityArg code = if code.toNat ≤ 4 then code else 0xFF := by
    have known : code ≤ 4 ↔ code.toNat ≤ 4 := BitVec.le_def
    simp only [integrityArg, known]
  rw [State.discardPacket, State.raise_eq, arg]
  have attempt : s.tracker.attemptOpen = true ↔ s.tracker.state = .locking ∧ s.tracker.phase ≠ .noFrame := by
    simp [Tracker.attemptOpen]
  by_cases attempted : s.tracker.state = .locking ∧ s.tracker.phase ≠ .noFrame
  · rw [if_pos attempted]
    exact if_pos (attempt.2 attempted)
  · rw [if_neg attempted]
    exact if_neg (mt attempt.1 attempted)

/-- Settles O35. -/
theorem damagedAndIdlePackets : Obligations.DamagedAndIdlePackets := by
  refine ⟨fun s code hs => ?_, fun s hs hk => ?_⟩
  · have waiting : (s.discardPacket code).tracker.waiting = s.tracker.waiting := by
      rw [State.discardPacket_eq]
      simp only [State.setRtq_tracker, State.setTracker_tracker]
      split_ifs <;> rfl
    have due : (s.discardPacket code).framer.due = s.framer.due := by
      rw [State.discardPacket_eq]
      rfl
    rw [exec_of_effectOf (c := .packetDiscard code) rfl, State.operate_of_steady_waits hs _ (State.waits_of_due hs waiting due),
      State.discardPacket_eq]
    rfl
  · rw [exec_of_effectOf (c := .idle) rfl, State.operate_of_kept hs _ rfl rfl]
    exact congrArg Host.Outcome.next (State.arbitrate_of_laneKept s hk)

/-- A frame packet that must wait joins the waiting ones (R123; assumption log 4). -/
theorem exec_framePacket_waits {s : State} {i : Instr} {p : FramePacket} (hs : s.steady) (hw : s.framesWait = true)
    (hi : effectOf i = some (·.arrive p)) :
    exec i s = .next (s.setTracker { s.tracker with waiting := s.tracker.waiting ++ [p] }).arbitrate := by
  have arrives : s.arrive p = s.setTracker { s.tracker with waiting := s.tracker.waiting ++ [p] } := by
    rw [State.arrive, hw]
    rfl
  have still : (s.setTracker { s.tracker with waiting := s.tracker.waiting ++ [p] }).framesWait = true := hw
  rw [exec_of_effectOf hi, State.operate_of_steady_waits hs _ (by rw [arrives, still, Bool.or_true]), arrives]

/-- A frame packet that need not wait is dealt with, and no packet waits after it (R117). -/
theorem exec_framePacket {s t : State} {i : Instr} {p : FramePacket} (hs : s.steady) (hw : s.framesWait = false)
    (hi : effectOf i = some (·.arrive p)) (hd : s.dealFrame p = t) (ht : t.tracker.waiting = s.tracker.waiting) :
    exec i s = .next t.arbitrate := by
  have now := State.arrive_now hs hw p
  rw [exec_of_effectOf hi, State.operate_of_nil hs _ (by rw [now, hd, ht, State.waiting_nil hs hw]), now, hd]

/-- A frame packet dealt with that leaves a queue of its own: the arbiter looks at that queue. -/
theorem exec_framePacket_reports {s w : State} {i : Instr} {p : FramePacket} {q : Rtq} (hs : s.steady)
    (hw : s.framesWait = false) (hi : effectOf i = some (·.arrive p)) (hd : s.dealFrame p = w.setRtq q)
    (ht : w.tracker.waiting = s.tracker.waiting) : exec i s = .next (w.setRtq q.arbitrate) :=
  exec_framePacket hs hw hi hd ht

/-- Settles O36. -/
theorem framePacketsInSearchOrWaiting : Obligations.FramePacketsInSearchOrWaiting := by
  intro s i p hs hi
  have arrival : effectOf i = some (·.arrive p) := by
    obtain ⟨_, rfl, rfl⟩ | ⟨_, _, rfl, rfl⟩ | ⟨_, _, _, rfl, rfl⟩ := hi <;> rfl
  refine ⟨fun hw => exec_framePacket_waits hs hw arrival, fun hw search => ?_⟩
  cases p with
  | start n =>
    refine exec_framePacket hs hw arrival ?_ rfl
    have notOpen : ¬(s.tracker.state = .locked ∧ s.tracker.phase = .receiving) := by
      rw [search]
      exact nofun
    rw [State.dealFrame, State.dealStart, if_neg notOpen, State.takeStartPacket, search]
    rfl
  | line number pixels =>
    refine exec_framePacket hs hw arrival ?_ rfl
    simp only [State.dealFrame, State.dealLine, search]
  | ending n count flags =>
    refine exec_framePacket hs hw arrival ?_ rfl
    simp only [State.dealFrame, State.dealEnd, search]

/-! ## LOCKING -/

/-- A conforming frame below the lock count (R121). -/
theorem State.conformingFrame_below {s : State} (h : s.tracker.conforming + 1 < s.params.lockCount) :
    s.conformingFrame = s.setTracker { s.tracker with conforming := s.tracker.conforming + 1, phase := .noFrame } :=
  if_neg (Nat.not_le.2 h)

/-- The conforming frame that brings the count to the lock count locks the tracker (R121, R149). -/
theorem State.conformingFrame_locks {s : State} (h : s.params.lockCount ≤ s.tracker.conforming + 1) :
    s.conformingFrame =
      ((s.setTracker
        { s.tracker with
          state := .locked, phase := .noFrame, conforming := s.tracker.conforming + 1, faultyFrames := 0 }).setFramer
        { s.framer with switchBack := s.framer.switchBack || s.framer.mode == .fallback }).setRtq
        (s.reported s.rtq .streamLocked 0) := by
  refine (if_pos h).trans ?_
  rw [State.lock, State.raise_eq]
  rfl

/-- A FRAME_START in LOCKING (R121). -/
theorem State.dealStart_locking {s : State} (hl : s.tracker.state = .locking) (n : Half) :
    s.dealStart n =
      s.setTracker
        (if s.tracker.phase = .noFrame then
          { s.tracker with phase := .receiving, expected := 0, upstreamN := n, lossTimer := some 0, expiryDue := false }
         else s.tracker.cleared) := by
  have notOpen : ¬(s.tracker.state = .locked ∧ s.tracker.phase = .receiving) := by
    rw [hl]
    exact nofun
  rw [State.dealStart, if_neg notOpen]
  by_cases hp : s.tracker.phase = .noFrame
  · have next : s.takeStartPacket n = s.setTracker (s.tracker.nextLockingFrame n) := by
      simp only [State.takeStartPacket, hl, hp]
    rw [if_pos hp, next]
    rfl
  · rw [if_neg hp]
    simp only [State.takeStartPacket, hl]
    cases h : s.tracker.phase with
    | noFrame => exact absurd h hp
    | receiving => rfl
    | complete => rfl

/-- A LINE in LOCKING (R121). -/
theorem State.dealLine_locking {s : State} (hl : s.tracker.state = .locking) (number : Half) (pixels : List Pixel) :
    s.dealLine number pixels =
      s.setTracker
        (if s.tracker.phase = .receiving ∧ number.toNat = s.tracker.expected ∧ pixels.length = s.format.width then
          { s.tracker with
            expected := number.toNat + 1
            phase := if number.toNat + 1 = s.format.height then .complete else .receiving }
         else s.tracker.cleared) := by
  simp only [State.dealLine, hl, State.lineInLocking]
  split_ifs <;> rfl

/-- A FRAME_END in LOCKING (R121). -/
theorem State.dealEnd_locking {s : State} (hl : s.tracker.state = .locking) (count : Half) :
    s.dealEnd count =
      if s.tracker.phase = .complete ∧ count.toNat = s.format.height then s.conformingFrame
      else s.setTracker s.tracker.cleared := by
  simp only [State.dealEnd, hl]
  rfl

/-- Settles O37. -/
theorem lockingMeasuresFrames : Obligations.LockingMeasuresFrames := by
  intro s hs hw hl
  refine ⟨fun n => exec_framePacket hs hw rfl (State.dealStart_locking hl n) ?_,
    fun number pixels => exec_framePacket hs hw rfl (State.dealLine_locking hl number pixels) ?_,
    fun n count flags => ⟨fun complete whole below => ?_, fun complete whole reached => ?_, fun nonconforming => ?_⟩⟩
  · rw [State.setTracker_tracker]
    split_ifs <;> rfl
  · rw [State.setTracker_tracker]
    split_ifs <;> rfl
  · refine exec_framePacket hs hw rfl (p := .ending n count flags) ?_ rfl
    exact (State.dealEnd_locking hl count).trans
      ((if_pos ⟨complete, whole⟩).trans (State.conformingFrame_below below))
  · refine exec_framePacket_reports hs hw rfl (p := .ending n count flags) ?_ rfl
    exact (State.dealEnd_locking hl count).trans
      ((if_pos ⟨complete, whole⟩).trans (State.conformingFrame_locks reached))
  · refine exec_framePacket hs hw rfl (p := .ending n count flags) ?_ rfl
    exact (State.dealEnd_locking hl count).trans (if_neg (by tauto))

/-! ## The opening of an upstream frame under lock -/

/-- With no frame RECEIVING, a FRAME_START under lock opens an upstream frame (R123). -/
theorem State.dealStart_locked {s : State} (hl : s.tracker.state = .locked) (hp : s.tracker.phase ≠ .receiving) (n : Half) :
    s.dealStart n = s.openUpstream n := by
  rw [State.dealStart, if_neg (fun h => hp h.2)]
  simp only [State.takeStartPacket, hl]

/-- The start asked for in PASS mode, while no start of an upstream frame is due (R143; assumption log 14). -/
theorem startBehind_eq {o : Framer} (h : o.upstreamDue = false) :
    some (startBehind o.due) = if o.due = some .entry then some .entryThenUpstream else some .upstream := by
  unfold Framer.upstreamDue at h
  cases hd : o.due with
  | none => rfl
  | some cause =>
    rw [hd] at h
    cases cause with
    | upstream => cases h
    | entryThenUpstream => cases h
    | _ => rfl

/-- While no frame packet waits, no start of an upstream frame is due (R123). -/
theorem State.upstreamDue_of_framesWait {s : State} (hw : s.framesWait = false) : s.framer.upstreamDue = false := by
  simp only [State.framesWait, Bool.or_eq_false_iff] at hw
  exact hw.1.1.1

/-- An upstream frame opened under lock in PASS mode asks for its start (R123, R143). -/
theorem State.openUpstream_pass {s : State} (hm : s.framer.mode = .pass) (hd : s.framer.upstreamDue = false) (n : Half) :
    s.openUpstream n =
      (s.setTracker
        { s.tracker with
          upstreamN := n, lossTimer := some 0, expiryDue := false, phase := .receiving, expected := 0
          frameFaulty := false }).setFramer
        { s.framer with due := if s.framer.due = some .entry then some .entryThenUpstream else some .upstream } := by
  simp only [State.openUpstream, State.askStart, State.setTracker_framer, hm, startBehind_eq hd]

/-- An upstream frame opened under lock in FALLBACK mode, with no switch back pending (R123). -/
theorem State.openUpstream_fallback {s : State} (hm : s.framer.mode = .fallback) (hb : s.framer.switchBack = false)
    (n : Half) :
    s.openUpstream n =
      s.setTracker
        { s.tracker with
          upstreamN := n, lossTimer := some 0, expiryDue := false, phase := .receiving, expected := 0
          frameFaulty := false } := by
  simp only [State.openUpstream, State.askStart, State.setTracker_framer, hm, hb]
  rfl

/-- An upstream frame opened under lock in FALLBACK mode brings the switch back (R149). -/
theorem State.openUpstream_switch {s : State} (hm : s.framer.mode = .fallback) (hb : s.framer.switchBack = true) (n : Half) :
    s.openUpstream n =
      (s.setTracker
        { s.tracker with
          upstreamN := n, lossTimer := some 0, expiryDue := false, phase := .receiving, expected := 0
          frameFaulty := false }).switchToPass := by
  simp only [State.openUpstream, State.askStart, State.setTracker_framer, hm, hb, if_true]

/-- Settles O38. -/
theorem frameStartUnderLock : Obligations.FrameStartUnderLock := by
  intro s n hs hw hl hp u
  have opens : s.dealFrame (.start n) = s.openUpstream n := State.dealStart_locked hl hp n
  refine ⟨fun hm => ?_, fun hm hb => ?_, fun hm hb hf => ?_, fun f hm hb hf => ?_⟩
  · exact exec_framePacket hs hw rfl (opens.trans (State.openUpstream_pass hm (State.upstreamDue_of_framesWait hw) n)) rfl
  · exact exec_framePacket hs hw rfl (opens.trans (State.openUpstream_fallback hm hb n)) rfl
  · refine exec_framePacket (t := u.setFramer _) hs hw rfl (opens.trans ((State.openUpstream_switch hm hb n).trans ?_)) rfl
    simp only [State.switchToPass, State.truncate, State.setTracker_framer, hf]
    rfl
  · refine exec_framePacket (t := (u.setFramer _).setChecker _) hs hw rfl
      (opens.trans ((State.openUpstream_switch hm hb n).trans ?_)) rfl
    simp only [State.switchToPass, State.truncate, Framer.truncate, State.setTracker_framer, hf]
    rfl

end Sys2Proof.Machine
end

section
/-! SUPPORT. The open upstream frame under lock (R124 to R136): its verdict, its lines, its end, and the late faults. -/

namespace Sys2Proof.Machine

/-! ## The verdict -/

/-- A frame judged good (R134). -/
theorem State.verdict_good {s : State} (h : s.tracker.frameFaulty = false) :
    s.verdict = s.setTracker { s.tracker with faultyFrames := 0 } := by
  rw [State.verdict, if_neg (by rw [h]; exact Bool.false_ne_true)]

/-- A frame judged faulty, below the fault limit (R134). -/
theorem State.verdict_faulty {s : State} (h : s.tracker.frameFaulty = true)
    (hl : s.tracker.faultyFrames + 1 < s.params.faultLimit) :
    s.verdict = s.setTracker { s.tracker with faultyFrames := s.tracker.faultyFrames + 1 } := by
  rw [State.verdict, if_pos h]
  exact if_neg (Nat.not_le.2 hl)

/-- A frame judged faulty that reaches the fault limit loses the stream (R135). -/
theorem State.verdict_loses {s : State} (h : s.tracker.frameFaulty = true)
    (hl : s.params.faultLimit ≤ s.tracker.faultyFrames + 1) :
    s.verdict = (s.setTracker { s.tracker with faultyFrames := s.tracker.faultyFrames + 1 }).loseStream .faults := by
  rw [State.verdict, if_pos h]
  exact if_pos hl

/-- A frame judged faulty at the fault limit, handed over whole: the stream is lost, and the frame finished first (R135,
R147). -/
theorem State.verdict_loses_handed {s : State} {f : OutputFrame} (h : s.tracker.frameFaulty = true)
    (hl : s.params.faultLimit ≤ s.tracker.faultyFrames + 1) (h1 : s.tracker.state = .locked)
    (h2 : s.framer.mode = .pass) (h3 : s.framer.frame = some f) (h4 : s.frameHanded f) :
    s.verdict =
      ((s.setTracker s.tracker.cleared).setFramer { s.framer with due := some .entry }).setRtq
        (s.reported s.rtq .streamLost 1) := by
  rw [State.verdict_loses h hl]
  exact State.loseStream_handed _ .faults f h1 h2 h3 h4

/-- The stream lost by faults under lock in PASS mode, every line of a frame in progress being handed over (R135, R147). -/
theorem State.loseStream_whole {s : State} (cause : LostCause) (h1 : s.tracker.state = .locked)
    (h2 : s.framer.mode = .pass) (h3 : ∀ f, s.framer.frame = some f → s.frameHanded f) :
    s.loseStream cause =
      ((s.setTracker s.tracker.cleared).setFramer
        (if s.framer.frame.isSome then { s.framer with due := some .entry }
         else { s.framer with mode := .fallback, switchBack := false, due := some .entry })).setRtq
        (s.reported s.rtq .streamLost cause.byte) := by
  cases hf : s.framer.frame with
  | none => rw [State.loseStream_between s cause h1 h2 hf] <;> rfl
  | some f => rw [State.loseStream_handed s cause f h1 h2 hf (h3 f hf)] <;> rfl

/-- The missing lines of the open frame substituted, then the verdict (R128, R129). -/
theorem State.substituteRest_eq (s : State) (phase : FramePhase) :
    s.substituteRest phase =
      ((s.setTracker { s.tracker with expected := s.format.height, phase := phase }).setFramer
        { s.framer with
          handed := s.framer.handed ++
            s.substituteLines s.tracker.expected (s.format.height - s.tracker.expected) }).verdict := by
  rw [State.substituteRest, State.handSubstitutes_eq]
  rfl

/-- The open frame ended by a fault of its own, below the fault limit (R128, R129, R134). -/
theorem State.endedByFault {s : State} (kind : FaultKind) (phase : FramePhase)
    (hl : s.tracker.faultyFrames + 1 < s.params.faultLimit) :
    (s.faultInFrame kind).substituteRest phase =
      ((s.setTracker
        { s.tracker with
          phase := phase, expected := s.format.height, frameFaulty := true
          faultyFrames := s.tracker.faultyFrames + 1 }).setFramer
        { s.framer with
          handed := s.framer.handed ++ s.substituteLines s.tracker.expected (s.format.height - s.tracker.expected) }).setRtq
        (s.reported s.rtq .frameFault kind.byte) := by
  rw [State.faultInFrame_eq, State.substituteRest_eq]
  exact State.verdict_faulty rfl hl

/-- The open frame ended by a fault of its own at the fault limit: the stream lost, the PASS frame finished (R135, R147). -/
theorem State.endedByFault_loses {s : State} {f : OutputFrame} (kind : FaultKind) (phase : FramePhase)
    (hl : s.params.faultLimit ≤ s.tracker.faultyFrames + 1) (h1 : s.tracker.state = .locked)
    (h2 : s.framer.mode = .pass) (h3 : s.framer.frame = some f)
    (h4 : f.height ≤ f.lines + s.framer.handed.length + (s.format.height - s.tracker.expected)) :
    (s.faultInFrame kind).substituteRest phase =
      ((s.setTracker s.tracker.cleared).setFramer
        { s.framer with
          handed := s.framer.handed ++ s.substituteLines s.tracker.expected (s.format.height - s.tracker.expected)
          due := some .entry }).setRtq
        (s.reported (s.reported s.rtq .frameFault kind.byte) .streamLost 1) := by
  have whole : f.height ≤ f.lines +
      (s.framer.handed ++ s.substituteLines s.tracker.expected (s.format.height - s.tracker.expected)).length := by
    simp only [List.length_append, State.substituteLines, List.length_map, List.length_range]
    omega
  rw [State.faultInFrame_eq, State.substituteRest_eq]
  exact State.verdict_loses_handed rfl hl h1 h2 h3 whole

/-! ## RESTART -/

/-- Settles O39. -/
theorem restartEndsOpenFrame : Obligations.RestartEndsOpenFrame := by
  intro s n hs hw hl hp hm subs q
  have restart : s.dealFrame (.start n) = ((s.faultInFrame .restart).substituteRest .complete).takeStartPacket n :=
    if_pos ⟨hl, hp⟩
  refine ⟨fun below => ?_, fun f reached hf whole => ?_⟩
  · refine exec_framePacket_reports hs hw rfl (p := .start n) (restart.trans ?_) rfl
    rw [State.endedByFault .restart .complete below]
    generalize hu : ((s.setTracker _).setFramer _).setRtq _ = u
    have opens : u.takeStartPacket n = u.openUpstream n := by
      have locked : u.tracker.state = .locked := by rw [← hu]; exact hl
      simp only [State.takeStartPacket, locked]
    have notDue : u.framer.upstreamDue = false := by
      rw [← hu]
      exact State.upstreamDue_of_framesWait hw
    rw [opens, State.openUpstream_pass (by rw [← hu]; exact hm) notDue, ← hu]
    rfl
  · refine exec_framePacket_reports hs hw rfl (p := .start n) (restart.trans ?_) rfl
    rw [State.endedByFault_loses .restart .complete reached hl hm hf whole]
    rfl

/-! ## Lines of the open frame -/

/-- Line n is forwarded (R124, R127, R132): a WIDTH fault, the line handed over, the line memory written; with the last line
the verdict. -/
theorem State.forwardLine_eq (s : State) (n : Nat) (pixels : List Pixel) :
    s.forwardLine n pixels =
      (let t := ((s.setTracker
          { s.tracker with
            lineMemory := (pixels.take s.format.width).take 2048 ++
              s.tracker.lineMemory.drop ((pixels.take s.format.width).take 2048).length
            expected := n + 1
            frameFaulty := s.tracker.frameFaulty || decide (pixels.length ≠ s.format.width) }).setFramer
          { s.framer with handed := s.framer.handed ++ [s.forwardedLine n pixels] }).setRtq
          (if pixels.length ≠ s.format.width then s.reported s.rtq .frameFault 3 else s.rtq)
       if n + 1 = s.format.height then t.lastLineHanded else t) := by
  have line : s.forwardedLine n pixels =
      ⟨n, .forwarded, pixels.take s.format.width ++
        substitutePixels s.format s.tracker.lineMemory (pixels.take s.format.width).length, [s.store.cells]⟩ := by
    rw [forwardedPixels]
    rfl
  by_cases exact' : pixels.length = s.format.width
  · have unfaulty : (s.tracker.frameFaulty || decide (pixels.length ≠ s.format.width)) = s.tracker.frameFaulty := by
      simp [exact']
    rw [State.forwardLine, line, unfaulty, if_pos exact', if_neg (not_not.2 exact')]
    rfl
  · have faulty : (s.tracker.frameFaulty || decide (pixels.length ≠ s.format.width)) = true := by
      simp [exact']
    rw [State.forwardLine, line, faulty, if_neg exact', if_pos exact', State.faultInFrame_eq]
    rfl

/-- A LINE in its place or behind a gap: the missing lines are substituted, and the line is forwarded (R124, R125). -/
theorem State.lineReceiving_eq {s : State} {n : Nat} (pixels : List Pixel) (h1 : s.tracker.expected ≤ n)
    (h2 : n < s.format.height) :
    s.lineReceiving n pixels =
      (((s.setTracker
        { s.tracker with frameFaulty := s.tracker.frameFaulty || decide (s.tracker.expected < n) }).setFramer
        { s.framer with
          handed := s.framer.handed ++ s.substituteLines s.tracker.expected (n - s.tracker.expected) }).setRtq
        (if s.tracker.expected < n then s.reported s.rtq .frameFault 0 else s.rtq)).forwardLine n pixels := by
  rw [State.lineReceiving, if_neg (by omega), if_neg (by omega)]
  by_cases gap : n = s.tracker.expected
  · rw [if_pos gap]
    have none : s.substituteLines s.tracker.expected (n - s.tracker.expected) = [] := by simp [gap, State.substituteLines]
    have notLess : ¬s.tracker.expected < n := by omega
    rw [none, if_neg notLess, decide_eq_false notLess, List.append_nil, Bool.or_false]
    rfl
  · have less : s.tracker.expected < n := by omega
    rw [if_neg gap, if_pos less, decide_eq_true less, Bool.or_true]
    refine congrArg (fun u : State => u.forwardLine n pixels) ?_
    rw [State.faultInFrame_eq, State.handSubstitutes_eq]
    rfl

/-- The part after a LINE in its place or behind a gap, before the verdict that the last line brings (R124 to R127, R132). -/
def State.lineTaken (s : State) (n : Nat) (pixels : List Pixel) : State :=
  ((s.setTracker
    { s.tracker with
      lineMemory := (pixels.take s.format.width).take 2048 ++
        s.tracker.lineMemory.drop ((pixels.take s.format.width).take 2048).length
      expected := n + 1
      frameFaulty := s.tracker.frameFaulty || decide (s.tracker.expected < n) ||
        decide (pixels.length ≠ s.format.width) }).setFramer
    { s.framer with
      handed := s.framer.handed ++ s.substituteLines s.tracker.expected (n - s.tracker.expected) ++
        [s.forwardedLine n pixels] }).setRtq
    (if pixels.length ≠ s.format.width then
      s.reported (if s.tracker.expected < n then s.reported s.rtq .frameFault 0 else s.rtq) .frameFault 3
     else if s.tracker.expected < n then s.reported s.rtq .frameFault 0 else s.rtq)

/-- A LINE in its place or behind a gap, under lock (R124, R125). -/
theorem State.dealLine_receiving {s : State} {number : Half} (pixels : List Pixel) (hl : s.tracker.state = .locked)
    (hp : s.tracker.phase = .receiving) (h1 : s.tracker.expected ≤ number.toNat) (h2 : number.toNat < s.format.height) :
    s.dealFrame (.line number pixels) =
      if number.toNat + 1 = s.format.height then (s.lineTaken number.toNat pixels).lastLineHanded
      else s.lineTaken number.toNat pixels := by
  have locked : s.dealFrame (.line number pixels) = s.lineReceiving number.toNat pixels := by
    simp only [State.dealFrame, State.dealLine, hl, State.lineInLocked, hp]
  rw [locked, State.lineReceiving_eq pixels h1 h2, State.forwardLine_eq]
  rfl

/-- Settles O40: the discarded lines, a line before the last, and the last one with its verdict. -/
theorem lineInOpenFrame : Obligations.LineInOpenFrame := by
  intro s number pixels hs hw hl hp n e handed memory q1 q2 faulty
  have locked : s.dealFrame (.line number pixels) = s.lineReceiving n pixels := by
    simp only [State.dealFrame, State.dealLine, hl, State.lineInLocked, hp, n]
  refine ⟨fun excess => ?_, fun inside order => ?_, fun h1 h2 => ?_, fun h1 h2 below => ?_,
    fun f h1 h2 hfaulty reached hm hf whole => ?_⟩
  · refine exec_framePacket_reports hs hw rfl (p := .line number pixels) ?_ rfl
    rw [locked, State.lineReceiving, if_pos excess, State.faultInFrame_eq]
    rfl
  · refine exec_framePacket_reports hs hw rfl (p := .line number pixels) ?_ rfl
    rw [locked, State.lineReceiving, if_neg (Nat.not_le.2 inside), if_pos order, State.faultInFrame_eq]
    rfl
  · refine exec_framePacket_reports hs hw rfl (p := .line number pixels) ?_ rfl
    rw [State.dealLine_receiving pixels hl hp h1 (by omega), if_neg (by omega)]
    rfl
  · refine exec_framePacket_reports hs hw rfl (p := .line number pixels) ?_ rfl
    rw [State.dealLine_receiving pixels hl hp h1 (by omega), if_pos h2, State.lastLineHanded]
    by_cases hfaulty : faulty = true
    · rw [if_pos hfaulty]
      exact State.verdict_faulty (s := (s.lineTaken n pixels).setTracker _) hfaulty (below hfaulty)
    · rw [if_neg hfaulty]
      exact State.verdict_good (s := (s.lineTaken n pixels).setTracker _) (Bool.eq_false_iff.2 hfaulty)
  · refine exec_framePacket_reports hs hw rfl (p := .line number pixels) ?_ rfl
    rw [State.dealLine_receiving pixels hl hp h1 (by omega), if_pos h2, State.lastLineHanded]
    exact State.verdict_loses_handed hfaulty reached hl hm hf whole

/-! ## Late faults, and the end of the frame -/

/-- A late fault of a frame already judged faulty, or below the fault limit (R130). -/
theorem State.lateFault_stays {s : State} (kind : FaultKind)
    (h : s.tracker.frameFaulty = false → s.tracker.faultyFrames + 1 < s.params.faultLimit) :
    s.lateFault kind =
      (s.setTracker
        { s.tracker with
          frameFaulty := true
          faultyFrames := if s.tracker.frameFaulty then s.tracker.faultyFrames else s.tracker.faultyFrames + 1 }).setRtq
        (s.reported s.rtq .frameFault kind.byte) := by
  rw [State.lateFault, State.frameFault, State.raise_eq]
  by_cases hf : s.tracker.frameFaulty = true
  · have same : { s.tracker with frameFaulty := true } = s.tracker :=
      congrArg (fun b => { s.tracker with frameFaulty := b }) hf.symm
    rw [if_pos hf]
    refine (if_pos hf).trans ?_
    exact congrArg (fun t => (s.setTracker t).setRtq (s.reported s.rtq .frameFault kind.byte)) same.symm
  · rw [if_neg hf]
    refine (if_neg hf).trans ?_
    exact if_neg (Nat.not_le.2 (h (Bool.eq_false_iff.2 hf)))

/-- A late fault that makes a frame judged good faulty and reaches the fault limit loses the stream (R130, R135). -/
theorem State.lateFault_loses {s : State} (kind : FaultKind) (hf : s.tracker.frameFaulty = false)
    (hr : s.params.faultLimit ≤ s.tracker.faultyFrames + 1) (h1 : s.tracker.state = .locked)
    (h2 : s.framer.mode = .pass) (h3 : ∀ f, s.framer.frame = some f → s.frameHanded f) :
    s.lateFault kind =
      ((s.setTracker s.tracker.cleared).setFramer
        (if s.framer.frame.isSome then { s.framer with due := some .entry }
         else { s.framer with mode := .fallback, switchBack := false, due := some .entry })).setRtq
        (s.reported (s.reported s.rtq .frameFault kind.byte) .streamLost 1) := by
  have good : ¬(s.setRtq (s.reported s.rtq .frameFault kind.byte)).tracker.frameFaulty = true := by simp [hf]
  rw [State.lateFault, State.frameFault, State.raise_eq, if_neg good, State.testFaultLimit]
  refine (if_pos hr).trans ?_
  exact State.loseStream_whole .faults h1 h2 h3

/-- Settles O41. -/
theorem frameEndUnderLock : Obligations.FrameEndUnderLock := by
  intro s n count flags hs hw hl
  have locked : s.dealFrame (.ending n count flags) = s.endInLocked count.toNat := by
    simp only [State.dealFrame, State.dealEnd, hl]
  have late (hp : s.tracker.phase = .complete) (short : count.toNat ≠ s.format.height) : s.endInLocked count.toNat =
      (s.setTracker { s.tracker with phase := .noFrame }).lateFault .earlyEnd := by
    simp only [State.endInLocked, hp]
    exact if_neg short
  refine ⟨fun hp => ?_, fun hp whole => ?_, fun hp short below => ?_, fun hp below => ?_, fun f hp reached hm hf whole => ?_,
    fun hp short good reached hm whole => ?_⟩
  · refine exec_framePacket_reports hs hw rfl (p := .ending n count flags) (locked.trans ?_) rfl
    simp only [State.endInLocked, hp, State.frameFault, State.raise_eq]
    rfl
  · refine exec_framePacket hs hw rfl (p := .ending n count flags) (locked.trans ?_) rfl
    simp only [State.endInLocked, hp]
    exact if_pos whole
  · refine exec_framePacket_reports hs hw rfl (p := .ending n count flags) (locked.trans ?_) rfl
    rw [late hp short]
    exact State.lateFault_stays .earlyEnd below
  · refine exec_framePacket_reports hs hw rfl (p := .ending n count flags) (locked.trans ?_) rfl
    simp only [State.endInLocked, hp]
    exact State.endedByFault .earlyEnd .noFrame below
  · refine exec_framePacket_reports hs hw rfl (p := .ending n count flags) (locked.trans ?_) rfl
    simp only [State.endInLocked, hp]
    exact State.endedByFault_loses .earlyEnd .noFrame reached hl hm hf whole
  · refine exec_framePacket_reports hs hw rfl (p := .ending n count flags) (locked.trans ?_) rfl
    rw [late hp short]
    exact State.lateFault_loses .earlyEnd good reached hl hm whole

/-- Settles O42. -/
theorem strayAndLateLines : Obligations.StrayAndLateLines := by
  intro s number pixels hs hw hl q
  have locked : s.dealFrame (.line number pixels) = s.lineInLocked number.toNat pixels := by
    simp only [State.dealFrame, State.dealLine, hl]
  have late (hp : s.tracker.phase = .complete) : s.lineInLocked number.toNat pixels =
      s.lateFault (if s.format.height ≤ number.toNat then .excess else .order) := by
    simp only [State.lineInLocked, hp]
    split_ifs <;> rfl
  have code : (if s.format.height ≤ number.toNat then FaultKind.excess else .order).byte =
      if s.format.height ≤ number.toNat then 2 else 1 := by
    split_ifs <;> rfl
  refine ⟨fun hp => ?_, fun hp below => ?_, fun hp good reached hm whole => ?_⟩
  · refine exec_framePacket_reports hs hw rfl (p := .line number pixels) (locked.trans ?_) rfl
    simp only [State.lineInLocked, hp, State.frameFault, State.raise_eq]
    rfl
  · refine exec_framePacket_reports hs hw rfl (p := .line number pixels) (locked.trans ?_) rfl
    rw [late hp, State.lateFault_stays _ below, code]
  · refine exec_framePacket_reports hs hw rfl (p := .line number pixels) (locked.trans ?_) rfl
    rw [late hp, State.lateFault_loses _ good reached hl hm whole, code]

end Sys2Proof.Machine
end

section
/-! SUPPORT. Timers and output frame starts (R42 to R48, R122, R140 to R150): what a start leaves. -/

namespace Sys2Proof.Machine

/-! ## Timers -/

/-- A loss timer expiry that is due, or whose time has come while its timer runs, takes the tracker to SEARCH (R122). -/
theorem exec_lossTimerExpiry {s : State} (hp : s.power = .running)
    (h : s.tracker.expiryDue = true ∨ (s.steady ∧ ∃ k, s.tracker.lossTimer = some k)) :
    exec .lossTimerExpiry s = .next (s.loseStream .timeout).arbitrate.drain := by
  have command : exec .lossTimerExpiry s = .next s.expireLoss := by
    simp only [exec, execLossTimerExpiry, hp]
  rw [command, State.expireLoss]
  by_cases due : s.tracker.expiryDue = true
  · rw [if_pos due, State.takeExpiry, if_pos due]
    rfl
  · obtain ⟨hs, k, timer⟩ := h.resolve_left due
    have lose : s.loseByTimeout = s.loseStream .timeout := by simp only [State.loseByTimeout, timer]
    rw [if_neg due, State.operate_of_steady hs, lose]
    rfl

/-- Settles O43. -/
theorem timersExpire : Obligations.TimersExpire := by
  refine ⟨fun s hp h => ⟨fun hl => ?_, fun hl => ⟨fun hm => ?_, fun hm hf => ?_, fun f hm hf whole => ?_,
    fun f hm hf cut => ?_⟩⟩, fun s k hs hm ht hd => ⟨?_, ?_⟩⟩
  · have lost : s.loseStream .timeout = s.setTracker s.tracker.cleared := by
      simp only [State.loseStream, hl]
      rfl
    rw [exec_lossTimerExpiry hp h, lost]
  · rw [exec_lossTimerExpiry hp h, State.loseStream_fallback s .timeout hl hm]
    rfl
  · rw [exec_lossTimerExpiry hp h, State.loseStream_between s .timeout hl hm hf]
    rfl
  · rw [exec_lossTimerExpiry hp h, State.loseStream_handed s .timeout f hl hm hf whole]
    rfl
  · rw [exec_lossTimerExpiry hp h, State.loseStream_cut s .timeout f hl hm hf cut]
    rfl
  · have expires : s.expireFallback = s.setFramer { s.framer with due := some .timer } :=
      if_pos ⟨hm, by rw [ht]; rfl, hd⟩
    have noWait : s.framesWait = false := by
      rw [State.framesWait_of_settled hs.2.1, Framer.upstreamDue, hd]
    rw [exec_of_effectOf (c := .fallbackTimerExpiry) rfl,
      State.operate_of_nil hs _ (by rw [expires, State.setFramer_tracker, State.waiting_nil hs noWait]), expires]
  · simp only [State.startNow, State.arbitrate_kept, State.setFramer_framer]
    cases s.framer.frame <;> rfl

/-! ## Output frame starts -/

/-- The start that is due is taken, on a part where nothing comes before it (R140). -/
theorem exec_outputFrameStart {s : State} {cause : StartCause} (first mid : List Channel) (hp : s.power = .running)
    (ht : s.timeoutsDue = []) (he : s.tracker.expiryDue = false) (hn : s.startNow = some cause) :
    exec (.outputFrameStart first mid) s = .next (s.takeStart cause first mid).arbitrate.drain := by
  have waits : (s.tracker.waiting.isEmpty || s.framesWait) = true := by
    simp [State.framesWait, hn]
  have noExpiry : s.takeExpiry = s := by
    rw [State.takeExpiry, if_neg (by rw [he]; exact Bool.false_ne_true)]
  simp only [exec, execOutputFrameStart, hp, State.takeTimeouts_of_none ht waits, noExpiry, State.takeDueStart, hn]
  rfl

/-- The new numbers of a start (R141, R142) change the framer alone, but for a check plan discarded with a frame that is
truncated. -/
theorem State.numbered_kept (s : State) (cause : StartCause) :
    ((s.switchBefore cause).setNumbers cause).bank = s.bank ∧
    ((s.switchBefore cause).setNumbers cause).channels = s.channels ∧
    ((s.switchBefore cause).setNumbers cause).tracker = s.tracker ∧
    ((s.switchBefore cause).setNumbers cause).params = s.params ∧
    ((s.switchBefore cause).setNumbers cause).timeoutsDue = s.timeoutsDue ∧
    ((s.switchBefore cause).setNumbers cause).rtq = s.rtq ∧
    ((s.switchBefore cause).setNumbers cause).store = s.store ∧
    ((s.switchBefore cause).setNumbers cause).power = s.power ∧
    ((s.switchBefore cause).setNumbers cause).pending = s.pending := by
  simp

/-- F and N at a start (R141, R142). -/
theorem State.numbered_fn {s : State} {cause : StartCause} (hn : s.startNow = some cause) :
    ((s.switchBefore cause).setNumbers cause).framer.f = s.framer.nextF ∧
      ((s.switchBefore cause).setNumbers cause).framer.n = s.nextN cause := by
  obtain ⟨first, f, n, -, -, tracker⟩ := State.switchBefore_framer hn
  simp only [State.setNumbers_framer, Framer.nextF, State.nextN, first, f, n, tracker, and_self]

/-- A channel times out at a start by its own context and the parameters (R95, R96). -/
theorem State.timesOut_congr {s t : State} (h1 : t.channels = s.channels) (h2 : t.params = s.params) :
    t.timesOut = s.timesOut := by
  funext ch
  simp only [State.timesOut, h1, h2]

/-- A table the commit record names is ARMED, so that no channel holds it (R29, R34). -/
theorem State.unheld_of_named {s : State} {c : Commit} {t : TableId} (ho : s.ownership) (hr : s.bank.record = some c)
    (ht : c.mask.getLsbD t.val = true) : s.bank.states[t] = .armed ∧ s.unheld t := by
  obtain ⟨-, held, armed, -⟩ := ho
  have state : s.bank.states[t] = .armed := (armed t).2 ⟨c, hr, ht⟩
  refine ⟨state, fun ch hch => ?_⟩
  rw [(held t ch).2 hch] at state
  cases state

/-- A commit for the next start, or for the frame that starts, applies (R42). -/
theorem Commit.applies_iff {c : Commit} {n : Half} : c.applies n = true ↔ c.timing = .next ∨ c.timing = .atFrame n := by
  simp [Commit.applies]

/-- A commit for another frame does not apply. -/
theorem Commit.applies_atFrame {c : Commit} {target n : Half} (ht : c.timing = .atFrame target)
    (h : (target - n).toNat ≠ 0) : ¬c.applies n = true := by
  rw [Commit.applies_iff, ht]
  rintro (h' | h')
  · cases h'
  · cases h'
    simp at h

/-- Whether a commit for a frame is missed (R42). -/
theorem Commit.missedAt_atFrame {c : Commit} {target n : Half} (ht : c.timing = .atFrame target) :
    c.missedAt n = true ↔ 32768 ≤ (target - n).toNat := by
  simp only [Commit.missedAt, ht, decide_eq_true_eq]

/-- The resolution copies shadows, and changes none (R44, R45). -/
theorem State.resolveCommit_shadow (s : State) : s.resolveCommit.bank.shadow = s.bank.shadow := by
  rw [s.resolveCommit_bank]
  split
  · rfl
  · split_ifs <;> simp

/-- N of the frame a start begins (R142). -/
theorem State.takeStart_n {s : State} {cause : StartCause} (first mid : List Channel) (hn : s.startNow = some cause) :
    (s.takeStart cause first mid).framer.n = s.nextN cause := by
  obtain ⟨u, g, hstart, -, hframer, -⟩ := s.takeStart_eq cause first mid
  rw [hstart, State.beginFrame_framer hn hframer]

/-- Settles O26. -/
theorem commitResolvedAtStart : Obligations.CommitResolvedAtStart := by
  intro s cause first mid hp ht he hn ho
  obtain ⟨u, g, hstart, -, -, -, -, -, -, -, -, -, -, -, shadow, active, record, unheld, unnamed⟩ :=
    s.takeStart_eq cause first mid
  obtain ⟨bank, channels, -, params, -⟩ := s.numbered_kept cause
  obtain ⟨-, number⟩ := State.numbered_fn hn
  have out := State.timesOut_congr channels params
  generalize (s.switchBefore cause).setNumbers cause = v at *
  have resolved := v.resolveCommit_bank
  have sameShadow := v.resolveCommit_shadow
  rw [bank, number] at resolved
  rw [bank] at unnamed sameShadow
  refine ⟨(s.takeStart cause first mid).arbitrate, s.nextN cause, exec_outputFrameStart first mid hp ht he hn, by simp,
    ?_, ?_⟩
  · simp only [State.arbitrate_kept, State.takeStart_n first mid hn]
  have kept : (s.takeStart cause first mid).arbitrate.bank = u.bank := by
    rw [hstart]
    simp
  rw [kept, shadow, active, record]
  refine ⟨sameShadow, fun t hc hch => ?_, fun hr => ?_, fun c hr => ?_⟩
  · rw [unnamed t hc, if_neg]
    rintro ⟨ch, takes, holds⟩
    rw [out, Bool.and_eq_true, Bool.or_eq_true, List.contains_iff_mem, List.contains_iff_mem] at takes
    rw [channels] at holds
    refine hch ch (takes.2.imp List.mem_eraseDups.1 fun h => ?_) takes.1 holds
    exact (List.mem_filter.1 (List.mem_eraseDups.1 h)).1
  · simp only [hr] at resolved
    rw [resolved]
    exact ⟨rfl, hr⟩
  · simp only [hr] at resolved
    have states (t : TableId) (h : c.mask.getLsbD t.val = true) : u.bank.states[t] = v.resolveCommit.bank.states[t] :=
      unheld t (fun ch => by rw [channels]; exact (State.unheld_of_named ho hr h).2 ch)
    refine ⟨fun h => ?_, fun target htiming hlate => ?_, fun target htiming h1 h2 => ?_⟩
    · rw [if_pos (Commit.applies_iff.2 h)] at resolved
      rw [resolved]
      refine ⟨rfl, fun t => ⟨?_, fun named => ?_⟩⟩
      · simp only [Bank.setStates_kept, Bank.activate_active, mem_maskTables]
      · rw [states t named, resolved]
        simp only [Bank.setStates_states, mem_maskTables, named, if_true]
    · rw [if_neg (Commit.applies_atFrame htiming (by omega)), if_pos ((Commit.missedAt_atFrame htiming).2 hlate)] at resolved
      rw [resolved]
      refine ⟨(Bank.setStates_kept _ _ _).2.1, rfl, fun t named => ?_⟩
      rw [states t named, resolved]
      simp only [Bank.setStates_states, mem_maskTables, named, if_true]
    · rw [if_neg (Commit.applies_atFrame htiming (by omega)),
        if_neg (fun h => absurd ((Commit.missedAt_atFrame htiming).1 h) (by omega))] at resolved
      rw [resolved]
      refine ⟨rfl, hr, fun t named => ?_⟩
      rw [states t named, resolved]
      exact (State.unheld_of_named ho hr named).1

/-! ## What a start leaves in every block -/

/-- The checks' records and the FAULT pin are kept by the switch back that a start brings (R149, R159). -/
theorem State.numbered_checker (s : State) (cause : StartCause) :
    ((s.switchBefore cause).setNumbers cause).checker.records = s.checker.records ∧
      ((s.switchBefore cause).setNumbers cause).checker.pin = s.checker.pin := by
  have truncated : s.truncate.checker.records = s.checker.records ∧ s.truncate.checker.pin = s.checker.pin := by
    unfold State.truncate
    split <;> exact ⟨rfl, rfl⟩
  rw [(State.setNumbers_kept _ _).2.2.2.2.2.2.2.2.2.1]
  unfold State.switchBefore
  split
  case h_1 => exact truncated
  all_goals exact ⟨rfl, rfl⟩

/-- The type of the frame a start begins (R140, R150). -/
theorem startType_eq (cause : StartCause) (g : Bool) :
    startType cause g = if cause = .upstream ∧ g = false then .pass else .fallback := by
  cases cause <;> cases g <;> rfl

/-- The start still due behind a start (R149, R150). -/
theorem dueBehind_eq (cause : StartCause) (g : Bool) :
    (if g then none else dueBehind cause) =
      if cause = .entryThenUpstream ∧ g = false then some .upstream else none := by
  cases cause <;> cases g <;> rfl

/-- With every channel named once, the channels named take the start in the order given. -/
theorem startOrder {first mid : List Channel} (h : (first ++ mid).Nodup) :
    startFirst first = first ∧ startMid first mid = mid := by
  obtain ⟨nodupFirst, nodupMid, apart⟩ := List.nodup_append.1 h
  have same : startFirst first = first := eraseDups_of_nodup first nodupFirst
  refine ⟨same, ?_⟩
  have all : mid.filter (fun c => !(startFirst first).contains c) = mid := by
    rw [List.filter_eq_self, same]
    intro c hc
    have notFirst : c ∉ first := fun hf => apart c hf c hc rfl
    simpa using notFirst
  rw [startMid, all, eraseDups_of_nodup mid nodupMid]

/-- The plans a frame begins with, for compositor and checker; records and pin of the checks are kept (R3, R140, R156). -/
theorem State.beginFrame_plans (u : State) (type : FrameType) (g : Bool) :
    (u.beginFrame type g).plan = some (formPlan u.bank.active type u.framer.f) ∧
    (∀ k : Fin 8, (u.beginFrame type g).checker.plans[k] =
      planCheck u.bank.active u.checker.records[k].status k.val u.framer.f u.format.width u.format.height) ∧
    (u.beginFrame type g).checker.records = u.checker.records ∧ (u.beginFrame type g).checker.pin = u.checker.pin :=
  ⟨rfl, u.checker.formPlan_at u.bank.active u.framer.f u.format.width u.format.height⟩

/-- The checks where a commit of CHECKS may reset them (R48, R165). -/
theorem Checker.resetIf_at (c : Checker) (active : Vector Memory 8) (reset : Bool) :
    (∀ k : Fin 8, (if reset then c.runtimeReset active else c).records[k] =
      if reset then ⟨if (checkConfig active k.val).enable then .learning else .off, 0, false, false, 0, 0, 0⟩
      else c.records[k]) ∧
    (if reset then c.runtimeReset active else c).pin = if reset then false else c.pin := by
  cases reset with
  | true => exact ⟨(c.runtimeReset_at active).1, (c.runtimeReset_at active).2.1⟩
  | false => exact ⟨fun _ => rfl, rfl⟩

/-- Settles O44: each block as the start leaves it, in the words of the statement. -/
theorem outputFrameStarts : Obligations.OutputFrameStarts := by
  intro s cause first mid hp ht he hn
  obtain ⟨u, g, hstart, hg, hframer, hstore, hparams, hpower, hpending, htracker, hchecker, hrtq, -, -, -, -⟩ :=
    s.takeStart_eq cause first mid
  have framer := State.beginFrame_framer hn hframer (startType cause g) g
  obtain ⟨bank, channels, tracker, params, -, rtq, store, power, pending⟩ := s.numbered_kept cause
  obtain ⟨records, pin⟩ := s.numbered_checker cause
  obtain ⟨frameF, number⟩ := State.numbered_fn hn
  have out := State.timesOut_congr channels params
  generalize (s.switchBefore cause).setNumbers cause = v at *
  obtain ⟨plan, plans, sameRecords, samePin⟩ := u.beginFrame_plans (startType cause g) g
  rw [hframer, frameF] at plan plans
  obtain ⟨keptPending, keptPower, keptTracker, keptParams, -, -, keptBank, keptStore, keptRtq, -⟩ :=
    u.beginFrame_kept (startType cause g) g
  refine ⟨(s.takeStart cause first mid).arbitrate, exec_outputFrameStart first mid hp ht he hn, ?_⟩
  rw [hstart]
  generalize u.beginFrame (startType cause g) g = w at *
  have format : w.arbitrate.format = u.format := State.format_congr (congrArg Bank.active keptBank)
  have before : v.format = s.format := State.format_congr (congrArg Bank.active bank)
  have active : w.arbitrate.bank.active = u.bank.active := congrArg Bank.active keptBank
  intro geometry type f n cut applied missed checks loss
  have sameGeometry : geometry = g := by
    rw [hg, geometryChanged, before, ← format]
  have sameType : type = startType cause g := by
    rw [startType_eq, ← sameGeometry]
  have sameChecks : checks = v.bank.record.any (fun c => c.applies v.framer.n && c.mask.getLsbD 6) := by
    rw [bank, number]
    rfl
  have sameLoss : loss = (v.bank.record.any (fun c => c.applies v.framer.n && c.mask.getLsbD 7) && u.lossTimeUp) := by
    rw [bank, number, ← State.lossTimeUp_congr (congrArg Tracker.lossTimer keptTracker) keptParams
      (congrArg Bank.active keptBank)]
    rfl
  have sameReport (q : Rtq) (kind : EventKind) (arg : Byte) : w.arbitrate.reported q kind arg = v.reported q kind arg := by
    refine State.reported_congr (keptParams.trans hparams) ?_ q kind arg
    exact (congrArg Framer.n framer).trans number.symm
  refine ⟨?_, ?_, fun k => ?_, fun k => ?_, ?_, ?_, fun nodup => ?_, ?_, ?_, ?_, ?_⟩
  · refine Eq.trans (b := w.framer) rfl (framer.trans ?_)
    rw [sameType, sameGeometry, dueBehind_eq, format, hstore, store]
    rfl
  · rw [sameType, active]
    exact plan
  · rw [active, format]
    refine Eq.trans (b := w.checker.plans[k]) rfl ?_
    rw [plans, ← sameRecords]
    rfl
  · rw [active, sameChecks]
    refine Eq.trans (b := w.checker.records[k]) rfl ?_
    rw [sameRecords, hchecker, ← records]
    exact (v.checker.resetIf_at u.bank.active _).1 k
  · rw [sameChecks]
    refine Eq.trans (b := w.checker.pin) rfl ?_
    rw [samePin, hchecker, ← pin]
    exact (v.checker.resetIf_at u.bank.active _).2
  · rw [sameGeometry, sameLoss]
    refine Eq.trans (b := w.tracker) rfl ?_
    rw [keptTracker, htracker, tracker, he, Bool.false_or]
  · intro timeouts resolved told
    have sameTimeouts : timeouts = v.timeoutEvents := by
      funext chs q
      simp only [timeouts, sameReport, ← out]
      rfl
    have sameResolved : resolved = v.resolutionEvent := by
      funext q
      simp only [resolved, sameReport, State.resolutionEvent, bank, number] <;> rfl
    have sameTold : told = fun q => if g = true ∧ v.tracker.state = .locked then v.reported q .streamLost 2 else q := by
      funext q
      simp only [told, sameReport, sameGeometry, tracker]
    obtain ⟨sameFirst, sameMid⟩ := startOrder nodup
    refine Eq.trans (b := w.rtq.arbitrate) rfl ?_
    rw [keptRtq, hrtq, sameFirst, sameMid, sameTimeouts, sameResolved, sameTold, rtq]
  · exact keptStore.trans (hstore.trans store)
  · exact keptParams.trans (hparams.trans params)
  · exact keptPower.trans (hpower.trans (power.trans hp))
  · exact keptPending.trans (hpending.trans pending)

end Sys2Proof.Machine
end

section
/-! SUPPORT. The layer compositor (R3 to R20): the frame plan, a layer at a pixel, and the composed line. -/

namespace Sys2Proof.Machine

/-! ## The frame plan -/

/-- A layer takes part when it is enabled, persistent or in a PASS frame, and visible under its blink setting (R4, R5). -/
theorem layerTakesPart_iff {l : Layer} {type : FrameType} {f : Word} :
    layerTakesPart l type f = true ↔
      l.enable = true ∧ (type = .fallback → l.persistent = true) ∧
        (l.period = 0 ∨ (f + l.blinkOffset.setWidth 32).toNat / l.period.toNat % 2 = 0) := by
  have persistent : (type == .pass || l.persistent) = true ↔ (type = .fallback → l.persistent = true) := by
    cases type <;> simp
  simp only [layerTakesPart, blinkVisible, Bool.and_eq_true, persistent, Bool.or_eq_true, decide_eq_true_eq, and_assoc]

/-- A layer is planned under its own index, with its rectangle clipped to the frame (R3, R7). -/
theorem planLayer_eq_some {active : Vector Memory 8} {type : FrameType} {f : Word} {w h k : Nat} {p : PlannedLayer} :
    planLayer active type f w h k = some p ↔
      k = p.index ∧ layerTakesPart (layerRecord active k) type f = true ∧
        p.clip = clipTo (layerRecord active k).x (layerRecord active k).y (layerRecord active k).width
          (layerRecord active k).height w h := by
  obtain ⟨index, clip⟩ := p
  rw [planLayer, Option.ite_none_right_eq_some, Option.some_inj, PlannedLayer.mk.injEq, and_left_comm, eq_comm (a := clip)]

/-- A pixel of the frame lies in a clipped rectangle exactly when it lies in the rectangle (R6, R7). -/
theorem clipTo_covers {x y width height w h sx sy : Nat} (hx : sx < w) (hy : sy < h) :
    (clipTo x y width height w h).covers sx sy = true ↔ x ≤ sx ∧ sx < x + width ∧ y ≤ sy ∧ sy < y + height := by
  simp only [Clip.covers, Bool.and_eq_true, decide_eq_true_eq]
  simp only [clipTo]
  omega

/-- Settles O45. -/
theorem planHoldsVisibleLayers : Obligations.PlanHoldsVisibleLayers := by
  intro active type f
  refine ⟨⟨rfl, rfl, rfl, rfl, rfl⟩, ?_, fun p => ?_, fun x y width height w h sx sy => clipTo_covers⟩
  · refine List.pairwise_filterMap.2 (List.pairwise_lt_range.imp fun {i j} hij p hp q hq => ?_)
    rwa [← (planLayer_eq_some.1 hp).1, ← (planLayer_eq_some.1 hq).1]
  · simp only [formPlan, List.mem_filterMap, List.mem_range, planLayer_eq_some, layerTakesPart_iff]
    constructor
    · rintro ⟨k, hk, rfl, ⟨enable, persistent, visible⟩, clip⟩
      exact ⟨hk, enable, persistent, visible, clip⟩
    · rintro ⟨hk, enable, persistent, visible, clip⟩
      exact ⟨p.index, hk, rfl, ⟨enable, persistent, visible⟩, clip⟩

/-! ## A layer at a pixel -/

/-- A sum taken up over the entries of a list that pass a test. -/
theorem foldl_filter_add {α : Type} (l : List α) (p q : α → Bool) (w : α → Nat) (n : Nat) :
    (l.filter p).foldl (fun i a => if q a then i + w a else i) n =
      n + (l.map (fun a => if p a = true ∧ q a = true then w a else 0)).sum := by
  induction l generalizing n with
  | nil => rfl
  | cons a rest ih =>
    cases hp : p a with
    | false => simp [hp, ih]
    | true =>
      cases hq : q a with
      | false => simp [hp, hq, ih]
      | true => simp [hp, hq, ih, Nat.add_assoc]

/-- The value a plane adds to the stored index (R9). -/
def planeBit (cells : Memory) (l : Layer) (c r : Nat) (k : Fin 4) : Nat :=
  if k.val < l.depth ∧ storedBit cells l k c r = true then 2 ^ k.val else 0

/-- The stored index is the sum of its planes' bits (R9). -/
theorem storedIndex_eq (cells : Memory) (l : Layer) (c r : Nat) :
    storedIndex cells l c r =
      planeBit cells l c r 0 + planeBit cells l c r 1 + planeBit cells l c r 2 + planeBit cells l c r 3 := by
  rw [storedIndex, foldl_filter_add]
  simp only [List.map_cons, List.map_nil, List.sum_cons, List.sum_nil, decide_eq_true_eq, planeBit, Nat.zero_add,
    Nat.add_zero, Nat.add_assoc]

/-- A planned layer at a pixel it covers and whose gates pass combines its palette entry; elsewhere it leaves the pixel
(R11, R12, R17). -/
theorem applyLayer_eq (active : Vector Memory 8) (cells : Memory) (p : PlannedLayer) (sx sy : Nat) (under composed : Pixel) :
    applyLayer active cells p sx sy under composed =
      (let l := layerRecord active p.index
       let i := storedIndex cells l (sx - l.x) (sy - l.y)
       if p.clip.covers sx sy = true ∧ gatePasses active l i under composed = true then
         combine l.op l.alpha (paletteEntry active l.palette ((i + l.paletteOffset) % 256)) composed
       else composed) := by
  rw [applyLayer, ite_and]

/-- The gates of a layer pixel (R11 to R15). -/
theorem gatePasses_iff {active : Vector Memory 8} {l : Layer} {i : Nat} {under composed : Pixel} {shows : Bool}
    (hnone : l.key = none → shows = true)
    (hsome : ∀ k, l.key = some k → shows = (keyRule active k).passes under composed) :
    gatePasses active l i under composed = true ↔ l.transparent ≠ some i ∧ shows = true := by
  rw [gatePasses, Bool.and_eq_true, bne_iff_ne]
  cases hk : l.key with
  | none => rw [hnone hk]
  | some k => rw [hsome k hk]

/-! ## The composed line -/

/-- A fetch finds one of the store contents seen while the line was in hand (R10). -/
theorem fetchedStore_mem {moments : List Memory} (h : moments ≠ []) (line layer column : Nat) :
    fetchedStore moments line layer column ∈ moments := by
  unfold fetchedStore
  split
  · exact absurd rfl h
  · exact List.mem_singleton_self _
  · rename_i m rest _
    rw [List.getD_eq_getElem _ _ (by simpa using Nat.mod_lt _ (Nat.succ_pos rest.length))]
    exact List.getElem_mem _

/-- Settles O48. -/
theorem layersComposeLine : Obligations.LayersComposeLine := by
  refine ⟨fun active cells p sx sy under composed => ?_, fun active plan moments line sy pixels => ⟨?_, fun h => ?_,
    fun sx hsx => ⟨fun p => fetchedStore moments line p.index sx, fun p h => fetchedStore_mem h _ _ _, ?_⟩⟩⟩
  · intro l bit i shows
    have index : storedIndex cells l (sx - l.x) (sy - l.y) = i := storedIndex_eq cells l _ _
    have gates : gatePasses active l i under composed = true ↔ l.transparent ≠ some i ∧ shows = true := by
      refine gatePasses_iff (fun h => ?_) (fun k h => ?_)
      · simp only [shows, h]
      · simp only [shows, h]
        rfl
    rw [applyLayer_eq]
    dsimp only
    rw [index]
    exact if_congr (and_congr_right fun _ => gates) rfl rfl
  · simp [composeLine]
  · simp only [composeLine, composePixel, h, List.foldl_nil]
  · rw [composeLine, List.getElem?_map, List.getElem?_range hsx]
    rfl

end Sys2Proof.Machine
end

section
/-! SUPPORT. The return queue and the lane, fills, and the evaluation of checks (R64 to R67, R160 to R164, R171 to R178). -/

namespace Sys2Proof.Machine

/-! ## The lane -/

/-- The arbiter chooses the oldest reply, whatever events stand before it (R176). -/
theorem chooseEntry_reply {before after : List Entry} {ch : Channel} {r : Reply}
    (h : ∀ e ∈ before, e.isEvent = true) :
    chooseEntry (before ++ .reply ch r :: after) = some (.reply ch r, before ++ after) := by
  have events : ∀ e ∈ before, ¬e.isReply = true := fun e he hr => by
    have := h e he
    simp [Entry.isEvent, hr] at this
  have oldest : (before ++ .reply ch r :: after).find? Entry.isReply = some (.reply ch r) :=
    List.find?_eq_some_iff_append.2 ⟨rfl, before, after, rfl, fun e he => by simp [events e he]⟩
  have others : (before ++ .reply ch r :: after).eraseP Entry.isReply = before ++ after := by
    rw [List.eraseP_append_right _ events, List.eraseP_cons_of_pos rfl]
  simp only [chooseEntry, oldest, others]

/-- With no reply waiting the arbiter chooses the oldest event (R176). -/
theorem chooseEntry_event {e : EventEntry} {rest : List Entry} (h : ∀ x ∈ rest, x.isEvent = true) :
    chooseEntry (.event e :: rest) = some (.event e, rest) := by
  have none : (Entry.event e :: rest).find? Entry.isReply = none := by
    rw [List.find?_eq_none]
    intro x hx
    obtain rfl | hx := List.mem_cons.1 hx
    · exact Bool.false_ne_true
    · simpa [Entry.isEvent] using h x hx
  simp only [chooseEntry, none]

/-- On a FREE lane the entry chosen is sent (R176, R178). -/
theorem Rtq.arbitrate_of_choice {q : Rtq} {e : Entry} {rest : List Entry} (hi : q.inFlight = none)
    (h : chooseEntry q.entries = some (e, rest)) :
    q.arbitrate =
      { q with
        entries := rest, inFlight := some (e.message q.lost)
        lostInFlight := if e.isEvent then 0 else q.lostInFlight, laneTicks := 0 } := by
  simp only [Rtq.arbitrate, hi, h]

/-- Settles O53. -/
theorem messagesFollowOnLane : Obligations.MessagesFollowOnLane := by
  refine ⟨fun s m hs hm => ?_, fun q ch r before after hi he h => ?_, fun q e rest hi he h => ?_, fun q h => ?_⟩
  · have complete : s.rtq.complete =
        { s.rtq with
          inFlight := none, laneTicks := 0, sent := s.rtq.sent ++ [m]
          lost := if s.rtq.eventInFlight then s.rtq.lostInFlight else s.rtq.lost } := by
      simp only [Rtq.complete, hm]
    rw [exec_of_effectOf (c := .messageCompletion) rfl, State.operate_of_kept hs _ rfl rfl, State.completeMessage, complete,
      Rtq.eventInFlight, hm]
    cases m <;> rfl
  · rw [Rtq.arbitrate_of_choice hi (by rw [he]; exact chooseEntry_reply h)]
    rfl
  · rw [Rtq.arbitrate_of_choice hi (by rw [he]; exact chooseEntry_event h)]
    rfl
  · unfold Rtq.arbitrate
    cases hi : q.inFlight with
    | some m => rfl
    | none =>
      have empty : q.entries = [] := h.resolve_left (fun busy => busy hi)
      simp only [empty, chooseEntry, List.find?_nil]

/-! ## The list of entries -/

/-- A map that keeps every entry of a list keeps the list. -/
theorem map_of_kept {α : Type} {f : α → α} {l : List α} (h : ∀ a ∈ l, f a = a) : l.map f = l :=
  (List.map_congr_left h).trans (List.map_id' l)

/-- A reply replaces the waiting reply of its channel where it stands (R171). -/
theorem Rtq.handOver_replaces {q : Rtq} {ch : Channel} {r old : Reply} {before after : List Entry}
    (he : q.entries = before ++ .reply ch old :: after) (hb : ∀ e ∈ before, e.isReplyOf ch = false)
    (ha : ∀ e ∈ after, e.isReplyOf ch = false) :
    q.handOver ch r = { q with entries := before ++ .reply ch r :: after } := by
  have own : (Entry.reply ch old).isReplyOf ch = true := beq_self_eq_true ch
  have waits : q.entries.any (Entry.isReplyOf ch) = true :=
    List.any_eq_true.2 ⟨.reply ch old, by simp [he], own⟩
  rw [Rtq.handOver, if_pos waits, he, List.map_append, List.map_cons, if_pos own,
    map_of_kept (fun e h => by rw [hb e h]; rfl), map_of_kept (fun e h => by rw [ha e h]; rfl)]

/-- A merge leaves the entries of other kinds and arguments (R174). -/
theorem mergeEvent_other {kind : EventKind} {arg : Byte} {first last : Half} {e : Entry}
    (h : e.isEventOf kind arg = false) : mergeEvent kind arg first last e = e := by
  cases e with
  | reply ch r => rfl
  | event ev =>
    refine if_neg ?_
    rintro ⟨hk, ha⟩
    simp [Entry.isEventOf, hk, ha] at h

/-- An event of a kind and argument that waits already merges with the waiting entry (R174). -/
theorem Rtq.raise_merges {q : Rtq} {kind : EventKind} {arg : Byte} {first last : Half} {e : EventEntry}
    {before after : List Entry} (he : q.entries = before ++ .event e :: after) (hk : e.kind = kind) (harg : e.arg = arg)
    (hb : ∀ x ∈ before, x.isEventOf kind arg = false) (ha : ∀ x ∈ after, x.isEventOf kind arg = false) :
    q.raise kind arg first last = { q with entries := before ++ .event (e.merge first last) :: after } := by
  have own : (Entry.event e).isEventOf kind arg = true := by simp [Entry.isEventOf, hk, harg]
  have waits : q.entries.any (Entry.isEventOf kind arg) = true := List.any_eq_true.2 ⟨.event e, by simp [he], own⟩
  have merged : mergeEvent kind arg first last (.event e) = .event (e.merge first last) := if_pos ⟨hk, harg⟩
  rw [Rtq.raise, if_pos waits, he, List.map_append, List.map_cons, merged,
    map_of_kept (fun x h => mergeEvent_other (hb x h)), map_of_kept (fun x h => mergeEvent_other (ha x h))]

/-- Settles O54. -/
theorem entriesJoinQueue : Obligations.EntriesJoinQueue := by
  refine ⟨fun q ch r => ⟨fun h => Rtq.handOver_joins h r, fun before after old he hb ha => Rtq.handOver_replaces he hb ha⟩,
    fun q kind arg first last => ⟨fun before after e he hk harg hb ha => ?_, fun h room => ?_, fun h full => ?_⟩⟩
  · rw [Rtq.raise_merges he hk harg hb ha, EventEntry.merge, hk]
    rfl
  all_goals
    have none : ¬q.entries.any (Entry.isEventOf kind arg) = true := by
      rw [Bool.not_eq_true, List.any_eq_false]
      exact fun x hx => Bool.eq_false_iff.1 (h x hx)
    rw [Rtq.raise, if_neg none]
  · exact if_pos room
  · refine (if_neg (Nat.not_lt.2 full)).trans ?_
    rw [Rtq.drop, Rtq.eventInFlight]
    obtain _ | (_ | _) := q.inFlight <;> rfl

/-! ## Fills -/

/-- The fill bytes of a list of planes written at one address (R65). -/
theorem storeRead_fillPlanes (f : FillRecord) (planes : List (Fin 4)) {cells : Memory}
    (h : cells.wf storeDefault = true) (plane : Fin 4) (at' address : Half) :
    storeRead (planes.foldl (fun m k => storeWrite m k at' (f.byteOf k)) cells) plane address =
      if plane ∈ planes ∧ address = at' then f.byteOf plane else storeRead cells plane address := by
  induction planes generalizing cells with
  | nil => rw [if_neg (fun h => List.not_mem_nil h.1), List.foldl_nil]
  | cons k rest ih =>
    rw [List.foldl_cons, ih (storeWrite_wf cells k at' _ h), storeRead_storeWrite cells k plane at' address _ h]
    by_cases here : address = at'
    · by_cases hk : plane = k
      · simp [here, hk]
      · simp [here, hk]
    · simp [here]

/-- The store after a fill step (R64, R65). -/
theorem storeRead_fillWrite {f : FillRecord} {cells : Memory} (h : cells.wf storeDefault = true)
    (hs : f.start + f.progress < 65536) (plane : Fin 4) (address : Half) :
    storeRead (f.write cells) plane address =
      if f.planes.getLsbD plane.val = true ∧ address.toNat = f.start + f.progress then
        (if f.colour.getLsbD plane.val then 0xFF else 0x00)
      else storeRead cells plane address := by
  have place : address = BitVec.ofNat 16 (f.start + f.progress) ↔ address.toNat = f.start + f.progress := by
    rw [← BitVec.toNat_inj, BitVec.toNat_ofNat, Nat.mod_eq_of_lt hs]
  rw [FillRecord.write, storeRead_fillPlanes f _ h]
  simp only [mem_selectedPlanes, place]
  rfl

/-- Settles O51. -/
theorem fillStepsAndCompletes : Obligations.FillStepsAndCompletes := by
  refine ⟨fun s f hs hf hlt => ⟨f.write s.store.cells, ?_, fun h hspan plane address => storeRead_fillWrite h hspan plane address⟩,
    fun s f hs hf hdone => ?_⟩
  · have step : s.stepFill = s.fillOnce f := by simp only [State.stepFill, hf, if_pos hlt]
    rw [exec_of_effectOf (c := .fillStep) rfl, State.operate_of_kept hs _ (by simp) (by rw [step]; rfl), step]
    rfl
  · have complete : s.endFill = s.completeFill f := by simp only [State.endFill, hf, if_pos hdone]
    rw [exec_of_effectOf (c := .fillCompletion) rfl, State.operate_of_kept hs _ (by simp) (by simp), complete,
      State.completeFill, State.raise_eq]
    rfl

/-! ## Checks -/

/-- The FAULT pin follows the statuses (R164), and nothing else changes but its log. -/
theorem Checker.followPin_at (c : Checker) :
    c.followPin.records = c.records ∧ c.followPin.plans = c.plans ∧ c.followPin.pin = anyFailing c.records := by
  unfold Checker.followPin
  dsimp only
  split_ifs with same
  · exact ⟨rfl, rfl, same.symm⟩
  · exact ⟨rfl, rfl, rfl⟩

/-- FAULT is asserted exactly while a check is FAILING (R164). -/
theorem anyFailing_iff (records : Vector CheckRecord 8) :
    anyFailing records = true ↔ ∃ j : Fin 8, records[j].status = .failing := by
  simp only [anyFailing, List.any_eq_true, CheckRecord.failing, beq_iff_eq]
  constructor
  · rintro ⟨r, hr, failing⟩
    obtain ⟨j, hj, rfl⟩ := Vector.mem_iff_getElem.1 (Vector.mem_toList_iff.1 hr)
    exact ⟨⟨j, hj⟩, failing⟩
  · rintro ⟨j, failing⟩
    exact ⟨records[j], Vector.mem_toList_iff.2 (Vector.getElem_mem j.isLt), failing⟩

/-- The event of an evaluation (R163): CHECK_PASS when the check leaves FAILING, CHECK_FAIL with the observed value when it
enters it. -/
def State.checkEvent (s : State) (k : Fin 8) (old new : CheckRecord) (observed : Word) : Rtq :=
  if old.status = .failing ∧ new.status ≠ .failing then s.reported s.rtq .checkPass (BitVec.ofNat 8 k.val)
  else if old.status ≠ .failing ∧ new.status = .failing ∧ s.params.eventMask.getLsbD EventKind.checkFail.bit = true then
    s.rtq.raise .checkFail (BitVec.ofNat 8 k.val) (observed.extractLsb' 0 16) (observed.extractLsb' 16 16)
  else s.rtq

/-- A planned check is evaluated (R160 to R164): its record and the pin, then its event. -/
theorem State.evaluateCheck_eq {s : State} {k : Fin 8} {p : CheckPlan} (hp : s.checker.plans[k] = some p) :
    s.evaluateCheck k =
      (s.setChecker (s.checker.setRecord k
        (s.checker.records[k].evaluate (checkConfig s.bank.active k.val) p.selection (~~~p.crc)))).setRtq
        (s.checkEvent k s.checker.records[k]
          (s.checker.records[k].evaluate (checkConfig s.bank.active k.val) p.selection (~~~p.crc)) (~~~p.crc)) := by
  generalize hnew : s.checker.records[k].evaluate (checkConfig s.bank.active k.val) p.selection (~~~p.crc) = new
  generalize hold : s.checker.records[k] = old at hnew
  have evaluated : s.evaluateCheck k =
      if old.failing && !new.failing then
        (s.setChecker (s.checker.setRecord k new)).raise .checkPass (BitVec.ofNat 8 k.val)
      else if !old.failing && new.failing then
        (s.setChecker (s.checker.setRecord k new)).raiseWith .checkFail (BitVec.ofNat 8 k.val)
          ((~~~p.crc).extractLsb' 0 16) ((~~~p.crc).extractLsb' 16 16)
      else s.setChecker (s.checker.setRecord k new) := by
    simp only [State.evaluateCheck, hp, hold, crc32Final, hnew]
  have left : (old.failing && !new.failing) = true ↔ old.status = .failing ∧ new.status ≠ .failing := by
    simp [CheckRecord.failing]
  have entered : (!old.failing && new.failing) = true ↔ old.status ≠ .failing ∧ new.status = .failing := by
    simp [CheckRecord.failing]
  rw [evaluated, State.checkEvent, State.raise_eq, State.raiseWith]
  by_cases pass : old.status = .failing ∧ new.status ≠ .failing
  · rw [if_pos (left.2 pass), if_pos pass]
    rfl
  rw [if_neg (mt left.1 pass), if_neg pass]
  by_cases fail : old.status ≠ .failing ∧ new.status = .failing
  · rw [if_pos (entered.2 fail)]
    by_cases enabled : s.params.eventMask.getLsbD EventKind.checkFail.bit = true
    · refine (if_pos enabled).trans ?_
      rw [if_pos ⟨fail.1, fail.2, enabled⟩]
      rfl
    · refine (if_neg enabled).trans ?_
      rw [if_neg (fun h => enabled h.2.2)]
      rfl
  · rw [if_neg (mt entered.1 fail), if_neg (fun h => fail ⟨h.1, h.2.1⟩)]
    rfl

/-- The value an evaluation compares with (R160). -/
theorem expectedValue_eq (cfg : CheckConfig) (r : CheckRecord) (sel : Selection) :
    expectedValue cfg r sel =
      match sel with
      | .a => cfg.expectedA.or (if r.learnedAFlag then some r.learnedA else none)
      | .b => cfg.expectedB.or (if r.learnedBFlag then some r.learnedB else none) := by
  cases sel with
  | a => simp only [expectedValue]; cases cfg.expectedA <;> rfl
  | b => simp only [expectedValue]; cases cfg.expectedB <;> rfl

/-- An evaluation with no expected value learns the observed one (R160). -/
theorem CheckRecord.evaluate_learns {cfg : CheckConfig} {r : CheckRecord} {sel : Selection} (observed : Word)
    (h : expectedValue cfg r sel = none) :
    r.evaluate cfg sel observed = { r with observed := observed }.learn sel observed := by
  simp only [CheckRecord.evaluate, checkOutcome, h]

/-- An evaluation that finds the expected value (R161). -/
theorem CheckRecord.evaluate_matches {cfg : CheckConfig} {r : CheckRecord} {sel : Selection} {observed : Word}
    (h : expectedValue cfg r sel = some observed) :
    r.evaluate cfg sel observed = { r with observed := observed, mismatches := 0, status := .passing } := by
  simp only [CheckRecord.evaluate, checkOutcome, h, if_true]
  rfl

/-- An evaluation that finds another value than the expected one (R162). -/
theorem CheckRecord.evaluate_mismatches {cfg : CheckConfig} {r : CheckRecord} {sel : Selection} {observed v : Word}
    (h : expectedValue cfg r sel = some v) (hv : v ≠ observed) :
    r.evaluate cfg sel observed = { r with observed := observed }.mismatch cfg.threshold := by
  simp only [CheckRecord.evaluate, checkOutcome, h, if_neg hv.symm]

/-- Every evaluation writes the observed value (R160). -/
theorem CheckRecord.evaluate_observed (r : CheckRecord) (cfg : CheckConfig) (sel : Selection) (observed : Word) :
    (r.evaluate cfg sel observed).observed = observed := by
  cases h : expectedValue cfg r sel with
  | none =>
    rw [CheckRecord.evaluate_learns observed h]
    cases sel <;> rfl
  | some v =>
    by_cases hv : v = observed
    · rw [CheckRecord.evaluate_matches (h.trans (congrArg some hv))]
    · rw [CheckRecord.evaluate_mismatches h hv]
      rfl

/-- Settles O52. -/
theorem checkEvaluated : Obligations.CheckEvaluated := by
  refine ⟨fun s k p hp => ?_, fun r cfg sel observed => ?_⟩
  · intro observed old new t
    obtain ⟨records, -, pin⟩ := Checker.followPin_at { s.checker with records := s.checker.records.set k new }
    have evaluated : t = (s.setChecker (s.checker.setRecord k new)).setRtq (s.checkEvent k old new observed) :=
      State.evaluateCheck_eq hp
    have written : t.checker.records = s.checker.records.set k new := by
      rw [evaluated]
      exact records
    refine ⟨written, ?_, ?_⟩
    · rw [written, ← anyFailing_iff, ← pin, evaluated]
      rfl
    · rw [evaluated]
      rfl
  · intro inRecord learned expected t
    have compared : expectedValue cfg r sel = expected := by
      rw [expectedValue_eq]
      cases sel <;> rfl
    refine ⟨CheckRecord.evaluate_observed r cfg sel observed, fun none => ?_, fun found => ?_, fun v other hv => ?_⟩
    · have evaluated : t = { r with observed := observed }.learn sel observed :=
        CheckRecord.evaluate_learns observed (compared.trans none)
      rw [evaluated]
      cases sel with
      | a => exact ⟨rfl, rfl, fun _ => ⟨rfl, rfl, rfl, rfl⟩, nofun⟩
      | b => exact ⟨rfl, rfl, nofun, fun _ => ⟨rfl, rfl, rfl, rfl⟩⟩
    · exact CheckRecord.evaluate_matches (compared.trans found)
    · exact CheckRecord.evaluate_mismatches (compared.trans other) hv

end Sys2Proof.Machine
end

section
/-! SUPPORT. Channel timeouts (R95, R96), and the emission of lines and of frame ends (R139, R144, R159, R160). -/

namespace Sys2Proof.Machine

/-! ## Channel timeouts -/

/-- A channel the command names takes the start before the tracker (R190). -/
theorem mem_startOrder {first mid : List Channel} {ch : Channel} :
    ch ∈ startFirst first ∨ ch ∈ startMid first mid ↔ ch ∈ first ∨ ch ∈ mid := by
  simp only [startFirst, startMid, List.mem_eraseDups, List.mem_filter, Bool.not_eq_true', List.contains_eq_mem,
    decide_eq_false_iff_not]
  tauto

/-- When a channel times out at a start (R96). -/
theorem State.timesOut_iff {s : State} {ch : Channel} : s.timesOut ch = true ↔
    s.channels[ch].state = .opened ∧ s.params.channelTimeout ≤ s.channels[ch].idleFrames + 1 := by
  simp only [State.timesOut, Bool.and_eq_true, beq_iff_eq, decide_eq_true_eq]

/-- A table a channel holds is LOADING, so that no armed commit names it (R29, R34). -/
theorem State.unnamed_of_held {s : State} {ch : Channel} {t : TableId} {c : Commit} (ho : s.ownership)
    (hr : s.bank.record = some c) (h : Target.tableOf s.channels[ch].target = some t) : c.mask.getLsbD t.val = false := by
  rw [← Bool.not_eq_true]
  exact fun named => (State.unheld_of_named ho hr named).2 ch h

/-- A channel in OPEN that times out: its load ended incomplete, the event raised (R96). -/
theorem State.timeOut_eq {s : State} {ch : Channel} (h : s.channels[ch].state = .opened) :
    s.timeOut ch =
      ((s.loadDropped ch).setChannels
        (s.channels.set ch { s.channels[ch] with target := none, idleFrames := 0, state := .idle })).setRtq
        (s.reported s.rtq .channelTimeout (BitVec.ofNat 8 ch.val)) := by
  have notFilling : s.stopFillOf ch = s := by
    rw [State.stopFillOf, h]
    rfl
  have ended := State.dropLoad_eq s ch .idle
  rw [notFilling] at ended
  rw [State.timeOut, ended, State.raise_eq]
  rfl

/-- Settles O50. -/
theorem channelTimesOut : Obligations.ChannelTimesOut := by
  refine ⟨fun s cause first mid hp ht he hn ho => ?_, fun s ch => State.timesOut_iff, fun s ch hp hch ho => ?_⟩
  · obtain ⟨u, g, hstart, -, -, -, -, -, -, -, -, -, taken, due, -, -, -, -, unnamed⟩ := s.takeStart_eq cause first mid
    obtain ⟨bank, channels, -, params, timeouts, -⟩ := s.numbered_kept cause
    have out := State.timesOut_congr channels params
    generalize (s.switchBefore cause).setNumbers cause = v at *
    rw [channels, out] at taken unnamed
    rw [bank] at unnamed
    rw [out, timeouts, ht, List.nil_append] at due
    have named (ch : Channel) :
        (s.timesOut ch && ((startFirst first).contains ch || (startMid first mid).contains ch)) = true ↔
          s.timesOut ch = true ∧ (ch ∈ first ∨ ch ∈ mid) := by
      rw [Bool.and_eq_true, Bool.or_eq_true, List.contains_iff_mem, List.contains_iff_mem, mem_startOrder]
    obtain ⟨-, -, -, -, keptChannels, keptTimeouts, keptBank, -⟩ := u.beginFrame_kept (startType cause g) g
    refine ⟨(s.takeStart cause first mid).arbitrate, exec_outputFrameStart first mid hp ht he hn, ?_⟩
    rw [hstart]
    generalize u.beginFrame (startType cause g) g = w at *
    refine ⟨fun ch => ?_, fun ch t times hch holds => ?_, ?_⟩
    · have same : w.arbitrate.channels = u.channels := keptChannels
      rw [same, taken ch]
      simp only [named]
    · have same : w.arbitrate.bank = u.bank := keptBank
      rw [same, unnamed t (fun c hr => State.unnamed_of_held ho hr holds), if_pos]
      exact ⟨ch, (named ch).2 ⟨times, hch⟩, holds⟩
    · refine Eq.trans (b := w.timeoutsDue) rfl (keptTimeouts.trans (due.trans ?_))
      rw [startRest, List.filter_filter]
      refine List.filter_congr fun ch _ => ?_
      have order : (!(startFirst first).contains ch && !(startMid first mid).contains ch) = !(first ++ mid).contains ch := by
        rw [← Bool.not_or, Bool.eq_iff_iff, Bool.not_eq_true', Bool.not_eq_true', ← Bool.not_eq_true, ← Bool.not_eq_true,
          Bool.or_eq_true, List.contains_iff_mem, List.contains_iff_mem, List.contains_iff_mem, mem_startOrder,
          List.mem_append]
      rw [order]
  · have command : exec (.channelTimeout ch) s = .next (s.takeTimeout ch) := by
      simp only [exec, execChannelTimeout, hp]
    have due : s.timeoutsDue.contains ch = true := List.contains_iff_mem.2 hch
    have opened : (s.setTimeoutsDue (s.timeoutsDue.erase ch)).channels[ch].state = .opened := ho
    rw [command, State.takeTimeout, if_pos due, State.timeOut_eq opened]
    rfl

end Sys2Proof.Machine
end

section
/-! SUPPORT. The emission of a line, and the frame end it may bring (R10, R139, R144, R159, R160). -/

namespace Sys2Proof.Machine

/-! ## The evaluation at a frame end -/

/-- An evaluation looks at neither the framer nor the free values, N aside. -/
theorem State.evaluateCheck_apart {s : State} {o : Framer} (h : o.n = s.framer.n) (free : Nat) (k : Fin 8) :
    ((s.setFramer o).setFree free).evaluateCheck k = ((s.evaluateCheck k).setFramer o).setFree free := by
  have event (old new : CheckRecord) (observed : Word) :
      ((s.setFramer o).setFree free).checkEvent k old new observed = s.checkEvent k old new observed := by
    have report (kind : EventKind) (arg : Byte) (q : Rtq) :
        ((s.setFramer o).setFree free).reported q kind arg = s.reported q kind arg :=
      State.reported_congr (s := s) (t := (s.setFramer o).setFree free) rfl h q kind arg
    simp only [State.checkEvent, report]
    rfl
  cases hp : s.checker.plans[k] with
  | none =>
    have same : s.evaluateCheck k = s := by simp only [State.evaluateCheck, hp]
    have same' : ((s.setFramer o).setFree free).evaluateCheck k = (s.setFramer o).setFree free := by
      simp only [State.evaluateCheck, State.setFree_checker, State.setFramer_checker, hp]
    rw [same, same']
  | some p =>
    have planned : ((s.setFramer o).setFree free).checker.plans[k] = some p := hp
    rw [State.evaluateCheck_eq hp, State.evaluateCheck_eq planned, event]
    rfl

/-- So does a run of evaluations. -/
theorem evaluateCheck_fold_apart (l : List (Fin 8)) {s : State} {o : Framer} (h : o.n = s.framer.n) (free : Nat) :
    l.foldl State.evaluateCheck ((s.setFramer o).setFree free) =
      ((l.foldl State.evaluateCheck s).setFramer o).setFree free := by
  induction l generalizing s with
  | nil => rfl
  | cons k rest ih =>
    have kept : o.n = (s.evaluateCheck k).framer.n := by simpa using h
    rw [List.foldl_cons, List.foldl_cons, State.evaluateCheck_apart h, ih kept]

/-- So does the evaluation at a frame end. -/
theorem State.evaluateChecks_apart {s : State} {o : Framer} (h : o.n = s.framer.n) (free : Nat) :
    ((s.setFramer o).setFree free).evaluateChecks = (s.evaluateChecks.setFramer o).setFree free :=
  evaluateCheck_fold_apart _ h free

/-- The record of a check after the evaluation at a frame end (R160). -/
def CheckRecord.evaluated (r : CheckRecord) (cfg : CheckConfig) (plan : Option CheckPlan) : CheckRecord :=
  match plan with
  | none => r
  | some p => r.evaluate cfg p.selection (~~~p.crc)

/-- One check evaluated: its own record, the other records and the plans kept (R160). -/
theorem State.evaluateCheck_at (s : State) (k : Fin 8) :
    (s.evaluateCheck k).checker.plans = s.checker.plans ∧
    ∀ j : Fin 8, (s.evaluateCheck k).checker.records[j] =
      if j = k then s.checker.records[j].evaluated (checkConfig s.bank.active j.val) s.checker.plans[j]
      else s.checker.records[j] := by
  cases hp : s.checker.plans[k] with
  | none =>
    have same : s.evaluateCheck k = s := by simp only [State.evaluateCheck, hp]
    rw [same]
    refine ⟨rfl, fun j => ?_⟩
    split_ifs with hj
    · rw [hj, hp]
      rfl
    · rfl
  | some p =>
    rw [State.evaluateCheck_eq hp]
    generalize hnew : s.checker.records[k].evaluate (checkConfig s.bank.active k.val) p.selection (~~~p.crc) = new
    obtain ⟨records, plans, -⟩ := Checker.followPin_at { s.checker with records := s.checker.records.set k new }
    refine ⟨plans, fun j => ?_⟩
    refine (congrArg (fun all : Vector CheckRecord 8 => all[j]) records).trans ?_
    refine (getElem_set_table s.checker.records k j new).trans ?_
    split_ifs with hj
    · rw [hj, hp, CheckRecord.evaluated, hnew]
    · rfl

/-- Checks evaluated one after another, each once (R160). -/
theorem evaluateCheck_fold_at (l : List (Fin 8)) (hl : l.Nodup) (s : State) :
    (l.foldl State.evaluateCheck s).checker.plans = s.checker.plans ∧
    ∀ j : Fin 8, (l.foldl State.evaluateCheck s).checker.records[j] =
      if j ∈ l then s.checker.records[j].evaluated (checkConfig s.bank.active j.val) s.checker.plans[j]
      else s.checker.records[j] := by
  induction l generalizing s with
  | nil => exact ⟨rfl, fun j => (if_neg List.not_mem_nil).symm⟩
  | cons k rest ih =>
    obtain ⟨apart, nodup⟩ := List.nodup_cons.1 hl
    obtain ⟨plans, records⟩ := s.evaluateCheck_at k
    obtain ⟨restPlans, restRecords⟩ := ih nodup (s.evaluateCheck k)
    rw [List.foldl_cons]
    refine ⟨restPlans.trans plans, fun j => ?_⟩
    rw [restRecords j, records j, plans, (s.evaluateCheck_kept k).2.2.2.2.2.2.1]
    by_cases hj : j = k
    · subst hj
      rw [if_neg apart, if_pos rfl, if_pos List.mem_cons_self]
    · rw [if_neg hj]
      simp only [List.mem_cons, hj, false_or]

/-- The evaluation at a frame end takes the checks in ascending index (R160). -/
theorem State.evaluateChecks_eq (s : State) :
    s.evaluateChecks = ([0, 1, 2, 3, 4, 5, 6, 7] : List (Fin 8)).foldl State.evaluateCheck s := by
  rw [State.evaluateChecks]

/-- The checks after the evaluation at a frame end, each with its own plan (R160). -/
theorem State.evaluateChecks_at (s : State) :
    s.evaluateChecks.checker.plans = s.checker.plans ∧
    ∀ k : Fin 8, s.evaluateChecks.checker.records[k] =
      s.checker.records[k].evaluated (checkConfig s.bank.active k.val) s.checker.plans[k] := by
  have every : ∀ k : Fin 8, k ∈ ([0, 1, 2, 3, 4, 5, 6, 7] : List (Fin 8)) := by decide
  have all := evaluateCheck_fold_at [0, 1, 2, 3, 4, 5, 6, 7] (by decide) s
  rw [← State.evaluateChecks_eq] at all
  generalize s.evaluateChecks = done at *
  exact ⟨all.1, fun k => (all.2 k).trans (if_pos (every k))⟩

/-! ## The line and the frame end -/

/-- A run of fallback frames waits for the end of the frame in progress (R147; assumption log 14). -/
@[reducible] def Framer.runWaits (o : Framer) : Prop := o.due = some .entry ∨ o.due = some .entryThenUpstream

/-- The framer after a line of the frame in progress has left on link-out (R139). -/
def State.framerEmitted (s : State) (f : OutputFrame) (number : Nat) (out : List Pixel) (rest : List HandedLine) : Framer :=
  { s.framer with
    handed := rest, building := [s.store.cells], frame := some { f with lines := f.lines + 1 }
    linkOut := s.framer.linkOut ++ [.line number out] }

/-- A line before the last of its frame leaves (R139, R159). -/
theorem State.emitComposed_inside {s : State} {f : OutputFrame} (rest : List HandedLine) (free : Nat) (number : Nat)
    (out : List Pixel) (h : f.lines + 1 < f.height) :
    ((s.setFree free).setFramer { s.framer with handed := rest }).emitComposed f number out =
      ((s.setFramer (s.framerEmitted f number out rest)).setChecker (s.checker.takeLine number out)).setFree free :=
  if_neg (Nat.not_le.2 h)

/-- The framer after the FRAME_END of the frame in progress (R144). -/
def State.framerEnded (s : State) (f : OutputFrame) (number : Nat) (out : List Pixel) (rest : List HandedLine) : Framer :=
  { s.framerEmitted f number out rest with
    frame := none, linkOut := s.framer.linkOut ++ [.line number out] ++ [.frameEnd f.n f.height false] }

/-- The frame end, by what the evaluation of the checks leaves (R144, R147, R160). -/
theorem State.endFrame_of_evaluated {w done : State} {f : OutputFrame} {o : Framer} {free : Nat}
    (h : (w.setFramer { w.framer.emit (.frameEnd f.n f.height false) with frame := none }).evaluateChecks =
      (done.setFramer o).setFree free) :
    w.endFrame f =
      if o.runWaits ∧ o.mode = .pass then
        (done.setFramer { o with mode := .fallback, switchBack := done.tracker.state == .locked }).setFree free
      else (done.setFramer o).setFree free := by
  rw [State.endFrame, h]
  rfl

/-- The last line of its frame leaves, with the frame end and the evaluation of the checks behind it (R139, R144, R159,
R160); a run of fallback frames that waited for this end begins (R147; assumption log 14). -/
theorem State.emitComposed_last {s : State} {f : OutputFrame} (rest : List HandedLine) (free : Nat) (number : Nat)
    (out : List Pixel) (h : f.height ≤ f.lines + 1) :
    ∃ o : Framer,
      ((s.setFree free).setFramer { s.framer with handed := rest }).emitComposed f number out =
        ((s.setChecker (s.checker.takeLine number out)).evaluateChecks.setFramer o).setFree free ∧
      (s.framer.runWaits ∧ s.framer.mode = .pass →
        o = { s.framerEnded f number out rest with mode := .fallback, switchBack := s.tracker.state == .locked }) ∧
      (¬(s.framer.runWaits ∧ s.framer.mode = .pass) → o = s.framerEnded f number out rest) := by
  have evaluated :
      (((s.setChecker (s.checker.takeLine number out)).setFramer (s.framerEnded f number out rest)).setFree
        free).evaluateChecks =
      ((s.setChecker (s.checker.takeLine number out)).evaluateChecks.setFramer
        (s.framerEnded f number out rest)).setFree free :=
    State.evaluateChecks_apart (s := s.setChecker (s.checker.takeLine number out)) (o := s.framerEnded f number out rest)
      rfl free
  have tracker : (s.setChecker (s.checker.takeLine number out)).evaluateChecks.tracker = s.tracker := by simp
  generalize (s.setChecker (s.checker.takeLine number out)).evaluateChecks = done at *
  have ended : ((s.setFree free).setFramer { s.framer with handed := rest }).emitComposed f number out =
      if s.framer.runWaits ∧ s.framer.mode = .pass then
        (done.setFramer
          { s.framerEnded f number out rest with mode := .fallback, switchBack := done.tracker.state == .locked }).setFree free
      else (done.setFramer (s.framerEnded f number out rest)).setFree free := by
    have composed : ((s.setFree free).setFramer { s.framer with handed := rest }).emitComposed f number out =
        (((s.setChecker (s.checker.takeLine number out)).setFramer (s.framerEmitted f number out rest)).setFree
          free).endFrame { f with lines := f.lines + 1 } := if_pos h
    rw [composed, State.endFrame_of_evaluated (done := done) (o := s.framerEnded f number out rest) (free := free) ?_]
    · rfl
    · refine (congrArg State.evaluateChecks ?_).trans evaluated
      rfl
  by_cases run : s.framer.runWaits ∧ s.framer.mode = .pass
  · rw [if_pos run, tracker] at ended
    exact ⟨_, ended, fun _ => rfl, fun h => absurd run h⟩
  · rw [if_neg run] at ended
    exact ⟨_, ended, fun h => absurd h run, fun _ => rfl⟩

/-- The framer behind the frame end, field by field: a run of fallback frames that waited turns the mode, with the switch back
pending under a new lock, and changes nothing else (R144, R147, R149; assumption log 14). -/
theorem State.framerEnded_fields {s : State} {f : OutputFrame} {number : Nat} {out : List Pixel} {rest : List HandedLine}
    {o : Framer}
    (hrun : s.framer.runWaits ∧ s.framer.mode = .pass →
      o = { s.framerEnded f number out rest with mode := .fallback, switchBack := s.tracker.state == .locked })
    (hcalm : ¬(s.framer.runWaits ∧ s.framer.mode = .pass) → o = s.framerEnded f number out rest) :
    o.linkOut = s.framer.linkOut ++ [.line number out, .frameEnd f.n f.height false] ∧
    o.frame = none ∧ o.handed = rest ∧ o.f = s.framer.f ∧ o.n = s.framer.n ∧
    o.due = s.framer.due ∧ o.timer = s.framer.timer ∧
    (s.framer.runWaits → o.mode = .fallback) ∧ (¬s.framer.runWaits → o.mode = s.framer.mode) ∧
    (s.framer.runWaits → s.framer.mode = .pass → o.switchBack = (s.tracker.state == .locked)) ∧
    (¬s.framer.runWaits ∨ s.framer.mode = .fallback → o.switchBack = s.framer.switchBack) := by
  have behind : s.framer.linkOut ++ [.line number out] ++ [.frameEnd f.n f.height false] =
      s.framer.linkOut ++ [.line number out, .frameEnd f.n f.height false] := List.append_assoc ..
  by_cases run : s.framer.runWaits ∧ s.framer.mode = .pass
  · rw [hrun run]
    refine ⟨behind, rfl, rfl, rfl, rfl, rfl, rfl, fun _ => rfl, fun h => absurd run.1 h, fun _ _ => rfl, fun h => ?_⟩
    obtain h | h := h
    · exact absurd run.1 h
    · rw [run.2] at h
      cases h
  · rw [hcalm run]
    refine ⟨behind, rfl, rfl, rfl, rfl, rfl, rfl, fun h => ?_, fun _ => rfl, fun h1 h2 => absurd ⟨h1, h2⟩ run, fun _ => rfl⟩
    cases hm : s.framer.mode with
    | pass => exact absurd ⟨h, hm⟩ run
    | fallback => exact hm

/-- The framer's next line (R10, R139): in a PASS frame the oldest line in hand, fetched up to some moment, the lines behind it
from that moment on; in a FALLBACK frame the next background line. -/
theorem State.emitNext_line {s : State} {f : OutputFrame} {plan : FramePlan} {number : Nat} {pixels : List Pixel}
    {seen : List Memory} {later : List HandedLine} (hf : s.framer.frame = some f) (hp : s.plan = some plan)
    (h : (f.type = .pass ∧ ∃ kind, s.framer.handed = ⟨number, kind, pixels, seen⟩ :: later) ∨
      (f.type = .fallback ∧ number = f.lines ∧ pixels = List.replicate plan.width plan.background ∧
        seen = s.framer.building ∧ later = s.framer.handed)) :
    ∃ (moments : List Memory) (rest : List HandedLine),
      ((f.type = .pass ∧ ∃ e : Nat, (seen ≠ [] → e < seen.length) ∧ moments = seen.take (e + 1) ∧
          rest = later.map (fun l => { l with moments := l.moments.drop (l.moments.length - (seen.length - e)) })) ∨
       (f.type = .fallback ∧ moments = seen ∧ rest = later)) ∧
      s.emitNext = ((s.setFree (s.free + 1)).setFramer { s.framer with handed := rest }).emitComposed f number
        (composeLine s.bank.active plan moments s.free number pixels) := by
  obtain ⟨pass, kind, handed⟩ | ⟨fallback, rfl, rfl, rfl, rfl⟩ := h
  · generalize hl : (⟨number, kind, pixels, seen⟩ : HandedLine) = l at handed
    have some_moment : seen ≠ [] → l.lastMoment s.free < seen.length := by
      intro some
      rw [← hl]
      exact Nat.mod_lt _ (List.length_pos_iff.2 some)
    refine ⟨_, _, .inl ⟨pass, l.lastMoment s.free, some_moment, rfl, rfl⟩, ?_⟩
    simp only [State.emitNext, hf, hp, pass, handed, ← hl]
    rfl
  · refine ⟨_, _, .inr ⟨fallback, rfl, rfl⟩, ?_⟩
    simp only [State.emitNext, hf, hp, fallback]
    rfl

/-- With no line to emit, link-out carries an IDLE packet (R139). -/
theorem State.emitNext_idle {s : State}
    (h : s.framer.frame = none ∨ ∃ f, s.framer.frame = some f ∧ f.type = .pass ∧ s.framer.handed = []) :
    s.emitNext = s.setFramer { s.framer with linkOut := s.framer.linkOut ++ [.idle] } := by
  have idle : s.emitNext = s.emitIdle := by
    obtain none | ⟨f, hf, pass, handed⟩ := h
    · simp only [State.emitNext, none]
    · cases hp : s.plan <;> simp only [State.emitNext, hf, hp, pass, handed]
  exact idle

/-- Settles O49. -/
theorem lineEmitted : Obligations.LineEmitted := by
  refine ⟨fun s f plan number pixels seen later hs hf hp h => ?_, fun s hs h => ?_⟩
  · obtain ⟨moments, rest, choice, next⟩ := State.emitNext_line hf hp h
    refine ⟨moments, rest, choice, ?_⟩
    intro out framer' checker' run
    refine ⟨fun inside => ?_, fun last => ?_⟩
    · have emitted := next.trans (State.emitComposed_inside rest (s.free + 1) number out inside)
      rw [exec_of_effectOf (c := .emitLine) rfl,
        State.operate_of_kept hs _ (by rw [emitted]; rfl) (by rw [emitted]; rfl), emitted]
      rfl
    · obtain ⟨o, emitted, running, calm⟩ := State.emitComposed_last rest (s.free + 1) number out last
      replace emitted := next.trans emitted
      have done := (s.setChecker checker').evaluateChecks_kept
      obtain ⟨plans, records⟩ := (s.setChecker checker').evaluateChecks_at
      rw [State.setChecker_checker] at plans records
      refine ⟨s.emitNext.arbitrate, ?_, ?_⟩
      · rw [exec_of_effectOf (c := .emitLine) rfl, State.operate_of_steady hs]
        rfl
      rw [emitted]
      generalize hd : (s.setChecker checker').evaluateChecks = d at *
      obtain ⟨-, -, tracker, params, channels, -, bank, store, -, plan, -⟩ := done
      obtain ⟨linkOut, frame, handed, number_f, number_n, due, timer, runMode, calmMode, runSwitch, calmSwitch⟩ :=
        State.framerEnded_fields running calm
      refine ⟨linkOut, frame, handed, number_f, number_n, due, timer, runMode, calmMode, runSwitch, calmSwitch, plans,
        fun k => ?_, ?_, tracker, params, channels, bank, store, plan, rfl⟩
      · exact records k
      · rw [← State.evaluateChecks_eq, hd]
        exact ⟨rfl, rfl⟩
  · have idle := State.emitNext_idle h
    rw [exec_of_effectOf (c := .emitLine) rfl, State.operate_of_kept hs _ (by rw [idle]; rfl) (by rw [idle]; rfl), idle]

end Sys2Proof.Machine
end

section
/-! SUPPORT. Link-in in bytes (R116, R184, R185): the command of a body, and the packets that are discarded. -/

namespace Sys2Proof.Machine

/-! ## The packet of a command -/

/-- A FILL block has the ten bytes of an OPEN parameter block. -/
theorem isFillBlock_length {payload : List Byte} (h : isFillBlock payload = true) : payload.length = 10 := by
  unfold isFillBlock at h
  split at h
  · rfl
  · cases h

/-- A CONTROL packet of none of the eleven kinds (R98). -/
theorem controlCommand_unknown {kind : Byte} (h : kindUnknown kind = true) (ch : Channel) (seq : Bool)
    (payload : List Byte) : controlCommand ch seq kind payload = .unknownRequest ch seq kind payload := by
  have none : kind ∉ [1#8, 2#8, 3#8, 4#8, 5#8, 6#8, 7#8, 8#8, 9#8, 10#8, 11#8] := by
    revert kind
    decide
  simp only [List.mem_cons, not_or] at none
  obtain ⟨k1, k2, k3, k4, k5, k6, k7, k8, k9, k10, k11, -⟩ := none
  rw [controlCommand, if_neg k1, if_neg k2, if_neg k3, if_neg k4, if_neg k5, if_neg k6, if_neg k7, if_neg k8, if_neg k9,
    if_neg k10, if_neg k11]

/-- A LINE by its fields. -/
theorem commandOfBody_line (l0 l1 p0 p1 : Byte) (rest : List Byte) :
    commandOfBody (2 :: l0 :: l1 :: p0 :: p1 :: rest) =
      (match pixelsOf rest with
       | some pixels => if pixels.length = (half p0 p1).toNat then some (.line (half l0 l1) pixels) else none
       | none => none) := rfl

/-- The body of a well-formed command is read back as that command (R184, R185). -/
theorem commandOfBody_bodyOf {c : Instr} {body : List Byte} (hw : c.wf = true) (hb : bodyOf c = some body) :
    commandOfBody body = some c := by
  cases c <;> cases hb
  case idle => rfl
  case frameStart n => exact congrArg (fun h => some (Instr.frameStart h)) (half_halfBytes n)
  case frameEnd n count flags =>
    exact congr (congrArg (fun h k => some (Instr.frameEnd h k flags)) (half_halfBytes n)) (half_halfBytes count)
  case line number pixels =>
    have fits : pixels.length < 65536 := by simpa [Instr.wf] using hw
    have count : (BitVec.ofNat 16 pixels.length).toNat = pixels.length := by
      rw [BitVec.toNat_ofNat, Nat.mod_eq_of_lt fits]
    refine (commandOfBody_line _ _ _ _ (pixelBytes pixels)).trans ?_
    rw [pixelsOf_pixelBytes, half_halfBytes, half_halfBytes]
    exact if_pos count.symm
  case openReq ch seq payload =>
    obtain ⟨fits, notFill⟩ : payload.length ≤ 256 ∧ ¬isFillBlock payload = true := by
      simpa [Instr.wf, payloadFits] using hw
    rw [commandOfBody_controlBody _ _ _ _ fits]
    exact congrArg some (if_neg notFill)
  case openFill ch seq payload =>
    rw [commandOfBody_controlBody _ _ _ _ (by rw [isFillBlock_length hw]; decide)]
    exact congrArg some (if_pos hw)
  case resetChannels ch seq payload =>
    obtain ⟨fits, notState⟩ : payload.length ≤ 256 ∧ ¬payload = [1] := by
      simpa [Instr.wf, payloadFits] using hw
    rw [commandOfBody_controlBody _ _ _ _ fits]
    exact congrArg some (if_neg notState)
  case resetState ch seq payload =>
    obtain rfl : payload = [1] := by simpa [Instr.wf] using hw
    rw [commandOfBody_controlBody _ _ _ _ (by decide)]
    rfl
  case unknownRequest ch seq kind payload =>
    obtain ⟨unknown, fits⟩ : kindUnknown kind = true ∧ payload.length ≤ 256 := by
      simpa [Instr.wf, payloadFits] using hw
    rw [commandOfBody_controlBody _ _ _ _ fits, controlCommand_unknown unknown]
  all_goals
    rw [commandOfBody_controlBody _ _ _ _ (by simpa [Instr.wf, payloadFits] using hw)]
    rfl

/-! ## The packets that are discarded -/

/-- The bytes of a 16-bit field made of two bytes. -/
theorem halfBytes_half (c0 c1 : Byte) : halfBytes (half c0 c1) = [c0, c1] := by
  have low : (half c0 c1).extractLsb' 0 8 = c0 := by
    apply BitVec.eq_of_getLsbD_eq
    intro i hi
    simp only [half, BitVec.getLsbD_extractLsb', BitVec.getLsbD_append]
    simp [hi]
  have high : (half c0 c1).extractLsb' 8 8 = c1 := by
    apply BitVec.eq_of_getLsbD_eq
    intro i hi
    simp only [half, BitVec.getLsbD_extractLsb', BitVec.getLsbD_append]
    simp [hi]
  rw [halfBytes, low, high]

/-- A packet long enough for a kind byte and a CRC-16 is the command of its body when its CRC-16 is right (R116). -/
theorem receive_packet (code : Byte) (fields : List Byte) (c0 c1 : Byte) :
    receive (code :: fields ++ [c0, c1]) =
      if half c0 c1 = crc16 (code :: fields) then (commandOfBody (code :: fields)).getD (.packetDiscard code)
      else .packetDiscard code := by
  have size : (code :: fields ++ [c0, c1]).length - 2 = (code :: fields).length := by simp
  have crc : [c0, c1] = halfBytes (crc16 (code :: fields)) ↔ half c0 c1 = crc16 (code :: fields) := by
    rw [← halfBytes_half]
    constructor
    · intro h
      have := congrArg (fun l => half (l.getD 0 0) (l.getD 1 0)) h
      simpa [halfBytes, half_halfBytes] using this
    · rintro h
      rw [h]
  rw [receive, size, List.take_left, List.drop_left]
  exact if_congr crc rfl rfl

/-- The pixels of a run of bytes: none when a pixel is cut, otherwise one for each three bytes. -/
theorem pixelsOf_length : ∀ l : List Byte,
    match pixelsOf l with
    | none => l.length % 3 ≠ 0
    | some pixels => l.length = 3 * pixels.length
  | [] => rfl
  | [_] => Nat.one_ne_zero
  | [_, _] => (nofun : (2 : Nat) ≠ 0)
  | r :: g :: b :: rest => by
    have shorter := pixelsOf_length rest
    rw [pixelsOf]
    cases hp : pixelsOf rest <;> simp only [hp, Option.map, List.length_cons] at shorter ⊢ <;> omega

/-- The length the kind and the fields give is not the length the fields have (R184). -/
def wrongLength (code : Byte) (fields : List Byte) : Prop :=
  (code = 0 ∧ fields.length ≠ 0) ∨ (code = 1 ∧ fields.length ≠ 2) ∨
  (code = 2 ∧ (fields.length < 4 ∨
    fields.length ≠ 4 + 3 * (half (fields.getD 2 0) (fields.getD 3 0)).toNat)) ∨
  (code = 3 ∧ fields.length ≠ 5) ∨
  (code = 4 ∧ (fields.length < 4 ∨ 256 < (half (fields.getD 2 0) (fields.getD 3 0)).toNat ∨
    fields.length ≠ 4 + (half (fields.getD 2 0) (fields.getD 3 0)).toNat))

/-- A choice between two values that are not the given one is not it either. -/
theorem ite_ne_of {α : Type} {p : Prop} [Decidable p] {a b c : α} (ha : a ≠ c) (hb : b ≠ c) :
    (if p then a else b) ≠ c := by
  split_ifs
  · exact ha
  · exact hb

/-- No good CONTROL packet is a discarded one. -/
theorem controlCommand_ne_discard (ch : Channel) (seq : Bool) (kind : Byte) (payload : List Byte) (k : Byte) :
    controlCommand ch seq kind payload ≠ .packetDiscard k := by
  unfold controlCommand
  repeat' apply ite_ne_of
  all_goals exact nofun

/-- No good packet is a discarded one. -/
theorem commandOfBody_ne_discard (body : List Byte) (k : Byte) : commandOfBody body ≠ some (.packetDiscard k) := by
  cases body with
  | nil => exact nofun
  | cons code fields =>
    unfold commandOfBody
    apply ite_ne_of
    · exact ite_ne_of nofun nofun
    apply ite_ne_of
    · split <;> exact nofun
    apply ite_ne_of
    · split
      · split
        · exact ite_ne_of nofun nofun
        · exact nofun
      · exact nofun
    apply ite_ne_of
    · split <;> exact nofun
    apply ite_ne_of
    · split
      · exact ite_ne_of (fun h => controlCommand_ne_discard _ _ _ _ k (Option.some.inj h)) nofun
      · exact nofun
    · exact nofun

/-- A FRAME_START has two bytes behind its kind. -/
theorem commandOfBody_frameStart_none : ∀ fields : List Byte,
    commandOfBody (1 :: fields) = none ↔ fields.length ≠ 2
  | [_, _] => iff_of_false nofun (fun h => h rfl)
  | [] => iff_of_true rfl nofun
  | [_] => iff_of_true rfl nofun
  | _ :: _ :: _ :: _ => iff_of_true rfl nofun

/-- A FRAME_END has five bytes behind its kind. -/
theorem commandOfBody_frameEnd_none : ∀ fields : List Byte,
    commandOfBody (3 :: fields) = none ↔ fields.length ≠ 5
  | [_, _, _, _, _] => iff_of_false nofun (fun h => h rfl)
  | [] => iff_of_true rfl nofun
  | [_] => iff_of_true rfl nofun
  | [_, _] => iff_of_true rfl nofun
  | [_, _, _] => iff_of_true rfl nofun
  | [_, _, _, _] => iff_of_true rfl nofun
  | _ :: _ :: _ :: _ :: _ :: _ :: _ => iff_of_true rfl nofun

/-- A LINE has three bytes for each of its pixels behind the four of its fields. -/
theorem commandOfBody_line_none : ∀ fields : List Byte,
    commandOfBody (2 :: fields) = none ↔
      fields.length < 4 ∨ fields.length ≠ 4 + 3 * (half (fields.getD 2 0) (fields.getD 3 0)).toNat
  | [] => iff_of_true rfl (.inl (by decide))
  | [_] => iff_of_true rfl (.inl (show 1 < 4 by decide))
  | [_, _] => iff_of_true rfl (.inl (show 2 < 4 by decide))
  | [_, _, _] => iff_of_true rfl (.inl (show 3 < 4 by decide))
  | l0 :: l1 :: p0 :: p1 :: rest => by
    have size := pixelsOf_length rest
    have count : half ((l0 :: l1 :: p0 :: p1 :: rest).getD 2 0) ((l0 :: l1 :: p0 :: p1 :: rest).getD 3 0) = half p0 p1 := rfl
    rw [commandOfBody_line, count]
    simp only [List.length_cons]
    cases hp : pixelsOf rest with
    | none =>
      simp only [hp] at size
      exact iff_of_true rfl (.inr (by omega))
    | some pixels =>
      simp only [hp] at size
      by_cases own : pixels.length = (half p0 p1).toNat
      · exact iff_of_false (by simp only [if_pos own]; exact nofun) (by omega)
      · exact iff_of_true (by simp only [if_neg own]) (.inr (by omega))

/-- A CONTROL packet has at most 256 payload bytes, as many as its length says, behind the four of its fields. -/
theorem commandOfBody_control_none : ∀ fields : List Byte,
    commandOfBody (4 :: fields) = none ↔
      fields.length < 4 ∨ 256 < (half (fields.getD 2 0) (fields.getD 3 0)).toNat ∨
        fields.length ≠ 4 + (half (fields.getD 2 0) (fields.getD 3 0)).toNat
  | [] => iff_of_true rfl (.inl (by decide))
  | [_] => iff_of_true rfl (.inl (show 1 < 4 by decide))
  | [_, _] => iff_of_true rfl (.inl (show 2 < 4 by decide))
  | [_, _, _] => iff_of_true rfl (.inl (show 3 < 4 by decide))
  | cs :: kind :: p0 :: p1 :: payload => by
    have count : half ((cs :: kind :: p0 :: p1 :: payload).getD 2 0) ((cs :: kind :: p0 :: p1 :: payload).getD 3 0) =
        half p0 p1 := rfl
    have control : commandOfBody (4 :: cs :: kind :: p0 :: p1 :: payload) =
        if payload.length = (half p0 p1).toNat ∧ payload.length ≤ 256 then
          some (controlCommand (channelOf cs) (seqOf cs) kind payload)
        else none := rfl
    rw [control, count, List.length_cons, List.length_cons, List.length_cons, List.length_cons]
    by_cases own : payload.length = (half p0 p1).toNat ∧ payload.length ≤ 256
    · rw [if_pos own]
      exact iff_of_false nofun (by omega)
    · rw [if_neg own]
      exact iff_of_true rfl (by omega)

/-- The command of a body (R184, R185): none exactly for a kind that is none of the five and a length that is not its own. -/
theorem commandOfBody_none (code : Byte) (fields : List Byte) :
    commandOfBody (code :: fields) = none ↔ 5 ≤ code.toNat ∨ wrongLength code fields := by
  by_cases h0 : code = 0
  · subst h0
    cases fields with
    | nil => exact iff_of_false nofun (by simp [wrongLength])
    | cons b rest => exact iff_of_true rfl (by simp [wrongLength])
  by_cases h1 : code = 1
  · subst h1
    rw [commandOfBody_frameStart_none]
    simp [wrongLength]
  by_cases h2 : code = 2
  · subst h2
    rw [commandOfBody_line_none]
    simp [wrongLength]
  by_cases h3 : code = 3
  · subst h3
    rw [commandOfBody_frameEnd_none]
    simp [wrongLength]
  by_cases h4 : code = 4
  · subst h4
    rw [commandOfBody_control_none]
    simp [wrongLength]
  have unknown : commandOfBody (code :: fields) = none :=
    (if_neg h0).trans ((if_neg h1).trans ((if_neg h2).trans ((if_neg h3).trans (if_neg h4))))
  exact iff_of_true unknown (.inl (by bv_omega))

/-- Settles O60. -/
theorem receiveReadsPackets : Obligations.ReceiveReadsPackets := by
  refine ⟨fun c bytes hw hb => ?_, fun code fields c0 c1 => ?_, fun packet h => ?_⟩
  · obtain ⟨body, hbody, rfl⟩ := Option.map_eq_some_iff.1 hb
    exact receive_sealPacket body c (commandOfBody_bodyOf hw hbody)
  · intro wrong fails
    have split : fails ↔ half c0 c1 ≠ crc16 (code :: fields) ∨ commandOfBody (code :: fields) = none := by
      rw [commandOfBody_none]
      exact or_left_comm
    rw [split, receive_packet]
    refine ⟨fun h => ?_, fun h k => ?_⟩
    · obtain crc | none := h
      · exact if_neg crc
      · rw [none]
        exact ite_self _
    · obtain ⟨crc, good⟩ := not_or.1 h
      obtain ⟨c, hc⟩ := Option.ne_none_iff_exists'.1 good
      rw [if_pos (not_not.1 crc), hc]
      rintro rfl
      exact commandOfBody_ne_discard _ k hc
  · have short : packet.length - 2 = 0 := by omega
    rw [receive, short, List.take_zero]
    exact ite_self _

end Sys2Proof.Machine
end
